-- ==== Sys2Proof/Word.lean ====
section
/-! DEFINITION. The two word types of the core: the byte of a stream or memory and the 32-bit word
of the host registers and of the dictionary (00_scope.md R7, 10_state.md R22, 20_memory.md R63). -/

namespace Sys2Proof

/-- A byte: bit 0 is the least significant bit (R7). -/
abbrev Byte := BitVec 8

/-- A 32-bit word: a host register (R22), a word of the table memory HT (R63). -/
abbrev Word := BitVec 32

end Sys2Proof
end

