-- ==== Sys2Proof/Config.lean ====
section
/-! DEFINITION. What is fixed for the machine: the constants of format 2 (00_scope.md R5), the
parameters with the values this hardware takes (R6), and the free values, which no rule fixes. -/

namespace Sys2Proof.Config

/-! ### Constants of format 2 (R5) -/

/-- `WIN_LEN`: every emitted offset is below it. -/
@[simp] abbrev winLen : Nat := 8388608
/-- `REF_MIN`. -/
@[simp] abbrev refMin : Nat := 6
/-- `REF_LEN = REF_MIN + 15 + 255 + 254`. -/
@[simp] abbrev refLen : Nat := 530
/-- `LIT_FIN`. -/
@[simp] abbrev litFin : Nat := 6
/-- `FMT_CUR`: the format id of a stream's first byte. -/
@[simp] abbrev fmtCur : BitVec 4 := 2

/-! ### Parameters (R6) -/

/-- `LEN_MAX = 2^31 - 1`. -/
@[simp] abbrev lenMax : Nat := 2147483647
/-- `LIT_MAX = 16 + 2^28 - 1`. -/
@[simp] abbrev litMax : Nat := 268435471
/-- `HT_MIN` in bytes. -/
@[simp] abbrev htMin : Nat := 2048
/-- `HT_MAX_DEFAULT` in bytes. -/
@[simp] abbrev htMaxDefault : Nat := 1048576
/-- `HT_MAX_HI` in bytes. -/
@[simp] abbrev htMaxHi : Nat := 8388608
/-- `LEGACY_FMT1`: format 1 is not implemented (R4, decision D5). -/
@[simp] abbrev legacyFmt1 : Bool := false
/-- The first dither threshold, `200 * 2^14` (R6, R224). -/
@[simp] abbrev ditherHigh : Nat := 3276800
/-- The second dither threshold, `130 * 2^14`. -/
@[simp] abbrev ditherMid : Nat := 2129920
/-- The third dither threshold, `100 * 2^14`. -/
@[simp] abbrev ditherLow : Nat := 1638400
/-- The start value of `mavg`, `100 * 2^21` (R6, R30). -/
@[simp] abbrev mavgStart : Word := 209715200
/-- The promotion distance of the DEFAULT dictionary (R6, R187). -/
@[simp] abbrev promoteAbove : Nat := 273
/-- The offset above which the HI search asks for one byte more (R248, decision D37). -/
@[simp] abbrev farPenalty : Nat := 262144
/-- `mlen = REF_LEN - REF_MIN + mref` of mode HI (R241). -/
@[simp] abbrev mlenHi : Nat := 529

/-- Which format ids the prefix test accepts (R282): format 2, and format 1 exactly if
`LEGACY_FMT1` (R6). -/
def formatKnown (fmt : BitVec 4) : Bool := fmt == fmtCur || (legacyFmt1 && fmt == 1)

/-! ### Free values

Constants without a body: nothing can be proved of them but that they are what they are. The first
argument numbers the draw, so that values drawn at different occasions are unrelated. -/

/-- A byte that no rule fixes, for draw `draw` at index `addr` (10_state.md R37, 70_reset_and_hazards.md
R412, 46_host_operations.md R338; logs 1, 5, 6). -/
opaque freeByte (draw addr : Nat) : Byte

/-- A word that no rule fixes, for draw `draw` (70_reset_and_hazards.md R412; logs 5, 7). -/
opaque freeWord (draw : Nat) : Word

end Sys2Proof.Config
end

