-- ==== Sys2Proof/Machine/State.lean ====
section
/-! DEFINITION. The state of the core as plain data: the host interface registers (10_state.md R22 to
R24), the registers of the three units (R25 to R31), the three memories (R34), and the model's own
fields, which its docstrings name as such. -/

namespace Sys2Proof.Machine

/-- A memory: the bytes something has written, addresses strictly rising. An address that is not
listed holds no written value; it reads as the free byte of draw `seed` at that address (R37; log 1). -/
structure Memory where
  seed : Nat
  cells : List Host.Cell
  deriving DecidableEq, Repr

/-- The registers of the decoder BD (R25). `cv`, `csh` and `d` are natural numbers there
(45_decoder.md R297); `ipet` and `mref1` are two's complement. -/
structure Decoder where
  ip : BitVec 32
  ipe : BitVec 32
  ipet : BitVec 33
  op : BitVec 32
  ope : BitVec 32
  bh : Byte
  mref1 : BitVec 5
  cv : Nat
  csh : Nat
  cc : BitVec 29
  d : Nat
  bt : BitVec 2
  st : BitVec 3
  deriving DecidableEq, Repr

/-- The registers of the block writer BW (R27). `cbp` is a 32-bit index with a valid bit; `none` is
"not valid". -/
structure Writer where
  op : BitVec 32
  mref : BitVec 3
  csh : BitVec 2
  cbp : Option (BitVec 32)
  deriving DecidableEq, Repr

/-- The registers of the match-finder MF: both modes (R29), mode DEFAULT (`mavg`, `rndb`, R30), mode HI
(`pv`, `prc`, `pd`, `pip`, R31). `ipet` and `mavg` are two's complement. -/
structure Finder where
  ip : BitVec 32
  ipa : BitVec 32
  ipe : BitVec 32
  ipet : BitVec 33
  htsize : BitVec 24
  hmask : BitVec 24
  iw1 : BitVec 32
  iw2 : BitVec 16
  h : BitVec 32
  ipo : BitVec 32
  wp : BitVec 32
  d : BitVec 32
  ml : BitVec 10
  rc : BitVec 10
  lc : BitVec 32
  bml : BitVec 5
  bmc : BitVec 5
  mavg : BitVec 32
  rndb : BitVec 1
  pv : Bool
  prc : BitVec 10
  pd : BitVec 23
  pip : BitVec 32
  deriving DecidableEq, Repr

/-- How a decoding command reports its outcome: `full` for DECOMPRESS, `bestEffort` for
DECOMPRESS_PARTIAL (46_host_operations.md R333, R334). -/
inductive Report where
  | full
  | bestEffort
  deriving DecidableEq, Repr

/-- What the engine does at its next step (the model's own field; 10_state.md R20, R24). -/
inductive Phase where
  /-- No command is in progress. -/
  | idle
  /-- A write of `CMD` has started a command, which has not run yet. -/
  | start
  /-- BD reads the prefix next (45_decoder.md R282). -/
  | header (r : Report)
  /-- BD is at its loop condition (R284). -/
  | blocks (r : Report)
  /-- MF is at the loop condition of mode DEFAULT (43_default_match_finder.md R216). -/
  | search
  /-- MF is at the loop condition of mode HI (44_hi_ratio_match_finder.md R247). -/
  | searchHi
  deriving DecidableEq, Repr

/-- One access of the host, as the step meets it (the model's own; log 4). -/
inductive HostAccess where
  /-- The host lets the engine take one step. -/
  | engineTurn
  /-- A write to host register `no` (R22). -/
  | writeReg (no : BitVec 3) (v : Word)
  /-- A write of one byte of SRC (R34, 70_reset_and_hazards.md R403). -/
  | writeSrc (a : Nat) (b : Byte)
  /-- A write of one byte of DST (R404, R412). -/
  | writeDst (a : Nat) (b : Byte)
  /-- A read of host register `no` (R22). -/
  | readReg (no : BitVec 3)
  /-- A read of one byte of DST (R34, R412). -/
  | readDst (a : Nat)
  /-- An external reset (R37, R400). -/
  | externalReset
  deriving DecidableEq, Repr

/-- The state of the core. -/
structure State where
  /-- `CMD` (R22, R23). -/
  cmd : Word
  /-- `SRCL`. -/
  srcl : Word
  /-- `DSTL`. -/
  dstl : Word
  /-- `STATUS`: bit 0 `BUSY`, bit 1 `DONE`, bits 31:2 zero (R22, R24). -/
  status : Word
  /-- `RESULT`. -/
  result : Word
  /-- `WRITTEN`. -/
  written : Word
  /-- The decoder BD. -/
  bd : Decoder
  /-- The block writer BW. -/
  bw : Writer
  /-- The match-finder MF. -/
  mf : Finder
  /-- The input memory SRC (20_memory.md R60). -/
  src : Memory
  /-- The output memory DST (R61). -/
  dst : Memory
  /-- The table memory HT (R63). -/
  ht : Memory
  /-- The model's own: the engine's place in its command. -/
  phase : Phase
  /-- The model's own: `DSTL` as the command in progress read it at its start
  (46_host_operations.md R330, 10_state.md R21). -/
  cap : Word
  /-- The model's own: the host broke 70_reset_and_hazards.md R412 during the command in progress. -/
  spoiled : Bool
  /-- The model's own: how many draws of free values have been made. -/
  draws : Nat
  /-- The model's own: the value the host's last read gave, a byte of DST in its low 8 bits (log 4). -/
  readValue : Word
  /-- The model's own: the accesses the host will make, the next one first. -/
  hostScript : List HostAccess
  deriving DecidableEq, Repr

/-- Why the machine stops. No instruction stops; these name accesses of the host that the spec's
interface has no place for. -/
inductive Fault where
  /-- The host accessed register number 6 or 7; 10_state.md R22 gives registers 0 to 5 only. Raised by
  `hostWriteReg` and `hostReadReg`. Safe: the machine stops where the spec says nothing (log 8). -/
  | noSuchRegister
  /-- The host accessed SRC or DST at an index of `LEN_MAX` or above; a memory holds at most `LEN_MAX`
  bytes (R34). Raised by `hostWriteSrc`, `hostWriteDst` and `hostReadDst`. Safe (log 8). -/
  | noSuchIndex
  deriving DecidableEq, Repr

/-- Why the model gives no meaning. -/
inductive Refusal where
  /-- An instruction without a meaning in this model; only `exec`'s arms answer it, and none does.
  Safe. -/
  | notModelled (mnemonic : String)
  deriving DecidableEq, Repr

/-- The registers of BD after power-on: unspecified in R37, zero here (log 2). -/
def Decoder.zero : Decoder :=
  { ip := 0, ipe := 0, ipet := 0, op := 0, ope := 0, bh := 0, mref1 := 0, cv := 0, csh := 0,
    cc := 0, d := 0, bt := 0, st := 0 }

/-- The registers of BW after power-on: unspecified in R37, zero and "not valid" here (log 2). -/
def Writer.zero : Writer := { op := 0, mref := 0, csh := 0, cbp := none }

/-- The registers of MF after power-on: unspecified in R37, zero here (log 2). -/
def Finder.zero : Finder :=
  { ip := 0, ipa := 0, ipe := 0, ipet := 0, htsize := 0, hmask := 0, iw1 := 0, iw2 := 0, h := 0,
    ipo := 0, wp := 0, d := 0, ml := 0, rc := 0, lc := 0, bml := 0, bmc := 0, mavg := 0, rndb := 0,
    pv := false, prc := 0, pd := 0, pip := 0 }

/-- The machine after a power-on or external reset (R37, 70_reset_and_hazards.md R401, R402), when `n`
draws of free values came before it: the contents of the three memories are three new draws. -/
def State.powerOn (n : Nat) : State :=
  { cmd := 0, srcl := 0, dstl := 0, status := 0, result := 0, written := 0,
    bd := Decoder.zero, bw := Writer.zero, mf := Finder.zero,
    src := { seed := n, cells := [] }, dst := { seed := n + 1, cells := [] },
    ht := { seed := n + 2, cells := [] },
    phase := .idle, cap := 0, spoiled := false, draws := n + 3, readValue := 0, hostScript := [] }

/-- The machine right after reset (R37): idle, nothing written, no host access to come. -/
def State.reset : State := State.powerOn 0

end Sys2Proof.Machine
end

