-- ==== Sys2Proof/Machine/Ops.lean ====
section
/-! DEFINITION. The named operations over the memories (40_byte_io_and_scanners.md) and the ends of a
command, of which raising an error is one (60_exceptions.md R360 to R373). There is no operation for a
return from an error: R374 says there is none. -/

namespace Sys2Proof.Machine

/-! ### One byte of a memory -/

/-- The written byte at an address, if there is one. -/
def cellsFind : List Host.Cell → Nat → Option Byte
  | [], _ => none
  | (k, b) :: r, a => if a = k then some b else if a < k then none else cellsFind r a

/-- The cells with the byte at an address written, in rising order. -/
def cellsPut : List Host.Cell → Nat → Byte → List Host.Cell
  | [], a, b => [(a, b)]
  | (k, c) :: r, a, b =>
    if a < k then (a, b) :: (k, c) :: r
    else if a = k then (a, b) :: r
    else (k, c) :: cellsPut r a b

/-- Addresses strictly rising, all at or above `lo`. -/
def cellsRise : Nat → List Host.Cell → Bool
  | _, [] => true
  | lo, (k, _) :: r => decide (lo ≤ k) && cellsRise (k + 1) r

/-- The canonical form of a memory: strictly rising addresses. An unlisted address holds no value, so
no listed entry can repeat what it reads as (log 1). -/
def Memory.wf (m : Memory) : Bool := cellsRise 0 m.cells

/-- `M[a]`: the byte written last (20_memory.md R70), or a free byte where nothing has written since
power-on (R37). -/
def Memory.read (m : Memory) (a : Nat) : Byte := (cellsFind m.cells a).getD (Config.freeByte m.seed a)

/-- `M[a] <- b`. -/
def Memory.write (m : Memory) (a : Nat) (b : Byte) : Memory := { m with cells := cellsPut m.cells a b }

/-! ### Wider accesses (R130 to R132) -/

/-- `MemRead(M, a, n)`: `n` bytes, little-endian (R62, R130). -/
def Memory.readLE (m : Memory) (a : Nat) : Nat → Nat
  | 0 => 0
  | n + 1 => (m.read a).toNat + 256 * Memory.readLE m (a + 1) n

/-- `MemWrite(M, a, n, v)`: the low `8n` bits of `v`, little-endian (R62, R131). -/
def Memory.writeLE (m : Memory) (a : Nat) : Nat → Nat → Memory
  | 0, _ => m
  | n + 1, v => Memory.writeLE (m.write a (BitVec.ofNat 8 v)) (a + 1) n (v / 256)

/-- `MemOr(M, a, v)` (00_scope.md R8). -/
def Memory.orByte (m : Memory) (a : Nat) (v : Byte) : Memory := m.write a (m.read a ||| v)

/-- A list of bytes stored at rising addresses. -/
def Memory.writeBytes (m : Memory) (a : Nat) : List Byte → Memory
  | [] => m
  | b :: bs => Memory.writeBytes (m.write a b) (a + 1) bs

/-- `Copy(Mdst, a, Msrc, b, n)` between two memories, ascending (R132). -/
def Memory.copyFrom (dst src : Memory) (a b : Nat) : Nat → Memory
  | 0 => dst
  | n + 1 => Memory.copyFrom (dst.write a (src.read b)) src (a + 1) (b + 1) n

/-- `Copy(M, a, M, b, n)` inside one memory, ascending: a byte written at one step is read at a later
one (R132, 45_decoder.md R296). -/
def Memory.copyWithin (m : Memory) (a b : Nat) : Nat → Memory
  | 0 => m
  | n + 1 => Memory.copyWithin (m.write a (m.read b)) (a + 1) (b + 1) n

/-- The bytes at `lo .. lo + n - 1` all given at once, byte `a` by `f a`. -/
def Memory.fill (m : Memory) (lo n : Nat) (f : Nat → Byte) : Memory :=
  { m with cells :=
      m.cells.filter (fun c => decide (c.1 < lo)) ++
      (List.range n).map (fun i => (lo + i, f (lo + i))) ++
      m.cells.filter (fun c => decide (lo + n ≤ c.1)) }

/-! ### Scanners (R134 to R136) -/

/-- `FWD(a, b, ml)` (R134). -/
def Memory.fwd (m : Memory) (a b : Nat) : Nat → Nat
  | 0 => 0
  | ml + 1 => if m.read a = m.read b then 1 + Memory.fwd m (a + 1) (b + 1) ml else 0

/-- `REV(a, b, ml)` (R135). -/
def Memory.rev (m : Memory) (a b : Nat) : Nat → Nat
  | 0 => 0
  | ml + 1 => if m.read (a - 1) = m.read (b - 1) then 1 + Memory.rev m (a - 1) (b - 1) ml else 0

/-! ### Words of HT (20_memory.md R63) -/

/-- `HT[b].w[i]` (00_scope.md R8). -/
def Memory.htWord (m : Memory) (b i : Nat) : Word := BitVec.ofNat 32 (m.readLE (b + 4 * i) 4)

/-- `HT[b].w[i] <- v`. -/
def Memory.setHtWord (m : Memory) (b i : Nat) (v : Word) : Memory := m.writeLE (b + 4 * i) 4 v.toNat

/-! ### Named updates of a unit or a memory -/

/-- The state with other registers of BD. -/
def State.setBd (s : State) (bd : Decoder) : State := { s with bd := bd }
/-- The state with other registers of BW. -/
def State.setBw (s : State) (bw : Writer) : State := { s with bw := bw }
/-- The state with other registers of MF. -/
def State.setMf (s : State) (mf : Finder) : State := { s with mf := mf }
/-- The state with another DST. -/
def State.setDst (s : State) (dst : Memory) : State := { s with dst := dst }
/-- The state with another HT. -/
def State.setHt (s : State) (ht : Memory) : State := { s with ht := ht }

/-! ### The end of a command (46_host_operations.md R330) -/

/-- `STATUS` while a command runs: `BUSY = 1`, `DONE = 0` (10_state.md R24). -/
@[simp] abbrev statusBusy : Word := 1
/-- `STATUS` after a command: `BUSY = 0`, `DONE = 1` (R24). -/
@[simp] abbrev statusDone : Word := 2

/-- `STATUS.BUSY`. -/
def State.busy (s : State) : Bool := s.status.getLsbD 0
/-- `STATUS.DONE`. -/
def State.done (s : State) : Bool := s.status.getLsbD 1

/-- The bytes of DST that the command in progress may write all become free values
(70_reset_and_hazards.md R412, 46_host_operations.md R338; logs 5, 6). -/
def State.freeDst (s : State) : State :=
  { s with dst := s.dst.fill 0 s.cap.toNat (Config.freeByte s.draws), draws := s.draws + 1 }

/-- The end of a command: `RESULT` and `WRITTEN` are set, `BUSY <- 0`, `DONE <- 1` (R330), and the
engine is idle. If the host broke R412 meanwhile, `RESULT`, `WRITTEN` and the command's bytes of DST
are free values instead (log 5). -/
def State.endCommand (s : State) (result written : Word) : State :=
  if s.spoiled then
    { s.freeDst with
      result := Config.freeWord s.draws, written := Config.freeWord (s.draws + 1),
      draws := s.draws + 2, status := statusDone, phase := .idle, spoiled := false }
  else
    { s with result := result, written := written, status := statusDone, phase := .idle }

/-! ### Errors of the decoder (60_exceptions.md) -/

/-- The six errors (R361). -/
inductive DecodeFault where
  | params | srcOob | dstOob | refOob | dstLen | unkFmt
  deriving DecidableEq, Repr

/-- The value of BD's register `st` for an error, 1 to 6; `RESULT` is its negative (R361). -/
def DecodeFault.number : DecodeFault → Nat
  | .params => 1
  | .srcOob => 2
  | .dstOob => 3
  | .refOob => 4
  | .dstLen => 5
  | .unkFmt => 6

/-- How the command in progress reports; a state that is in no decoding phase counts as DECOMPRESS. -/
def Phase.report : Phase → Report
  | .header r => r
  | .blocks r => r
  | .idle => .full
  | .start => .full
  | .search => .full
  | .searchHi => .full

/-- `RESULT` after the error `e` with `w` bytes committed: its code, or the count (R333, R334). -/
def DecodeFault.resultFor (e : DecodeFault) (w : Nat) : Report → Word
  | .full => - BitVec.ofNat 32 e.number
  | .bestEffort => BitVec.ofNat 32 w

/-- `raise E(w)`: taking an error. The status becomes `E`, the command ends with `WRITTEN = w` (R365);
no mode changes, nothing is saved, the engine is idle (R373). -/
def State.raise (s : State) (r : Report) (e : DecodeFault) (w : Nat) : State :=
  (s.setBd { s.bd with st := BitVec.ofNat 3 e.number }).endCommand (e.resultFor w r) (BitVec.ofNat 32 w)

end Sys2Proof.Machine
end

