-- ==== Sys2Proof/Machine/Dictionary.lean ====
section
/-! DEFINITION. The hash function and the dictionary in HT, for both modes of the match-finder
(42_hash_dictionary.md R180 to R200). -/

namespace Sys2Proof.Machine

/-- `HASH(iw1, iw2)`: the low half of the 64-bit product, exclusive-or its high half (R181). -/
def hash (iw1 iw2 : Word) : Word :=
  let m : BitVec 64 := ((0x243F6A88 : Word) ^^^ iw1).setWidth 64 * ((0x85A308D3 : Word) ^^^ iw2).setWidth 64
  m.setWidth 32 ^^^ (m >>> (32 : Nat)).setWidth 32

/-- The loop of R182 and R195, at most `k` doublings. -/
def growTable (cap srcl : Nat) : Nat → Nat → Nat
  | 0, h => h
  | k + 1, h => if h ≠ cap ∧ h >>> 2 < srcl then growTable cap srcl k (h <<< 1) else h

/-- `htsize` for a cap: from 2 KiB the cap is at most 12 doublings away (R182, R195). -/
def tableSize (cap srcl : Nat) : Nat := growTable cap srcl 12 Config.htMin

/-- `hmask` of mode DEFAULT: `(htsize - 1) & ~15` (R184). -/
def maskDefault (htsize : Nat) : BitVec 24 := BitVec.ofNat 24 (htsize - 1) &&& ~~~ (15 : BitVec 24)

/-- `hmask` of mode HI: `(htsize - 1) & ~63` (R197). -/
def maskHi (htsize : Nat) : BitVec 24 := BitVec.ofNat 24 (htsize - 1) &&& ~~~ (63 : BitVec 24)

/-- The bucket's byte offset in HT: `h & hmask` (R184, R197). -/
def bucketOf (h : Word) (hmask : BitVec 24) : Nat := (h &&& hmask.setWidth 32).toNat

/-- Byte `a % 4` of the word `w`, for the byte at address `a` of HT. -/
def wordByte (w : Word) (a : Nat) : Byte := w.extractLsb' (8 * (a % 4)) 8

/-- `k16`: the four bytes of SRC at 16 (R183). -/
def initialKey (src : Memory) : Word := BitVec.ofNat 32 (src.readLE 16 4)

/-- The initial table of mode DEFAULT: both tuples of every bucket are `(k16, 16)` (R183). -/
def initTable2 (ht src : Memory) (htsize : Nat) : Memory :=
  ht.fill 0 htsize fun a => wordByte (if a / 4 % 2 = 0 then initialKey src else 16) a

/-- The initial table of mode HI: all seven tuples `(k16, 16)`, word 14 zero, head index 0 (R196). -/
def initTable7 (ht src : Memory) (htsize : Nat) : Memory :=
  ht.fill 0 htsize fun a =>
    wordByte (if 14 ≤ a / 4 % 16 then 0 else if a / 4 % 2 = 0 then initialKey src else 16) a

/-! ### Mode DEFAULT: two tuples a bucket -/

/-- Which tuple of a DEFAULT bucket. -/
inductive Slot where
  | one
  | two
  deriving DecidableEq, Repr

/-- The word of a tuple's key; its offset is the next word (20_memory.md R63). -/
def Slot.keyWord : Slot → Nat
  | .one => 0
  | .two => 2

/-- Whether a tuple matches: its key is `iw1` and the two bytes four after its position are `iw2`
(R185). -/
def tupleMatches (ht src : Memory) (b : Nat) (k : Slot) (iw1 : Word) (iw2 : BitVec 16) : Bool :=
  ht.htWord b k.keyWord == iw1 &&
    BitVec.ofNat 16 (src.readLE ((ht.htWord b (k.keyWord + 1)).toNat + 4) 2) == iw2

/-- `PROBE2(b, iw1, iw2)`: the tuple that matches, tuple 1 first, and its position (R185). -/
def probe2 (ht src : Memory) (b : Nat) (iw1 : Word) (iw2 : BitVec 16) : Option (Slot × Word) :=
  if tupleMatches ht src b .one iw1 iw2 then some (.one, ht.htWord b 1)
  else if tupleMatches ht src b .two iw1 iw2 then some (.two, ht.htWord b 3)
  else none

/-- `MISS2(b, iw1, ipo)` (R186). -/
def miss2 (ht : Memory) (b : Nat) (iw1 ipo : Word) : Memory :=
  (ht.setHtWord b 2 iw1).setHtWord b 3 ipo

/-- The offset of the tuple that hit becomes `ipo`: the refresh of R187, and `FAR2` (R188). -/
def refresh2 (ht : Memory) (b : Nat) (hit : Slot) (ipo : Word) : Memory :=
  ht.setHtWord b (hit.keyWord + 1) ipo

/-- `HIT2(b, hit, iw1, ipo, d)`: promotion above distance 273, else the refresh (R187). -/
def hit2 (ht : Memory) (b : Nat) (hit : Slot) (iw1 ipo : Word) (d : Nat) : Memory :=
  if Config.promoteAbove < d then
    (((ht.setHtWord b 2 (ht.htWord b 0)).setHtWord b 3 (ht.htWord b 1)).setHtWord b 0 iw1).setHtWord b 1 ipo
  else refresh2 ht b hit ipo

/-! ### Mode HI: seven tuples and a head -/

/-- The key words of `n` tuples in the order they are visited, from word `ti` on (R198). -/
def visitFrom (ti : Nat) : Nat → List Nat
  | 0 => []
  | n + 1 => ti :: visitFrom (if ti = 12 then 0 else ti + 2) n

/-- The seven tuples of a bucket, newest first, by their key words (R198). -/
def visitOrder (ht : Memory) (b : Nat) : List Nat := visitFrom (ht.htWord b 15).toNat 7

/-- `MISS7(b, iw1, ipo)`: the head steps back one slot and the tuple goes there (R199). -/
def miss7 (ht : Memory) (b : Nat) (iw1 ipo : Word) : Memory :=
  let head := (ht.htWord b 15).toNat
  let head' := if head = 0 then 12 else head - 2
  ((ht.setHtWord b head' iw1).setHtWord b (head' + 1) ipo).setHtWord b 15 (BitVec.ofNat 32 head')

end Sys2Proof.Machine
end

