-- ==== Sys2Proof/Machine/Start.lean ====
section
/-! DEFINITION. The start of a command: `STATUS`, the lengths it reads, and the start values of every unit
register (46_host_operations.md R330; 10_state.md R36; 70_reset_and_hazards.md R400, R401). -/

namespace Sys2Proof.Machine

/-- The mode whose start values `mref`, `htsize` and `hmask` take: `hi` in COMPRESS_HI, `default` in COMPRESS.
A command that is no compression has no mode and takes those of `default` (log 9). -/
inductive Mode where
  | default
  | hi
  deriving DecidableEq, Repr

/-- BW's `mref` (R27). -/
def Mode.mref : Mode → BitVec 3
  | .default => 6
  | .hi => 5

/-- The size of the table for `srcl` bytes (42_hash_dictionary.md R182, R195). -/
def Mode.tableBytes (srcl : Nat) : Mode → Nat
  | .default => tableSize Config.htMaxDefault srcl
  | .hi => tableSize Config.htMaxHi srcl

/-- The bucket mask of a table (R184, R197). -/
def Mode.mask (htsize : Nat) : Mode → BitVec 24
  | .default => maskDefault htsize
  | .hi => maskHi htsize

/-- BD's registers at the start of a command (R25, R401). `ip` becomes 1 when the prefix has been read, and is
0, its index, until then. `bh`, `mref1`, `cc`, `d` and `bt` have no start value and keep what they hold
(log 9). -/
def Decoder.begin (b : Decoder) (srcl dstl : Word) : Decoder :=
  { b with ip := 0, ipe := srcl, ipet := srcl.setWidth 33 - 6, op := 0, ope := dstl,
           cv := 0, csh := 0, st := 0 }

/-- BW's registers at the start of a command (R27). -/
def Writer.begin (mode : Mode) : Writer := { op := 0, mref := mode.mref, csh := 0, cbp := none }

/-- MF's registers at the start of a command (R29 to R31). The per-position temporaries have no start value,
and `prc`, `pd` and `pip` are unspecified while `pv = 0` (R401): they keep what they hold (log 9). -/
def Finder.begin (m : Finder) (mode : Mode) (srcl : Word) : Finder :=
  let size := mode.tableBytes srcl.toNat
  { m with ip := 16, ipa := 0, ipe := srcl - 6, ipet := srcl.setWidth 33 - 15
           htsize := BitVec.ofNat 24 size, hmask := mode.mask size
           mavg := Config.mavgStart, rndb := 0, pv := false }

/-- The start of a command: `STATUS.BUSY <- 1`, `STATUS.DONE <- 0`, `SRCL` and `DSTL` are read, once (R330),
and every unit register takes its start value (R36, R400), whatever the arguments are; in BOUND and BOUND_HI too,
of which R335 says that they do not read `DSTL` (log 22). -/
def State.beginCommand (s : State) (mode : Mode) : State :=
  { s with status := statusBusy, cap := s.dstl, bd := s.bd.begin s.srcl s.dstl, bw := Writer.begin mode
           mf := s.mf.begin mode s.srcl }

end Sys2Proof.Machine
end

