-- ==== Sys2Proof/Machine/Bound.lean ====
section
/-! DEFINITION. The commands BOUND and BOUND_HI and their formulas (46_host_operations.md R335, R336). -/

namespace Sys2Proof.Machine

/-- `BOUND(n)` for `n ≥ 0`; 0 gives 16 (R336). -/
def boundDefault (n : Nat) : Nat :=
  if n = 0 then 16
  else
    let l2 := n / 150
    (n - l2 * 6 + 143) / 144 * 2 - l2 + n + 16

/-- `BOUND_HI(n)` for `n ≥ 0` (R336). -/
def boundHi (n : Nat) : Nat :=
  if n = 0 then 16
  else
    let l2 := n / 21
    (n - l2 * 5 + 15) / 16 * 2 - l2 + n + 16

/-- `SRCL` read as a signed number, with every `n ≤ 0` taken as 0, for which the formulas give 16 (R335). -/
def signedLength (srcl : Word) : Nat := srcl.toInt.toNat

/-- `BOUND`: `RESULT <- BOUND(n)`, low 32 bits; `WRITTEN <- 0`; no memory is touched (R335). R335 also says that `DSTL`
is not read, R330 and R36 that the start of a command reads it and sets BD's `ope` from it: here the start does
as in every command, and the bound itself does not depend on `DSTL` (log 22). -/
def execBound (s : State) : Host.Outcome State Fault Refusal :=
  .next ((s.beginCommand .default).endCommand (BitVec.ofNat 32 (boundDefault (signedLength s.srcl))) 0)

/-- `BOUND_HI` (R335). Its start reads `DSTL` too, and the bound does not depend on it (log 22). -/
def execBoundHi (s : State) : Host.Outcome State Fault Refusal :=
  .next ((s.beginCommand .default).endCommand (BitVec.ofNat 32 (boundHi (signedLength s.srcl))) 0)

end Sys2Proof.Machine
end

