-- ==== Sys2Proof/Machine/Flags.lean ====
section
/-! DEFINITION. The core has no condition codes (10_state.md R33). Its computed one-bit state outside the
host registers is the dither bit `rndb`; it and the running average `mavg` that decides when it is used
are computed here (43_default_match_finder.md R221, R223, R224). -/

namespace Sys2Proof.Machine

/-- `mavg` after an emitted match of length `rc`: the shift of the signed difference is arithmetic
(R221). -/
def mavgHit (mavg : Word) (rc : Nat) : Word :=
  mavg + (BitVec.ofNat 32 (rc <<< 21) - mavg).sshiftRight 10

/-- `mavg` after a miss (R223); `>>` on `mavg` is the arithmetic shift (00_scope.md R8). -/
def mavgMiss (mavg : Word) : Word := mavg - mavg.sshiftRight 11

/-- The first dither condition: `mavg < 200 << 14` and `ip ≠ ipa` (R224). -/
def dithers (mavg : Word) (ip ipa : Nat) : Bool :=
  decide (mavg.toInt < Config.ditherHigh) && decide (ip ≠ ipa)

/-- How far a miss moves the cursor (R224); `mavg` is the value R223 left. -/
def missAdvance (mavg : Word) (rndb : BitVec 1) (ip ipa : Nat) : Nat :=
  if dithers mavg ip ipa then
    1 + rndb.toNat +
      (if mavg.toInt < Config.ditherMid then
        1 + (if mavg.toInt < Config.ditherLow then (100 - (mavg.toInt >>> (14 : Nat))).toNat else 0)
      else 0)
  else 1

/-- The dither bit after a miss at position `ipo`: `ipo & 1` if the miss dithers (R224). -/
def missDither (mavg : Word) (rndb : BitVec 1) (ip ipa : Nat) : BitVec 1 :=
  if dithers mavg ip ipa then BitVec.ofNat 1 ip else rndb

end Sys2Proof.Machine
end

