-- ==== Sys2Proof/Syntax.lean ====
section
/-! DEFINITION. The instructions of the core, one constructor for each row of the opcode table
(30_encoding.md R103, R112): the prefix of a stream, the eleven blocks, the six host commands. -/

namespace Sys2Proof

/-- The instructions. `q` is bits 7:6 of a block's header, `o` the little-endian value of its offset
bytes, `len` the nibble of form S, `b` and `b2` the length bytes of forms L and X (R92, R97, R98). -/
inductive Instr where
  /-- `PREFIX`: byte 0 of a stream with format id 2; `mref` is its low nibble (R90, R282). -/
  | streamPrefix (mref : BitVec 4)
  /-- `LITS`: short literal block of `len` bytes, `len ≠ 0` (R94). -/
  | lits (q : BitVec 2) (len : BitVec 4)
  /-- `LITL`: long literal block of `16 + v` bytes; the varint of `v` takes `nv` bytes (R95, R96). -/
  | litl (q : BitVec 2) (nv : Nat) (v : BitVec 28)
  /-- `REF1S` (R97, R98, R301). -/
  | ref1s (q : BitVec 2) (o : BitVec 8) (len : BitVec 4)
  /-- `REF1L` (R302). -/
  | ref1l (q : BitVec 2) (o : BitVec 8) (b : Byte)
  /-- `REF1X` (R303). -/
  | ref1x (q : BitVec 2) (o : BitVec 8) (b2 : Byte)
  /-- `REF2S` (R304). -/
  | ref2s (q : BitVec 2) (o : BitVec 16) (len : BitVec 4)
  /-- `REF2L` (R305). -/
  | ref2l (q : BitVec 2) (o : BitVec 16) (b : Byte)
  /-- `REF2X` (R306). -/
  | ref2x (q : BitVec 2) (o : BitVec 16) (b2 : Byte)
  /-- `REF3S`: bits 23:21 of `o` are `c3`, offset bits of the next reference block (R97, R307). -/
  | ref3s (q : BitVec 2) (o : BitVec 24) (len : BitVec 4)
  /-- `REF3L` (R308). -/
  | ref3l (q : BitVec 2) (o : BitVec 24) (b : Byte)
  /-- `REF3X` (R309). -/
  | ref3x (q : BitVec 2) (o : BitVec 24) (b2 : Byte)
  /-- `COMPRESS`: command code 1 (R23, R331). -/
  | compress
  /-- `COMPRESS_HI`: command code 2 (R332). -/
  | compressHi
  /-- `DECOMPRESS`: command code 3 (R333). -/
  | decompress
  /-- `DECOMPRESS_PARTIAL`: command code 4 (R334). -/
  | decompressPartial
  /-- `BOUND`: command code 5 (R335). -/
  | bound
  /-- `BOUND_HI`: command code 6 (R335). -/
  | boundHi
  deriving DecidableEq, Repr

end Sys2Proof
end

