-- ==== Sys2Proof/WellFormed.lean ====
section
/-! DEFINITION. Which terms of `Instr` an encoding exists for: the constraints of the opcode table's
rows and of 30_encoding.md R94, R96, R98, R103. -/

namespace Sys2Proof

/-- An instruction that some encoding stands for: a nibble of form S is not 0, the length byte of form
L is not `0xFF`, and the varint of a `LITL` takes 1 to 4 bytes that hold its value. -/
def Instr.wellFormed : Instr → Bool
  | .streamPrefix _ => true
  | .lits _ len => len != 0
  | .litl _ nv v => decide (1 ≤ nv) && decide (nv ≤ 4) && decide (v.toNat < 2 ^ (7 * nv))
  | .ref1s _ _ len => len != 0
  | .ref1l _ _ b => b != 255
  | .ref1x _ _ _ => true
  | .ref2s _ _ len => len != 0
  | .ref2l _ _ b => b != 255
  | .ref2x _ _ _ => true
  | .ref3s _ _ len => len != 0
  | .ref3l _ _ b => b != 255
  | .ref3x _ _ _ => true
  | .compress => true
  | .compressHi => true
  | .decompress => true
  | .decompressPartial => true
  | .bound => true
  | .boundHi => true

end Sys2Proof
end

