-- ==== Sys2Proof/Decode.lean ====
section
/-! DEFINITION. The decoder, total on any bytes, and after it the encoder, both written from the
formats of 30_encoding.md R90 to R98, the opcode map R103 and the command codes of 10_state.md R23. -/

namespace Sys2Proof

/-- What a decoder looks at: the first byte of a stream, the bytes from a block's header on, or the
word in the host register `CMD` (R112). -/
inductive Window where
  | header (b : Byte)
  | block (bs : List Byte)
  | command (w : Word)
  deriving DecidableEq, Repr

/-- Why a window holds no instruction. -/
inductive DecodeError where
  /-- The first byte of a stream names a format other than 2 (R90, R282). -/
  | unknownFormat
  /-- A list of bytes ends inside the block's header, varint, offset or length bytes. -/
  | truncated
  /-- Command code 0 or 7 (R23). -/
  | noCommand
  deriving DecidableEq, Repr

/-! ### Fields -/

/-- Bits 7:6 of a header byte, `q` (R92). -/
def headerQ (bh : Byte) : BitVec 2 := bh.extractLsb' 6 2
/-- Bits 5:4 of a header byte, `bt` (R92). -/
def headerType (bh : Byte) : BitVec 2 := bh.extractLsb' 4 2
/-- Bits 3:0 of a header byte, `L` (R92). -/
def headerLen (bh : Byte) : BitVec 4 := bh.extractLsb' 0 4

/-- The byte `i` places into a window; a missing byte counts as 0 (`decode` refuses such a window). -/
def byteAt (bs : List Byte) (i : Nat) : Byte := bs.getD i 0

/-- The varint at the head of the bytes, reading at most `k` of them: its value and how many bytes it
takes (R96, R288). Bit 7 of the last byte allowed is ignored. -/
def varintRead : Nat → List Byte → Nat × Nat
  | 0, _ => (0, 0)
  | k + 1, bs =>
    let b := byteAt bs 0
    if b.toNat < 128 then (b.toNat, 1)
    else
      let r := varintRead k bs.tail
      (b.toNat % 128 + 128 * r.1, r.2 + 1)

/-! ### The decoder -/

/-- The block at the head of the bytes (R103). Every header byte selects exactly one row. -/
def decodeBlock (bs : List Byte) : Instr :=
  let bh := byteAt bs 0
  let q := headerQ bh
  let len := headerLen bh
  if headerType bh = 0 then
    if len ≠ 0 then .lits q len
    else
      let r := varintRead 4 bs.tail
      .litl q r.2 (BitVec.ofNat 28 r.1)
  else if headerType bh = 1 then
    let o : BitVec 8 := byteAt bs 1
    if len ≠ 0 then .ref1s q o len
    else if byteAt bs 2 ≠ 255 then .ref1l q o (byteAt bs 2)
    else .ref1x q o (byteAt bs 3)
  else if headerType bh = 2 then
    let o : BitVec 16 := byteAt bs 2 ++ byteAt bs 1
    if len ≠ 0 then .ref2s q o len
    else if byteAt bs 3 ≠ 255 then .ref2l q o (byteAt bs 3)
    else .ref2x q o (byteAt bs 4)
  else
    let o : BitVec 24 := byteAt bs 3 ++ byteAt bs 2 ++ byteAt bs 1
    if len ≠ 0 then .ref3s q o len
    else if byteAt bs 4 ≠ 255 then .ref3l q o (byteAt bs 4)
    else .ref3x q o (byteAt bs 5)

/-- How many bytes of the stream an instruction's header, varint, offset and length bytes take: its
block length less its literal bytes (R104). The host commands are not in the stream. -/
def Instr.headBytes : Instr → Nat
  | .streamPrefix _ => 1
  | .lits _ _ => 1
  | .litl _ nv _ => 1 + nv
  | .ref1s _ _ _ => 2
  | .ref1l _ _ _ => 3
  | .ref1x _ _ _ => 4
  | .ref2s _ _ _ => 3
  | .ref2l _ _ _ => 4
  | .ref2x _ _ _ => 5
  | .ref3s _ _ _ => 4
  | .ref3l _ _ _ => 5
  | .ref3x _ _ _ => 6
  | .compress => 0
  | .compressHi => 0
  | .decompress => 0
  | .decompressPartial => 0
  | .bound => 0
  | .boundHi => 0

/-- How many literal bytes follow an instruction's head in the stream (R94, R95). -/
def Instr.literalBytes : Instr → Nat
  | .lits _ len => len.toNat
  | .litl _ _ v => 16 + v.toNat
  | .streamPrefix _ => 0
  | .ref1s _ _ _ => 0
  | .ref1l _ _ _ => 0
  | .ref1x _ _ _ => 0
  | .ref2s _ _ _ => 0
  | .ref2l _ _ _ => 0
  | .ref2x _ _ _ => 0
  | .ref3s _ _ _ => 0
  | .ref3l _ _ _ => 0
  | .ref3x _ _ _ => 0
  | .compress => 0
  | .compressHi => 0
  | .decompress => 0
  | .decompressPartial => 0
  | .bound => 0
  | .boundHi => 0

/-- Bits 2:0 of a word written to `CMD` (R22, R23); codes 0 and 7 start nothing. -/
def decodeCommand (w : Word) : Except DecodeError Instr :=
  match (w.extractLsb' 0 3).toNat with
  | 1 => .ok .compress
  | 2 => .ok .compressHi
  | 3 => .ok .decompress
  | 4 => .ok .decompressPartial
  | 5 => .ok .bound
  | 6 => .ok .boundHi
  | _ => .error .noCommand

/-- The first byte of a stream (R90, R282): the format id must be known, any low nibble is taken. -/
def decodePrefix (b : Byte) : Except DecodeError Instr :=
  if Config.formatKnown (b.extractLsb' 4 4) then .ok (.streamPrefix (b.extractLsb' 0 4))
  else .error .unknownFormat

/-- The decoder: the instruction a window holds, or why it holds none. -/
def decode : Window → Except DecodeError Instr
  | .header b => decodePrefix b
  | .block bs =>
    if (decodeBlock bs).headBytes ≤ bs.length then .ok (decodeBlock bs) else .error .truncated
  | .command w => decodeCommand w

/-! ### The encoder -/

/-- A header byte from its three fields (R92). -/
def headerByte (q bt : BitVec 2) (len : BitVec 4) : Byte := q ++ bt ++ len

/-- The `n` bytes of the varint of `v`: bit 7 is set in all of them but the last (R96). -/
def varintBytes : Nat → Nat → List Byte
  | 0, _ => []
  | 1, v => [BitVec.ofNat 8 (v % 128)]
  | n + 2, v => BitVec.ofNat 8 (128 + v % 128) :: varintBytes (n + 1) (v / 128)

/-- The little-endian bytes of an offset field (R97). -/
def offset2Bytes (o : BitVec 16) : List Byte := [o.extractLsb' 0 8, o.extractLsb' 8 8]
/-- The little-endian bytes of an offset field (R97). -/
def offset3Bytes (o : BitVec 24) : List Byte :=
  [o.extractLsb' 0 8, o.extractLsb' 8 8, o.extractLsb' 16 8]

/-- The encoder: the window of an instruction, from the formats R90, R94, R95, R97, R98 and the command
codes R23. A literal block's literal bytes are not part of it. -/
def encode : Instr → Window
  | .streamPrefix mref => .header (Config.fmtCur ++ mref)
  | .lits q len => .block [headerByte q 0 len]
  | .litl q nv v => .block (headerByte q 0 0 :: varintBytes nv v.toNat)
  | .ref1s q o len => .block [headerByte q 1 len, o]
  | .ref1l q o b => .block [headerByte q 1 0, o, b]
  | .ref1x q o b2 => .block [headerByte q 1 0, o, 255, b2]
  | .ref2s q o len => .block (headerByte q 2 len :: offset2Bytes o)
  | .ref2l q o b => .block (headerByte q 2 0 :: offset2Bytes o ++ [b])
  | .ref2x q o b2 => .block (headerByte q 2 0 :: offset2Bytes o ++ [255, b2])
  | .ref3s q o len => .block (headerByte q 3 len :: offset3Bytes o)
  | .ref3l q o b => .block (headerByte q 3 0 :: offset3Bytes o ++ [b])
  | .ref3x q o b2 => .block (headerByte q 3 0 :: offset3Bytes o ++ [255, b2])
  | .compress => .command 1
  | .compressHi => .command 2
  | .decompress => .command 3
  | .decompressPartial => .command 4
  | .bound => .command 5
  | .boundHi => .command 6

/-! ### The opcode table's numbering -/

/-- The window for bits `w` numbered as the opcode table numbers them. A host command's row has no
stream bytes, and its bits are bits 2:0 of `CMD`: fewer than 8 bits, or a single byte that holds a
command code, are taken as `CMD`. A single byte with the current format in its high nibble is the
prefix, since no block with type bits 2 is that short. Any other word is a block's first bytes, with
zeros above (log 19). -/
def tableWindow (nbits w : Nat) : Window :=
  if nbits < 8 ∨ (nbits = 8 ∧ 1 ≤ w ∧ w ≤ 6) then .command (BitVec.ofNat 32 w)
  else if nbits = 8 ∧ w / 16 % 16 = 2 then .header (BitVec.ofNat 8 w)
  else .block ((List.range 32).map fun i => BitVec.ofNat 8 (w % 2 ^ nbits / 256 ^ i))

/-- The instruction the decoder reads from an instruction's bits as the opcode table numbers them. -/
def decodeTableWord (nbits w : Nat) : Option Instr :=
  match decode (tableWindow nbits w) with
  | .ok i => some i
  | .error _ => none

end Sys2Proof
end

