-- ==== Sys2Proof/Machine/Operands.lean ====
section
/-! DEFINITION. The operand forms of the blocks: how the decoder reads offsets and lengths
(30_encoding.md R98, R101; 45_decoder.md R289 to R294) and how the block writer codes them (R96, R99,
R102; 41_block_writer.md R153 to R159). -/

namespace Sys2Proof.Machine

/-! ### The decoder's side -/

/-- The carry value after a literal header: `cv | (ncv << csh)` (R289). -/
def literalCarry (cv csh : Nat) (q : BitVec 2) : Nat := cv ||| (q.toNat <<< csh)

/-- The offset part `P` of a reference block: `(bh >> 6) | ((o & 0x1FFFFF) << 2)` (R97, R292). -/
def offsetPart (q : BitVec 2) (o : Nat) : Nat := q.toNat ||| ((o &&& 0x1FFFFF) <<< 2)

/-- The offset `d = (P << csh) | cv` (R292). -/
def assembleOffset (q : BitVec 2) (o csh cv : Nat) : Nat := (offsetPart q o <<< csh) ||| cv

/-- The carry shift after a reference block (R293). -/
def refCarryShift (bt : BitVec 2) : Nat := if bt = 3 then 3 else 0

/-- The carry value after a reference block, `o >> 21` (R293). -/
def refCarryValue (o : Nat) : Nat := o >>> 21

/-- Form S: `L + mref1` (R294). -/
def lengthS (mref1 : BitVec 5) (len : BitVec 4) : Nat := ((len.toNat : Int) + mref1.toInt).toNat

/-- Form L: `16 + mref1 + b` (R294). -/
def lengthL (mref1 : BitVec 5) (b : Byte) : Nat := (16 + mref1.toInt + b.toNat).toNat

/-- Form X: `16 + mref1 + 255 + b2` (R294). -/
def lengthX (mref1 : BitVec 5) (b2 : Byte) : Nat := (16 + mref1.toInt + 255 + b2.toNat).toNat

/-! ### The writer's side -/

/-- Where the bits of an offset go (R102): `c3` into the previous type-11 block, `q` into the literal
header, `p` into the reference block. -/
structure OffsetSplit where
  c3 : Nat
  q : Nat
  p : Nat
  deriving DecidableEq, Repr

/-- The split of the offset `d` when the writer's carry shift is 3 (`carry`) and when a literal block
goes before the reference block (`lit`) (R102, R153, R154). -/
def splitOffset (carry lit : Bool) (d : Nat) : OffsetSplit :=
  let d1 := if carry then d >>> 3 else d
  { c3 := if carry then d &&& 7 else 0
    q := if lit then d1 &&& 3 else 0
    p := if lit then d1 >>> 2 else d1 }

/-- The smallest type that holds the offset part: `1 + [P > 2^10 - 1] + [P > 2^18 - 1]` (R102, R157). -/
def refType (p : Nat) : Nat := if p ≤ 1023 then 1 else if p ≤ 262143 then 2 else 3

/-- The coded length `rc' = rc + 1 - mref` (R98, R152). -/
def codedLength (rc mref : Nat) : Nat := rc + 1 - mref

/-- A length's nibble: the length up to 15, else 0 (R99). -/
def lengthNibble (n : Nat) : Nat := if n ≤ 15 then n else 0

/-- The length bytes of a reference block (R159). -/
def lengthTail (rcp : Nat) : List Byte :=
  if rcp < 16 then []
  else if rcp < 16 + 255 then [BitVec.ofNat 8 (rcp - 16)]
  else [255, BitVec.ofNat 8 (rcp - 16 - 255)]

/-- The packed word `(P << 6) | (bt << 4) | nibble`, whose low `1 + bt` bytes are the block's header and
offset bytes (R97, R157). -/
def refWord (p bt nib : Nat) : Nat := (p <<< 6) ||| (bt <<< 4) ||| nib

/-- The shortest varint of `v`, with at most `k` continuation bytes (R96, R155). -/
def shortVarint : Nat → Nat → List Byte
  | 0, v => [BitVec.ofNat 8 v]
  | k + 1, v =>
    if 127 < v then BitVec.ofNat 8 (0x80 ||| (v &&& 0x7F)) :: shortVarint k (v >>> 7)
    else [BitVec.ofNat 8 v]

/-- The header and length bytes of a literal block of `lc` bytes with `q` in bits 7:6; none if the
length cannot be coded, which is `EncoderFault` (R155, R162). -/
def literalHead (q lc : Nat) : Option (List Byte) :=
  if lc ≤ 15 then some [BitVec.ofNat 8 ((q <<< 6) ||| lc)]
  else if 2 ^ 28 ≤ lc - 16 then none
  else some (BitVec.ofNat 8 (q <<< 6) :: shortVarint 3 (lc - 16))

end Sys2Proof.Machine
end

