-- ==== Sys2Proof/Machine/Writer.lean ====
section
/-! DEFINITION. The block writer BW: `START`, `WRITE_BLK`, `FINALIZE` and the short form
(41_block_writer.md R150 to R162). An answer `none` is `EncoderFault` (R162). -/

namespace Sys2Proof.Machine

/-- Bytes written at `op`, and `op` moved past them. -/
def State.putBytes (s : State) (bs : List Byte) : State :=
  { s with dst := s.dst.writeBytes s.bw.op.toNat bs
           bw := { s.bw with op := s.bw.op + BitVec.ofNat 32 bs.length } }

/-- `Copy(DST, op, SRC, ipa, lc); op <- op + lc` (R156). -/
def State.putLiterals (s : State) (ipa lc : Nat) : State :=
  { s with dst := s.dst.copyFrom s.src s.bw.op.toNat ipa lc
           bw := { s.bw with op := s.bw.op + BitVec.ofNat 32 lc } }

/-- `START(mref)`: the prefix byte, and BW's registers at their start values (R150, 10_state.md R27). -/
def writerStart (s : State) (mref : BitVec 3) : State :=
  { s with dst := s.dst.write 0 (BitVec.ofNat 8 (2 * 16 + mref.toNat))
           bw := { op := 1, mref := mref, csh := 0, cbp := none } }

/-- Whether the next offset's three low bits go into the previous block: `csh = 3` (R153). -/
def Writer.carry (w : Writer) : Bool := w.csh == 3

/-- Step 1 of `WRITE_BLK`: the three bits `c3` are ORed into bits 7:5 of the byte at `cbp` (R153). -/
def writerDeposit (s : State) (c3 : Nat) : State :=
  if s.bw.carry then
    match s.bw.cbp with
    | some c => s.setDst (s.dst.orByte c.toNat (BitVec.ofNat 8 (c3 <<< 5)))
    | none => s
  else s

/-- Step 2: the literal block, header, length and bytes (R155, R156). -/
def writerLiteral (s : State) (q lc ipa : Nat) : Option State :=
  match literalHead q lc with
  | some bs => some ((s.putBytes bs).putLiterals ipa lc)
  | none => none

/-- Steps 3 and 4: the reference block with offset part `p` and coded length `rcp`; `csh` and `cbp` of
the next deposit; the length bytes (R157, R158, R159). -/
def writerReference (s : State) (p rcp : Nat) : State :=
  let bt := refType p
  let hdr := s.bw.op
  let s1 : State :=
    { s with dst := s.dst.writeLE hdr.toNat (1 + bt) (refWord p bt (lengthNibble rcp))
             bw := { s.bw with op := hdr + BitVec.ofNat 32 (1 + bt)
                               csh := if bt = 3 then 3 else 0
                               cbp := some (hdr + BitVec.ofNat 32 bt) } }
  s1.putBytes (lengthTail rcp)

/-- `WRITE_BLK(lc, rc, d, ipa)` (R151, R152). -/
def writeBlk (s : State) (lc rc d ipa : Nat) : Option State :=
  let rcp := codedLength rc s.bw.mref.toNat
  let sp := splitOffset s.bw.carry (decide (0 < lc)) d
  let s1 := writerDeposit s sp.c3
  if 0 < lc then
    match writerLiteral s1 sp.q lc ipa with
    | some s2 => some (writerReference s2 sp.p rcp)
    | none => none
  else some (writerReference s1 sp.p rcp)

/-- `FINALIZE(lc, ipa)`: the terminal literal block, with no carry bits and no deposit (R160). -/
def finalize (s : State) (lc ipa : Nat) : Option State := writerLiteral s 0 lc ipa

/-- `SHORT(n)`: prefix, `n`, the `n` bytes of SRC, zeros up to six (R161). -/
def shortForm (s : State) (mref : BitVec 3) (n : Nat) : State :=
  let s1 := (((writerStart s mref).putBytes [BitVec.ofNat 8 n]).putLiterals 0 n)
  s1.putBytes (List.replicate (6 - n) 0)

/-- `EncoderFault` ends the command with `RESULT = WRITTEN = 0`; DST is unspecified (R162,
46_host_operations.md R331, R338; log 6). No rule says what the unit registers hold then: they are those of `s`,
in which BW is as before the operation that failed (log 21). -/
def encoderFault (s : State) : State := s.freeDst.endCommand 0 0

/-- The end of a successful compression: `RESULT <- op; WRITTEN <- op` (46_host_operations.md R331). -/
def compressDone (s : State) : State := s.endCommand s.bw.op s.bw.op

end Sys2Proof.Machine
end

