-- ==== Sys2Proof/Machine/Search.lean ====
section
/-! DEFINITION. The match-finder in mode DEFAULT, the search of COMPRESS: its set-up, one pass of its
loop, and its end (43_default_match_finder.md R210 to R225). -/

namespace Sys2Proof.Machine

/-- MF's loop condition `ip < ipet`; `ipet` is signed (R216, R247). -/
def Finder.more (m : Finder) : Bool := decide ((m.ip.toNat : Int) < m.ipet.toInt)

/-- The set-up of the DEFAULT search, in a command that has started (R210 to R213): HT is initialised only if
the loop will run at least once (42_hash_dictionary.md R183). -/
def searchSetup (s : State) : State :=
  let s1 := writerStart s 6
  if s1.mf.more then
    { s1 with ht := initTable2 s1.ht s1.src (tableSize Config.htMaxDefault s.srcl.toNat), phase := .search }
  else { s1 with phase := .search }

/-- The hash step of a pass: `iw1`, `iw2`, `ipo` and `h` of the position at `ip` (R217;
42_hash_dictionary.md R180). -/
def hashStep (s : State) : State :=
  let ip := s.mf.ip.toNat
  let iw1 : Word := BitVec.ofNat 32 (s.src.readLE ip 4)
  let iw2 : BitVec 16 := BitVec.ofNat 16 (s.src.readLE (ip + 4) 2)
  s.setMf { s.mf with iw1 := iw1, iw2 := iw2, ipo := s.mf.ip, h := hash iw1 (iw2.setWidth 32) }

/-- A miss: the tuple is stored, `mavg` falls, the cursor advances with the dither (R186, R223, R224). -/
def searchMiss (s : State) (b : Nat) : State :=
  let m := s.mf
  let mavg := mavgMiss m.mavg
  { s with
    ht := miss2 s.ht b m.iw1 m.ipo
    mf := { m with
      mavg := mavg
      rndb := missDither mavg m.rndb m.ip.toNat m.ipa.toNat
      ip := m.ip + BitVec.ofNat 32 (missAdvance mavg m.rndb m.ip.toNat m.ipa.toNat) } }

/-- `bmc` of a back-extension by at most `bml`: 0 when no literal precedes the position (R219, R250). -/
def backExtend (src : Memory) (ip wp lc bml : Nat) : Nat := if 0 < lc then src.rev ip wp bml else 0

/-- A match extended in both directions: its limit, its forward length, the limit and the length of the
back-extension (R218, R219; 44_hi_ratio_match_finder.md R250). -/
structure Extension where
  ml : Nat
  fwd : Nat
  bml : Nat
  bmc : Nat
  deriving DecidableEq, Repr

/-- The extension of a hit at offset `d`, both in their registers (R218, R219). -/
def extendHit (src : Memory) (m : Finder) : Extension :=
  let ip := m.ip.toNat
  let wp := m.wp.toNat
  let ml := min (min m.d.toNat Config.refLen) (m.ipe.toNat - ip)
  let fwd := Config.refMin + src.fwd (ip + Config.refMin) (wp + Config.refMin) (ml - Config.refMin)
  let lc := ip - m.ipa.toNat
  let bml := min (min lc 16) (ml - fwd)
  { ml := ml, fwd := fwd, bml := bml, bmc := backExtend src ip wp lc bml }

/-- MF's registers after both extensions: `rc` and `lc` count the back-extension, `ip` is moved back by it;
`bml` and `bmc` are set only if there are literals before the match (R219, R250). -/
def Finder.extended (m : Finder) (e : Extension) : Finder :=
  let lc := m.ip.toNat - m.ipa.toNat
  { m with
    ip := BitVec.ofNat 32 (m.ip.toNat - e.bmc)
    ml := BitVec.ofNat 10 e.ml
    rc := BitVec.ofNat 10 (e.fwd + e.bmc)
    lc := BitVec.ofNat 32 (lc - e.bmc)
    bml := if 0 < lc then BitVec.ofNat 5 e.bml else m.bml
    bmc := if 0 < lc then BitVec.ofNat 5 e.bmc else m.bmc }

/-- An accepted hit: extension, emission, statistic, bucket update (R218 to R222). If the emission is an
`EncoderFault`, MF's registers stay as the extension left them, `ip` at the start of the match (log 21). -/
def searchMatch (s : State) (b : Nat) (hit : Slot) : State :=
  let m := s.mf
  let e := extendHit s.src m
  let s1 := s.setMf (m.extended e)
  match writeBlk s1 (m.ip.toNat - m.ipa.toNat - e.bmc) (e.fwd + e.bmc) m.d.toNat m.ipa.toNat with
  | none => encoderFault s1
  | some t =>
    { t with
      ht := hit2 t.ht b hit m.iw1 m.ipo m.d.toNat
      mf := { s1.mf with
        ip := BitVec.ofNat 32 (m.ip.toNat + e.fwd)
        ipa := BitVec.ofNat 32 (m.ip.toNat + e.fwd)
        mavg := mavgHit m.mavg (e.fwd + e.bmc) } }

/-- A hit on tuple `hit` at position `wp`: the reject tests, else the match (R218). -/
def searchHit (s : State) (b : Nat) (hit : Slot) (wp : Word) : State :=
  let d := s.mf.ip.toNat - wp.toNat
  let s1 := s.setMf { s.mf with wp := wp, d := BitVec.ofNat 32 d }
  if d < 8 then s1.setMf { s1.mf with ip := s1.mf.ip + 1 }
  else if Config.winLen ≤ d then
    (s1.setMf { s1.mf with ip := s1.mf.ip + 1 }).setHt (refresh2 s1.ht b hit s1.mf.ipo)
  else searchMatch s1 b hit

/-- One pass of the DEFAULT search (R216, R217). -/
def searchPass (s : State) : State :=
  let s1 := hashStep s
  let b := bucketOf s1.mf.h s1.mf.hmask
  match probe2 s1.ht s1.src b s1.mf.iw1 s1.mf.iw2 with
  | none => searchMiss s1 b
  | some (hit, wp) => searchHit s1 b hit wp

/-- The end of the input: the terminal literal block and the result (R225). -/
def searchEnd (s : State) : State :=
  match finalize s (s.mf.ipe.toNat - s.mf.ipa.toNat + Config.litFin) s.mf.ipa.toNat with
  | none => encoderFault s
  | some t => compressDone t

end Sys2Proof.Machine
end

