-- ==== Sys2Proof/Machine/SearchHi.lean ====
section
/-! DEFINITION. The match-finder in mode HI, the search of COMPRESS_HI: set-up, one pass with its
seven-way probe and lazy selection, and its end (44_hi_ratio_match_finder.md R240 to R256). -/

namespace Sys2Proof.Machine

/-- The set-up of the HI search, in a command that has started (R240, R242). `prc`, `pd` and `pip` keep what
they hold, here and wherever `pv` becomes 0 (log 9). -/
def searchHiSetup (s : State) : State :=
  let s1 := writerStart s 5
  if s1.mf.more then
    { s1 with ht := initTable7 s1.ht s1.src (tableSize Config.htMaxHi s.srcl.toNat), phase := .searchHi }
  else { s1 with phase := .searchHi }

/-- The hash step of a pass: `iw2` is the one byte at `ip + 4` (42_hash_dictionary.md R180). -/
def hashStepHi (s : State) : State :=
  let ip := s.mf.ip.toNat
  let iw1 : Word := BitVec.ofNat 32 (s.src.readLE ip 4)
  let iw2 : BitVec 16 := (s.src.read (ip + 4)).setWidth 16
  s.setMf { s.mf with iw1 := iw1, iw2 := iw2, ipo := s.mf.ip, h := hash iw1 (iw2.setWidth 32) }

/-- A candidate match: where it was found, its forward length, its offset, its limit (R248). -/
structure Candidate where
  wp : Nat
  rc : Nat
  d : Nat
  ml : Nat
  deriving DecidableEq, Repr

/-- What the probe has found so far: whether a tuple has the key, and the best candidate (R248). -/
structure Probe where
  keyed : Bool
  best : Option Candidate
  deriving DecidableEq, Repr

/-- `[d > 2^18]`: what a far offset costs (R248, R249). -/
def farCost (d : Nat) : Nat := if Config.farPenalty < d then 1 else 0

/-- The length of the best candidate so far, 0 without one: `brc` (R248). -/
def Probe.brc (p : Probe) : Nat :=
  match p.best with
  | some c => c.rc
  | none => 0

/-- One tuple `(key, off)` of the probe at position `ip` (R248). -/
def probeTuple (src : Memory) (ip ipe : Nat) (iw1 key : Word) (off : Nat) (p : Probe) : Probe :=
  if key ≠ iw1 then p
  else if ip < off + 8 ∨ Config.winLen ≤ ip - off then { p with keyed := true }
  else
    let d := ip - off
    let ml := min (min d Config.mlenHi) (ipe - ip)
    let rc := 4 + src.fwd (ip + 4) (off + 4) (ml - 4)
    if p.brc + farCost d < rc then { keyed := true, best := some { wp := off, rc := rc, d := d, ml := ml } }
    else { p with keyed := true }

/-- The seven tuples of a bucket, in their order (R198, R248). -/
def probe7 (ht src : Memory) (b ip ipe : Nat) (iw1 : Word) : Probe :=
  (visitOrder ht b).foldl
    (fun p ti => probeTuple src ip ipe iw1 (ht.htWord b ti) (ht.htWord b (ti + 1)).toNat p)
    { keyed := false, best := none }

/-- The candidate that passes the rejection test, which is applied to the forward length (R249). -/
def Probe.accepted (p : Probe) : Option Candidate :=
  match p.best with
  | some c => if c.rc < 5 + farCost c.d then none else some c
  | none => none

/-- The estimated block cost `OV(d, lc)`, with the writer's carry shift (R251). -/
def blockCost (w : Writer) (d lc : Nat) : Nat :=
  let sh := 10 + (if w.csh = 0 then 0 else 3) + (if 0 < lc then 2 else 0)
  lc + (if 0 < lc then 1 else 0) + (if 15 < lc then 1 else 0) + 2 +
    (if 2 ^ sh ≤ d then 1 else 0) + (if 2 ^ (sh + 8) ≤ d then 1 else 0)

/-- The emission that ends a pass: `WRITE_BLK`, the cursor and the anchor past the match, nothing pending
(R256); `prc`, `pd` and `pip` keep what they hold (log 9). -/
def emitHi (s : State) (lc rc d ip : Nat) : State :=
  let s1 := s.setMf { s.mf with
    rc := BitVec.ofNat 10 rc, d := BitVec.ofNat 32 d, ip := BitVec.ofNat 32 ip, lc := BitVec.ofNat 32 lc }
  match writeBlk s1 lc rc d s1.mf.ipa.toNat with
  | none => encoderFault s1
  | some t =>
    t.setMf { t.mf with ip := BitVec.ofNat 32 (ip + rc), ipa := BitVec.ofNat 32 (ip + rc), pv := false }

/-- The pending candidate becomes `(rc, d, pip)`, and the search goes on after the hashed position
(R252, R255). -/
def Finder.hold (m : Finder) (rc d pip : Nat) : Finder :=
  { m with pv := true, prc := BitVec.ofNat 10 rc, pd := BitVec.ofNat 23 d, pip := BitVec.ofNat 32 pip
           ip := m.ipo + 1 }

/-- The previous candidate wins without overlap: it is emitted and the current one is held (R255). -/
def emitPrevious (s : State) (rc d ip : Nat) : State :=
  let m := s.mf
  match writeBlk s (m.pip.toNat - m.ipa.toNat) m.prc.toNat m.pd.toNat m.ipa.toNat with
  | none => encoderFault s
  | some t =>
    t.setMf ({ t.mf with ipa := BitVec.ofNat 32 (m.pip.toNat + m.prc.toNat) }.hold rc d ip)

/-- Whether the pending candidate wins: `prc · ov > rc · pov` (R253). -/
def previousWins (s : State) (lc rc d : Nat) : Bool :=
  let m := s.mf
  let ov := blockCost s.bw d lc
  let pov := blockCost s.bw m.pd.toNat (m.pip.toNat - m.ipa.toNat)
  decide (rc * pov < m.prc.toNat * ov)

/-- The lazy selection, for the candidate `(rc, d)` that starts at `ip` after `lc` literals (R252 to
R256). -/
def lazySelect (s : State) (lc rc d ip : Nat) : State :=
  let m := s.mf
  if m.pv = false then s.setMf (m.hold rc d ip)
  else if previousWins s lc rc d then
    if ip < m.pip.toNat + m.prc.toNat then
      emitHi s (m.pip.toNat - m.ipa.toNat) m.prc.toNat m.pd.toNat m.pip.toNat
    else emitPrevious s rc d ip
  else emitHi s lc rc d ip

/-- The back-extension of a candidate, clamped by `wp` too (R250). -/
def extendCandidate (src : Memory) (m : Finder) (c : Candidate) : Extension :=
  let lc := m.ip.toNat - m.ipa.toNat
  let bml := min (min (min lc 16) (c.ml - c.rc)) c.wp
  { ml := c.ml, fwd := c.rc, bml := bml, bmc := backExtend src m.ip.toNat c.wp lc bml }

/-- An accepted candidate: back-extension, then the lazy selection (R250). -/
def searchHiMatch (s : State) (c : Candidate) : State :=
  let m := s.mf
  let e := extendCandidate s.src m c
  let m1 := { m.extended e with
    wp := BitVec.ofNat 32 c.wp
    d := BitVec.ofNat 32 c.d }
  lazySelect (s.setMf m1) (m.ip.toNat - m.ipa.toNat - e.bmc) (c.rc + e.bmc) c.d (m.ip.toNat - e.bmc)

/-- One pass of the HI search (R247 to R249). -/
def searchHiPass (s : State) : State :=
  let s1 := hashStepHi s
  let m := s1.mf
  let b := bucketOf m.h m.hmask
  let p := probe7 s1.ht s1.src b m.ip.toNat m.ipe.toNat m.iw1
  let s2 := if p.keyed then s1 else s1.setHt (miss7 s1.ht b m.iw1 m.ipo)
  match p.accepted with
  | none => s2.setMf { m with ip := m.ip + 1 }
  | some c => searchHiMatch s2 c

/-- The end of the input: the pending candidate if there is one, then the terminal literal block (R256); `prc`,
`pd` and `pip` keep what they hold (log 9). -/
def searchHiEnd (s : State) : State :=
  let m := s.mf
  if m.pv then
    match writeBlk s (m.pip.toNat - m.ipa.toNat) m.prc.toNat m.pd.toNat m.ipa.toNat with
    | none => encoderFault s
    | some t =>
      searchEnd (t.setMf { t.mf with ipa := BitVec.ofNat 32 (m.pip.toNat + m.prc.toNat), pv := false })
  else searchEnd s

end Sys2Proof.Machine
end

