-- ==== Sys2Proof/Machine/Compress.lean ====
section
/-! DEFINITION. The commands COMPRESS and COMPRESS_HI: argument checks, short form, start of the search
(46_host_operations.md R331, R332). -/

namespace Sys2Proof.Machine

/-- The tests that end a compression with result 0 before anything is written, in their order; `bound` is
the least capacity that is enough (R331). -/
def compressRejects (s : State) (bound : Nat) : Bool :=
  decide (Config.lenMax < s.srcl.toNat) || decide (Config.lenMax < s.dstl.toNat) ||
    decide (s.srcl.toNat = 0) || decide (s.dstl.toNat < bound)

/-- `COMPRESS` (R331): the search it starts goes on at the next steps. -/
def execCompress (s : State) : Host.Outcome State Fault Refusal :=
  let s1 := s.beginCommand .default
  if compressRejects s (boundDefault s.srcl.toNat) then .next (s1.endCommand 0 0)
  else if s.srcl.toNat < 16 then .next (compressDone (shortForm s1 6 s.srcl.toNat))
  else .next (searchSetup s1)

/-- `COMPRESS_HI` (R332). -/
def execCompressHi (s : State) : Host.Outcome State Fault Refusal :=
  let s1 := s.beginCommand .hi
  if compressRejects s (boundHi s.srcl.toNat) then .next (s1.endCommand 0 0)
  else if s.srcl.toNat < 16 then .next (compressDone (shortForm s1 5 s.srcl.toNat))
  else .next (searchHiSetup s1)

end Sys2Proof.Machine
end

