-- ==== Sys2Proof/Machine/Stream.lean ====
section
/-! DEFINITION. The frame of a decoding command around its blocks: the start (45_decoder.md R281, R283),
the prefix instruction (R282) and the termination (R298). -/

namespace Sys2Proof.Machine

/-- The argument checks and the start of DECOMPRESS and DECOMPRESS_PARTIAL (R280, R281, R283). No byte of
SRC or DST is touched. -/
def decodeStart (r : Report) (s : State) : State :=
  let s1 := s.beginCommand .default
  if Config.lenMax < s.srcl.toNat ∨ Config.lenMax < s.dstl.toNat then s1.raise r .params 0
  else if s.srcl = 0 then
    if s.dstl = 0 then s1.endCommand 0 0 else s1.raise r .params 0
  else { s1 with phase := .header r }

/-- `PREFIX`: `mref1 <- (SRC[0] & 15) - 1; ip <- 1`, and the dispatch loop begins (R282). -/
def execStreamPrefix (mref : BitVec 4) (s : State) : Host.Outcome State Fault Refusal :=
  .next { s with bd := { s.bd with mref1 := mref.setWidth 5 - 1, ip := 1 }
                 phase := .blocks s.phase.report }

/-- The termination: `op = ope` is success with `WRITTEN = op`, else `E_DSTLEN` (R298); `RESULT` by R333,
R334, which agree on success. -/
def decodeEnd (s : State) : State :=
  if s.bd.op = s.bd.ope then s.endCommand s.bd.ope s.bd.op
  else s.raise s.phase.report .dstLen s.bd.op.toNat

/-- A stream whose format is not known: `E_UNKFMT` (R282, 60_exceptions.md R368). -/
def formatUnknown (s : State) : State := s.raise s.phase.report .unkFmt 0

end Sys2Proof.Machine
end

