-- ==== Sys2Proof/Machine/Decompress.lean ====
section
/-! DEFINITION. The commands DECOMPRESS and DECOMPRESS_PARTIAL (46_host_operations.md R333, R334). They
run the same rules and differ only in `RESULT`. -/

namespace Sys2Proof.Machine

/-- `DECOMPRESS` (R333): argument checks and start; the prefix and the blocks are the next steps. -/
def execDecompress (s : State) : Host.Outcome State Fault Refusal := .next (decodeStart .full s)

/-- `DECOMPRESS_PARTIAL` (R334). -/
def execDecompressPartial (s : State) : Host.Outcome State Fault Refusal := .next (decodeStart .bestEffort s)

end Sys2Proof.Machine
end

