-- ==== Sys2Proof/Machine/Literal.lean ====
section
/-! DEFINITION. The literal blocks `LITS` and `LITL` (45_decoder.md R285 to R289). -/

namespace Sys2Proof.Machine

/-- The steps common to both literal blocks (R285), for header `bh`, of which `head` bytes precede the
`cc` literal bytes. The source test comes first; a failing test commits the bytes that fit. -/
def literalBlock (bh : Byte) (head cc : Nat) (s : State) : State :=
  let b := s.bd
  let ip := b.ip.toNat + head
  let op := b.op.toNat
  let s1 := s.setBd { b with
    bh := bh, bt := 0, cc := BitVec.ofNat 29 cc, ip := BitVec.ofNat 32 ip
    cv := literalCarry b.cv b.csh (headerQ bh), csh := b.csh + 2 }
  if b.ipe.toNat < ip + cc then
    let n := min (b.ipe.toNat - ip) (b.ope.toNat - op)
    (s1.setDst (s.dst.copyFrom s.src op ip n)).raise s.phase.report .srcOob (op + n)
  else if b.ope.toNat < op + cc then
    (s1.setDst (s.dst.copyFrom s.src op ip (b.ope.toNat - op))).raise s.phase.report .dstOob b.ope.toNat
  else
    (s1.setDst (s.dst.copyFrom s.src op ip cc)).setBd
      { s1.bd with ip := BitVec.ofNat 32 (ip + cc), op := BitVec.ofNat 32 (op + cc) }

/-- `LITS` (R286). -/
def execLits (q : BitVec 2) (len : BitVec 4) (s : State) : Host.Outcome State Fault Refusal :=
  .next (literalBlock (headerByte q 0 len) 1 len.toNat s)

/-- `LITL`: the varint took `nv` bytes and gives `16 + v` literals (R287, R288). -/
def execLitl (q : BitVec 2) (nv : Nat) (v : BitVec 28) (s : State) : Host.Outcome State Fault Refusal :=
  .next (literalBlock (headerByte q 0 0) (1 + nv) (16 + v.toNat) s)

end Sys2Proof.Machine
end

