-- ==== Sys2Proof/Machine/Reference.lean ====
section
/-! DEFINITION. The nine reference blocks (45_decoder.md R290 to R297, R301 to R309). -/

namespace Sys2Proof.Machine

/-- The steps common to the nine reference blocks (R290), for header `bh`, offset bytes `o`, `lenBytes`
length bytes and the length `cc` they give. The offset is tested first, before the length bytes are
read; a copy that does not fit is clipped. -/
def referenceBlock (bh : Byte) (o lenBytes cc : Nat) (s : State) : State :=
  let b := s.bd
  let bt := headerType bh
  let op := b.op.toNat
  let d := assembleOffset (headerQ bh) o b.csh b.cv
  let ip := b.ip.toNat + 1 + bt.toNat
  let s1 := s.setBd { b with
    bh := bh, bt := bt, d := d, csh := refCarryShift bt, cv := refCarryValue o
    ip := BitVec.ofNat 32 ip }
  if op < d then
    s1.raise s.phase.report .refOob op
  else
    let s2 := s1.setBd { s1.bd with cc := BitVec.ofNat 29 cc, ip := BitVec.ofNat 32 (ip + lenBytes) }
    if b.ope.toNat < op + cc then
      (s2.setDst (s.dst.copyWithin op (op - d) (b.ope.toNat - op))).raise s.phase.report .dstOob
        b.ope.toNat
    else
      (s2.setDst (s.dst.copyWithin op (op - d) cc)).setBd
        { s2.bd with op := BitVec.ofNat 32 (op + cc) }

/-- Form S: no length byte, `cc = L + mref1` (R294). -/
def referenceS (q bt : BitVec 2) (o : Nat) (len : BitVec 4) (s : State) : State :=
  referenceBlock (headerByte q bt len) o 0 (lengthS s.bd.mref1 len) s

/-- Form L: one length byte (R294). -/
def referenceL (q bt : BitVec 2) (o : Nat) (b : Byte) (s : State) : State :=
  referenceBlock (headerByte q bt 0) o 1 (lengthL s.bd.mref1 b) s

/-- Form X: the length byte `0xFF` and a second one (R294). -/
def referenceX (q bt : BitVec 2) (o : Nat) (b2 : Byte) (s : State) : State :=
  referenceBlock (headerByte q bt 0) o 2 (lengthX s.bd.mref1 b2) s

/-- `REF1S` (R301). -/
def execRef1s (q : BitVec 2) (o : BitVec 8) (len : BitVec 4) (s : State) : Host.Outcome State Fault Refusal :=
  .next (referenceS q 1 o.toNat len s)

/-- `REF1L` (R302). -/
def execRef1l (q : BitVec 2) (o : BitVec 8) (b : Byte) (s : State) : Host.Outcome State Fault Refusal :=
  .next (referenceL q 1 o.toNat b s)

/-- `REF1X` (R303). -/
def execRef1x (q : BitVec 2) (o : BitVec 8) (b2 : Byte) (s : State) : Host.Outcome State Fault Refusal :=
  .next (referenceX q 1 o.toNat b2 s)

/-- `REF2S` (R304). -/
def execRef2s (q : BitVec 2) (o : BitVec 16) (len : BitVec 4) (s : State) : Host.Outcome State Fault Refusal :=
  .next (referenceS q 2 o.toNat len s)

/-- `REF2L` (R305). -/
def execRef2l (q : BitVec 2) (o : BitVec 16) (b : Byte) (s : State) : Host.Outcome State Fault Refusal :=
  .next (referenceL q 2 o.toNat b s)

/-- `REF2X` (R306). -/
def execRef2x (q : BitVec 2) (o : BitVec 16) (b2 : Byte) (s : State) : Host.Outcome State Fault Refusal :=
  .next (referenceX q 2 o.toNat b2 s)

/-- `REF3S`: after it `csh = 3` and `cv = c3` (R307). -/
def execRef3s (q : BitVec 2) (o : BitVec 24) (len : BitVec 4) (s : State) : Host.Outcome State Fault Refusal :=
  .next (referenceS q 3 o.toNat len s)

/-- `REF3L` (R308). -/
def execRef3l (q : BitVec 2) (o : BitVec 24) (b : Byte) (s : State) : Host.Outcome State Fault Refusal :=
  .next (referenceL q 3 o.toNat b s)

/-- `REF3X` (R309). -/
def execRef3x (q : BitVec 2) (o : BitVec 24) (b2 : Byte) (s : State) : Host.Outcome State Fault Refusal :=
  .next (referenceX q 3 o.toNat b2 s)

end Sys2Proof.Machine
end

