-- ==== Sys2Proof/Machine/Dispatch.lean ====
section
/-! DEFINITION. One arm for each instruction, each a direct call of its meaning. -/

namespace Sys2Proof.Machine

def exec (i : Instr) (s : State) : Host.Outcome State Fault Refusal :=
  match i with
  | .streamPrefix mref => Sys2Proof.Machine.execStreamPrefix mref s
  | .lits q len => Sys2Proof.Machine.execLits q len s
  | .litl q nv v => Sys2Proof.Machine.execLitl q nv v s
  | .ref1s q o len => Sys2Proof.Machine.execRef1s q o len s
  | .ref1l q o b => Sys2Proof.Machine.execRef1l q o b s
  | .ref1x q o b2 => Sys2Proof.Machine.execRef1x q o b2 s
  | .ref2s q o len => Sys2Proof.Machine.execRef2s q o len s
  | .ref2l q o b => Sys2Proof.Machine.execRef2l q o b s
  | .ref2x q o b2 => Sys2Proof.Machine.execRef2x q o b2 s
  | .ref3s q o len => Sys2Proof.Machine.execRef3s q o len s
  | .ref3l q o b => Sys2Proof.Machine.execRef3l q o b s
  | .ref3x q o b2 => Sys2Proof.Machine.execRef3x q o b2 s
  | .compress => Sys2Proof.Machine.execCompress s
  | .compressHi => Sys2Proof.Machine.execCompressHi s
  | .decompress => Sys2Proof.Machine.execDecompress s
  | .decompressPartial => Sys2Proof.Machine.execDecompressPartial s
  | .bound => Sys2Proof.Machine.execBound s
  | .boundHi => Sys2Proof.Machine.execBoundHi s

end Sys2Proof.Machine
end

