-- ==== Sys2Proof/Machine/Fetch.lean ====
section
/-! DEFINITION. What the engine does next: which instruction it fetches and from where, or which step
of a unit is due (45_decoder.md R280, R282, R284; 43_default_match_finder.md R216, R225;
44_hi_ratio_match_finder.md R247, R256; 46_host_operations.md R330). -/

namespace Sys2Proof.Machine

/-- What is due. -/
inductive Due where
  /-- An instruction: a command from `CMD`, the prefix, or a block. -/
  | instr (i : Instr)
  /-- The first byte of the stream names an unknown format. -/
  | badFormat
  /-- BD's loop has ended. -/
  | streamEnd
  /-- A pass of the DEFAULT search. -/
  | pass
  /-- The end of the DEFAULT search. -/
  | passEnd
  /-- A pass of the HI search. -/
  | passHi
  /-- The end of the HI search. -/
  | passHiEnd
  /-- Nothing: the engine is idle (70_reset_and_hazards.md R402). -/
  | nothing
  deriving DecidableEq, Repr

/-- BD's loop condition `ip < ipet`; `ipet` is signed (R284). -/
def Decoder.more (b : Decoder) : Bool := decide ((b.ip.toNat : Int) < b.ipet.toInt)

/-- The bytes of SRC a block's head can take, from `ip` on; reading has no side effect, and the bytes a
block does not cover do not change what is decoded (20_memory.md R67, R68). -/
def blockWindow (src : Memory) (ip : Nat) : List Byte := (List.range 6).map fun i => src.read (ip + i)

/-- What the engine does next. -/
def fetch (s : State) : Due :=
  match s.phase with
  | .idle => .nothing
  | .start =>
    match decode (.command s.cmd) with
    | .ok i => .instr i
    | .error _ => .nothing
  | .header _ =>
    match decode (.header (s.src.read 0)) with
    | .ok i => .instr i
    | .error _ => .badFormat
  | .blocks _ =>
    if s.bd.more then .instr (decodeBlock (blockWindow s.src s.bd.ip.toNat)) else .streamEnd
  | .search => if s.mf.more then .pass else .passEnd
  | .searchHi => if s.mf.more then .passHi else .passHiEnd

/-- One step of the engine. -/
def engineStep (s : State) : Host.Outcome State Fault Refusal :=
  match fetch s with
  | .instr i => exec i s
  | .badFormat => .next (formatUnknown s)
  | .streamEnd => .next (decodeEnd s)
  | .pass => .next (searchPass s)
  | .passEnd => .next (searchEnd s)
  | .passHi => .next (searchHiPass s)
  | .passHiEnd => .next (searchHiEnd s)
  | .nothing => .next s

/-- The state whose next step fetches the window, the host having nothing to do before it: the command
code in `CMD` with the command started; the prefix byte in SRC with a decoding command at its prefix; a
block's bytes in SRC at index 1 with the dispatch loop there and the stream long enough to go on (log 14). -/
def State.withWindow (s : State) : Window → State
  | .command w => { s with hostScript := [], cmd := w, status := statusBusy, phase := .start }
  | .header b =>
    { s with hostScript := [], src := s.src.write 0 b, status := statusBusy, phase := .header .full }
  | .block bs =>
    { s with hostScript := [], src := s.src.writeBytes 1 bs, status := statusBusy, phase := .blocks .full
             bd := { s.bd with ip := 1, ipe := 39, ipet := 33 } }

end Sys2Proof.Machine
end

