-- ==== Sys2Proof/Machine/Port.lean ====
section
/-! DEFINITION. The host's side of the interface: register accesses (10_state.md R22 to R24, 46_host_operations.md
R330), accesses to SRC and DST (70_reset_and_hazards.md R403, R404, R412), external reset (R37). -/

namespace Sys2Proof.Machine

/-- A write of `CMD`: code 1 to 6 while `BUSY = 0` starts that command; any other write has no effect
(R22, R23, R24). -/
def hostWriteCmd (v : Word) (s : State) : State :=
  if s.busy then s
  else
    match decodeCommand v with
    | .ok _ => { s with cmd := v, status := statusBusy, phase := .start, spoiled := false }
    | .error _ => s

/-- A host write to register `no` (R22). While `BUSY = 1` a write of `SRCL` or `DSTL` spoils the command in
progress (R412); a write of a read-only register has no effect (log 7). -/
def hostWriteReg (no : BitVec 3) (v : Word) (s : State) : Host.Outcome State Fault Refusal :=
  match no.toNat with
  | 0 => .next (hostWriteCmd v s)
  | 1 => .next { s with srcl := v, spoiled := s.spoiled || s.busy }
  | 2 => .next { s with dstl := v, spoiled := s.spoiled || s.busy }
  | 3 => .next s
  | 4 => .next s
  | 5 => .next s
  | _ => .fault .noSuchRegister

/-- A host write of a byte of SRC; while `BUSY = 1` it spoils the command in progress (R412). -/
def hostWriteSrc (a : Nat) (b : Byte) (s : State) : Host.Outcome State Fault Refusal :=
  if a < Config.lenMax then .next { s with src := s.src.write a b, spoiled := s.spoiled || s.busy }
  else .fault .noSuchIndex

/-- A host write of a byte of DST; while `BUSY = 1` it spoils the command in progress (R412). -/
def hostWriteDst (a : Nat) (b : Byte) (s : State) : Host.Outcome State Fault Refusal :=
  if a < Config.lenMax then .next { s with dst := s.dst.write a b, spoiled := s.spoiled || s.busy }
  else .fault .noSuchIndex

/-- The state after a read by the host that gave `v`. -/
def State.hostGot (s : State) (v : Word) : State := { s with readValue := v }

/-- A host read of register `no` (R22). The write-only `CMD` gives a free value, a new draw at each read
(log 7); there is no register 6 or 7. -/
def hostReadReg (no : BitVec 3) (s : State) : Host.Outcome State Fault Refusal :=
  match no.toNat with
  | 0 => .next { s.hostGot (Config.freeWord s.draws) with draws := s.draws + 1 }
  | 1 => .next (s.hostGot s.srcl)
  | 2 => .next (s.hostGot s.dstl)
  | 3 => .next (s.hostGot s.status)
  | 4 => .next (s.hostGot s.result)
  | 5 => .next (s.hostGot s.written)
  | _ => .fault .noSuchRegister

/-- A host read of a byte of DST. While `BUSY = 1` the host must not do this (R24, R412): the byte is free, a
new draw at each read, and the command in progress is spoiled (log 5). -/
def hostReadDst (a : Nat) (s : State) : Host.Outcome State Fault Refusal :=
  if a < Config.lenMax then
    if s.busy then
      .next { s.hostGot ((Config.freeByte s.draws a).setWidth 32) with draws := s.draws + 1, spoiled := true }
    else .next (s.hostGot ((s.dst.read a).setWidth 32))
  else .fault .noSuchIndex

/-- One access of the host, already taken off the script (log 4); an external reset keeps the rest of it
(log 15). -/
def hostAccess (h : HostAccess) (s : State) : Host.Outcome State Fault Refusal :=
  match h with
  | .engineTurn => .next s
  | .writeReg no v => hostWriteReg no v s
  | .writeSrc a b => hostWriteSrc a b s
  | .writeDst a b => hostWriteDst a b s
  | .readReg no => hostReadReg no s
  | .readDst a => hostReadDst a s
  | .externalReset => .next { State.powerOn s.draws with hostScript := s.hostScript }

end Sys2Proof.Machine
end

