-- ==== Sys2Proof/Machine/Step.lean ====
section
/-! DEFINITION. The step of the machine: the host's next access if one is due, else the engine's step. -/

namespace Sys2Proof.Machine

/-- One step. The host script says whose turn it is (log 4); with an empty script it is the engine's. -/
def step (s : State) : Host.Outcome State Fault Refusal :=
  match s.hostScript with
  | [] => engineStep s
  | .engineTurn :: r => engineStep { s with hostScript := r }
  | h :: r => hostAccess h { s with hostScript := r }

/-- `s` with an instruction, given by its bits as the opcode table numbers them, where the next step
fetches (log 14). -/
def State.withFetchWord (s : State) (nbits w : Nat) : State := s.withWindow (tableWindow nbits w)

end Sys2Proof.Machine
end

