-- ==== Sys2Proof/Safety.lean ====
section
/-! DEFINITION. What counts as a sound state of the machine, in the terms the statements use: canonical
memories, a status that fits the phase, the bounds of the decoder (45_decoder.md R300) and of the
encoder (10_state.md R38, 46_host_operations.md R337), and the dictionary invariants
(42_hash_dictionary.md R189, R200). -/

namespace Sys2Proof.Machine

/-- The three memories are in canonical form. -/
def State.memWf (s : State) : Prop := s.src.wf = true ∧ s.dst.wf = true ∧ s.ht.wf = true

/-- `STATUS` fits the phase: `BUSY` alone while a command is in progress, else `DONE` alone or neither
(10_state.md R22, R24). -/
def State.statusOk (s : State) : Prop :=
  if s.phase = .idle then s.status = 0 ∨ s.status = statusDone else s.status = statusBusy

/-- The bounds of BD that hold from the start of a decoding command on; `cap` is the command's `dstl`
(45_decoder.md R283, R300). -/
structure DecoderBounds (b : Decoder) (cap : Word) : Prop where
  ipe_le : b.ipe.toNat ≤ Config.lenMax
  ope_le : b.ope.toNat ≤ Config.lenMax
  ope_cap : b.ope = cap
  ipet_eq : b.ipet.toInt = b.ipe.toNat - Config.litFin
  op_le : b.op.toNat ≤ b.ope.toNat

/-- The decoder's invariant: at the prefix nothing is read yet of a stream of one byte or more; at the loop
condition `1 ≤ ip ≤ ipe`, `0 ≤ op ≤ ope` (R300) and `-1 ≤ mref1 ≤ 14` (10_state.md R25). -/
def State.decoderOk (s : State) : Prop :=
  match s.phase with
  | .header _ => DecoderBounds s.bd s.cap ∧ s.bd.ip.toNat = 0 ∧ s.bd.op.toNat = 0 ∧ 1 ≤ s.bd.ipe.toNat
  | .blocks _ =>
    DecoderBounds s.bd s.cap ∧ 1 ≤ s.bd.ip.toNat ∧ s.bd.ip.toNat ≤ s.bd.ipe.toNat ∧
      -1 ≤ s.bd.mref1.toInt ∧ s.bd.mref1.toInt ≤ 14
  | .idle => True
  | .start => True
  | .search => True
  | .searchHi => True

/-- What both searches keep: the limits of the input, the cursor and the anchor, and the writer's carry
state (10_state.md R27, R32, R38). `srcl` is `ipe + 6`. -/
structure SearchBounds (m : Finder) (w : Writer) (cap : Word) : Prop where
  srcl_ge : 16 ≤ m.ipe.toNat + Config.litFin
  srcl_le : m.ipe.toNat + Config.litFin ≤ Config.lenMax
  cap_le : cap.toNat ≤ Config.lenMax
  ipet_eq : m.ipet.toInt = m.ipe.toNat - 9
  ip_ge : 16 ≤ m.ip.toNat
  ip_le : m.ip.toNat ≤ m.ipe.toNat + 600
  ipa_le_ip : m.ipa.toNat ≤ m.ip.toNat
  ipa_le_ipe : m.ipa.toNat ≤ m.ipe.toNat
  csh_ok : w.csh = 0 ∨ w.csh = 3
  cbp_ok : w.csh = 3 → ∃ c, w.cbp = some c ∧ c.toNat < w.op.toNat
  op_ge : 1 ≤ w.op.toNat

/-- The pending candidate of mode HI: a match after the anchor that ends within the input
(44_hi_ratio_match_finder.md R257). -/
structure PendingOk (m : Finder) : Prop where
  start_ge : m.ipa.toNat ≤ m.pip.toNat
  stop_le : m.pip.toNat + m.prc.toNat ≤ m.ipe.toNat
  stop_ge : 16 ≤ m.pip.toNat + m.prc.toNat
  len_ge : 5 ≤ m.prc.toNat
  len_le : m.prc.toNat ≤ m.pd.toNat
  off_ge : 8 ≤ m.pd.toNat

/-- The encoder's invariant. The stream so far is at most one byte, plus the input covered, plus one byte
for each 150 (DEFAULT) or 21 (HI) bytes of it; the capacity is at least the bound
(46_host_operations.md R331, R337). In mode DEFAULT `mavg` lies between 0 and `530 * 2^21` (R38). -/
def State.searchOk (s : State) : Prop :=
  match s.phase with
  | .search =>
    SearchBounds s.mf s.bw s.cap ∧ s.bw.mref = 6 ∧
      boundDefault (s.mf.ipe.toNat + Config.litFin) ≤ s.cap.toNat ∧
      150 * s.bw.op.toNat ≤ 150 + 151 * s.mf.ipa.toNat ∧
      0 ≤ s.mf.mavg.toInt ∧ s.mf.mavg.toInt ≤ 530 * 2 ^ 21
  | .searchHi =>
    SearchBounds s.mf s.bw s.cap ∧ s.bw.mref = 5 ∧
      boundHi (s.mf.ipe.toNat + Config.litFin) ≤ s.cap.toNat ∧
      21 * s.bw.op.toNat ≤ 21 + 22 * s.mf.ipa.toNat ∧
      (s.mf.pv = true → PendingOk s.mf)
  | .idle => True
  | .start => True
  | .header _ => True
  | .blocks _ => True

/-- A tuple of the DEFAULT dictionary, word `k` its key: its offset is a position hashed before, at or
above 16, whose four bytes are the key (R189). -/
structure TupleOk (s : State) (b k : Nat) : Prop where
  off_ge : 16 ≤ (s.ht.htWord b (k + 1)).toNat
  off_le : (s.ht.htWord b (k + 1)).toNat ≤ s.mf.ip.toNat
  off_lt : ((s.ht.htWord b (k + 1)).toNat : Int) < s.mf.ipet.toInt
  key_eq : s.ht.htWord b k = BitVec.ofNat 32 (s.src.readLE (s.ht.htWord b (k + 1)).toNat 4)

/-- The dictionary invariant of mode DEFAULT, in a search whose loop runs at all (R183, R189). -/
def State.dictionaryOk (s : State) : Prop :=
  s.phase = .search → 32 ≤ s.mf.ipe.toNat + Config.litFin →
    s.mf.hmask = maskDefault s.mf.htsize.toNat ∧
    s.mf.htsize.toNat = tableSize Config.htMaxDefault (s.mf.ipe.toNat + Config.litFin) ∧
    ∀ b, b % 16 = 0 → b < s.mf.htsize.toNat → TupleOk s b 0 ∧ TupleOk s b 2

/-- A tuple of the HI dictionary, word `k` its key: its offset is a position at or above 16 and below the
loop's end, whose four bytes are the key (R200). -/
structure TupleHiOk (s : State) (b k : Nat) : Prop where
  off_ge : 16 ≤ (s.ht.htWord b (k + 1)).toNat
  off_lt : ((s.ht.htWord b (k + 1)).toNat : Int) < s.mf.ipet.toInt
  key_eq : s.ht.htWord b k = BitVec.ofNat 32 (s.src.readLE (s.ht.htWord b (k + 1)).toNat 4)

/-- The dictionary invariant of mode HI, in a search whose loop runs at all: the head of every bucket is
one of 0, 2, .., 12 and its seven tuples are sound (R196, R200). -/
def State.dictionaryHiOk (s : State) : Prop :=
  s.phase = .searchHi → 32 ≤ s.mf.ipe.toNat + Config.litFin →
    s.mf.hmask = maskHi s.mf.htsize.toNat ∧
    s.mf.htsize.toNat = tableSize Config.htMaxHi (s.mf.ipe.toNat + Config.litFin) ∧
    ∀ b, b % 64 = 0 → b < s.mf.htsize.toNat →
      (∃ k, k < 7 ∧ (s.ht.htWord b 15).toNat = 2 * k) ∧ ∀ j, j < 7 → TupleHiOk s b (2 * j)

/-- How many bytes of DST the command in progress, or about to start, may write
(20_memory.md R61, 46_host_operations.md R330). -/
def State.capacity (s : State) : Nat := if s.phase = .start then s.dstl.toNat else s.cap.toNat

/-- The next step is the engine's. -/
def State.engineNext (s : State) : Bool :=
  match s.hostScript with
  | [] => true
  | .engineTurn :: _ => true
  | .writeReg _ _ :: _ => false
  | .writeSrc _ _ :: _ => false
  | .writeDst _ _ :: _ => false
  | .readReg _ :: _ => false
  | .readDst _ :: _ => false
  | .externalReset :: _ => false

end Sys2Proof.Machine
end

