-- ==== Sys2Proof/Certificates/Slice0/Obligations.lean ====
section
/-! DEFINITION. The statements for the provers, and before each group the words they are written in.
The words of `Sys2Proof.Claims` are written from the spec's rules, not from the model's definitions. -/

open Sys2Proof Sys2Proof.Machine

namespace Sys2Proof.Claims

/-! ### Words used by many statements -/

/-- Every byte of a memory reads as before, outside the `n` bytes from `lo` on. -/
def sameOutside (m m' : Memory) (lo n : Nat) : Prop := ∀ a, a < lo ∨ lo + n ≤ a → m'.read a = m.read a

/-- Every byte of a memory reads as before. -/
def sameBytes (m m' : Memory) : Prop := ∀ a, m'.read a = m.read a

/-- The bytes `bs` stand in a memory from `lo` on. -/
def standsAt (m : Memory) (lo : Nat) (bs : List Byte) : Prop := ∀ j, j < bs.length → m.read (lo + j) = bs.getD j 0

/-- `RESULT` of a decoding command after the error of number `code` with `w` bytes committed
(46_host_operations.md R333, R334). -/
def resultOf (r : Report) (code w : Nat) : Word :=
  match r with
  | .full => BitVec.ofInt 32 (-(code : Int))
  | .bestEffort => BitVec.ofNat 32 w

/-- The command has ended with the error of number `code` and `w` bytes committed (60_exceptions.md R361,
R365): only `RESULT`, `WRITTEN`, `STATUS`, the phase, registers of BD and DST differ from before. -/
def faulted (s t : State) (r : Report) (code w : Nat) : Prop :=
  t = { s with result := resultOf r code w, written := BitVec.ofNat 32 w, status := 2, phase := .idle
               bd := t.bd, dst := t.dst } ∧
  t.bd.st.toNat = code

/-- The start values of BD and MF in every command, whatever its arguments are (10_state.md R25, R29 to R31, R36;
70_reset_and_hazards.md R400, R401). BD's `ip` and `st` and MF's `htsize` and `hmask` are left open here. That
the registers to which R401 gives no start value (BD's `bh`, `mref1`, `cc`, `d`, `bt`; MF's temporaries, `prc`,
`pd`, `pip`) are as before is the model's choice (log 9). -/
structure UnitsStart (s t : State) : Prop where
  bd_eq : t.bd = { s.bd with
    ip := t.bd.ip, ipe := s.srcl, ipet := t.bd.ipet, op := 0, ope := s.dstl, cv := 0, csh := 0, st := t.bd.st }
  bd_ipet : t.bd.ipet.toInt = s.srcl.toNat - 6
  mf_eq : t.mf = { s.mf with
    ip := 16, ipa := 0, ipe := t.mf.ipe, ipet := t.mf.ipet, htsize := t.mf.htsize, hmask := t.mf.hmask
    mavg := 209715200, rndb := 0, pv := false }
  mf_ipe : 6 ≤ s.srcl.toNat → t.mf.ipe.toNat = s.srcl.toNat - 6
  mf_ipet : t.mf.ipet.toInt = s.srcl.toNat - 15

/-- The start values of BW but `mref`, which depends on the mode (10_state.md R27). -/
structure WriterStarts (w : Writer) : Prop where
  op_eq : w.op = 0
  csh_eq : w.csh = 0
  cbp_eq : w.cbp = none

/-- MF's registers of the table at the start of a compression of `n` bytes (42_hash_dictionary.md R182, R184, R195,
R197). -/
structure TableStarts (m : Finder) (cap n : Nat) (maskOf : Nat → BitVec 24) : Prop where
  htsize_eq : m.htsize.toNat = tableSize cap n
  hmask_eq : m.hmask = maskOf (tableSize cap n)

/-- The command has ended in an `EncoderFault` (41_block_writer.md R162; 46_host_operations.md R331, R338): `RESULT`
and `WRITTEN` are 0. The bytes of DST the command may write are free then (log 6); that BW's registers are as
before is the model's choice (log 21). -/
def encoderFaulted (s t : State) : Prop :=
  t = { s with result := 0, written := 0, status := 2, phase := .idle, dst := t.dst, draws := t.draws
               mf := t.mf } ∧
  (s.dst.wf = true → sameOutside s.dst t.dst 0 s.cap.toNat)

/-- The six bytes of SRC from `ip` on: enough for every head of a block (30_encoding.md R104). -/
def headWindow (src : Memory) (ip : Nat) : List Byte :=
  [src.read ip, src.read (ip + 1), src.read (ip + 2), src.read (ip + 3), src.read (ip + 4), src.read (ip + 5)]

/-- The next step is the engine's, and nothing of the host's is taken with it. -/
def undisturbed (s : State) : Prop := s.hostScript = []

/-! ### Encoding -/

/-- The row of the opcode map that a block instruction stands for: `bt`, whether `L` is 0, and whether the
byte at `1 + bt` is `0xFF`, where these tell rows apart (30_encoding.md R103). -/
def rowSelectedBy (bt : Nat) (nibbleZero ext : Bool) : Instr → Prop
  | .lits _ _ => bt = 0 ∧ nibbleZero = false
  | .litl _ _ _ => bt = 0 ∧ nibbleZero = true
  | .ref1s _ _ _ => bt = 1 ∧ nibbleZero = false
  | .ref1l _ _ _ => bt = 1 ∧ nibbleZero = true ∧ ext = false
  | .ref1x _ _ _ => bt = 1 ∧ nibbleZero = true ∧ ext = true
  | .ref2s _ _ _ => bt = 2 ∧ nibbleZero = false
  | .ref2l _ _ _ => bt = 2 ∧ nibbleZero = true ∧ ext = false
  | .ref2x _ _ _ => bt = 2 ∧ nibbleZero = true ∧ ext = true
  | .ref3s _ _ _ => bt = 3 ∧ nibbleZero = false
  | .ref3l _ _ _ => bt = 3 ∧ nibbleZero = true ∧ ext = false
  | .ref3x _ _ _ => bt = 3 ∧ nibbleZero = true ∧ ext = true
  | .streamPrefix _ => False
  | .compress => False
  | .compressHi => False
  | .decompress => False
  | .decompressPartial => False
  | .bound => False
  | .boundHi => False

/-- The length of a block in stream bytes (30_encoding.md R104); 0 for what is no block. -/
def blockLength : Instr → Nat
  | .lits _ len => 1 + len.toNat
  | .litl _ nv v => 1 + nv + 16 + v.toNat
  | .ref1s _ _ _ => 2
  | .ref1l _ _ _ => 3
  | .ref1x _ _ _ => 4
  | .ref2s _ _ _ => 3
  | .ref2l _ _ _ => 4
  | .ref2x _ _ _ => 5
  | .ref3s _ _ _ => 4
  | .ref3l _ _ _ => 5
  | .ref3x _ _ _ => 6
  | .streamPrefix _ => 0
  | .compress => 0
  | .compressHi => 0
  | .decompress => 0
  | .decompressPartial => 0
  | .bound => 0
  | .boundHi => 0

/-- The offset part `P` of a reference block (30_encoding.md R97): `q` below the low 21 bits of the offset
bytes. -/
def offsetPartOf : Instr → Nat
  | .ref1s q o _ => q.toNat + 4 * o.toNat
  | .ref1l q o _ => q.toNat + 4 * o.toNat
  | .ref1x q o _ => q.toNat + 4 * o.toNat
  | .ref2s q o _ => q.toNat + 4 * o.toNat
  | .ref2l q o _ => q.toNat + 4 * o.toNat
  | .ref2x q o _ => q.toNat + 4 * o.toNat
  | .ref3s q o _ => q.toNat + 4 * (o.toNat % 2 ^ 21)
  | .ref3l q o _ => q.toNat + 4 * (o.toNat % 2 ^ 21)
  | .ref3x q o _ => q.toNat + 4 * (o.toNat % 2 ^ 21)
  | .lits _ _ => 0
  | .litl _ _ _ => 0
  | .streamPrefix _ => 0
  | .compress => 0
  | .compressHi => 0
  | .decompress => 0
  | .decompressPartial => 0
  | .bound => 0
  | .boundHi => 0

/-- The carry bits `c3` of a block: bits 7:5 of the third offset byte (30_encoding.md R97). -/
def carryBitsOf : Instr → Nat
  | .ref3s _ o _ => o.toNat / 2 ^ 21
  | .ref3l _ o _ => o.toNat / 2 ^ 21
  | .ref3x _ o _ => o.toNat / 2 ^ 21
  | .ref1s _ _ _ => 0
  | .ref1l _ _ _ => 0
  | .ref1x _ _ _ => 0
  | .ref2s _ _ _ => 0
  | .ref2l _ _ _ => 0
  | .ref2x _ _ _ => 0
  | .lits _ _ => 0
  | .litl _ _ _ => 0
  | .streamPrefix _ => 0
  | .compress => 0
  | .compressHi => 0
  | .decompress => 0
  | .decompressPartial => 0
  | .bound => 0
  | .boundHi => 0

/-- The coded length `rc'` of a reference block, by its form (30_encoding.md R98). -/
def codedLengthOf : Instr → Nat
  | .ref1s _ _ len => len.toNat
  | .ref2s _ _ len => len.toNat
  | .ref3s _ _ len => len.toNat
  | .ref1l _ _ b => 16 + b.toNat
  | .ref2l _ _ b => 16 + b.toNat
  | .ref3l _ _ b => 16 + b.toNat
  | .ref1x _ _ b2 => 16 + 255 + b2.toNat
  | .ref2x _ _ b2 => 16 + 255 + b2.toNat
  | .ref3x _ _ b2 => 16 + 255 + b2.toNat
  | .lits _ _ => 0
  | .litl _ _ _ => 0
  | .streamPrefix _ => 0
  | .compress => 0
  | .compressHi => 0
  | .decompress => 0
  | .decompressPartial => 0
  | .bound => 0
  | .boundHi => 0

end Sys2Proof.Claims

open Sys2Proof.Claims

/-- Decoding what the encoder writes gives the instruction back, for every well-formed instruction; for a
block, whatever bytes follow it (30_encoding.md R90, R94 to R98; 10_state.md R23). -/
def Obligations.DecodeEncodeAgree : Prop :=
  ∀ i : Instr, i.wellFormed = true →
    decode (encode i) = .ok i ∧
    ∀ bs rest, encode i = .block bs → decode (.block (bs ++ rest)) = .ok i

/-- Encoding what the decoder reads gives the block's bytes back, so no bit of them is dropped, but for bit
7 of a fourth varint byte, which the format ignores (30_encoding.md R96, R103, R106). -/
def Obligations.EncodeDecodeAgree : Prop :=
  ∀ bs : List Byte, 6 ≤ bs.length →
    ∃ i, decode (.block bs) = .ok i ∧ i.wellFormed = true ∧
      ((∀ q v, i ≠ .litl q 4 v) ∨ (bs.getD 4 0).toNat < 128 →
        encode i = .block (bs.take i.headBytes))

/-- Every value of the header byte selects exactly one row of the opcode map (30_encoding.md R103). -/
def Obligations.EveryHeaderByteSelectsItsRow : Prop :=
  ∀ bs : List Byte, 6 ≤ bs.length →
    let bh := (bs.getD 0 0).toNat
    ∃ i, decode (.block bs) = .ok i ∧
      rowSelectedBy (bh / 16 % 4) (decide (bh % 16 = 0)) (decide ((bs.getD (1 + bh / 16 % 4) 0).toNat = 255)) i ∧
      ∀ j, decode (.block bs) = .ok j → j = i

/-- Seven words written out from the spec's examples decode to the instructions they stand for, and the prefix of
an unknown format is refused (30_encoding.md R90; 45_decoder.md R282, R286, R287, R301 to R309;
10_state.md R23). -/
def Obligations.SpecWordsDecode : Prop :=
  decode (.header 0x26) = .ok (.streamPrefix 6) ∧
  decode (.header 0x16) = .error .unknownFormat ∧
  decode (.block [0x88]) = .ok (.lits 2 8) ∧
  decode (.block [0x00, 0x80, 0x01]) = .ok (.litl 0 2 128) ∧
  decode (.block [0x91, 0x00]) = .ok (.ref1s 2 0 1) ∧
  decode (.block [0x60, 0x00, 0x00, 0xFE]) = .ok (.ref2l 1 0 254) ∧
  decode (.block [0xB0, 0x00, 0x00, 0xE0, 0xFF, 0xFF]) = .ok (.ref3x 2 0xE00000 255) ∧
  decode (.command 5) = .ok .bound

/-- `CMD[2:0]` selects the command; bits 31:3 are ignored; 0 and 7 start nothing (10_state.md R23). -/
def Obligations.CommandCodesSelectCommands : Prop :=
  ∀ w : Word,
    (w.toNat % 8 = 1 → decode (.command w) = .ok .compress) ∧
    (w.toNat % 8 = 2 → decode (.command w) = .ok .compressHi) ∧
    (w.toNat % 8 = 3 → decode (.command w) = .ok .decompress) ∧
    (w.toNat % 8 = 4 → decode (.command w) = .ok .decompressPartial) ∧
    (w.toNat % 8 = 5 → decode (.command w) = .ok .bound) ∧
    (w.toNat % 8 = 6 → decode (.command w) = .ok .boundHi) ∧
    (w.toNat % 8 = 0 ∨ w.toNat % 8 = 7 → ∀ i, decode (.command w) ≠ .ok i)

/-- The varint the writer emits is the shortest, and the decoder reads its value and exactly its bytes
(30_encoding.md R96; 41_block_writer.md R155; 45_decoder.md R288). -/
def Obligations.VarintIsShortestAndReadsBack : Prop :=
  ∀ (v : Nat) (rest : List Byte), v < 2 ^ 28 →
    varintRead 4 (shortVarint 3 v ++ rest) = (v, (shortVarint 3 v).length) ∧
    (shortVarint 3 v).length = if v ≤ 127 then 1 else if v ≤ 16383 then 2 else if v ≤ 2097151 then 3 else 4

/-- The writer's split of an offset over `c3`, the literal header and the reference block is undone by the
decoder's assembly, with the carry shift 0, 2, 3 or 5 (30_encoding.md R101, R102). -/
def Obligations.OffsetSplitRejoins : Prop :=
  ∀ (carry lit : Bool) (d : Nat), d < 2 ^ 23 →
    let sp := splitOffset carry lit d
    let csh := (if carry then 3 else 0) + (if lit then 2 else 0)
    let cv := sp.c3 + sp.q * 2 ^ (if carry then 3 else 0)
    sp.c3 < 8 ∧ sp.q < 4 ∧ sp.p < 2 ^ (2 + 8 * refType sp.p) ∧ sp.p < 2 ^ 23 ∧
    assembleOffset (BitVec.ofNat 2 sp.p) (sp.p / 4) csh cv = d

/-- The reference block that BW writes for an offset part and a coded length decodes to a block with that
part, no carry bits yet, and that length, and BW's `op` moves past exactly its bytes
(41_block_writer.md R157, R159; 30_encoding.md R97, R98, R109). -/
def Obligations.WrittenReferenceDecodesBack : Prop :=
  ∀ (s : State) (p rcp : Nat), p < 2 ^ 23 → 1 ≤ rcp → rcp ≤ 525 → s.bw.op.toNat + 6 < 2 ^ 32 →
    let t := writerReference s p rcp
    ∃ i, decode (.block (headWindow t.dst s.bw.op.toNat)) = .ok i ∧
      offsetPartOf i = p ∧ carryBitsOf i = 0 ∧ codedLengthOf i = rcp ∧
      t.bw.op.toNat = s.bw.op.toNat + blockLength i

/-- The header and length bytes of a literal block decode to a literal block of that length with those
carry bits (41_block_writer.md R155; 30_encoding.md R94, R95, R99). -/
def Obligations.WrittenLiteralHeadDecodesBack : Prop :=
  ∀ (q lc : Nat) (bs rest : List Byte), q < 4 → 1 ≤ lc → literalHead q lc = some bs →
    ∃ i, decode (.block (bs ++ rest)) = .ok i ∧ i.literalBytes = lc ∧ i.headBytes = bs.length ∧
      ((∃ len, i = .lits (BitVec.ofNat 2 q) len) ∨ ∃ nv v, i = .litl (BitVec.ofNat 2 q) nv v)

/-! ### The step and the decoder -/

/-- A step runs the decoded instruction: the command whose code stands in `CMD` at its start, the prefix, or
the block at `ip` while the loop goes on; the same after a turn the host leaves to the engine
(45_decoder.md R282, R284, R314; 46_host_operations.md R330). The step adds nothing around `exec`. That the start
of a command and the prefix are one step each is log 3 (DEDUCED), that the host's turns stand in a list is log 4
(DESIGN CHOICE). -/
def Obligations.StepRunsDecodedInstruction : Prop :=
  ∀ (s : State) (i : Instr) (rest : List HostAccess),
    (s.phase = .start ∧ decode (.command s.cmd) = .ok i ∨
      (∃ r, s.phase = .header r) ∧ decode (.header (s.src.read 0)) = .ok i ∨
      (∃ r, s.phase = .blocks r) ∧ (s.bd.ip.toNat : Int) < s.bd.ipet.toInt ∧
        decode (.block (headWindow s.src s.bd.ip.toNat)) = .ok i) →
    (s.hostScript = [] → step s = exec i s) ∧
    (s.hostScript = .engineTurn :: rest → step s = exec i { s with hostScript := rest })

/-- The prefix: a format other than 2 raises `E_UNKFMT(0)`, else `mref1` and `ip` are set and the dispatch
loop begins. The instruction completes for every nibble and in every state: `mref1` becomes the nibble
less 1, `ip` becomes 1, nothing else but the phase changes (45_decoder.md R282). -/
def Obligations.PrefixStep : Prop :=
  (∀ (mref : BitVec 4) (s : State), ∃ t, exec (.streamPrefix mref) s = .next t ∧
    t = { s with bd := { s.bd with mref1 := t.bd.mref1, ip := 1 }, phase := t.phase } ∧
    t.bd.mref1.toInt = mref.toNat - 1) ∧
  ∀ (s : State) (r : Report), undisturbed s → s.phase = .header r → s.spoiled = false →
    ((s.src.read 0).toNat / 16 ≠ 2 →
      ∃ t, step s = .next t ∧ faulted s t r 6 0 ∧ sameBytes s.dst t.dst) ∧
    ((s.src.read 0).toNat / 16 = 2 →
      ∃ t, step s = .next t ∧
        t = { s with bd := { s.bd with mref1 := t.bd.mref1, ip := 1 }, phase := .blocks r } ∧
        t.bd.mref1.toInt = ((s.src.read 0).toNat % 16 : Nat) - 1)

namespace Sys2Proof.Claims

/-- The start of a decoding command (45_decoder.md R283; `ip` is set by the prefix, R282). -/
def decodingStarts (i : Instr) (r : Report) : Prop :=
  ∀ s : State, 1 ≤ s.srcl.toNat → s.srcl.toNat ≤ 2147483647 → s.dstl.toNat ≤ 2147483647 →
    ∃ t, exec i s = .next t ∧
      t = { s with status := 1, cap := s.dstl, phase := .header r, bd := t.bd, bw := t.bw, mf := t.mf } ∧
      UnitsStart s t ∧ WriterStarts t.bw ∧ t.bd.st = 0

/-- The argument checks of a decoding command (45_decoder.md R281). -/
def argumentsChecked (i : Instr) (r : Report) : Prop :=
  ∀ s : State, s.spoiled = false →
    (2147483647 < s.srcl.toNat ∨ 2147483647 < s.dstl.toNat ∨ (s.srcl = 0 ∧ s.dstl ≠ 0) →
      ∃ t, exec i s = .next t ∧
        faulted { s with cap := t.cap, bw := t.bw, mf := t.mf } t r 1 0 ∧ sameBytes s.dst t.dst ∧
        UnitsStart s t ∧ WriterStarts t.bw) ∧
    (s.srcl = 0 → s.dstl = 0 →
      ∃ t, exec i s = .next t ∧
        t = { s with cap := t.cap, result := 0, written := 0, status := 2, phase := .idle
                     bd := t.bd, bw := t.bw, mf := t.mf, dst := t.dst } ∧
        t.bd.st = 0 ∧ sameBytes s.dst t.dst ∧ UnitsStart s t ∧ WriterStarts t.bw)

end Sys2Proof.Claims

/-- `DECOMPRESS` and `DECOMPRESS_PARTIAL` with lengths in range and a stream of at least one byte start:
`BUSY`, the registers of all units at their start values, nothing else touched (45_decoder.md R281, R283;
10_state.md R36; 46_host_operations.md R330, R333, R334). That registers without a start value keep what they hold
is the model's choice (log 9). -/
def Obligations.DecodingCommandsStart : Prop :=
  decodingStarts .decompress .full ∧ decodingStarts .decompressPartial .bestEffort

/-- `DECOMPRESS` and `DECOMPRESS_PARTIAL` with a length above `LEN_MAX`, or an empty stream for a non-empty
output, raise `E_PARAMS(0)`; an empty stream for an empty output is a success; SRC and DST are not
touched; the units' registers are at their start values, as after the start of every command (45_decoder.md R281;
10_state.md R36; 70_reset_and_hazards.md R400). That registers without a start value keep what they hold is the
model's choice (log 9). -/
def Obligations.DecodingArgumentsChecked : Prop :=
  argumentsChecked .decompress .full ∧ argumentsChecked .decompressPartial .bestEffort

namespace Sys2Proof.Claims

/-- A literal block with `head` bytes before its `cc` literals, all inside the stream and the output,
completes: the literals are copied to `DST[op ..]`, `ip` and `op` move past them, `q` goes into the
carry registers; nothing else changes but BD's `bt`, which no rule names here
(45_decoder.md R285, R289). -/
def literalCompletes (i : Instr) (q : BitVec 2) (nib : BitVec 4) (head cc : Nat) : Prop :=
  ∀ s : State, s.bd.ip.toNat + head + cc ≤ s.bd.ipe.toNat → s.bd.op.toNat + cc ≤ s.bd.ope.toNat →
    ∃ t, exec i s = .next t ∧
      t = { s with
        dst := t.dst
        bd := { s.bd with
          bh := q ++ (0 : BitVec 2) ++ nib, bt := t.bd.bt, cc := BitVec.ofNat 29 cc
          ip := s.bd.ip + BitVec.ofNat 32 (head + cc), op := s.bd.op + BitVec.ofNat 32 cc
          cv := s.bd.cv ||| (q.toNat <<< s.bd.csh), csh := s.bd.csh + 2 } } ∧
      (∀ j, j < cc → t.dst.read (s.bd.op.toNat + j) = s.src.read (s.bd.ip.toNat + head + j)) ∧
      sameOutside s.dst t.dst s.bd.op.toNat cc

/-- A literal block that runs past the stream raises `E_SRCOOB`, tested first; one that runs past the output
raises `E_DSTOOB`; the literals that fit are committed (45_decoder.md R285; 60_exceptions.md R361, R370). -/
def literalFaults (i : Instr) (head cc : Nat) : Prop :=
  ∀ (s : State) (r : Report), s.phase = .blocks r → s.spoiled = false →
    s.bd.ip.toNat + head ≤ s.bd.ipe.toNat → s.bd.op.toNat ≤ s.bd.ope.toNat →
    (s.bd.ipe.toNat < s.bd.ip.toNat + head + cc →
      let n := min (s.bd.ipe.toNat - (s.bd.ip.toNat + head)) (s.bd.ope.toNat - s.bd.op.toNat)
      ∃ t, exec i s = .next t ∧ faulted s t r 2 (s.bd.op.toNat + n) ∧
        (∀ j, j < n → t.dst.read (s.bd.op.toNat + j) = s.src.read (s.bd.ip.toNat + head + j)) ∧
        sameOutside s.dst t.dst s.bd.op.toNat n) ∧
    (s.bd.ip.toNat + head + cc ≤ s.bd.ipe.toNat → s.bd.ope.toNat < s.bd.op.toNat + cc →
      let n := s.bd.ope.toNat - s.bd.op.toNat
      ∃ t, exec i s = .next t ∧ faulted s t r 3 s.bd.ope.toNat ∧
        (∀ j, j < n → t.dst.read (s.bd.op.toNat + j) = s.src.read (s.bd.ip.toNat + head + j)) ∧
        sameOutside s.dst t.dst s.bd.op.toNat n)

end Sys2Proof.Claims

/-- `LITS` and `LITL` complete where their literals fit (45_decoder.md R285 to R289). -/
def Obligations.LiteralBlocksComplete : Prop :=
  (∀ q len, literalCompletes (.lits q len) q len 1 len.toNat) ∧
  (∀ q nv v, literalCompletes (.litl q nv v) q 0 (1 + nv) (16 + v.toNat))

/-- Where `LITS` and `LITL` stop, with what, and what they leave (45_decoder.md R285; 60_exceptions.md R363,
R364, R370). -/
def Obligations.LiteralBlocksFault : Prop :=
  (∀ q len, literalFaults (.lits q len) 1 len.toNat) ∧
  (∀ q nv v, literalFaults (.litl q nv v) (1 + nv) (16 + v.toNat))

namespace Sys2Proof.Claims

/-- The offset a reference block means, from its `q`, its offset bytes and the carry registers
(45_decoder.md R292). -/
def offsetOf (s : State) (q : BitVec 2) (o : Nat) : Nat :=
  ((q.toNat ||| ((o &&& 0x1FFFFF) <<< 2)) <<< s.bd.csh) ||| s.bd.cv

/-- The `n` bytes from `op` on are the `d` bytes before `op`, repeated; for `d = 0` they keep what they held
(45_decoder.md R296, R299). -/
def copiedBack (m m' : Memory) (op d n : Nat) : Prop :=
  (1 ≤ d → ∀ j, j < n → m'.read (op + j) = m.read (op - d + j % d)) ∧
  (d = 0 → ∀ j, j < n → m'.read (op + j) = m.read (op + j)) ∧
  sameOutside m m' op n

/-- A reference block of type `bt` with nibble `nib`, offset bytes `o` and `lenBytes` length bytes, its
length a function of `mref1`, completes where its offset reaches no further than the start of the output
and its bytes fit (45_decoder.md R290 to R297). -/
def referenceCompletes (i : Instr) (q bt : BitVec 2) (nib : BitVec 4) (o lenBytes : Nat)
    (len : Int → Int) : Prop :=
  ∀ s : State, -1 ≤ s.bd.mref1.toInt →
    let d := offsetOf s q o
    let n := (len s.bd.mref1.toInt).toNat
    d ≤ s.bd.op.toNat → s.bd.op.toNat + n ≤ s.bd.ope.toNat →
    ∃ t, exec i s = .next t ∧
      t = { s with
        dst := t.dst
        bd := { s.bd with
          bh := q ++ bt ++ nib, bt := bt, d := d, cc := BitVec.ofNat 29 n
          csh := if bt = 3 then 3 else 0, cv := o >>> 21
          ip := s.bd.ip + BitVec.ofNat 32 (1 + bt.toNat + lenBytes)
          op := s.bd.op + BitVec.ofNat 32 n } } ∧
      copiedBack s.dst t.dst s.bd.op.toNat d n

/-- A reference block whose offset reaches before the output raises `E_REFOOB(op)` and writes nothing; one
whose bytes do not all fit raises `E_DSTOOB(ope)` with the copy clipped (45_decoder.md R290, R293). -/
def referenceFaults (i : Instr) (q : BitVec 2) (o : Nat) (len : Int → Int) : Prop :=
  ∀ (s : State) (r : Report), s.phase = .blocks r → s.spoiled = false → -1 ≤ s.bd.mref1.toInt →
    s.bd.op.toNat ≤ s.bd.ope.toNat →
    let d := offsetOf s q o
    let n := (len s.bd.mref1.toInt).toNat
    (s.bd.op.toNat < d →
      ∃ t, exec i s = .next t ∧ faulted s t r 4 s.bd.op.toNat ∧ sameBytes s.dst t.dst) ∧
    (d ≤ s.bd.op.toNat → s.bd.ope.toNat < s.bd.op.toNat + n →
      ∃ t, exec i s = .next t ∧ faulted s t r 3 s.bd.ope.toNat ∧
        copiedBack s.dst t.dst s.bd.op.toNat d (s.bd.ope.toNat - s.bd.op.toNat))

end Sys2Proof.Claims

/-- The nine reference blocks complete, form S with `L + mref1` bytes, form L with `16 + mref1 + b`, form X
with `16 + mref1 + 255 + b2` (45_decoder.md R290, R292 to R294, R296, R301 to R309). -/
def Obligations.ReferenceBlocksComplete : Prop :=
  (∀ q o L, referenceCompletes (.ref1s q o L) q 1 L o.toNat 0 (fun m => L.toNat + m)) ∧
  (∀ q o b, referenceCompletes (.ref1l q o b) q 1 0 o.toNat 1 (fun m => 16 + m + b.toNat)) ∧
  (∀ q o b, referenceCompletes (.ref1x q o b) q 1 0 o.toNat 2 (fun m => 16 + m + 255 + b.toNat)) ∧
  (∀ q o L, referenceCompletes (.ref2s q o L) q 2 L o.toNat 0 (fun m => L.toNat + m)) ∧
  (∀ q o b, referenceCompletes (.ref2l q o b) q 2 0 o.toNat 1 (fun m => 16 + m + b.toNat)) ∧
  (∀ q o b, referenceCompletes (.ref2x q o b) q 2 0 o.toNat 2 (fun m => 16 + m + 255 + b.toNat)) ∧
  (∀ q o L, referenceCompletes (.ref3s q o L) q 3 L o.toNat 0 (fun m => L.toNat + m)) ∧
  (∀ q o b, referenceCompletes (.ref3l q o b) q 3 0 o.toNat 1 (fun m => 16 + m + b.toNat)) ∧
  (∀ q o b, referenceCompletes (.ref3x q o b) q 3 0 o.toNat 2 (fun m => 16 + m + 255 + b.toNat))

/-- Where the nine reference blocks stop, the offset tested first, and what they leave (45_decoder.md R290,
R293; 60_exceptions.md R364, R366, R370). -/
def Obligations.ReferenceBlocksFault : Prop :=
  (∀ q o L, referenceFaults (.ref1s q o L) q o.toNat (fun m => L.toNat + m)) ∧
  (∀ q o b, referenceFaults (.ref1l q o b) q o.toNat (fun m => 16 + m + b.toNat)) ∧
  (∀ q o b, referenceFaults (.ref1x q o b) q o.toNat (fun m => 16 + m + 255 + b.toNat)) ∧
  (∀ q o L, referenceFaults (.ref2s q o L) q o.toNat (fun m => L.toNat + m)) ∧
  (∀ q o b, referenceFaults (.ref2l q o b) q o.toNat (fun m => 16 + m + b.toNat)) ∧
  (∀ q o b, referenceFaults (.ref2x q o b) q o.toNat (fun m => 16 + m + 255 + b.toNat)) ∧
  (∀ q o L, referenceFaults (.ref3s q o L) q o.toNat (fun m => L.toNat + m)) ∧
  (∀ q o b, referenceFaults (.ref3l q o b) q o.toNat (fun m => 16 + m + b.toNat)) ∧
  (∀ q o b, referenceFaults (.ref3x q o b) q o.toNat (fun m => 16 + m + 255 + b.toNat))

/-- A copy inside a memory from `d` bytes back is byte by byte and ascending: with `1 ≤ d < n` the last `d`
bytes repeat with period `d`; no byte at or beyond `op + n` is written; with `d = 0` every byte is written
with what it held (45_decoder.md R296). -/
def Obligations.OverlappingCopyRunFills : Prop :=
  ∀ (m : Memory) (op d n : Nat),
    (1 ≤ d → d ≤ op →
      (∀ j, j < n → (m.copyWithin op (op - d) n).read (op + j) = m.read (op - d + j % d)) ∧
      sameOutside m (m.copyWithin op (op - d) n) op n) ∧
    sameBytes m (m.copyWithin op op n)

/-- A block that the decoder completes moves `ip` by exactly its length (30_encoding.md R104, R105). -/
def Obligations.BlocksAdvanceByTheirLength : Prop :=
  ∀ (s t : State) (r : Report) (i : Instr), undisturbed s → s.decoderOk → s.phase = .blocks r →
    (s.bd.ip.toNat : Int) < s.bd.ipet.toInt →
    decode (.block (headWindow s.src s.bd.ip.toNat)) = .ok i →
    step s = .next t → t.phase = .blocks r →
    t.bd.ip.toNat = s.bd.ip.toNat + blockLength i

/-- The termination: at the end of the loop `op = ope` is success with `WRITTEN = op`, anything else raises
`E_DSTLEN(op)` (45_decoder.md R298). -/
def Obligations.StreamEndReports : Prop :=
  ∀ (s : State) (r : Report), undisturbed s → s.phase = .blocks r → s.spoiled = false →
    s.bd.ipet.toInt ≤ s.bd.ip.toNat →
    (s.bd.op = s.bd.ope →
      step s = .next { s with result := s.bd.ope, written := s.bd.op, status := 2, phase := .idle }) ∧
    (s.bd.op ≠ s.bd.ope →
      ∃ t, step s = .next t ∧ faulted s t r 5 s.bd.op.toNat ∧ sameBytes s.dst t.dst)

/-- The decoder's bounds `1 ≤ ip ≤ ipe` and `0 ≤ op ≤ ope` hold at every test of the loop condition,
whatever the stream (45_decoder.md R300; 10_state.md R38). -/
def Obligations.DecoderBoundsKept : Prop :=
  ∀ s t : State, s.decoderOk → step s = .next t → t.decoderOk

/-- A decoding command ends, whatever the stream: each block moves `ip` by at least 1
(70_reset_and_hazards.md R420; 45_decoder.md R300). -/
def Obligations.DecodingEnds : Prop :=
  ∀ (s : State) (r : Report), undisturbed s → s.decoderOk → (s.phase = .header r ∨ s.phase = .blocks r) →
    ∃ k t, k ≤ s.bd.ipe.toNat + 2 ∧ Sys2Proof.core.run k s = .next t ∧ t.phase = .idle ∧ t.status = 2

/-! ### The host's interface -/

/-- A write of `CMD` with a code from 1 to 6 while `BUSY = 0` starts a command: `BUSY = 1`, `DONE = 0`; any
other write of `CMD` changes nothing (10_state.md R22 to R24; 46_host_operations.md R330). -/
def Obligations.CommandWriteStarts : Prop :=
  ∀ (s : State) (v : Word) (rest : List HostAccess), s.hostScript = .writeReg 0 v :: rest →
    (s.status.getLsbD 0 = false → 1 ≤ v.toNat % 8 → v.toNat % 8 ≤ 6 →
      ∃ t, step s = .next t ∧
        t = { s with hostScript := rest, cmd := t.cmd, status := 1, phase := .start, spoiled := false } ∧
        t.cmd.toNat % 8 = v.toNat % 8) ∧
    (s.status.getLsbD 0 = true ∨ v.toNat % 8 = 0 ∨ v.toNat % 8 = 7 →
      step s = .next { s with hostScript := rest })

/-- What every other access of the host does. A write of `SRCL`, `DSTL`, SRC or DST changes what it names; a write of
a read-only register changes nothing (log 7). A read gives the register or the byte; of `CMD`, and of DST
while `BUSY = 1`, it gives a free value (logs 5, 7). The accesses that 70_reset_and_hazards.md R412 forbids
while `BUSY = 1` mark the command in progress (log 5). Accesses outside the registers and memories stop the
machine (log 8). (10_state.md R22, R24, R34; 70_reset_and_hazards.md R403, R404, R412.) -/
def Obligations.HostAccessesLand : Prop :=
  ∀ (s : State) (no : BitVec 3) (v : Word) (a : Nat) (b : Byte) (rest : List HostAccess),
    let broken := s.spoiled || s.status.getLsbD 0
    (s.hostScript = .writeReg 1 v :: rest →
      step s = .next { s with hostScript := rest, srcl := v, spoiled := broken }) ∧
    (s.hostScript = .writeReg 2 v :: rest →
      step s = .next { s with hostScript := rest, dstl := v, spoiled := broken }) ∧
    (s.hostScript = .writeReg no v :: rest → 3 ≤ no.toNat → no.toNat ≤ 5 →
      step s = .next { s with hostScript := rest }) ∧
    (s.hostScript = .writeSrc a b :: rest → a < 2147483647 →
      ∃ t, step s = .next t ∧ t = { s with hostScript := rest, src := t.src, spoiled := broken } ∧
        t.src.read a = b ∧ sameOutside s.src t.src a 1) ∧
    (s.hostScript = .writeDst a b :: rest → a < 2147483647 →
      ∃ t, step s = .next t ∧ t = { s with hostScript := rest, dst := t.dst, spoiled := broken } ∧
        t.dst.read a = b ∧ sameOutside s.dst t.dst a 1) ∧
    (s.hostScript = .readReg 0 :: rest →
      ∃ t, step s = .next t ∧ t = { s with hostScript := rest, readValue := t.readValue, draws := t.draws }) ∧
    (s.hostScript = .readReg 1 :: rest → step s = .next { s with hostScript := rest, readValue := s.srcl }) ∧
    (s.hostScript = .readReg 2 :: rest → step s = .next { s with hostScript := rest, readValue := s.dstl }) ∧
    (s.hostScript = .readReg 3 :: rest → step s = .next { s with hostScript := rest, readValue := s.status }) ∧
    (s.hostScript = .readReg 4 :: rest → step s = .next { s with hostScript := rest, readValue := s.result }) ∧
    (s.hostScript = .readReg 5 :: rest → step s = .next { s with hostScript := rest, readValue := s.written }) ∧
    (s.hostScript = .readDst a :: rest → a < 2147483647 →
      ∃ t, step s = .next t ∧
        (s.status.getLsbD 0 = false →
          t = { s with hostScript := rest, readValue := t.readValue } ∧
          t.readValue.toNat = (s.dst.read a).toNat) ∧
        (s.status.getLsbD 0 = true →
          t = { s with hostScript := rest, readValue := t.readValue, draws := t.draws, spoiled := true })) ∧
    (s.hostScript = .writeReg no v :: rest ∨ s.hostScript = .readReg no :: rest → 6 ≤ no.toNat →
      step s = .fault .noSuchRegister) ∧
    (s.hostScript = .writeSrc a b :: rest ∨ s.hostScript = .writeDst a b :: rest ∨
        s.hostScript = .readDst a :: rest → 2147483647 ≤ a →
      step s = .fault .noSuchIndex)

/-- After reset the engine is idle, the host registers hold 0, and nothing happens until `CMD` is written;
an idle engine does nothing in any state; an external reset does as the power-on reset, in any state
(70_reset_and_hazards.md R400 to R402; 10_state.md R37). That the host's later accesses stay is log 15. -/
def Obligations.ResetLeavesAnIdleEngine : Prop :=
  State.reset.status = 0 ∧ State.reset.result = 0 ∧ State.reset.written = 0 ∧
  State.reset.srcl = 0 ∧ State.reset.dstl = 0 ∧ State.reset.phase = .idle ∧
  step State.reset = .next State.reset ∧
  (∀ s : State, undisturbed s → s.phase = .idle → step s = .next s) ∧
  ∀ (s : State) (rest : List HostAccess), s.hostScript = .externalReset :: rest →
    ∃ t, step s = .next t ∧ t.status = 0 ∧ t.result = 0 ∧ t.written = 0 ∧ t.srcl = 0 ∧ t.dstl = 0 ∧
      t.phase = .idle ∧ t.hostScript = rest

/-! ### Bounds -/

namespace Sys2Proof.Claims

/-- The bound formula with divisors `k` and `g` and overhead `o`, on integers (46_host_operations.md R336). -/
def boundFormula (k g o : Int) (n : Int) : Int :=
  if n ≤ 0 then 16
  else (n - n / g * o + (k - 1)) / k * 2 - n / g + n + 16

/-- `BOUND` or `BOUND_HI`: the formula of the signed `SRCL` in `RESULT`, 0 in `WRITTEN`, no memory touched
(46_host_operations.md R335). -/
def boundComputed (i : Instr) (f : Int → Int) : Prop :=
  ∀ s : State, s.spoiled = false →
    ∃ t, exec i s = .next t ∧
      t = { s with cap := t.cap, result := t.result, written := 0, status := 2, phase := .idle
                   bd := t.bd, bw := t.bw, mf := t.mf } ∧
      (t.result.toNat : Int) = f s.srcl.toInt ∧ UnitsStart s t ∧ WriterStarts t.bw ∧ t.bd.st = 0

end Sys2Proof.Claims

/-- `BOUND` and `BOUND_HI` complete for every `SRCL`, with the formulas of 46_host_operations.md R336
(R335); like every command they set the units' registers to their start values (10_state.md R36). That registers
without a start value keep what they hold is the model's choice (log 9), and so is that BD's `ope` takes `DSTL`
although R335 says that `DSTL` is not read (log 22). -/
def Obligations.BoundsAreComputed : Prop :=
  boundComputed .bound (boundFormula 144 150 6) ∧ boundComputed .boundHi (boundFormula 16 21 5)

/-! ### Compression: arguments, short form, start -/

namespace Sys2Proof.Claims

/-- The compression commands refuse a length above `LEN_MAX`, an empty input and a capacity below the bound:
`RESULT` and `WRITTEN` are 0 and no memory is touched (46_host_operations.md R331, R338). -/
def compressionRefused (i : Instr) (f : Int → Int) (mref : BitVec 3) (cap : Nat)
    (maskOf : Nat → BitVec 24) : Prop :=
  ∀ s : State, s.spoiled = false →
    2147483647 < s.srcl.toNat ∨ 2147483647 < s.dstl.toNat ∨ s.srcl = 0 ∨ (s.dstl.toNat : Int) < f s.srcl.toNat →
    ∃ t, exec i s = .next t ∧
      t = { s with cap := t.cap, result := 0, written := 0, status := 2, phase := .idle
                   bd := t.bd, bw := t.bw, mf := t.mf } ∧
      UnitsStart s t ∧ WriterStarts t.bw ∧ t.bd.st = 0 ∧ t.bw.mref = mref ∧
      TableStarts t.mf cap s.srcl.toNat maskOf

/-- The short form (41_block_writer.md R161): prefix, `n`, the `n` bytes, zeros up to six of them. -/
def shortFormWritten (i : Instr) (pre : Byte) (mref : BitVec 3) (f : Int → Int) (cap : Nat)
    (maskOf : Nat → BitVec 24) : Prop :=
  ∀ s : State, s.spoiled = false → 1 ≤ s.srcl.toNat → s.srcl.toNat < 16 →
    f s.srcl.toNat ≤ s.dstl.toNat → s.dstl.toNat ≤ 2147483647 →
    let n := s.srcl.toNat
    ∃ t, exec i s = .next t ∧
      t = { s with
        cap := t.cap, dst := t.dst, bd := t.bd, mf := t.mf, status := 2, phase := .idle
        bw := { op := BitVec.ofNat 32 (2 + max n 6), mref := mref, csh := 0, cbp := none }
        result := BitVec.ofNat 32 (2 + max n 6), written := BitVec.ofNat 32 (2 + max n 6) } ∧
      UnitsStart s t ∧ t.bd.st = 0 ∧ TableStarts t.mf cap n maskOf ∧
      t.dst.read 0 = pre ∧ t.dst.read 1 = BitVec.ofNat 8 n ∧
      (∀ j, j < n → t.dst.read (2 + j) = s.src.read j) ∧
      (∀ j, n ≤ j → j < 6 → t.dst.read (2 + j) = 0) ∧
      sameOutside s.dst t.dst 0 (2 + max n 6)

/-- The start of a search: the prefix byte, every unit's registers at their start values, BW's as `START` leaves
them; the table is initialised exactly if the loop will run (43_default_match_finder.md R210, R213;
44_hi_ratio_match_finder.md R240, R242). -/
def searchStarts (i : Instr) (pre : Byte) (mref : BitVec 3) (f : Int → Int) (ph : Phase) (cap : Nat)
    (maskOf : Nat → BitVec 24) (init : Memory → Memory → Nat → Memory) : Prop :=
  ∀ s : State, 16 ≤ s.srcl.toNat → s.srcl.toNat ≤ 2147483647 →
    f s.srcl.toNat ≤ s.dstl.toNat → s.dstl.toNat ≤ 2147483647 →
    let n := s.srcl.toNat
    ∃ t, exec i s = .next t ∧
      t = { s with
        status := 1, cap := s.dstl, phase := ph, dst := t.dst, ht := t.ht, bd := t.bd, mf := t.mf
        bw := { op := 1, mref := mref, csh := 0, cbp := none } } ∧
      t.dst.read 0 = pre ∧ sameOutside s.dst t.dst 0 1 ∧
      UnitsStart s t ∧ t.bd.st = 0 ∧ TableStarts t.mf cap n maskOf ∧
      (n < 32 → t.ht = s.ht) ∧ (32 ≤ n → t.ht = init s.ht s.src (tableSize cap n))

end Sys2Proof.Claims

/-- `COMPRESS` and `COMPRESS_HI` with bad arguments (46_host_operations.md R331, R332); the units' registers are at
their start values, as after the start of every command (10_state.md R36). That registers without a start value
keep what they hold is the model's choice (log 9). -/
def Obligations.CompressionRefusesBadArguments : Prop :=
  compressionRefused .compress (boundFormula 144 150 6) 6 1048576 maskDefault ∧
  compressionRefused .compressHi (boundFormula 16 21 5) 5 8388608 maskHi

/-- `COMPRESS` and `COMPRESS_HI` of 1 to 15 bytes complete at once with the short form
(41_block_writer.md R161; 46_host_operations.md R331, R332; 44_hi_ratio_match_finder.md R242), the units' registers
at their start values but BW's `op` (10_state.md R36). That registers without a start value keep what they hold is
the model's choice (log 9). -/
def Obligations.ShortInputsGiveShortForm : Prop :=
  shortFormWritten .compress 0x26 6 (boundFormula 144 150 6) 1048576 maskDefault ∧
  shortFormWritten .compressHi 0x25 5 (boundFormula 16 21 5) 8388608 maskHi

/-- `COMPRESS` and `COMPRESS_HI` of 16 bytes or more start their search
(43_default_match_finder.md R210 to R213; 44_hi_ratio_match_finder.md R240, R242; 10_state.md R36). That registers
without a start value keep what they hold is the model's choice (log 9). -/
def Obligations.CompressionStartsItsSearch : Prop :=
  searchStarts .compress 0x26 6 (boundFormula 144 150 6) .search 1048576 maskDefault initTable2 ∧
  searchStarts .compressHi 0x25 5 (boundFormula 16 21 5) .searchHi 8388608 maskHi initTable7

namespace Sys2Proof.Claims

/-- The terminal literal block of `run` literals from `ipa` on ends the command with `RESULT = WRITTEN = op`; a run
that no block can carry ends it in an `EncoderFault` (43_default_match_finder.md R225; 41_block_writer.md R160,
R162; 46_host_operations.md R331). -/
def endsWithRun (s t : State) (ipa run : Nat) : Prop :=
  (run < 16 + 2 ^ 28 →
    ∃ v, finalize s run ipa = some v ∧
      t = { v with mf := t.mf, result := v.bw.op, written := v.bw.op, status := 2, phase := .idle }) ∧
  (16 + 2 ^ 28 ≤ run → encoderFaulted s t)

end Sys2Proof.Claims

/-- The end of a search, at `ip ≥ ipet`: in mode HI the pending candidate is written first, if there is one; then
`FINALIZE(ipe - ipa + 6, ipa)` writes the rest of the input and `RESULT` and `WRITTEN` are `op`; a run that no
block can carry ends the command with both 0 (43_default_match_finder.md R225; 44_hi_ratio_match_finder.md R256;
41_block_writer.md R160, R162; 46_host_operations.md R331, R338). That this is one step is log 3; what DST and
the unit registers hold after an `EncoderFault` are logs 6 and 21; that `prc`, `pd` and `pip` stay is log 9. -/
def Obligations.SearchEndsWithTheTerminalBlock : Prop :=
  ∀ s : State, undisturbed s → s.spoiled = false → s.mf.ipet.toInt ≤ s.mf.ip.toNat →
    let m := s.mf
    let plc := m.pip.toNat - m.ipa.toNat
    let stop := m.pip.toNat + m.prc.toNat
    (s.phase = .search ∨ s.phase = .searchHi ∧ m.pv = false →
      ∃ t, step s = .next t ∧ t.mf = m ∧
        endsWithRun s t m.ipa.toNat (m.ipe.toNat - m.ipa.toNat + 6)) ∧
    (s.phase = .searchHi → m.pv = true → stop < 2 ^ 32 →
      ∃ t, step s = .next t ∧
        (∀ u, writeBlk s plc m.prc.toNat m.pd.toNat m.ipa.toNat = some u →
          t.mf = { m with ipa := t.mf.ipa, pv := false } ∧ t.mf.ipa.toNat = stop ∧
          endsWithRun u t stop (m.ipe.toNat - stop + 6)) ∧
        (writeBlk s plc m.prc.toNat m.pd.toNat m.ipa.toNat = none → t.mf = m ∧ encoderFaulted s t))

/-! ### The block writer -/

/-- `START(mref)` (41_block_writer.md R150). -/
def Obligations.StartWritesThePrefix : Prop :=
  ∀ (s : State) (mref : BitVec 3),
    let t := writerStart s mref
    t = { s with dst := t.dst, bw := { op := 1, mref := mref, csh := 0, cbp := none } } ∧
    (t.dst.read 0).toNat = 2 * 2 ^ 4 + mref.toNat ∧ sameOutside s.dst t.dst 0 1

namespace Sys2Proof.Claims

/-- The bytes of the number `v`, the least significant first. -/
def bytesLE : Nat → Nat → List Byte
  | 0, _ => []
  | n + 1, v => BitVec.ofNat 8 v :: bytesLE n (v / 256)

/-- The bytes of a literal block (41_block_writer.md R155, R156): nothing for no literals. -/
def literalBytesOf (src : Memory) (q lc ipa : Nat) : List Byte :=
  if lc = 0 then []
  else (if lc ≤ 15 then [BitVec.ofNat 8 (q * 64 + lc)] else BitVec.ofNat 8 (q * 64) :: shortVarint 3 (lc - 16)) ++
    (List.range lc).map (fun j => src.read (ipa + j))

/-- The bytes of a reference block with offset part `p` and coded length `rcp` (41_block_writer.md R157,
R159). -/
def referenceBytesOf (p rcp : Nat) : List Byte :=
  let bt := 1 + (if 1023 < p then 1 else 0) + (if 262143 < p then 1 else 0)
  bytesLE (1 + bt) (p * 64 + bt * 16 + (if rcp ≤ 15 then rcp else 0)) ++
    (if rcp < 16 then [] else if rcp < 271 then [BitVec.ofNat 8 (rcp - 16)] else [255, BitVec.ofNat 8 (rcp - 271)])

end Sys2Proof.Claims

/-- `WRITE_BLK(lc, rc, d, ipa)` under its preconditions completes unless the literal run is too long; it
deposits the carry bits, writes the literal and the reference block from the old `op` to the new `op - 1`,
keeps every other byte of DST, and leaves `csh` and `cbp` for the next deposit (41_block_writer.md R151 to
R159, R162). -/
def Obligations.WriteBlkEmitsItsBlocks : Prop :=
  ∀ (s : State) (lc rc d ipa : Nat),
    s.bw.mref.toNat ≤ rc → rc ≤ 524 + s.bw.mref.toNat → d < 2 ^ 23 →
    (s.bw.csh = 0 ∨ s.bw.csh = 3 ∧ ∃ c, s.bw.cbp = some c ∧ c.toNat < s.bw.op.toNat) →
    s.bw.op.toNat + lc + 11 < 2 ^ 32 →
    (lc < 16 + 2 ^ 28 →
      let c3 := if s.bw.csh = 3 then d % 8 else 0
      let d1 := if s.bw.csh = 3 then d / 8 else d
      let q := if 0 < lc then d1 % 4 else 0
      let p := if 0 < lc then d1 / 4 else d1
      let lits := literalBytesOf s.src q lc ipa
      let refs := referenceBytesOf p (rc + 1 - s.bw.mref.toNat)
      ∃ t, writeBlk s lc rc d ipa = some t ∧
        t = { s with dst := t.dst, bw := { s.bw with op := t.bw.op, csh := t.bw.csh, cbp := t.bw.cbp } } ∧
        t.bw.op.toNat = s.bw.op.toNat + lits.length + refs.length ∧
        standsAt t.dst s.bw.op.toNat (lits ++ refs) ∧
        (∀ a, a < s.bw.op.toNat → t.dst.read a =
          if s.bw.csh = 3 ∧ s.bw.cbp = some (BitVec.ofNat 32 a) then
            s.dst.read a ||| BitVec.ofNat 8 (c3 * 32)
          else s.dst.read a) ∧
        (∀ a, t.bw.op.toNat ≤ a → t.dst.read a = s.dst.read a) ∧
        t.bw.csh = (if 262143 < p then 3 else 0) ∧
        (262143 < p → t.bw.cbp = some (BitVec.ofNat 32 (s.bw.op.toNat + lits.length + 3)))) ∧
    (16 + 2 ^ 28 ≤ lc → writeBlk s lc rc d ipa = none)

/-- `FINALIZE(lc, ipa)` writes the terminal literal block with no carry bits and makes no deposit
(41_block_writer.md R160). -/
def Obligations.FinalizeWritesTheTerminalBlock : Prop :=
  ∀ (s : State) (lc ipa : Nat), 6 ≤ lc → s.bw.op.toNat + lc + 5 < 2 ^ 32 →
    (lc < 16 + 2 ^ 28 →
      let lits := literalBytesOf s.src 0 lc ipa
      ∃ t, finalize s lc ipa = some t ∧
        t = { s with dst := t.dst, bw := { s.bw with op := t.bw.op } } ∧
        t.bw.op.toNat = s.bw.op.toNat + lits.length ∧
        standsAt t.dst s.bw.op.toNat lits ∧ sameOutside s.dst t.dst s.bw.op.toNat lits.length) ∧
    (16 + 2 ^ 28 ≤ lc → finalize s lc ipa = none)

/-! ### Memory operations and scanners -/

/-- `MemRead` and `MemWrite` are little-endian (40_byte_io_and_scanners.md R130, R131). -/
def Obligations.WideAccessesAreLittleEndian : Prop :=
  ∀ (m : Memory) (a n v : Nat),
    m.readLE a n = ((List.range n).map fun i => (m.read (a + i)).toNat * 2 ^ (8 * i)).sum ∧
    (∀ i, i < n → (m.writeLE a n v).read (a + i) = BitVec.ofNat 8 (v >>> (8 * i))) ∧
    sameOutside m (m.writeLE a n v) a n

/-- `FWD(a, b, ml)` and `REV(a, b, ml)` are the exact numbers of equal bytes from `a` and `b` on, and just
before them, at most `ml` (40_byte_io_and_scanners.md R134 to R136). -/
def Obligations.ScannersAreExact : Prop :=
  ∀ (m : Memory) (a b ml : Nat),
    (m.fwd a b ml ≤ ml ∧
      (∀ j, j < m.fwd a b ml → m.read (a + j) = m.read (b + j)) ∧
      (m.fwd a b ml < ml → m.read (a + m.fwd a b ml) ≠ m.read (b + m.fwd a b ml))) ∧
    (ml ≤ a → ml ≤ b →
      m.rev a b ml ≤ ml ∧
      (∀ j, j < m.rev a b ml → m.read (a - 1 - j) = m.read (b - 1 - j)) ∧
      (m.rev a b ml < ml → m.read (a - 1 - m.rev a b ml) ≠ m.read (b - 1 - m.rev a b ml)))

/-! ### Hash and dictionary -/

/-- `HASH` folds the exact 64-bit product (42_hash_dictionary.md R181). -/
def Obligations.HashFoldsTheProduct : Prop :=
  ∀ iw1 iw2 : Word,
    let m := (0x243F6A88 ^^^ iw1.toNat) * (0x85A308D3 ^^^ iw2.toNat)
    m < 2 ^ 64 ∧ (hash iw1 iw2).toNat = (m % 2 ^ 32) ^^^ (m / 2 ^ 32)

/-- The table size is the smallest power of two from 2 KiB whose quarter is at least the input length,
clamped to 1 MiB (DEFAULT) or 8 MiB (HI) (42_hash_dictionary.md R182, R195). -/
def Obligations.TableSizeIsTheSmallest : Prop :=
  ∀ (e srcl : Nat), e = 20 ∨ e = 23 →
    ∃ k, 11 ≤ k ∧ k ≤ e ∧ tableSize (2 ^ e) srcl = 2 ^ k ∧
      (k < e → srcl ≤ 2 ^ k / 4) ∧ ∀ j, 11 ≤ j → j < k → 2 ^ j / 4 < srcl

/-- A bucket's byte offset is the hash's low bits below the table's size, cut to a multiple of the bucket
size, 16 or 64 (42_hash_dictionary.md R184, R197). -/
def Obligations.BucketsAreAlignedInTheTable : Prop :=
  ∀ (h : Word) (k : Nat), 11 ≤ k → k ≤ 23 →
    bucketOf h (maskDefault (2 ^ k)) = h.toNat % 2 ^ k / 16 * 16 ∧
    bucketOf h (maskHi (2 ^ k)) = h.toNat % 2 ^ k / 64 * 64

/-- The initial tables: every tuple is `(k16, 16)`; in mode HI word 14 and the head are 0; no byte of HT
outside the table changes (42_hash_dictionary.md R183, R196). -/
def Obligations.InitialTablesHoldByteSixteen : Prop :=
  ∀ (ht src : Memory) (size b : Nat), ht.wf = true →
    let k16 : Word := BitVec.ofNat 32 (src.readLE 16 4)
    (b % 16 = 0 → b + 16 ≤ size →
      (initTable2 ht src size).htWord b 0 = k16 ∧ (initTable2 ht src size).htWord b 1 = 16 ∧
      (initTable2 ht src size).htWord b 2 = k16 ∧ (initTable2 ht src size).htWord b 3 = 16) ∧
    (b % 64 = 0 → b + 64 ≤ size →
      (∀ j, j < 7 → (initTable7 ht src size).htWord b (2 * j) = k16 ∧
        (initTable7 ht src size).htWord b (2 * j + 1) = 16) ∧
      (initTable7 ht src size).htWord b 14 = 0 ∧ (initTable7 ht src size).htWord b 15 = 0) ∧
    sameOutside ht (initTable2 ht src size) 0 size ∧ sameOutside ht (initTable7 ht src size) 0 size

/-- `MISS2`, `HIT2` and `FAR2` leave the words the rules say in their bucket and no other byte of HT changed
(42_hash_dictionary.md R186 to R188). -/
def Obligations.DefaultDictionaryUpdates : Prop :=
  ∀ (ht : Memory) (b d : Nat) (iw1 ipo : Word),
    ((miss2 ht b iw1 ipo).htWord b 0 = ht.htWord b 0 ∧ (miss2 ht b iw1 ipo).htWord b 1 = ht.htWord b 1 ∧
      (miss2 ht b iw1 ipo).htWord b 2 = iw1 ∧ (miss2 ht b iw1 ipo).htWord b 3 = ipo) ∧
    (∀ hit, 273 < d →
      (hit2 ht b hit iw1 ipo d).htWord b 0 = iw1 ∧ (hit2 ht b hit iw1 ipo d).htWord b 1 = ipo ∧
      (hit2 ht b hit iw1 ipo d).htWord b 2 = ht.htWord b 0 ∧
      (hit2 ht b hit iw1 ipo d).htWord b 3 = ht.htWord b 1) ∧
    (∀ hit, d ≤ 273 → hit2 ht b hit iw1 ipo d = refresh2 ht b hit ipo) ∧
    ((refresh2 ht b .one ipo).htWord b 1 = ipo ∧ (refresh2 ht b .two ipo).htWord b 3 = ipo ∧
      sameOutside ht (refresh2 ht b .one ipo) (b + 4) 4 ∧
      sameOutside ht (refresh2 ht b .two ipo) (b + 12) 4) ∧
    (∀ hit, sameOutside ht (hit2 ht b hit iw1 ipo d) b 16) ∧
    sameOutside ht (miss2 ht b iw1 ipo) b 16

/-- `MISS7`: the head steps one slot backward, the tuple goes there, the other tuples stay
(42_hash_dictionary.md R199). -/
def Obligations.HiDictionaryUpdate : Prop :=
  ∀ (ht : Memory) (b k : Nat) (iw1 ipo : Word), k < 7 → (ht.htWord b 15).toNat = 2 * k →
    let t := miss7 ht b iw1 ipo
    let head := if k = 0 then 12 else 2 * k - 2
    (t.htWord b 15).toNat = head ∧ t.htWord b head = iw1 ∧ t.htWord b (head + 1) = ipo ∧
    (∀ w, w < 15 → w ≠ head → w ≠ head + 1 → t.htWord b w = ht.htWord b w) ∧
    sameOutside ht t b 64

/-- `PROBE2` finds the first tuple, tuple 1 before tuple 2, whose key is `iw1` and whose position has `iw2`
four bytes on; it finds none only if neither matches (42_hash_dictionary.md R185). -/
def Obligations.ProbeFindsTheFirstMatch : Prop :=
  ∀ (ht src : Memory) (b : Nat) (iw1 : Word) (iw2 : BitVec 16),
    let one := ht.htWord b 0 = iw1 ∧ src.readLE ((ht.htWord b 1).toNat + 4) 2 = iw2.toNat
    let two := ht.htWord b 2 = iw1 ∧ src.readLE ((ht.htWord b 3).toNat + 4) 2 = iw2.toNat
    (one → probe2 ht src b iw1 iw2 = some (.one, ht.htWord b 1)) ∧
    (¬ one → two → probe2 ht src b iw1 iw2 = some (.two, ht.htWord b 3)) ∧
    (¬ one → ¬ two → probe2 ht src b iw1 iw2 = none)

/-! ### The searches -/

/-- The running average: a hit moves it toward `rc * 2^21` by the arithmetic shift of the signed difference, a
miss takes a 2048th away, and it stays between 0 and `530 * 2^21` (43_default_match_finder.md R221, R223;
10_state.md R38). -/
def Obligations.RunningAverageUpdates : Prop :=
  ∀ (mavg : Word) (rc : Nat), 0 ≤ mavg.toInt → mavg.toInt ≤ 530 * 2 ^ 21 → rc ≤ 530 →
    (mavgHit mavg rc).toInt = mavg.toInt + ((rc : Int) * 2 ^ 21 - mavg.toInt) / 2 ^ 10 ∧
    (mavgMiss mavg).toInt = mavg.toInt - mavg.toInt / 2 ^ 11 ∧
    0 ≤ (mavgHit mavg rc).toInt ∧ (mavgHit mavg rc).toInt ≤ 530 * 2 ^ 21 ∧
    0 ≤ (mavgMiss mavg).toInt ∧ (mavgMiss mavg).toInt ≤ mavg.toInt

/-- The advance on a miss with its dither; it is at least 1 and at most 103, and `rndb` takes the low bit of
the position exactly on a dithered miss (43_default_match_finder.md R224). -/
def Obligations.MissAdvanceDithers : Prop :=
  ∀ (mavg : Word) (rndb : BitVec 1) (ip ipa : Nat), 0 ≤ mavg.toInt →
    let a := missAdvance mavg rndb ip ipa
    let r := missDither mavg rndb ip ipa
    (mavg.toInt < 200 * 2 ^ 14 ∧ ip ≠ ipa →
      r.toNat = ip % 2 ∧
      (130 * 2 ^ 14 ≤ mavg.toInt → a = 1 + rndb.toNat) ∧
      (100 * 2 ^ 14 ≤ mavg.toInt → mavg.toInt < 130 * 2 ^ 14 → a = 2 + rndb.toNat) ∧
      (mavg.toInt < 100 * 2 ^ 14 → (a : Int) = 2 + rndb.toNat + (100 - mavg.toInt / 2 ^ 14))) ∧
    (200 * 2 ^ 14 ≤ mavg.toInt ∨ ip = ipa → a = 1 ∧ r = rndb) ∧
    1 ≤ a ∧ a ≤ 103

namespace Sys2Proof.Claims

/-- The registers a pass computes before its probe, at the position `ip` (43_default_match_finder.md R217). That
they still hold this after the pass is log 11. -/
def hashedAt (s t : State) : Prop :=
  t.mf.iw1 = BitVec.ofNat 32 (s.src.readLE s.mf.ip.toNat 4) ∧
  t.mf.iw2 = BitVec.ofNat 16 (s.src.readLE (s.mf.ip.toNat + 4) 2) ∧
  t.mf.ipo = s.mf.ip ∧ t.mf.h = hash t.mf.iw1 (t.mf.iw2.setWidth 32)

/-- The limits of the input and the table's registers, which no pass changes (10_state.md R29). -/
def limitsKept (m m' : Finder) : Prop :=
  m'.ipe = m.ipe ∧ m'.ipet = m.ipet ∧ m'.htsize = m.htsize ∧ m'.hmask = m.hmask

/-- The registers of mode DEFAULT only (10_state.md R30). -/
def statisticKept (m m' : Finder) : Prop := m'.mavg = m.mavg ∧ m'.rndb = m.rndb

/-- The registers of mode HI only (10_state.md R31). -/
def pendingKept (m m' : Finder) : Prop := m'.pv = m.pv ∧ m'.prc = m.prc ∧ m'.pd = m.pd ∧ m'.pip = m.pip

/-- The bucket of a pass of mode DEFAULT (43_default_match_finder.md R217). -/
def bucketAt (s : State) : Nat :=
  bucketOf (hash (BitVec.ofNat 32 (s.src.readLE s.mf.ip.toNat 4))
    (BitVec.ofNat 32 (s.src.readLE (s.mf.ip.toNat + 4) 2))) s.mf.hmask

/-- The hit of a pass of mode DEFAULT, if there is one. -/
def hitAt (s : State) : Option (Slot × Word) :=
  probe2 s.ht s.src (bucketAt s) (BitVec.ofNat 32 (s.src.readLE s.mf.ip.toNat 4))
    (BitVec.ofNat 16 (s.src.readLE (s.mf.ip.toNat + 4) 2))

/-- A pass of mode DEFAULT that emits nothing: HT and, of MF, the cursor, the hash, the hit and the statistic may
differ from before, and nothing else. That `ml`, `rc`, `lc`, `bml` and `bmc` stay is log 11. -/
def emitsNothing (s t : State) : Prop :=
  t = { s with
    ht := t.ht
    mf := { s.mf with
      ip := t.mf.ip, iw1 := t.mf.iw1, iw2 := t.mf.iw2, h := t.mf.h, ipo := t.mf.ipo, wp := t.mf.wp, d := t.mf.d
      mavg := t.mf.mavg, rndb := t.mf.rndb } }

end Sys2Proof.Claims

/-- A pass of the DEFAULT search that misses or rejects its hit: the miss stores the tuple and takes the
statistic and the dither; a hit nearer than 8 only moves `ip` by 1; a hit at `WIN_LEN` or beyond also
refreshes its tuple; MF's other registers stay (43_default_match_finder.md R217, R218, R223, R224;
42_hash_dictionary.md R186, R188). What MF's temporaries hold after the pass is log 11. -/
def Obligations.DefaultPassWithoutMatch : Prop :=
  ∀ s : State, undisturbed s → s.phase = .search → (s.mf.ip.toNat : Int) < s.mf.ipet.toInt →
    s.mf.ip.toNat + 103 < 2 ^ 32 → 0 ≤ s.mf.mavg.toInt →
    (hitAt s = none →
      ∃ t, step s = .next t ∧ emitsNothing s t ∧ hashedAt s t ∧
        t.ht = miss2 s.ht (bucketAt s) t.mf.iw1 s.mf.ip ∧
        t.mf.mavg = mavgMiss s.mf.mavg ∧
        t.mf.rndb = missDither t.mf.mavg s.mf.rndb s.mf.ip.toNat s.mf.ipa.toNat ∧
        t.mf.ip.toNat = s.mf.ip.toNat + missAdvance t.mf.mavg s.mf.rndb s.mf.ip.toNat s.mf.ipa.toNat ∧
        t.mf.ipa = s.mf.ipa) ∧
    (∀ hit wp, hitAt s = some (hit, wp) → wp.toNat ≤ s.mf.ip.toNat → s.mf.ip.toNat - wp.toNat < 8 →
      ∃ t, step s = .next t ∧ emitsNothing s t ∧ hashedAt s t ∧ t.ht = s.ht ∧
        t.mf.mavg = s.mf.mavg ∧ t.mf.rndb = s.mf.rndb ∧ t.mf.ip.toNat = s.mf.ip.toNat + 1 ∧
        t.mf.ipa = s.mf.ipa) ∧
    (∀ hit wp, hitAt s = some (hit, wp) → 8388608 ≤ s.mf.ip.toNat - wp.toNat →
      ∃ t, step s = .next t ∧ emitsNothing s t ∧ hashedAt s t ∧
        t.ht = refresh2 s.ht (bucketAt s) hit s.mf.ip ∧
        t.mf.mavg = s.mf.mavg ∧ t.mf.rndb = s.mf.rndb ∧ t.mf.ip.toNat = s.mf.ip.toNat + 1 ∧
        t.mf.ipa = s.mf.ipa)

namespace Sys2Proof.Claims

/-- The preconditions of `WRITE_BLK(lc, rc, d, ipa)` (41_block_writer.md R151), its match a real one
(43_default_match_finder.md R226). -/
structure WritableMatch (src : Memory) (mref lc rc d ipa ipe : Nat) : Prop where
  rc_ge : mref ≤ rc
  rc_le : rc ≤ 524 + mref
  d_ge : 8 ≤ d
  d_lt : d < 8388608
  rc_le_d : rc ≤ d
  stop_le : ipa + lc + rc ≤ ipe
  start_ge : d ≤ ipa + lc
  bytes_eq : ∀ j, j < rc → src.read (ipa + lc + j) = src.read (ipa + lc - d + j)

end Sys2Proof.Claims

/-- A hit of the DEFAULT search at a legal distance is extended forward and backward, and the match is a real
one within its limits, so `WRITE_BLK`'s preconditions hold: `rc` bytes equal the `rc` bytes `d` back, from
the anchor on and up to `ipe`. The pass writes it with `WRITE_BLK`, puts `ip` and `ipa` behind it, and
updates the statistic and the bucket; where `WRITE_BLK` is `EncoderFault` the command ends, with `RESULT = WRITTEN
= 0` if the host did not spoil it (43_default_match_finder.md R218 to R222, R226; 41_block_writer.md R162;
46_host_operations.md R331). What MF's temporaries hold after the pass is log 11, what the unit registers hold
after an `EncoderFault` is log 21. -/
def Obligations.EmittedMatchesAreReal : Prop :=
  ∀ (s : State) (hit : Slot) (wp : Word), undisturbed s → s.phase = .search → s.searchOk → s.dictionaryOk →
    (s.mf.ip.toNat : Int) < s.mf.ipet.toInt → hitAt s = some (hit, wp) →
    let ip := s.mf.ip.toNat
    let ipa := s.mf.ipa.toNat
    let d := ip - wp.toNat
    let ml := min d (min 530 (s.mf.ipe.toNat - ip))
    let fwd := 6 + s.src.fwd (ip + 6) (wp.toNat + 6) (ml - 6)
    let bmc := if ipa < ip then s.src.rev ip wp.toNat (min (ip - ipa) (min 16 (ml - fwd))) else 0
    let lc := ip - ipa - bmc
    let rc := fwd + bmc
    8 ≤ d → d < 8388608 →
    WritableMatch s.src 6 lc rc d ipa s.mf.ipe.toNat ∧
    ∃ t, step s = .next t ∧
      (∀ u, writeBlk s lc rc d ipa = some u →
        t = { s with dst := u.dst, bw := u.bw, mf := t.mf, ht := t.ht } ∧ hashedAt s t ∧
        t.ht = hit2 s.ht (bucketAt s) hit t.mf.iw1 s.mf.ip d ∧
        t.mf.ip = t.mf.ipa ∧ t.mf.ip.toNat = ip + fwd ∧
        t.mf.mavg = mavgHit s.mf.mavg rc ∧ t.mf.rndb = s.mf.rndb) ∧
      (writeBlk s lc rc d ipa = none →
        t.phase = .idle ∧ t.status = 2 ∧ (s.spoiled = false → encoderFaulted s t) ∧ hashedAt s t ∧
        t.mf.ip.toNat = ip - bmc ∧ t.mf.ipa = s.mf.ipa ∧ statisticKept s.mf t.mf) ∧
      limitsKept s.mf t.mf ∧ pendingKept s.mf t.mf

namespace Sys2Proof.Claims

/-- A tuple `(key, off)` gives a candidate at the position `ip` with the four bytes `iw1`
(44_hi_ratio_match_finder.md R248). -/
def givesCandidate (ip : Nat) (iw1 key : Word) (off : Nat) : Prop :=
  key = iw1 ∧ off + 8 ≤ ip ∧ ip - off < 8388608

/-- The candidate of a tuple with offset `off`: its distance, its limit, its forward length (R248). -/
def candidateAt (src : Memory) (ip ipe off : Nat) : Candidate :=
  let ml := min (ip - off) (min 529 (ipe - ip))
  { wp := off, d := ip - off, ml := ml, rc := 4 + src.fwd (ip + 4) (off + 4) (ml - 4) }

/-- The byte that a distance beyond 2^18 costs (R248, R249). -/
def farByte (d : Nat) : Nat := if 262144 < d then 1 else 0

end Sys2Proof.Claims

/-- The probe of mode HI at `ip`, in a bucket whose keys are the bytes at their offsets. A tuple replaces the best
so far exactly if it gives a candidate strictly longer, by 2 beyond 2^18, so that of equal ones the first visited
stays; a candidate is found exactly if some tuple gives one; none of the others is longer than the one found but
for the byte a far one must gain. It lies 8 to `WIN_LEN - 1` bytes back, is at most 529, its own distance and the
input left, and its bytes are real; it is accepted exactly with 5 bytes or more, 6 beyond 2^18
(44_hi_ratio_match_finder.md R248, R249; 42_hash_dictionary.md R198, R200). -/
def Obligations.HiProbeChoosesARealCandidate : Prop :=
  ∀ (ht src : Memory) (b ip ipe : Nat),
    ip + 9 < ipe → (∀ ti, ti ∈ visitOrder ht b → ht.htWord b ti =
      BitVec.ofNat 32 (src.readLE (ht.htWord b (ti + 1)).toNat 4)) →
    let iw1 : Word := BitVec.ofNat 32 (src.readLE ip 4)
    let off := fun ti => (ht.htWord b (ti + 1)).toNat
    let gives := fun ti => givesCandidate ip iw1 (ht.htWord b ti) (off ti)
    let cand := fun ti => candidateAt src ip ipe (off ti)
    let far := fun ti => farByte (ip - off ti)
    let p := probe7 ht src b ip ipe iw1
    (∀ (ti : Nat) (q : Probe),
      let q' := probeTuple src ip ipe iw1 (ht.htWord b ti) (off ti) q
      let longer := ∀ c, q.best = some c → c.rc + far ti < (cand ti).rc
      (gives ti ∧ longer → q'.best = some (cand ti)) ∧ (¬ (gives ti ∧ longer) → q'.best = q.best)) ∧
    (p.keyed = true ↔ ∃ ti, ti ∈ visitOrder ht b ∧ ht.htWord b ti = iw1) ∧
    (p.best = none ↔ ∀ ti, ti ∈ visitOrder ht b → ¬ gives ti) ∧
    (∀ c, p.accepted = some c ↔ p.best = some c ∧ 5 + farByte c.d ≤ c.rc) ∧
    ∀ c, p.best = some c →
      c.d = ip - c.wp ∧ c.wp ≤ ip ∧ 8 ≤ c.d ∧ c.d < 8388608 ∧
      4 ≤ c.rc ∧ c.rc ≤ c.ml ∧ c.ml ≤ c.d ∧ c.ml ≤ 529 ∧ ip + c.ml ≤ ipe ∧
      (∀ j, j < c.rc → src.read (ip + j) = src.read (c.wp + j)) ∧
      ∃ pre ti post, visitOrder ht b = pre ++ ti :: post ∧ gives ti ∧ c = cand ti ∧
        (∀ tj, tj ∈ pre → gives tj → (cand tj).rc + far ti < (cand ti).rc + far tj) ∧
        (∀ tj, tj ∈ post → gives tj → (cand tj).rc ≤ (cand ti).rc + far tj)

/-- The estimated block cost (44_hi_ratio_match_finder.md R251). -/
def Obligations.BlockCostIsAsEstimated : Prop :=
  ∀ (w : Writer) (d lc : Nat),
    let sh := 10 + 3 * (if w.csh ≠ 0 then 1 else 0) + 2 * (if 0 < lc then 1 else 0)
    blockCost w d lc =
      lc + (if 0 < lc then 1 else 0) + (if 15 < lc then 1 else 0) + 2 +
        (if 2 ^ sh ≤ d then 1 else 0) + (if 2 ^ (sh + 8) ≤ d then 1 else 0)

/-- The lazy selection for the candidate `(rc, d)` at `ip` after `lc` literals: held if none is pending; else
the pending one wins if `prc * ov > rc * pov`, and is then emitted alone if it overlaps, or emitted with the
current one held if it does not; else the current one is emitted and the pending one forgotten. Where the
emission is an `EncoderFault` the command ends, with `RESULT = WRITTEN = 0` if the host did not spoil it
(44_hi_ratio_match_finder.md R252 to R256; 41_block_writer.md R162; 46_host_operations.md R331). What the unit
registers hold then is log 21. -/
def Obligations.LazySelectionChooses : Prop :=
  ∀ (s : State) (lc rc d ip : Nat), rc < 2 ^ 10 → d < 2 ^ 23 → ip + rc < 2 ^ 32 →
    s.mf.ipo.toNat + 1 < 2 ^ 32 → (s.mf.pv = true → s.mf.pip.toNat + s.mf.prc.toNat < 2 ^ 32) →
    let m := s.mf
    let t := lazySelect s lc rc d ip
    let plc := m.pip.toNat - m.ipa.toNat
    let wins := rc * blockCost s.bw m.pd.toNat plc < m.prc.toNat * blockCost s.bw d lc
    let held : Prop := t.mf.pv = true ∧ t.mf.prc.toNat = rc ∧ t.mf.pd.toNat = d ∧ t.mf.pip.toNat = ip ∧
      t.mf.ip.toNat = m.ipo.toNat + 1
    let ended : Prop := t.phase = .idle ∧ t.status = 2 ∧ (s.spoiled = false → encoderFaulted s t)
    (m.pv = false → t = { s with mf := t.mf } ∧ held ∧ t.mf.ipa = m.ipa) ∧
    (m.pv = true → wins → ip < m.pip.toNat + m.prc.toNat →
      (∀ u, writeBlk s plc m.prc.toNat m.pd.toNat m.ipa.toNat = some u →
        t = { u with mf := t.mf } ∧ t.mf.pv = false ∧ t.mf.ip = t.mf.ipa ∧
        t.mf.ip.toNat = m.pip.toNat + m.prc.toNat) ∧
      (writeBlk s plc m.prc.toNat m.pd.toNat m.ipa.toNat = none → ended)) ∧
    (m.pv = true → wins → m.pip.toNat + m.prc.toNat ≤ ip →
      (∀ u, writeBlk s plc m.prc.toNat m.pd.toNat m.ipa.toNat = some u →
        t = { u with mf := t.mf } ∧ held ∧ t.mf.ipa.toNat = m.pip.toNat + m.prc.toNat) ∧
      (writeBlk s plc m.prc.toNat m.pd.toNat m.ipa.toNat = none → ended)) ∧
    (m.pv = true → ¬ wins →
      (∀ u, writeBlk s lc rc d m.ipa.toNat = some u →
        t = { u with mf := t.mf } ∧ t.mf.pv = false ∧ t.mf.ip = t.mf.ipa ∧ t.mf.ip.toNat = ip + rc) ∧
      (writeBlk s lc rc d m.ipa.toNat = none → ended)) ∧
    limitsKept m t.mf ∧ statisticKept m t.mf

namespace Sys2Proof.Claims

/-- The four bytes of SRC at the cursor. -/
def wordAt (s : State) : Word := BitVec.ofNat 32 (s.src.readLE s.mf.ip.toNat 4)

/-- The registers a pass of mode HI computes before its probe (44_hi_ratio_match_finder.md R248). -/
def hashedHiAt (s t : State) : Prop :=
  t.mf.iw1 = wordAt s ∧ t.mf.iw2 = (s.src.read (s.mf.ip.toNat + 4)).setWidth 16 ∧
  t.mf.ipo = s.mf.ip ∧ t.mf.h = hash t.mf.iw1 (t.mf.iw2.setWidth 32)

/-- The bucket of a pass of mode HI (R248). -/
def bucketHiAt (s : State) : Nat :=
  bucketOf (hash (wordAt s) ((s.src.read (s.mf.ip.toNat + 4)).setWidth 32)) s.mf.hmask

/-- Some tuple of the bucket has the position's four bytes as its key (R248). -/
def keyedAt (s : State) : Prop :=
  ∃ ti, ti ∈ visitOrder s.ht (bucketHiAt s) ∧ s.ht.htWord (bucketHiAt s) ti = wordAt s

/-- The candidate that a pass of mode HI accepts, if there is one (R249). -/
def acceptedAt (s : State) : Option Candidate :=
  (probe7 s.ht s.src (bucketHiAt s) s.mf.ip.toNat s.mf.ipe.toNat (wordAt s)).accepted

/-- If a candidate is pending, it is a real match that `WRITE_BLK` can take (R257). -/
def pendingReal (s : State) : Prop :=
  s.mf.pv = true → WritableMatch s.src 5 (s.mf.pip.toNat - s.mf.ipa.toNat) s.mf.prc.toNat s.mf.pd.toNat
    s.mf.ipa.toNat s.mf.ipe.toNat

/-- What a pass of mode HI does at a position, from `s` to `t`, by way of the state `u` before the lazy selection
(R248 to R250). -/
def hiPass (s u t : State) : Prop :=
  let ip := s.mf.ip.toNat
  let ipa := s.mf.ipa.toNat
  u = { s with ht := u.ht, mf := u.mf } ∧ hashedHiAt s u ∧
  (keyedAt s → u.ht = s.ht) ∧ (¬ keyedAt s → u.ht = miss7 s.ht (bucketHiAt s) (wordAt s) s.mf.ip) ∧
  u.mf.ipa = s.mf.ipa ∧ limitsKept s.mf u.mf ∧ statisticKept s.mf u.mf ∧ pendingKept s.mf u.mf ∧
  (acceptedAt s = none → t = u ∧ t.mf.ip.toNat = ip + 1) ∧
  ∀ c, acceptedAt s = some c →
    let bmc := if ipa < ip then s.src.rev ip c.wp (min (ip - ipa) (min 16 (min (c.ml - c.rc) c.wp))) else 0
    u.mf.ip.toNat = ip - bmc ∧
    WritableMatch s.src 5 (ip - ipa - bmc) (c.rc + bmc) c.d ipa s.mf.ipe.toNat ∧
    t = lazySelect u (ip - ipa - bmc) (c.rc + bmc) c.d (ip - bmc)

end Sys2Proof.Claims

/-- A step of the HI search. It hashes, inserts the position exactly if no tuple has its key, moves on by 1 if it
accepts no candidate, else extends the candidate backward and goes on to the lazy selection; the match it
selects from is real and so is the pending one, before and after, so every match written is; MF's limits and
table registers stay. It makes progress: the anchor stays and the cursor moves on by 1, or the anchor rises by
at least 5 and the cursor is at or behind it (44_hi_ratio_match_finder.md R247 to R250, R257, R259). What MF's
temporaries hold after the pass is log 11. -/
def Obligations.HiPassInsertsExtendsAndSelects : Prop :=
  (∀ s : State, undisturbed s → s.phase = .searchHi → s.searchOk → s.dictionaryHiOk → pendingReal s →
    (s.mf.ip.toNat : Int) < s.mf.ipet.toInt →
    ∃ u t, step s = .next t ∧ hiPass s u t ∧ limitsKept s.mf t.mf ∧ statisticKept s.mf t.mf ∧
      (t.phase = .searchHi → pendingReal t)) ∧
  ∀ s t : State, undisturbed s → s.phase = .searchHi → s.searchOk → step s = .next t → t.phase = .searchHi →
    (s.mf.ip.toNat : Int) < s.mf.ipet.toInt ∧
    (t.mf.ipa = s.mf.ipa ∧ t.mf.ip.toNat = s.mf.ip.toNat + 1 ∨
      s.mf.ipa.toNat + 5 ≤ t.mf.ipa.toNat ∧ t.mf.ipa.toNat ≤ t.mf.ip.toNat)

/-- The DEFAULT search ends after at most `srcl` passes and leaves `DONE` and the engine idle
(43_default_match_finder.md R225, R228). -/
def Obligations.DefaultSearchEnds : Prop :=
  ∀ s : State, undisturbed s → s.phase = .search → s.searchOk →
    ∃ k t, k ≤ s.mf.ipe.toNat + 6 ∧ Sys2Proof.core.run k s = .next t ∧ t.phase = .idle ∧ t.status = 2

/-! ### Invariants of the whole machine -/

/-- The limits of both searches, of the writer's carry state and of its `op` are kept by every step
(10_state.md R32, R38; 44_hi_ratio_match_finder.md R257; 46_host_operations.md R337). -/
def Obligations.SearchBoundsKept : Prop :=
  ∀ s t : State, s.searchOk → step s = .next t → t.searchOk

/-- The dictionary invariant of mode DEFAULT is established by `COMPRESS` and kept by every pass
(42_hash_dictionary.md R183, R189). -/
def Obligations.DefaultDictionaryKept : Prop :=
  ∀ s t : State, s.engineNext = true → s.memWf → s.searchOk → s.dictionaryOk → step s = .next t →
    t.dictionaryOk

/-- The dictionary invariant of mode HI is established by `COMPRESS_HI` and kept by every pass
(42_hash_dictionary.md R196, R200). -/
def Obligations.HiDictionaryKept : Prop :=
  ∀ s t : State, s.engineNext = true → s.memWf → s.searchOk → s.dictionaryHiOk → step s = .next t →
    t.dictionaryHiOk

/-- No step of the engine writes DST at or beyond the command's capacity, whatever the stream, and even if
the host broke the protocol (20_memory.md R61; 45_decoder.md R300; 46_host_operations.md R337;
70_reset_and_hazards.md R412). -/
def Obligations.StoresStayInsideDst : Prop :=
  ∀ (s t : State) (a : Nat), s.engineNext = true → s.memWf → s.decoderOk → s.searchOk →
    step s = .next t → s.capacity ≤ a → t.dst.read a = s.dst.read a

/-- `STATUS` fits the phase: `BUSY` alone while a command is in progress, else `DONE` alone or neither
(10_state.md R22, R24). -/
def Obligations.StatusFitsThePhase : Prop :=
  ∀ s t : State, s.statusOk → step s = .next t → t.statusOk

/-- A command that the host spoiled (70_reset_and_hazards.md R412) stays marked until it ends, and the step that
ends it leaves `DONE` alone and no mark. R412 leaves the result of such a command unspecified; that it ends like
every other and with `DONE` is the model's choice (log 5), and so is that `RESULT`, `WRITTEN` and DST are free
then. -/
def Obligations.SpoilIsRememberedUntilTheEnd : Prop :=
  ∀ s t : State, s.engineNext = true → s.spoiled = true → s.phase ≠ .idle → step s = .next t →
    (t.phase = .idle → t.status = 2 ∧ t.spoiled = false) ∧ (t.phase ≠ .idle → t.spoiled = true)

/-- The memories keep their canonical form, so that equal memories are equal data. -/
def Obligations.MemoriesStayCanonical : Prop :=
  ∀ s t : State, s.memWf → step s = .next t → t.memWf

/-- The state after reset meets every invariant that the steps keep. -/
def Obligations.ResetMeetsTheInvariants : Prop :=
  State.reset.memWf ∧ State.reset.statusOk ∧ State.reset.decoderOk ∧ State.reset.searchOk ∧
  State.reset.dictionaryOk ∧ State.reset.dictionaryHiOk

/-! ### The round trip -/

namespace Sys2Proof.Claims

/-- What a compression command writes for the bytes in SRC decompresses to those bytes: after the command,
which ends within `k` steps, DECOMPRESS of the stream left in DST, with the original length in `DSTL`, ends
with that length in `RESULT` and the original bytes in DST (41_block_writer.md R164). -/
def roundTrips (i : Instr) (f : Int → Int) (k : Nat) (s : State) : Prop :=
  s.spoiled = false → s.phase = .start → undisturbed s → decode (.command s.cmd) = .ok i →
  f s.srcl.toNat ≤ s.dstl.toNat → s.dstl.toNat ≤ 2147483647 →
  ∃ t u, Sys2Proof.core.run k s = .next t ∧ t.phase = .idle ∧ t.status = 2 ∧
    1 ≤ t.result.toNat ∧
    Sys2Proof.core.run 4 { t with src := t.dst, dst := s.dst, srcl := t.result, dstl := s.srcl, cmd := 3
                                  phase := .start, status := 1 } = .next u ∧
    u.phase = .idle ∧ u.result = s.srcl ∧ u.written = s.srcl ∧
    ∀ a, a < s.srcl.toNat → u.dst.read a = s.src.read a

end Sys2Proof.Claims

/-- Compressing 1 to 31 bytes and decompressing the stream gives the bytes back, for both compression
commands: the short form below 16 bytes, one terminal block from 16 on (41_block_writer.md R161, R164;
43_default_match_finder.md R213; 44_hi_ratio_match_finder.md R242). How many steps each command takes is log 3
(DEDUCED). -/
def Obligations.SmallInputsRoundTrip : Prop :=
  ∀ s : State, 1 ≤ s.srcl.toNat → s.srcl.toNat ≤ 31 →
    roundTrips .compress (boundFormula 144 150 6) (if s.srcl.toNat < 16 then 1 else 2) s ∧
    roundTrips .compressHi (boundFormula 16 21 5) (if s.srcl.toNat < 16 then 1 else 2) s
end

