-- ==== Sys2Proof/Laws/Memory.lean ====
section
/-! SUPPORT. The laws of the memories: a read after a write, what an operation leaves alone, and that
every operation keeps the canonical form. -/

namespace Sys2Proof.Machine

/-! ### Cells -/

/-- A read after a put: the put is found, others are as before. -/
theorem cellsFind_put (l : List Host.Cell) (a b : Nat) (v : Byte) :
    cellsFind (cellsPut l a v) b = if b = a then some v else cellsFind l b := by
  induction l with
  | nil => by_cases hb : b = a <;> simp [cellsPut, cellsFind, hb]
  | cons c r ih =>
    obtain ⟨k, w⟩ := c
    unfold cellsPut
    split
    · simp only [cellsFind]
      split <;> rename_i h1
      · rfl
      · split <;> rename_i h2
        · rw [if_neg (by omega), if_pos (by omega)]
        · rfl
    · split
      · subst_vars
        simp only [cellsFind]
        split <;> rfl
      · simp only [cellsFind, ih]
        by_cases h1 : b = k
        · subst h1; rw [if_pos rfl, if_neg (by omega), if_pos rfl]
        · rw [if_neg h1, if_neg h1]
          by_cases h2 : b < k
          · rw [if_pos h2, if_pos h2, if_neg (by omega)]
          · rw [if_neg h2, if_neg h2]

theorem cellsRise_weaken {lo lo' : Nat} {l : List Host.Cell} (h : cellsRise lo l = true)
    (hle : lo' ≤ lo) : cellsRise lo' l = true := by
  cases l with
  | nil => rfl
  | cons c r =>
    simp only [cellsRise, Bool.and_eq_true, decide_eq_true_eq] at h ⊢
    exact ⟨by omega, h.2⟩

theorem cellsRise_put {lo : Nat} {l : List Host.Cell} (a : Nat) (v : Byte)
    (h : cellsRise lo l = true) (hlo : lo ≤ a) : cellsRise lo (cellsPut l a v) = true := by
  induction l generalizing lo with
  | nil => simp [cellsPut, cellsRise, hlo]
  | cons c r ih =>
    obtain ⟨k, w⟩ := c
    simp only [cellsRise, Bool.and_eq_true, decide_eq_true_eq] at h
    unfold cellsPut
    split
    · simp only [cellsRise, Bool.and_eq_true, decide_eq_true_eq]
      exact ⟨hlo, by omega, h.2⟩
    · split
      · subst_vars
        simp only [cellsRise, Bool.and_eq_true, decide_eq_true_eq]
        exact ⟨hlo, h.2⟩
      · simp only [cellsRise, Bool.and_eq_true, decide_eq_true_eq]
        exact ⟨h.1, ih h.2 (by omega)⟩

/-! ### One byte -/

@[simp] theorem Memory.read_write (m : Memory) (a b : Nat) (v : Byte) :
    (m.write a v).read b = if b = a then v else m.read b := by
  simp only [Memory.read, Memory.write, cellsFind_put]
  split <;> rfl

theorem Memory.read_write_same (m : Memory) (a : Nat) (v : Byte) : (m.write a v).read a = v := by simp

theorem Memory.read_write_other (m : Memory) {a b : Nat} (v : Byte) (h : b ≠ a) :
    (m.write a v).read b = m.read b := by simp [h]

theorem Memory.wf_write {m : Memory} (a : Nat) (v : Byte) (h : m.wf = true) : (m.write a v).wf = true :=
  cellsRise_put a v h (Nat.zero_le a)

theorem Memory.wf_orByte {m : Memory} (a : Nat) (v : Byte) (h : m.wf = true) : (m.orByte a v).wf = true :=
  Memory.wf_write a _ h

theorem Memory.read_orByte (m : Memory) (a b : Nat) (v : Byte) :
    (m.orByte a v).read b = if b = a then m.read a ||| v else m.read b := by
  simp [Memory.orByte]

/-! ### Several bytes -/

theorem Memory.wf_writeBytes {m : Memory} (a : Nat) (bs : List Byte) (h : m.wf = true) :
    (m.writeBytes a bs).wf = true := by
  induction bs generalizing m a with
  | nil => exact h
  | cons b bs ih => exact ih _ (Memory.wf_write a b h)

theorem Memory.read_writeBytes (m : Memory) (a b : Nat) (bs : List Byte) :
    (m.writeBytes a bs).read b =
      if a ≤ b ∧ b < a + bs.length then bs.getD (b - a) 0 else m.read b := by
  induction bs generalizing m a with
  | nil =>
    rw [if_neg (by rw [List.length_nil]; omega)]; rfl
  | cons x xs ih =>
    show ((m.write a x).writeBytes (a + 1) xs).read b = _
    rw [ih]
    by_cases h1 : b = a
    · subst h1; simp
    · by_cases h2 : a + 1 ≤ b ∧ b < a + 1 + xs.length
      · rw [if_pos h2, if_pos (by simp; omega)]
        obtain ⟨n, rfl⟩ : ∃ n, b = a + 1 + n := ⟨b - (a + 1), by omega⟩
        rw [show a + 1 + n - (a + 1) = n by omega, show a + 1 + n - a = n + 1 by omega]
        simp
      · rw [if_neg h2, if_neg (by simp; omega), Memory.read_write, if_neg h1]

theorem Memory.wf_writeLE {m : Memory} (a n v : Nat) (h : m.wf = true) : (m.writeLE a n v).wf = true := by
  induction n generalizing m a v with
  | zero => exact h
  | succ n ih => exact ih _ _ (Memory.wf_write a _ h)

/-- `MemWrite` writes byte `i` of the value at `a + i` and nothing else. -/
theorem Memory.read_writeLE_eq (m : Memory) (a b n v : Nat) :
    (m.writeLE a n v).read b =
      if a ≤ b ∧ b < a + n then BitVec.ofNat 8 (v / 256 ^ (b - a)) else m.read b := by
  induction n generalizing m a v with
  | zero => rw [if_neg (by omega)]; rfl
  | succ n ih =>
    show ((m.write a (BitVec.ofNat 8 v)).writeLE (a + 1) n (v / 256)).read b = _
    rw [ih]
    by_cases h1 : b = a
    · subst h1
      rw [if_neg (by omega), if_pos (by omega)]; simp
    · by_cases h2 : a + 1 ≤ b ∧ b < a + 1 + n
      · rw [if_pos h2, if_pos (by omega), Nat.div_div_eq_div_mul, ← pow_succ',
          show b - (a + 1) + 1 = b - a by omega]
      · rw [if_neg h2, if_neg (by omega), Memory.read_write, if_neg h1]

theorem Memory.readLE_lt (m : Memory) (a n : Nat) : m.readLE a n < 256 ^ n := by
  induction n generalizing a with
  | zero => simp [Memory.readLE]
  | succ n ih =>
    have := ih (a + 1)
    have hb := (m.read a).isLt
    simp only [Memory.readLE, pow_succ]
    omega

/-- A wide read sees only its own bytes. -/
theorem Memory.readLE_congr {m m' : Memory} {a n : Nat}
    (h : ∀ b, a ≤ b → b < a + n → m'.read b = m.read b) : m'.readLE a n = m.readLE a n := by
  induction n generalizing a with
  | zero => rfl
  | succ n ih =>
    simp only [Memory.readLE]
    rw [h a (by omega) (by omega), ih (fun b h1 h2 => h b (by omega) (by omega))]

/-- A wide read after the same wide write gives the value's low bytes. -/
theorem Memory.readLE_writeLE_same (m : Memory) (a n v : Nat) :
    (m.writeLE a n v).readLE a n = v % 256 ^ n := by
  have key : ∀ (n a v : Nat) (m' : Memory),
      (∀ i, i < n → m'.read (a + i) = BitVec.ofNat 8 (v / 256 ^ i)) → m'.readLE a n = v % 256 ^ n := by
    intro n
    induction n with
    | zero => intro a v m' _; simp [Memory.readLE, Nat.mod_one]
    | succ n ih =>
      intro a v m' h
      have h0 := h 0 (by omega)
      have hs := ih (a + 1) (v / 256) m' (fun i hi => by
        rw [show a + 1 + i = a + (i + 1) by omega, h (i + 1) (by omega), Nat.div_div_eq_div_mul,
          ← pow_succ'])
      simp only [Memory.readLE, hs]
      simp only [Nat.add_zero, pow_zero, Nat.div_one] at h0
      rw [h0, pow_succ', Nat.mod_mul, BitVec.toNat_ofNat]
  refine key n a v _ (fun i hi => ?_)
  rw [Memory.read_writeLE_eq, if_pos (by omega), Nat.add_sub_cancel_left]

/-! ### Copies -/

theorem Memory.wf_copyFrom {dst : Memory} (src : Memory) (a b n : Nat) (h : dst.wf = true) :
    (dst.copyFrom src a b n).wf = true := by
  induction n generalizing dst a b with
  | zero => exact h
  | succ n ih => exact ih _ _ (Memory.wf_write a _ h)

/-- A copy from another memory: the bytes copied, and nothing else. -/
theorem Memory.read_copyFrom (dst src : Memory) (a b n c : Nat) :
    (dst.copyFrom src a b n).read c =
      if a ≤ c ∧ c < a + n then src.read (b + (c - a)) else dst.read c := by
  induction n generalizing dst a b with
  | zero => rw [if_neg (by omega)]; rfl
  | succ n ih =>
    show ((dst.write a (src.read b)).copyFrom src (a + 1) (b + 1) n).read c = _
    rw [ih]
    by_cases h1 : c = a
    · subst h1
      rw [if_neg (by omega), if_pos (by omega), Memory.read_write, if_pos rfl, Nat.sub_self, Nat.add_zero]
    · by_cases h2 : a + 1 ≤ c ∧ c < a + 1 + n
      · rw [if_pos h2, if_pos (by omega), show b + 1 + (c - (a + 1)) = b + (c - a) by omega]
      · rw [if_neg h2, if_neg (by omega), Memory.read_write, if_neg h1]

theorem Memory.wf_copyWithin {m : Memory} (a b n : Nat) (h : m.wf = true) :
    (m.copyWithin a b n).wf = true := by
  induction n generalizing m a b with
  | zero => exact h
  | succ n ih => exact ih _ _ (Memory.wf_write a _ h)

/-- A copy inside a memory writes only its destination. -/
theorem Memory.read_copyWithin_outside (m : Memory) (a b n c : Nat) (h : c < a ∨ a + n ≤ c) :
    (m.copyWithin a b n).read c = m.read c := by
  induction n generalizing m a b with
  | zero => rfl
  | succ n ih =>
    show ((m.write a (m.read b)).copyWithin (a + 1) (b + 1) n).read c = _
    rw [ih _ _ _ (by omega), Memory.read_write, if_neg (by omega)]

/-- The last byte of a copy inside a memory is read after all the others were written. -/
theorem Memory.copyWithin_succ (m : Memory) (a b n : Nat) :
    m.copyWithin a b (n + 1) =
      (m.copyWithin a b n).write (a + n) ((m.copyWithin a b n).read (b + n)) := by
  induction n generalizing m a b with
  | zero => rfl
  | succ n ih =>
    show (m.write a (m.read b)).copyWithin (a + 1) (b + 1) (n + 1) = _
    rw [ih, show a + 1 + n = a + (n + 1) by omega, show b + 1 + n = b + (n + 1) by omega]
    rfl

/-! ### Filling -/

theorem cellsFind_filter_lt (l : List Host.Cell) (lo b : Nat) (k : Nat) (h : cellsRise k l = true) :
    cellsFind (l.filter (fun c => decide (c.1 < lo))) b = if b < lo then cellsFind l b else none := by
  induction l generalizing k with
  | nil => simp [cellsFind]
  | cons c r ih =>
    obtain ⟨j, w⟩ := c
    simp only [cellsRise, Bool.and_eq_true, decide_eq_true_eq] at h
    have ih' := ih _ h.2
    by_cases hj : j < lo
    · rw [List.filter_cons_of_pos (by simpa using hj)]
      simp only [cellsFind, ih']
      split
      · rw [if_pos (by omega)]
      · split <;> split <;> rfl
    · rw [List.filter_cons_of_neg (by simpa using hj), ih']
      by_cases hb : b < lo
      · rw [if_pos hb, if_pos hb]
        have : ∀ (l : List Host.Cell) (k : Nat), cellsRise k l = true → b < k → cellsFind l b = none := by
          intro l
          cases l with
          | nil => intros; rfl
          | cons c r =>
            intro k h hb
            simp only [cellsRise, Bool.and_eq_true, decide_eq_true_eq] at h
            simp only [cellsFind]
            rw [if_neg (by omega), if_pos (by omega)]
        rw [this r _ h.2 (by omega)]
        simp only [cellsFind]
        rw [if_neg (by omega), if_pos (by omega)]
      · rw [if_neg hb, if_neg hb]

theorem cellsRise_filter (l : List Host.Cell) (p : Host.Cell → Bool) (k : Nat)
    (h : cellsRise k l = true) : cellsRise k (l.filter p) = true := by
  induction l generalizing k with
  | nil => rfl
  | cons c r ih =>
    obtain ⟨j, w⟩ := c
    simp only [cellsRise, Bool.and_eq_true, decide_eq_true_eq] at h
    rw [List.filter_cons]
    split
    · simp only [cellsRise, Bool.and_eq_true, decide_eq_true_eq]
      exact ⟨h.1, ih _ h.2⟩
    · exact cellsRise_weaken (ih _ h.2) (by omega)

/-- Two runs of cells, one below the other, rise together. -/
theorem cellsRise_append {l r : List Host.Cell} {k mid : Nat} (hl : cellsRise k l = true)
    (hr : cellsRise mid r = true) (hk : k ≤ mid) (h : ∀ c ∈ l, c.1 < mid) :
    cellsRise k (l ++ r) = true := by
  induction l generalizing k with
  | nil => exact cellsRise_weaken hr hk
  | cons c l ih =>
    obtain ⟨j, w⟩ := c
    simp only [cellsRise, Bool.and_eq_true, decide_eq_true_eq, List.cons_append] at hl ⊢
    have := h (j, w) (by simp)
    exact ⟨hl.1, ih hl.2 (by simp at this; omega) (fun c hc => h c (by simp [hc]))⟩

theorem cellsRise_range (lo n : Nat) (f : Nat → Byte) :
    cellsRise lo ((List.range n).map (fun i => (lo + i, f (lo + i)))) = true := by
  induction n generalizing lo with
  | zero => rfl
  | succ n ih =>
    rw [List.range_succ_eq_map, List.map_cons, List.map_map]
    simp only [cellsRise, Bool.and_eq_true, decide_eq_true_eq, Nat.add_zero, le_refl, true_and]
    have := ih (lo + 1)
    convert this using 3
    funext i
    simp only [Function.comp_apply]
    rw [show lo + Nat.succ i = lo + 1 + i by omega]

theorem cellsRise_filter_ge {l : List Host.Cell} {lo k : Nat} (h : cellsRise k l = true) :
    cellsRise lo (l.filter (fun c => decide (lo ≤ c.1))) = true := by
  induction l generalizing k with
  | nil => rfl
  | cons c r ih =>
    obtain ⟨j, w⟩ := c
    simp only [cellsRise, Bool.and_eq_true, decide_eq_true_eq] at h
    rw [List.filter_cons]
    split <;> rename_i hj
    · simp only [cellsRise, Bool.and_eq_true, decide_eq_true_eq]
      exact ⟨by simpa using hj, cellsRise_filter _ _ _ h.2⟩
    · exact ih h.2

theorem Memory.wf_fill {m : Memory} (lo n : Nat) (f : Nat → Byte) (h : m.wf = true) :
    (m.fill lo n f).wf = true := by
  have h1 : cellsRise lo ((List.range n).map (fun i => (lo + i, f (lo + i))) ++
      m.cells.filter (fun c => decide (lo + n ≤ c.1))) = true :=
    cellsRise_append (cellsRise_range lo n f) (cellsRise_filter_ge h) (by omega) (by
      intro c hc
      obtain ⟨i, hi, rfl⟩ := List.mem_map.1 hc
      have := List.mem_range.1 hi
      show lo + i < lo + n
      omega)
  unfold Memory.wf Memory.fill
  rw [List.append_assoc]
  exact cellsRise_append (cellsRise_filter _ _ _ h) h1 (by omega)
    (fun c hc => by simpa using (List.mem_filter.1 hc).2)

theorem cellsFind_append {l r : List Host.Cell} {k b : Nat} (hl : cellsRise k l = true)
    (hr : ∀ c ∈ r, (∀ d ∈ l, d.1 < c.1)) :
    cellsFind (l ++ r) b = (cellsFind l b).or (cellsFind r b) := by
  induction l generalizing k with
  | nil => rfl
  | cons c l ih =>
    obtain ⟨j, w⟩ := c
    simp only [cellsRise, Bool.and_eq_true, decide_eq_true_eq] at hl
    have ih' := ih hl.2 (fun c hc d hd => hr c hc d (by simp [hd]))
    simp only [List.cons_append, cellsFind, ih']
    split
    · rfl
    · split <;> rename_i h2
      · have hnone : ∀ (r : List Host.Cell), (∀ c ∈ r, j < c.1) → cellsFind r b = none := by
          intro r hr
          cases r with
          | nil => rfl
          | cons c r =>
            have := hr c (by simp)
            obtain ⟨x, y⟩ := c
            simp only [cellsFind]
            simp only at this
            rw [if_neg (by omega), if_pos (by omega)]
        rw [hnone r (fun c hc => hr c hc (j, w) (by simp))]
        rfl
      · rfl

theorem cellsFind_range (lo n b : Nat) (f : Nat → Byte) :
    cellsFind ((List.range n).map (fun i => (lo + i, f (lo + i)))) b =
      if lo ≤ b ∧ b < lo + n then some (f b) else none := by
  induction n generalizing lo with
  | zero => rw [if_neg (by omega)]; rfl
  | succ n ih =>
    rw [List.range_succ_eq_map, List.map_cons, List.map_map]
    have e : ((fun i => (lo + i, f (lo + i))) ∘ Nat.succ : Nat → Host.Cell) =
        fun i => (lo + 1 + i, f (lo + 1 + i)) := by
      funext i
      simp only [Function.comp_apply]
      rw [show lo + Nat.succ i = lo + 1 + i by omega]
    rw [e]
    simp only [cellsFind, Nat.add_zero, ih (lo + 1)]
    by_cases h1 : b = lo
    · subst h1; rw [if_pos rfl, if_pos (by omega)]
    · rw [if_neg h1]
      by_cases h2 : b < lo
      · rw [if_pos h2, if_neg (by omega)]
      · rw [if_neg h2]
        by_cases h3 : b < lo + (n + 1)
        · rw [if_pos (by omega), if_pos (by omega)]
        · rw [if_neg (by omega), if_neg (by omega)]

theorem cellsFind_filter_ge (l : List Host.Cell) (lo b : Nat) (k : Nat) (h : cellsRise k l = true) :
    cellsFind (l.filter (fun c => decide (lo ≤ c.1))) b = if lo ≤ b then cellsFind l b else none := by
  induction l generalizing k with
  | nil => simp [cellsFind]
  | cons c r ih =>
    obtain ⟨j, w⟩ := c
    simp only [cellsRise, Bool.and_eq_true, decide_eq_true_eq] at h
    have ih' := ih _ h.2
    by_cases hj : lo ≤ j
    · rw [List.filter_cons_of_pos (by simpa using hj)]
      simp only [cellsFind, ih']
      split
      · rw [if_pos (by omega)]
      · split <;> split <;> rfl
    · rw [List.filter_cons_of_neg (by simpa using hj), ih']
      by_cases hb : lo ≤ b
      · rw [if_pos hb, if_pos hb]
        simp only [cellsFind]
        rw [if_neg (by omega), if_neg (by omega)]
      · rw [if_neg hb, if_neg hb]

/-- A fill of a canonical memory gives the bytes named and leaves the others. -/
theorem Memory.read_fill {m : Memory} (lo n : Nat) (f : Nat → Byte) (b : Nat) (h : m.wf = true) :
    (m.fill lo n f).read b = if lo ≤ b ∧ b < lo + n then f b else m.read b := by
  have hfind : cellsFind (m.fill lo n f).cells b =
      if lo ≤ b ∧ b < lo + n then some (f b) else cellsFind m.cells b := by
    show cellsFind (_ ++ _ ++ _) b = _
    rw [List.append_assoc]
    rw [cellsFind_append (k := 0) (cellsRise_filter _ _ _ h), cellsFind_append (k := lo)
      (cellsRise_range lo n f), cellsFind_filter_lt _ _ _ 0 h, cellsFind_range,
      cellsFind_filter_ge _ _ _ 0 h]
    · by_cases h1 : b < lo
      · rw [if_pos h1, if_neg (by omega), if_neg (by omega), if_neg (by omega)]; simp
      · rw [if_neg h1]
        by_cases h2 : b < lo + n
        · rw [if_pos ⟨by omega, h2⟩, if_neg (by omega), if_pos ⟨by omega, h2⟩]; rfl
        · rw [if_neg (by omega), if_pos (by omega), if_neg (by omega)]; rfl
    · intro c hc d hd
      obtain ⟨i, hi, rfl⟩ := List.mem_map.1 hd
      have := List.mem_range.1 hi
      have := (List.mem_filter.1 hc).2
      simp at this ⊢
      omega
    · intro c hc d hd
      have hd' := (List.mem_filter.1 hd).2
      rcases List.mem_append.1 hc with hc | hc
      · obtain ⟨i, hi, rfl⟩ := List.mem_map.1 hc
        simp at hd' ⊢
        omega
      · have hc' := (List.mem_filter.1 hc).2
        simp at hd' hc'
        omega
  simp only [Memory.read, hfind]
  split <;> rfl

/-! ### Words of HT -/

theorem Memory.wf_setHtWord {m : Memory} (b i : Nat) (v : Word) (h : m.wf = true) :
    (m.setHtWord b i v).wf = true := Memory.wf_writeLE _ _ _ h

@[simp] theorem Memory.htWord_setHtWord_same (m : Memory) (b i : Nat) (v : Word) :
    (m.setHtWord b i v).htWord b i = v := by
  unfold Memory.htWord Memory.setHtWord
  rw [Memory.readLE_writeLE_same]
  apply BitVec.eq_of_toNat_eq
  have := v.isLt
  simp only [BitVec.toNat_ofNat]
  omega

/-- A word of another place is not changed. -/
theorem Memory.htWord_setHtWord_other (m : Memory) {b i c j : Nat} (v : Word)
    (h : c + 4 * j + 4 ≤ b + 4 * i ∨ b + 4 * i + 4 ≤ c + 4 * j) :
    (m.setHtWord b i v).htWord c j = m.htWord c j := by
  unfold Memory.htWord Memory.setHtWord
  rw [Memory.readLE_congr]
  intro x h1 h2
  rw [Memory.read_writeLE_eq, if_neg (by omega)]

/-! ### Scanners -/

theorem Memory.fwd_le (m : Memory) (a b ml : Nat) : m.fwd a b ml ≤ ml := by
  induction ml generalizing a b with
  | zero => exact Nat.le_refl 0
  | succ n ih =>
    unfold Memory.fwd
    split
    · have := ih (a + 1) (b + 1); omega
    · omega

theorem Memory.rev_le (m : Memory) (a b ml : Nat) : m.rev a b ml ≤ ml := by
  induction ml generalizing a b with
  | zero => exact Nat.le_refl 0
  | succ n ih =>
    unfold Memory.rev
    split
    · have := ih (a - 1) (b - 1); omega
    · omega

/-! ### Reset -/

/-- The three memories after reset are in canonical form. -/
theorem State.reset_memories_wf :
    State.reset.src.wf = true ∧ State.reset.dst.wf = true ∧ State.reset.ht.wf = true := by decide

end Sys2Proof.Machine
end

