-- ==== Sys2Proof/Laws/State.lean ====
section
/-! SUPPORT. The small lemmas of the state: one for each field and each named update, and what the ends
of a command leave. -/

namespace Sys2Proof.Machine

/-! ### `State.setBd` -/

@[simp] theorem State.setBd_cmd (s : State) (x : Decoder) : (s.setBd x).cmd = s.cmd := rfl
@[simp] theorem State.setBd_srcl (s : State) (x : Decoder) : (s.setBd x).srcl = s.srcl := rfl
@[simp] theorem State.setBd_dstl (s : State) (x : Decoder) : (s.setBd x).dstl = s.dstl := rfl
@[simp] theorem State.setBd_status (s : State) (x : Decoder) : (s.setBd x).status = s.status := rfl
@[simp] theorem State.setBd_result (s : State) (x : Decoder) : (s.setBd x).result = s.result := rfl
@[simp] theorem State.setBd_written (s : State) (x : Decoder) : (s.setBd x).written = s.written := rfl
@[simp] theorem State.setBd_bd (s : State) (x : Decoder) : (s.setBd x).bd = x := rfl
@[simp] theorem State.setBd_bw (s : State) (x : Decoder) : (s.setBd x).bw = s.bw := rfl
@[simp] theorem State.setBd_mf (s : State) (x : Decoder) : (s.setBd x).mf = s.mf := rfl
@[simp] theorem State.setBd_src (s : State) (x : Decoder) : (s.setBd x).src = s.src := rfl
@[simp] theorem State.setBd_dst (s : State) (x : Decoder) : (s.setBd x).dst = s.dst := rfl
@[simp] theorem State.setBd_ht (s : State) (x : Decoder) : (s.setBd x).ht = s.ht := rfl
@[simp] theorem State.setBd_phase (s : State) (x : Decoder) : (s.setBd x).phase = s.phase := rfl
@[simp] theorem State.setBd_cap (s : State) (x : Decoder) : (s.setBd x).cap = s.cap := rfl
@[simp] theorem State.setBd_spoiled (s : State) (x : Decoder) : (s.setBd x).spoiled = s.spoiled := rfl
@[simp] theorem State.setBd_draws (s : State) (x : Decoder) : (s.setBd x).draws = s.draws := rfl
@[simp] theorem State.setBd_readValue (s : State) (x : Decoder) : (s.setBd x).readValue = s.readValue := rfl
@[simp] theorem State.setBd_hostScript (s : State) (x : Decoder) : (s.setBd x).hostScript = s.hostScript := rfl

/-! ### `State.setBw` -/

@[simp] theorem State.setBw_cmd (s : State) (x : Writer) : (s.setBw x).cmd = s.cmd := rfl
@[simp] theorem State.setBw_srcl (s : State) (x : Writer) : (s.setBw x).srcl = s.srcl := rfl
@[simp] theorem State.setBw_dstl (s : State) (x : Writer) : (s.setBw x).dstl = s.dstl := rfl
@[simp] theorem State.setBw_status (s : State) (x : Writer) : (s.setBw x).status = s.status := rfl
@[simp] theorem State.setBw_result (s : State) (x : Writer) : (s.setBw x).result = s.result := rfl
@[simp] theorem State.setBw_written (s : State) (x : Writer) : (s.setBw x).written = s.written := rfl
@[simp] theorem State.setBw_bd (s : State) (x : Writer) : (s.setBw x).bd = s.bd := rfl
@[simp] theorem State.setBw_bw (s : State) (x : Writer) : (s.setBw x).bw = x := rfl
@[simp] theorem State.setBw_mf (s : State) (x : Writer) : (s.setBw x).mf = s.mf := rfl
@[simp] theorem State.setBw_src (s : State) (x : Writer) : (s.setBw x).src = s.src := rfl
@[simp] theorem State.setBw_dst (s : State) (x : Writer) : (s.setBw x).dst = s.dst := rfl
@[simp] theorem State.setBw_ht (s : State) (x : Writer) : (s.setBw x).ht = s.ht := rfl
@[simp] theorem State.setBw_phase (s : State) (x : Writer) : (s.setBw x).phase = s.phase := rfl
@[simp] theorem State.setBw_cap (s : State) (x : Writer) : (s.setBw x).cap = s.cap := rfl
@[simp] theorem State.setBw_spoiled (s : State) (x : Writer) : (s.setBw x).spoiled = s.spoiled := rfl
@[simp] theorem State.setBw_draws (s : State) (x : Writer) : (s.setBw x).draws = s.draws := rfl
@[simp] theorem State.setBw_readValue (s : State) (x : Writer) : (s.setBw x).readValue = s.readValue := rfl
@[simp] theorem State.setBw_hostScript (s : State) (x : Writer) : (s.setBw x).hostScript = s.hostScript := rfl

/-! ### `State.setMf` -/

@[simp] theorem State.setMf_cmd (s : State) (x : Finder) : (s.setMf x).cmd = s.cmd := rfl
@[simp] theorem State.setMf_srcl (s : State) (x : Finder) : (s.setMf x).srcl = s.srcl := rfl
@[simp] theorem State.setMf_dstl (s : State) (x : Finder) : (s.setMf x).dstl = s.dstl := rfl
@[simp] theorem State.setMf_status (s : State) (x : Finder) : (s.setMf x).status = s.status := rfl
@[simp] theorem State.setMf_result (s : State) (x : Finder) : (s.setMf x).result = s.result := rfl
@[simp] theorem State.setMf_written (s : State) (x : Finder) : (s.setMf x).written = s.written := rfl
@[simp] theorem State.setMf_bd (s : State) (x : Finder) : (s.setMf x).bd = s.bd := rfl
@[simp] theorem State.setMf_bw (s : State) (x : Finder) : (s.setMf x).bw = s.bw := rfl
@[simp] theorem State.setMf_mf (s : State) (x : Finder) : (s.setMf x).mf = x := rfl
@[simp] theorem State.setMf_src (s : State) (x : Finder) : (s.setMf x).src = s.src := rfl
@[simp] theorem State.setMf_dst (s : State) (x : Finder) : (s.setMf x).dst = s.dst := rfl
@[simp] theorem State.setMf_ht (s : State) (x : Finder) : (s.setMf x).ht = s.ht := rfl
@[simp] theorem State.setMf_phase (s : State) (x : Finder) : (s.setMf x).phase = s.phase := rfl
@[simp] theorem State.setMf_cap (s : State) (x : Finder) : (s.setMf x).cap = s.cap := rfl
@[simp] theorem State.setMf_spoiled (s : State) (x : Finder) : (s.setMf x).spoiled = s.spoiled := rfl
@[simp] theorem State.setMf_draws (s : State) (x : Finder) : (s.setMf x).draws = s.draws := rfl
@[simp] theorem State.setMf_readValue (s : State) (x : Finder) : (s.setMf x).readValue = s.readValue := rfl
@[simp] theorem State.setMf_hostScript (s : State) (x : Finder) : (s.setMf x).hostScript = s.hostScript := rfl

/-! ### `State.setDst` -/

@[simp] theorem State.setDst_cmd (s : State) (x : Memory) : (s.setDst x).cmd = s.cmd := rfl
@[simp] theorem State.setDst_srcl (s : State) (x : Memory) : (s.setDst x).srcl = s.srcl := rfl
@[simp] theorem State.setDst_dstl (s : State) (x : Memory) : (s.setDst x).dstl = s.dstl := rfl
@[simp] theorem State.setDst_status (s : State) (x : Memory) : (s.setDst x).status = s.status := rfl
@[simp] theorem State.setDst_result (s : State) (x : Memory) : (s.setDst x).result = s.result := rfl
@[simp] theorem State.setDst_written (s : State) (x : Memory) : (s.setDst x).written = s.written := rfl
@[simp] theorem State.setDst_bd (s : State) (x : Memory) : (s.setDst x).bd = s.bd := rfl
@[simp] theorem State.setDst_bw (s : State) (x : Memory) : (s.setDst x).bw = s.bw := rfl
@[simp] theorem State.setDst_mf (s : State) (x : Memory) : (s.setDst x).mf = s.mf := rfl
@[simp] theorem State.setDst_src (s : State) (x : Memory) : (s.setDst x).src = s.src := rfl
@[simp] theorem State.setDst_dst (s : State) (x : Memory) : (s.setDst x).dst = x := rfl
@[simp] theorem State.setDst_ht (s : State) (x : Memory) : (s.setDst x).ht = s.ht := rfl
@[simp] theorem State.setDst_phase (s : State) (x : Memory) : (s.setDst x).phase = s.phase := rfl
@[simp] theorem State.setDst_cap (s : State) (x : Memory) : (s.setDst x).cap = s.cap := rfl
@[simp] theorem State.setDst_spoiled (s : State) (x : Memory) : (s.setDst x).spoiled = s.spoiled := rfl
@[simp] theorem State.setDst_draws (s : State) (x : Memory) : (s.setDst x).draws = s.draws := rfl
@[simp] theorem State.setDst_readValue (s : State) (x : Memory) : (s.setDst x).readValue = s.readValue := rfl
@[simp] theorem State.setDst_hostScript (s : State) (x : Memory) : (s.setDst x).hostScript = s.hostScript := rfl

/-! ### `State.setHt` -/

@[simp] theorem State.setHt_cmd (s : State) (x : Memory) : (s.setHt x).cmd = s.cmd := rfl
@[simp] theorem State.setHt_srcl (s : State) (x : Memory) : (s.setHt x).srcl = s.srcl := rfl
@[simp] theorem State.setHt_dstl (s : State) (x : Memory) : (s.setHt x).dstl = s.dstl := rfl
@[simp] theorem State.setHt_status (s : State) (x : Memory) : (s.setHt x).status = s.status := rfl
@[simp] theorem State.setHt_result (s : State) (x : Memory) : (s.setHt x).result = s.result := rfl
@[simp] theorem State.setHt_written (s : State) (x : Memory) : (s.setHt x).written = s.written := rfl
@[simp] theorem State.setHt_bd (s : State) (x : Memory) : (s.setHt x).bd = s.bd := rfl
@[simp] theorem State.setHt_bw (s : State) (x : Memory) : (s.setHt x).bw = s.bw := rfl
@[simp] theorem State.setHt_mf (s : State) (x : Memory) : (s.setHt x).mf = s.mf := rfl
@[simp] theorem State.setHt_src (s : State) (x : Memory) : (s.setHt x).src = s.src := rfl
@[simp] theorem State.setHt_dst (s : State) (x : Memory) : (s.setHt x).dst = s.dst := rfl
@[simp] theorem State.setHt_ht (s : State) (x : Memory) : (s.setHt x).ht = x := rfl
@[simp] theorem State.setHt_phase (s : State) (x : Memory) : (s.setHt x).phase = s.phase := rfl
@[simp] theorem State.setHt_cap (s : State) (x : Memory) : (s.setHt x).cap = s.cap := rfl
@[simp] theorem State.setHt_spoiled (s : State) (x : Memory) : (s.setHt x).spoiled = s.spoiled := rfl
@[simp] theorem State.setHt_draws (s : State) (x : Memory) : (s.setHt x).draws = s.draws := rfl
@[simp] theorem State.setHt_readValue (s : State) (x : Memory) : (s.setHt x).readValue = s.readValue := rfl
@[simp] theorem State.setHt_hostScript (s : State) (x : Memory) : (s.setHt x).hostScript = s.hostScript := rfl

/-! ### `State.beginCommand` -/

@[simp] theorem State.beginCommand_cmd (s : State) (m : Mode) :
    (s.beginCommand m).cmd = s.cmd := rfl
@[simp] theorem State.beginCommand_srcl (s : State) (m : Mode) :
    (s.beginCommand m).srcl = s.srcl := rfl
@[simp] theorem State.beginCommand_dstl (s : State) (m : Mode) :
    (s.beginCommand m).dstl = s.dstl := rfl
@[simp] theorem State.beginCommand_status (s : State) (m : Mode) :
    (s.beginCommand m).status = statusBusy := rfl
@[simp] theorem State.beginCommand_result (s : State) (m : Mode) :
    (s.beginCommand m).result = s.result := rfl
@[simp] theorem State.beginCommand_written (s : State) (m : Mode) :
    (s.beginCommand m).written = s.written := rfl
@[simp] theorem State.beginCommand_bd (s : State) (m : Mode) :
    (s.beginCommand m).bd = s.bd.begin s.srcl s.dstl := rfl
@[simp] theorem State.beginCommand_bw (s : State) (m : Mode) :
    (s.beginCommand m).bw = Writer.begin m := rfl
@[simp] theorem State.beginCommand_mf (s : State) (m : Mode) :
    (s.beginCommand m).mf = s.mf.begin m s.srcl := rfl
@[simp] theorem State.beginCommand_src (s : State) (m : Mode) :
    (s.beginCommand m).src = s.src := rfl
@[simp] theorem State.beginCommand_dst (s : State) (m : Mode) :
    (s.beginCommand m).dst = s.dst := rfl
@[simp] theorem State.beginCommand_ht (s : State) (m : Mode) :
    (s.beginCommand m).ht = s.ht := rfl
@[simp] theorem State.beginCommand_phase (s : State) (m : Mode) :
    (s.beginCommand m).phase = s.phase := rfl
@[simp] theorem State.beginCommand_cap (s : State) (m : Mode) :
    (s.beginCommand m).cap = s.dstl := rfl
@[simp] theorem State.beginCommand_spoiled (s : State) (m : Mode) :
    (s.beginCommand m).spoiled = s.spoiled := rfl
@[simp] theorem State.beginCommand_draws (s : State) (m : Mode) :
    (s.beginCommand m).draws = s.draws := rfl
@[simp] theorem State.beginCommand_readValue (s : State) (m : Mode) :
    (s.beginCommand m).readValue = s.readValue := rfl
@[simp] theorem State.beginCommand_hostScript (s : State) (m : Mode) :
    (s.beginCommand m).hostScript = s.hostScript := rfl

/-! ### `State.hostGot` -/

@[simp] theorem State.hostGot_cmd (s : State) (v : Word) : (s.hostGot v).cmd = s.cmd := rfl
@[simp] theorem State.hostGot_srcl (s : State) (v : Word) : (s.hostGot v).srcl = s.srcl := rfl
@[simp] theorem State.hostGot_dstl (s : State) (v : Word) : (s.hostGot v).dstl = s.dstl := rfl
@[simp] theorem State.hostGot_status (s : State) (v : Word) : (s.hostGot v).status = s.status := rfl
@[simp] theorem State.hostGot_result (s : State) (v : Word) : (s.hostGot v).result = s.result := rfl
@[simp] theorem State.hostGot_written (s : State) (v : Word) : (s.hostGot v).written = s.written := rfl
@[simp] theorem State.hostGot_bd (s : State) (v : Word) : (s.hostGot v).bd = s.bd := rfl
@[simp] theorem State.hostGot_bw (s : State) (v : Word) : (s.hostGot v).bw = s.bw := rfl
@[simp] theorem State.hostGot_mf (s : State) (v : Word) : (s.hostGot v).mf = s.mf := rfl
@[simp] theorem State.hostGot_src (s : State) (v : Word) : (s.hostGot v).src = s.src := rfl
@[simp] theorem State.hostGot_dst (s : State) (v : Word) : (s.hostGot v).dst = s.dst := rfl
@[simp] theorem State.hostGot_ht (s : State) (v : Word) : (s.hostGot v).ht = s.ht := rfl
@[simp] theorem State.hostGot_phase (s : State) (v : Word) : (s.hostGot v).phase = s.phase := rfl
@[simp] theorem State.hostGot_cap (s : State) (v : Word) : (s.hostGot v).cap = s.cap := rfl
@[simp] theorem State.hostGot_spoiled (s : State) (v : Word) : (s.hostGot v).spoiled = s.spoiled := rfl
@[simp] theorem State.hostGot_draws (s : State) (v : Word) : (s.hostGot v).draws = s.draws := rfl
@[simp] theorem State.hostGot_readValue (s : State) (v : Word) : (s.hostGot v).readValue = v := rfl
@[simp] theorem State.hostGot_hostScript (s : State) (v : Word) : (s.hostGot v).hostScript = s.hostScript := rfl

/-! ### `State.freeDst` -/

@[simp] theorem State.freeDst_cmd (s : State) : s.freeDst.cmd = s.cmd := rfl
@[simp] theorem State.freeDst_srcl (s : State) : s.freeDst.srcl = s.srcl := rfl
@[simp] theorem State.freeDst_dstl (s : State) : s.freeDst.dstl = s.dstl := rfl
@[simp] theorem State.freeDst_status (s : State) : s.freeDst.status = s.status := rfl
@[simp] theorem State.freeDst_result (s : State) : s.freeDst.result = s.result := rfl
@[simp] theorem State.freeDst_written (s : State) : s.freeDst.written = s.written := rfl
@[simp] theorem State.freeDst_bd (s : State) : s.freeDst.bd = s.bd := rfl
@[simp] theorem State.freeDst_bw (s : State) : s.freeDst.bw = s.bw := rfl
@[simp] theorem State.freeDst_mf (s : State) : s.freeDst.mf = s.mf := rfl
@[simp] theorem State.freeDst_src (s : State) : s.freeDst.src = s.src := rfl
@[simp] theorem State.freeDst_dst (s : State) : s.freeDst.dst = s.dst.fill 0 s.cap.toNat (Config.freeByte s.draws) := rfl
@[simp] theorem State.freeDst_ht (s : State) : s.freeDst.ht = s.ht := rfl
@[simp] theorem State.freeDst_phase (s : State) : s.freeDst.phase = s.phase := rfl
@[simp] theorem State.freeDst_cap (s : State) : s.freeDst.cap = s.cap := rfl
@[simp] theorem State.freeDst_spoiled (s : State) : s.freeDst.spoiled = s.spoiled := rfl
@[simp] theorem State.freeDst_draws (s : State) : s.freeDst.draws = s.draws + 1 := rfl
@[simp] theorem State.freeDst_readValue (s : State) : s.freeDst.readValue = s.readValue := rfl
@[simp] theorem State.freeDst_hostScript (s : State) : s.freeDst.hostScript = s.hostScript := rfl

/-! ### `State.endCommand` -/

/-- The end of a command that the host did not spoil (46_host_operations.md R330). -/
theorem State.endCommand_clean (s : State) (r w : Word) (h : s.spoiled = false) :
    s.endCommand r w = { s with result := r, written := w, status := statusDone, phase := .idle } := by
  simp [State.endCommand, h]

@[simp] theorem State.endCommand_cmd (s : State) (r w : Word) : (s.endCommand r w).cmd = s.cmd := by
  unfold State.endCommand; split <;> rfl
@[simp] theorem State.endCommand_srcl (s : State) (r w : Word) : (s.endCommand r w).srcl = s.srcl := by
  unfold State.endCommand; split <;> rfl
@[simp] theorem State.endCommand_dstl (s : State) (r w : Word) : (s.endCommand r w).dstl = s.dstl := by
  unfold State.endCommand; split <;> rfl
@[simp] theorem State.endCommand_bd (s : State) (r w : Word) : (s.endCommand r w).bd = s.bd := by
  unfold State.endCommand; split <;> rfl
@[simp] theorem State.endCommand_bw (s : State) (r w : Word) : (s.endCommand r w).bw = s.bw := by
  unfold State.endCommand; split <;> rfl
@[simp] theorem State.endCommand_mf (s : State) (r w : Word) : (s.endCommand r w).mf = s.mf := by
  unfold State.endCommand; split <;> rfl
@[simp] theorem State.endCommand_src (s : State) (r w : Word) : (s.endCommand r w).src = s.src := by
  unfold State.endCommand; split <;> rfl
@[simp] theorem State.endCommand_ht (s : State) (r w : Word) : (s.endCommand r w).ht = s.ht := by
  unfold State.endCommand; split <;> rfl
@[simp] theorem State.endCommand_cap (s : State) (r w : Word) : (s.endCommand r w).cap = s.cap := by
  unfold State.endCommand; split <;> rfl
@[simp] theorem State.endCommand_readValue (s : State) (r w : Word) :
    (s.endCommand r w).readValue = s.readValue := by
  unfold State.endCommand; split <;> rfl
@[simp] theorem State.endCommand_hostScript (s : State) (r w : Word) : (s.endCommand r w).hostScript = s.hostScript := by
  unfold State.endCommand; split <;> rfl
@[simp] theorem State.endCommand_phase (s : State) (r w : Word) : (s.endCommand r w).phase = .idle := by
  unfold State.endCommand; split <;> rfl
@[simp] theorem State.endCommand_status (s : State) (r w : Word) :
    (s.endCommand r w).status = statusDone := by
  unfold State.endCommand; split <;> rfl
@[simp] theorem State.endCommand_spoiled (s : State) (r w : Word) :
    (s.endCommand r w).spoiled = false := by
  unfold State.endCommand; split
  · rfl
  · simp_all

/-- `DST` after the end of a command: unchanged, or free up to the command's capacity. -/
theorem State.endCommand_dst (s : State) (r w : Word) :
    (s.endCommand r w).dst =
      if s.spoiled then s.dst.fill 0 s.cap.toNat (Config.freeByte s.draws) else s.dst := by
  unfold State.endCommand; split <;> simp

/-! ### `State.raise` -/

@[simp] theorem State.raise_cmd (s : State) (r : Report) (e : DecodeFault) (w : Nat) :
    (s.raise r e w).cmd = s.cmd := by
  simp [State.raise]
@[simp] theorem State.raise_srcl (s : State) (r : Report) (e : DecodeFault) (w : Nat) :
    (s.raise r e w).srcl = s.srcl := by
  simp [State.raise]
@[simp] theorem State.raise_dstl (s : State) (r : Report) (e : DecodeFault) (w : Nat) :
    (s.raise r e w).dstl = s.dstl := by
  simp [State.raise]
@[simp] theorem State.raise_bw (s : State) (r : Report) (e : DecodeFault) (w : Nat) :
    (s.raise r e w).bw = s.bw := by
  simp [State.raise]
@[simp] theorem State.raise_mf (s : State) (r : Report) (e : DecodeFault) (w : Nat) :
    (s.raise r e w).mf = s.mf := by
  simp [State.raise]
@[simp] theorem State.raise_src (s : State) (r : Report) (e : DecodeFault) (w : Nat) :
    (s.raise r e w).src = s.src := by
  simp [State.raise]
@[simp] theorem State.raise_ht (s : State) (r : Report) (e : DecodeFault) (w : Nat) :
    (s.raise r e w).ht = s.ht := by
  simp [State.raise]
@[simp] theorem State.raise_cap (s : State) (r : Report) (e : DecodeFault) (w : Nat) :
    (s.raise r e w).cap = s.cap := by
  simp [State.raise]
@[simp] theorem State.raise_readValue (s : State) (r : Report) (e : DecodeFault) (w : Nat) :
    (s.raise r e w).readValue = s.readValue := by
  simp [State.raise]
@[simp] theorem State.raise_hostScript (s : State) (r : Report) (e : DecodeFault) (w : Nat) :
    (s.raise r e w).hostScript = s.hostScript := by
  simp [State.raise]
@[simp] theorem State.raise_phase (s : State) (r : Report) (e : DecodeFault) (w : Nat) :
    (s.raise r e w).phase = .idle := by
  simp [State.raise]
@[simp] theorem State.raise_status (s : State) (r : Report) (e : DecodeFault) (w : Nat) :
    (s.raise r e w).status = statusDone := by
  simp [State.raise]
@[simp] theorem State.raise_bd (s : State) (r : Report) (e : DecodeFault) (w : Nat) :
    (s.raise r e w).bd = { s.bd with st := BitVec.ofNat 3 e.number } := by
  simp [State.raise]

/-- `DST` after an error: as the block left it, or free if the command was spoiled. -/
theorem State.raise_dst (s : State) (r : Report) (e : DecodeFault) (w : Nat) :
    (s.raise r e w).dst =
      if s.spoiled then s.dst.fill 0 s.cap.toNat (Config.freeByte s.draws) else s.dst :=
  State.endCommand_dst _ _ _

/-- An error that ends a command the host did not spoil (60_exceptions.md R365). -/
theorem State.raise_clean (s : State) (r : Report) (e : DecodeFault) (w : Nat)
    (h : s.spoiled = false) :
    s.raise r e w =
      { s with bd := { s.bd with st := BitVec.ofNat 3 e.number }
               result := e.resultFor w r, written := BitVec.ofNat 32 w
               status := statusDone, phase := .idle } := by
  simp [State.raise, State.endCommand, h, State.setBd]

/-! ### The writer's small updates -/

@[simp] theorem State.putBytes_cmd (s : State) (bs : List Byte) : (s.putBytes bs).cmd = s.cmd := rfl
@[simp] theorem State.putBytes_srcl (s : State) (bs : List Byte) : (s.putBytes bs).srcl = s.srcl := rfl
@[simp] theorem State.putBytes_dstl (s : State) (bs : List Byte) : (s.putBytes bs).dstl = s.dstl := rfl
@[simp] theorem State.putBytes_status (s : State) (bs : List Byte) : (s.putBytes bs).status = s.status := rfl
@[simp] theorem State.putBytes_result (s : State) (bs : List Byte) : (s.putBytes bs).result = s.result := rfl
@[simp] theorem State.putBytes_written (s : State) (bs : List Byte) : (s.putBytes bs).written = s.written := rfl
@[simp] theorem State.putBytes_bd (s : State) (bs : List Byte) : (s.putBytes bs).bd = s.bd := rfl
@[simp] theorem State.putBytes_mf (s : State) (bs : List Byte) : (s.putBytes bs).mf = s.mf := rfl
@[simp] theorem State.putBytes_src (s : State) (bs : List Byte) : (s.putBytes bs).src = s.src := rfl
@[simp] theorem State.putBytes_ht (s : State) (bs : List Byte) : (s.putBytes bs).ht = s.ht := rfl
@[simp] theorem State.putBytes_phase (s : State) (bs : List Byte) : (s.putBytes bs).phase = s.phase := rfl
@[simp] theorem State.putBytes_cap (s : State) (bs : List Byte) : (s.putBytes bs).cap = s.cap := rfl
@[simp] theorem State.putBytes_spoiled (s : State) (bs : List Byte) : (s.putBytes bs).spoiled = s.spoiled := rfl
@[simp] theorem State.putBytes_draws (s : State) (bs : List Byte) : (s.putBytes bs).draws = s.draws := rfl
@[simp] theorem State.putBytes_readValue (s : State) (bs : List Byte) : (s.putBytes bs).readValue = s.readValue := rfl
@[simp] theorem State.putBytes_hostScript (s : State) (bs : List Byte) : (s.putBytes bs).hostScript = s.hostScript := rfl
@[simp] theorem State.putLiterals_cmd (s : State) (ipa lc : Nat) : (s.putLiterals ipa lc).cmd = s.cmd := rfl
@[simp] theorem State.putLiterals_srcl (s : State) (ipa lc : Nat) : (s.putLiterals ipa lc).srcl = s.srcl := rfl
@[simp] theorem State.putLiterals_dstl (s : State) (ipa lc : Nat) : (s.putLiterals ipa lc).dstl = s.dstl := rfl
@[simp] theorem State.putLiterals_status (s : State) (ipa lc : Nat) : (s.putLiterals ipa lc).status = s.status := rfl
@[simp] theorem State.putLiterals_result (s : State) (ipa lc : Nat) : (s.putLiterals ipa lc).result = s.result := rfl
@[simp] theorem State.putLiterals_written (s : State) (ipa lc : Nat) : (s.putLiterals ipa lc).written = s.written := rfl
@[simp] theorem State.putLiterals_bd (s : State) (ipa lc : Nat) : (s.putLiterals ipa lc).bd = s.bd := rfl
@[simp] theorem State.putLiterals_mf (s : State) (ipa lc : Nat) : (s.putLiterals ipa lc).mf = s.mf := rfl
@[simp] theorem State.putLiterals_src (s : State) (ipa lc : Nat) : (s.putLiterals ipa lc).src = s.src := rfl
@[simp] theorem State.putLiterals_ht (s : State) (ipa lc : Nat) : (s.putLiterals ipa lc).ht = s.ht := rfl
@[simp] theorem State.putLiterals_phase (s : State) (ipa lc : Nat) : (s.putLiterals ipa lc).phase = s.phase := rfl
@[simp] theorem State.putLiterals_cap (s : State) (ipa lc : Nat) : (s.putLiterals ipa lc).cap = s.cap := rfl
@[simp] theorem State.putLiterals_spoiled (s : State) (ipa lc : Nat) : (s.putLiterals ipa lc).spoiled = s.spoiled := rfl
@[simp] theorem State.putLiterals_draws (s : State) (ipa lc : Nat) : (s.putLiterals ipa lc).draws = s.draws := rfl
@[simp] theorem State.putLiterals_readValue (s : State) (ipa lc : Nat) : (s.putLiterals ipa lc).readValue = s.readValue := rfl
@[simp] theorem State.putLiterals_hostScript (s : State) (ipa lc : Nat) : (s.putLiterals ipa lc).hostScript = s.hostScript := rfl

end Sys2Proof.Machine
end

