-- ==== Sys2Proof/Laws/Blocks.lean ====
section
/-! SUPPORT. The header byte's fields, and every outcome of the operation behind the literal blocks and of the
one behind the reference blocks (45_decoder.md R285, R290), each under its condition. -/

namespace Sys2Proof

/-! ### The header byte (30_encoding.md R92) -/

@[simp] theorem headerQ_headerByte (q bt : BitVec 2) (len : BitVec 4) : headerQ (headerByte q bt len) = q := by
  revert q bt len; decide

@[simp] theorem headerType_headerByte (q bt : BitVec 2) (len : BitVec 4) :
    headerType (headerByte q bt len) = bt := by
  revert q bt len; decide

@[simp] theorem headerLen_headerByte (q bt : BitVec 2) (len : BitVec 4) :
    headerLen (headerByte q bt len) = len := by
  revert q bt len; decide

/-- A header byte is made of its three fields. -/
theorem headerByte_fields (bh : Byte) : headerByte (headerQ bh) (headerType bh) (headerLen bh) = bh := by
  revert bh; decide

end Sys2Proof

namespace Sys2Proof.Machine

/-! ### The literal blocks (R285) -/

/-- BD's registers after a literal block's header and length were read. -/
def Decoder.afterLiteralHead (b : Decoder) (bh : Byte) (head cc : Nat) : Decoder :=
  { b with bh := bh, bt := 0, cc := BitVec.ofNat 29 cc, ip := BitVec.ofNat 32 (b.ip.toNat + head)
           cv := literalCarry b.cv b.csh (headerQ bh), csh := b.csh + 2 }

/-- The three outcomes of a literal block. -/
theorem literalBlock_cases (bh : Byte) (head cc : Nat) (s : State) :
    (s.bd.ipe.toNat < s.bd.ip.toNat + head + cc ∧
      literalBlock bh head cc s =
        ((s.setBd (s.bd.afterLiteralHead bh head cc)).setDst
          (s.dst.copyFrom s.src s.bd.op.toNat (s.bd.ip.toNat + head)
            (min (s.bd.ipe.toNat - (s.bd.ip.toNat + head)) (s.bd.ope.toNat - s.bd.op.toNat)))).raise
          s.phase.report .srcOob
          (s.bd.op.toNat + min (s.bd.ipe.toNat - (s.bd.ip.toNat + head)) (s.bd.ope.toNat - s.bd.op.toNat))) ∨
    (s.bd.ip.toNat + head + cc ≤ s.bd.ipe.toNat ∧ s.bd.ope.toNat < s.bd.op.toNat + cc ∧
      literalBlock bh head cc s =
        ((s.setBd (s.bd.afterLiteralHead bh head cc)).setDst
          (s.dst.copyFrom s.src s.bd.op.toNat (s.bd.ip.toNat + head) (s.bd.ope.toNat - s.bd.op.toNat))).raise
          s.phase.report .dstOob s.bd.ope.toNat) ∨
    (s.bd.ip.toNat + head + cc ≤ s.bd.ipe.toNat ∧ s.bd.op.toNat + cc ≤ s.bd.ope.toNat ∧
      literalBlock bh head cc s =
        { s with
          dst := s.dst.copyFrom s.src s.bd.op.toNat (s.bd.ip.toNat + head) cc
          bd := { s.bd.afterLiteralHead bh head cc with
            ip := BitVec.ofNat 32 (s.bd.ip.toNat + head + cc), op := BitVec.ofNat 32 (s.bd.op.toNat + cc) } }) := by
  unfold literalBlock
  simp only []
  split
  · exact .inl ⟨by assumption, rfl⟩
  · split
    · exact .inr (.inl ⟨by omega, by assumption, rfl⟩)
    · exact .inr (.inr ⟨by omega, by omega, rfl⟩)

/-! ### The reference blocks (R290) -/

/-- BD's registers after a reference block's header and offset bytes were read. -/
def Decoder.afterOffset (b : Decoder) (bh : Byte) (o : Nat) : Decoder :=
  { b with bh := bh, bt := headerType bh, d := assembleOffset (headerQ bh) o b.csh b.cv
           csh := refCarryShift (headerType bh), cv := refCarryValue o
           ip := BitVec.ofNat 32 (b.ip.toNat + 1 + (headerType bh).toNat) }

/-- The three outcomes of a reference block. -/
theorem referenceBlock_cases (bh : Byte) (o lenBytes cc : Nat) (s : State) :
    (s.bd.op.toNat < assembleOffset (headerQ bh) o s.bd.csh s.bd.cv ∧
      referenceBlock bh o lenBytes cc s =
        (s.setBd (s.bd.afterOffset bh o)).raise s.phase.report .refOob s.bd.op.toNat) ∨
    (assembleOffset (headerQ bh) o s.bd.csh s.bd.cv ≤ s.bd.op.toNat ∧ s.bd.ope.toNat < s.bd.op.toNat + cc ∧
      referenceBlock bh o lenBytes cc s =
        ((s.setBd { s.bd.afterOffset bh o with
            cc := BitVec.ofNat 29 cc
            ip := BitVec.ofNat 32 (s.bd.ip.toNat + 1 + (headerType bh).toNat + lenBytes) }).setDst
          (s.dst.copyWithin s.bd.op.toNat (s.bd.op.toNat - assembleOffset (headerQ bh) o s.bd.csh s.bd.cv)
            (s.bd.ope.toNat - s.bd.op.toNat))).raise s.phase.report .dstOob s.bd.ope.toNat) ∨
    (assembleOffset (headerQ bh) o s.bd.csh s.bd.cv ≤ s.bd.op.toNat ∧ s.bd.op.toNat + cc ≤ s.bd.ope.toNat ∧
      referenceBlock bh o lenBytes cc s =
        { s with
          dst := s.dst.copyWithin s.bd.op.toNat
            (s.bd.op.toNat - assembleOffset (headerQ bh) o s.bd.csh s.bd.cv) cc
          bd := { s.bd.afterOffset bh o with
            cc := BitVec.ofNat 29 cc
            ip := BitVec.ofNat 32 (s.bd.ip.toNat + 1 + (headerType bh).toNat + lenBytes)
            op := BitVec.ofNat 32 (s.bd.op.toNat + cc) } }) := by
  unfold referenceBlock
  simp only []
  split
  · exact .inl ⟨by assumption, rfl⟩
  · split
    · exact .inr (.inl ⟨by omega, by assumption, rfl⟩)
    · exact .inr (.inr ⟨by omega, by omega, rfl⟩)

/-! ### The operand forms (R289 to R294) -/

/-- The length of form S is at least 0 and at most 29, whatever `mref1` is. -/
theorem lengthS_le (mref1 : BitVec 5) (len : BitVec 4) : lengthS mref1 len ≤ 30 := by
  unfold lengthS
  have := BitVec.toInt_lt (x := mref1)
  omega

theorem lengthL_le (mref1 : BitVec 5) (b : Byte) : lengthL mref1 b ≤ 286 := by
  unfold lengthL
  have := BitVec.toInt_lt (x := mref1)
  omega

theorem lengthX_le (mref1 : BitVec 5) (b2 : Byte) : lengthX mref1 b2 ≤ 541 := by
  unfold lengthX
  have := BitVec.toInt_lt (x := mref1)
  omega

end Sys2Proof.Machine
end

