-- ==== Sys2Proof/Laws/Dictionary.lean ====
section
/-! SUPPORT. The words of a table that was filled all at once, as both initial tables are
(42_hash_dictionary.md R183, R196). -/

namespace Sys2Proof.Machine

/-- A word is made of its four bytes, the least significant first (20_memory.md R62). -/
theorem word_of_bytes (w : Word) :
    BitVec.ofNat 32 ((w.extractLsb' 0 8).toNat + 256 * ((w.extractLsb' 8 8).toNat + 256 *
      ((w.extractLsb' 16 8).toNat + 256 * ((w.extractLsb' 24 8).toNat + 256 * 0)))) = w := by
  apply BitVec.eq_of_toNat_eq
  simp only [BitVec.toNat_ofNat, BitVec.extractLsb'_toNat, Nat.shiftRight_eq_div_pow]
  have := w.isLt
  omega

/-- Word `i` of the bucket at `b`, in a table filled word by word by `g`. -/
theorem Memory.htWord_fill {ht : Memory} (size b i : Nat) (g : Nat → Word) (h : ht.wf = true)
    (hb : b % 4 = 0) (hs : b + 4 * i + 4 ≤ size) :
    (ht.fill 0 size fun a => wordByte (g (a / 4)) a).htWord b i = g (b / 4 + i) := by
  have hr : ∀ j, j < 4 →
      (ht.fill 0 size fun a => wordByte (g (a / 4)) a).read (b + 4 * i + j) =
        (g (b / 4 + i)).extractLsb' (8 * j) 8 := by
    intro j hj
    rw [Memory.read_fill _ _ _ _ h, if_pos (by omega), wordByte, show (b + 4 * i + j) / 4 = b / 4 + i by omega,
      show (b + 4 * i + j) % 4 = j by omega]
  rw [Memory.htWord]
  simp only [Memory.readLE]
  rw [show b + 4 * i = b + 4 * i + 0 by omega, hr 0 (by omega), show b + 4 * i + 0 + 1 = b + 4 * i + 1 by omega,
    hr 1 (by omega), show b + 4 * i + 1 + 1 = b + 4 * i + 2 by omega, hr 2 (by omega),
    show b + 4 * i + 2 + 1 = b + 4 * i + 3 by omega, hr 3 (by omega)]
  exact word_of_bytes _

/-- The words of the initial DEFAULT table (R183). -/
theorem initTable2_htWord {ht : Memory} (src : Memory) (size b i : Nat) (h : ht.wf = true) (hb : b % 4 = 0)
    (hs : b + 4 * i + 4 ≤ size) :
    (initTable2 ht src size).htWord b i = if (b / 4 + i) % 2 = 0 then initialKey src else 16 :=
  Memory.htWord_fill size b i (fun k => if k % 2 = 0 then initialKey src else 16) h hb hs

/-- The words of the initial HI table (R196). -/
theorem initTable7_htWord {ht : Memory} (src : Memory) (size b i : Nat) (h : ht.wf = true) (hb : b % 4 = 0)
    (hs : b + 4 * i + 4 ≤ size) :
    (initTable7 ht src size).htWord b i =
      if 14 ≤ (b / 4 + i) % 16 then 0 else if (b / 4 + i) % 2 = 0 then initialKey src else 16 :=
  Memory.htWord_fill size b i
    (fun k => if 14 ≤ k % 16 then 0 else if k % 2 = 0 then initialKey src else 16) h hb hs

/-- Both initial tables are in canonical form if HT was. -/
theorem initTable2_wf {ht : Memory} (src : Memory) (size : Nat) (h : ht.wf = true) :
    (initTable2 ht src size).wf = true := Memory.wf_fill _ _ _ h

theorem initTable7_wf {ht : Memory} (src : Memory) (size : Nat) (h : ht.wf = true) :
    (initTable7 ht src size).wf = true := Memory.wf_fill _ _ _ h

end Sys2Proof.Machine
end

