-- ==== Sys2Proof/Laws/PerInstr.lean ====
section
/-! SUPPORT. A fact about every instruction, one lemma for each: its encoding takes as many bytes of the
stream as `headBytes` says, and none for a host command (30_encoding.md R104, R112). -/

namespace Sys2Proof.Laws.EncodeLength

/-- The encoding of a well-formed instruction has the length that the machine moves past. -/
def Statement (i : Instr) : Prop :=
  i.wellFormed = true →
    match encode i with
    | .header _ => i.headBytes = 1
    | .block bs => bs.length = i.headBytes ∧ 1 ≤ bs.length ∧ bs.length ≤ 6
    | .command w => i.headBytes = 0 ∧ 1 ≤ w.toNat ∧ w.toNat ≤ 6

/-- The varint written in `n` bytes has `n` bytes (30_encoding.md R96). -/
theorem varintBytes_length : ∀ n v, (varintBytes n v).length = n
  | 0, _ => rfl
  | 1, _ => rfl
  | n + 2, v => by rw [varintBytes, List.length_cons, varintBytes_length (n + 1)]

theorem streamPrefix (mref : BitVec 4) : Statement (.streamPrefix mref) := fun _ => rfl

theorem lits (q : BitVec 2) (len : BitVec 4) : Statement (.lits q len) :=
  fun _ => ⟨rfl, by show 1 ≤ 1; omega, by show 1 ≤ 6; omega⟩

theorem litl (q : BitVec 2) (nv : Nat) (v : BitVec 28) : Statement (.litl q nv v) := by
  intro h
  simp only [Instr.wellFormed, Bool.and_eq_true, decide_eq_true_eq] at h
  simp only [encode, Instr.headBytes, List.length_cons, varintBytes_length]
  omega

theorem ref1s (q : BitVec 2) (o : BitVec 8) (len : BitVec 4) : Statement (.ref1s q o len) :=
  fun _ => ⟨rfl, by show 1 ≤ 2; omega, by show 2 ≤ 6; omega⟩

theorem ref1l (q : BitVec 2) (o : BitVec 8) (b : Byte) : Statement (.ref1l q o b) :=
  fun _ => ⟨rfl, by show 1 ≤ 3; omega, by show 3 ≤ 6; omega⟩

theorem ref1x (q : BitVec 2) (o : BitVec 8) (b2 : Byte) : Statement (.ref1x q o b2) :=
  fun _ => ⟨rfl, by show 1 ≤ 4; omega, by show 4 ≤ 6; omega⟩

theorem ref2s (q : BitVec 2) (o : BitVec 16) (len : BitVec 4) : Statement (.ref2s q o len) :=
  fun _ => ⟨rfl, by show 1 ≤ 3; omega, by show 3 ≤ 6; omega⟩

theorem ref2l (q : BitVec 2) (o : BitVec 16) (b : Byte) : Statement (.ref2l q o b) :=
  fun _ => ⟨rfl, by show 1 ≤ 4; omega, by show 4 ≤ 6; omega⟩

theorem ref2x (q : BitVec 2) (o : BitVec 16) (b2 : Byte) : Statement (.ref2x q o b2) :=
  fun _ => ⟨rfl, by show 1 ≤ 5; omega, by show 5 ≤ 6; omega⟩

theorem ref3s (q : BitVec 2) (o : BitVec 24) (len : BitVec 4) : Statement (.ref3s q o len) :=
  fun _ => ⟨rfl, by show 1 ≤ 4; omega, by show 4 ≤ 6; omega⟩

theorem ref3l (q : BitVec 2) (o : BitVec 24) (b : Byte) : Statement (.ref3l q o b) :=
  fun _ => ⟨rfl, by show 1 ≤ 5; omega, by show 5 ≤ 6; omega⟩

theorem ref3x (q : BitVec 2) (o : BitVec 24) (b2 : Byte) : Statement (.ref3x q o b2) :=
  fun _ => ⟨rfl, by show 1 ≤ 6; omega, by show 6 ≤ 6; omega⟩

theorem compress : Statement (.compress) := fun _ => ⟨rfl, by decide, by decide⟩

theorem compressHi : Statement (.compressHi) := fun _ => ⟨rfl, by decide, by decide⟩

theorem decompress : Statement (.decompress) := fun _ => ⟨rfl, by decide, by decide⟩

theorem decompressPartial : Statement (.decompressPartial) := fun _ => ⟨rfl, by decide, by decide⟩

theorem bound : Statement (.bound) := fun _ => ⟨rfl, by decide, by decide⟩

theorem boundHi : Statement (.boundHi) := fun _ => ⟨rfl, by decide, by decide⟩

end Sys2Proof.Laws.EncodeLength
end

