-- ==== Sys2Proof/Laws/Writer.lean ====
section
/-! SUPPORT. What the block writer's operations can do: what they leave alone, how far `op` moves, and that
DST keeps its canonical form. -/

namespace Sys2Proof.Machine

/-! ### Lengths -/

/-- The number of header and length bytes of a literal block of `lc` bytes (46_host_operations.md R337). -/
def literalHeadLength (lc : Nat) : Nat :=
  if lc ≤ 15 then 1 else if lc ≤ 143 then 2 else if lc ≤ 16399 then 3 else if lc ≤ 2097167 then 4 else 5

/-- The number of length bytes of a reference block (41_block_writer.md R159). -/
def lengthTailLength (rcp : Nat) : Nat := if rcp < 16 then 0 else if rcp < 271 then 1 else 2

theorem lengthTail_length (rcp : Nat) : (lengthTail rcp).length = lengthTailLength rcp := by
  unfold lengthTail lengthTailLength
  split
  · rfl
  · split <;> rfl

theorem shortVarint_length (v : Nat) :
    (shortVarint 3 v).length =
      if v ≤ 127 then 1 else if v ≤ 16383 then 2 else if v ≤ 2097151 then 3 else 4 := by
  simp only [shortVarint, Nat.shiftRight_eq_div_pow]
  repeat' split
  all_goals first | rfl | (exfalso; omega)

/-- A literal head exists for every run up to `LIT_MAX`, and for no longer one (R155, R162). -/
theorem literalHead_eq_none (q lc : Nat) : literalHead q lc = none ↔ 16 + 2 ^ 28 ≤ lc := by
  unfold literalHead
  split
  · simp; omega
  · split
    · simp; omega
    · simp; omega

theorem literalHead_length {q lc : Nat} {bs : List Byte} (h : literalHead q lc = some bs) :
    bs.length = literalHeadLength lc := by
  unfold literalHead at h
  unfold literalHeadLength
  split at h
  · rw [if_pos (by assumption)]
    cases h; rfl
  · rename_i h1
    split at h
    · cases h
    · cases h
      rw [List.length_cons, shortVarint_length, if_neg h1]
      repeat' split
      all_goals first | rfl | (exfalso; omega)

theorem literalHeadLength_le (lc : Nat) : literalHeadLength lc ≤ 5 := by
  unfold literalHeadLength; repeat' split
  all_goals omega

theorem lengthTailLength_le (rcp : Nat) : lengthTailLength rcp ≤ 2 := by
  unfold lengthTailLength; repeat' split
  all_goals omega

theorem refType_cases (p : Nat) : refType p = 1 ∨ refType p = 2 ∨ refType p = 3 := by
  unfold refType; repeat' split
  all_goals omega

/-! ### Putting bytes -/

theorem State.putBytes_op_toNat (s : State) (bs : List Byte) (h : s.bw.op.toNat + bs.length < 2 ^ 32) :
    (s.putBytes bs).bw.op.toNat = s.bw.op.toNat + bs.length := by
  show (s.bw.op + BitVec.ofNat 32 bs.length).toNat = _
  rw [BitVec.toNat_add, BitVec.toNat_ofNat]; omega

theorem State.putLiterals_op_toNat (s : State) (ipa lc : Nat) (h : s.bw.op.toNat + lc < 2 ^ 32) :
    (s.putLiterals ipa lc).bw.op.toNat = s.bw.op.toNat + lc := by
  show (s.bw.op + BitVec.ofNat 32 lc).toNat = _
  rw [BitVec.toNat_add, BitVec.toNat_ofNat]; omega

/-- DST after bytes were put: they stand from the old `op` on, all else is as before. -/
theorem State.putBytes_read (s : State) (bs : List Byte) (a : Nat) :
    (s.putBytes bs).dst.read a =
      if s.bw.op.toNat ≤ a ∧ a < s.bw.op.toNat + bs.length then bs.getD (a - s.bw.op.toNat) 0
      else s.dst.read a := Memory.read_writeBytes _ _ _ _

/-- DST after literals were put. -/
theorem State.putLiterals_read (s : State) (ipa lc a : Nat) :
    (s.putLiterals ipa lc).dst.read a =
      if s.bw.op.toNat ≤ a ∧ a < s.bw.op.toNat + lc then s.src.read (ipa + (a - s.bw.op.toNat))
      else s.dst.read a := Memory.read_copyFrom _ _ _ _ _ _

/-! ### The deposit (R153) -/

/-- The deposit changes nothing but DST. -/
theorem writerDeposit_frame (s : State) (c3 : Nat) :
    writerDeposit s c3 = { s with dst := (writerDeposit s c3).dst } := by
  unfold writerDeposit
  split
  · split <;> rfl
  · rfl

/-- With `csh = 3` the deposit ORs into the byte at `cbp` and leaves the others; else it does nothing. -/
theorem writerDeposit_read (s : State) (c3 a : Nat) :
    (writerDeposit s c3).dst.read a =
      if s.bw.csh = 3 ∧ (∃ c, s.bw.cbp = some c ∧ c.toNat = a) then
        s.dst.read a ||| BitVec.ofNat 8 (c3 <<< 5)
      else s.dst.read a := by
  unfold writerDeposit Writer.carry
  by_cases h : s.bw.csh = 3
  · cases hc : s.bw.cbp with
    | none => simp [h]
    | some c =>
      simp only [h, BEq.rfl, if_true, true_and, Option.some.injEq, exists_eq_left', State.setDst_dst,
        Memory.read_orByte]
      by_cases ha : a = c.toNat
      · subst ha; simp
      · rw [if_neg ha, if_neg (Ne.symm ha)]
  · have h' : ¬ s.bw.csh = 3#2 := h
    simp [h']

theorem writerDeposit_wf {s : State} (c3 : Nat) (h : s.dst.wf = true) :
    (writerDeposit s c3).dst.wf = true := by
  unfold writerDeposit
  split
  · split
    · exact Memory.wf_orByte _ _ h
    · exact h
  · exact h

/-! ### The literal block (R155, R156) -/

/-- The literal block: its head and its literals are put, or there is no head for it. -/
theorem writerLiteral_cases (s : State) (q lc ipa : Nat) :
    (writerLiteral s q lc ipa = none ∧ 16 + 2 ^ 28 ≤ lc) ∨
    (∃ bs, literalHead q lc = some bs ∧ lc < 16 + 2 ^ 28 ∧
      writerLiteral s q lc ipa = some ((s.putBytes bs).putLiterals ipa lc)) := by
  unfold writerLiteral
  cases h : literalHead q lc with
  | none => exact .inl ⟨rfl, (literalHead_eq_none q lc).1 h⟩
  | some bs =>
    refine .inr ⟨bs, rfl, ?_, rfl⟩
    by_contra hc
    rw [(literalHead_eq_none q lc).2 (by omega)] at h
    cases h

/-- What a written literal block leaves: `op` behind it, every byte outside it as before, nothing else
changed. -/
theorem writerLiteral_some {s t : State} {q lc ipa : Nat} (h : writerLiteral s q lc ipa = some t)
    (hop : s.bw.op.toNat + lc + 5 < 2 ^ 32) :
    t = { s with dst := t.dst, bw := { s.bw with op := t.bw.op } } ∧
    t.bw.op.toNat = s.bw.op.toNat + literalHeadLength lc + lc ∧
    (∀ a, a < s.bw.op.toNat ∨ t.bw.op.toNat ≤ a → t.dst.read a = s.dst.read a) ∧
    (s.dst.wf = true → t.dst.wf = true) := by
  rcases writerLiteral_cases s q lc ipa with ⟨h', _⟩ | ⟨bs, hbs, _, h'⟩
  · rw [h'] at h; cases h
  · rw [h'] at h
    cases h
    have hl := literalHead_length hbs
    have hl5 := literalHeadLength_le lc
    have e1 := State.putBytes_op_toNat s bs (by omega)
    have e2 := State.putLiterals_op_toNat (s.putBytes bs) ipa lc (by omega)
    refine ⟨rfl, by omega, fun a ha => ?_, fun hw =>
      Memory.wf_copyFrom _ _ _ _ (Memory.wf_writeBytes _ _ hw)⟩
    rw [State.putLiterals_read, if_neg (by omega), State.putBytes_read, if_neg (by omega)]

/-! ### The reference block (R157 to R159) -/

/-- What a written reference block leaves: `op` behind it, `csh` and `cbp` for the next deposit, every byte
outside it as before, nothing else changed. -/
theorem writerReference_effect (s : State) (p rcp : Nat) (hop : s.bw.op.toNat + 6 < 2 ^ 32) :
    let t := writerReference s p rcp
    t = { s with dst := t.dst, bw := { s.bw with op := t.bw.op, csh := t.bw.csh, cbp := t.bw.cbp } } ∧
    t.bw.op.toNat = s.bw.op.toNat + 1 + refType p + lengthTailLength rcp ∧
    t.bw.csh = (if refType p = 3 then 3 else 0) ∧
    (∃ c, t.bw.cbp = some c ∧ c.toNat = s.bw.op.toNat + refType p) ∧
    (∀ a, a < s.bw.op.toNat ∨ t.bw.op.toNat ≤ a → t.dst.read a = s.dst.read a) ∧
    (s.dst.wf = true → t.dst.wf = true) := by
  intro t
  have h3 := refType_cases p
  have hl := lengthTail_length rcp
  have hl2 := lengthTailLength_le rcp
  have e1 : (s.bw.op + BitVec.ofNat 32 (1 + refType p)).toNat = s.bw.op.toNat + (1 + refType p) := by
    rw [BitVec.toNat_add, BitVec.toNat_ofNat]; omega
  have e2 : t.bw.op.toNat = s.bw.op.toNat + (1 + refType p) + (lengthTail rcp).length := by
    show (s.bw.op + BitVec.ofNat 32 (1 + refType p) + BitVec.ofNat 32 (lengthTail rcp).length).toNat = _
    rw [BitVec.toNat_add, e1, BitVec.toNat_ofNat]; omega
  refine ⟨rfl, by omega, rfl, ⟨_, rfl, ?_⟩, fun a ha => ?_, fun hw =>
    Memory.wf_writeBytes _ _ (Memory.wf_writeLE _ _ _ hw)⟩
  · rw [BitVec.toNat_add, BitVec.toNat_ofNat]; omega
  · show ((s.dst.writeLE _ _ _).writeBytes (s.bw.op + BitVec.ofNat 32 (1 + refType p)).toNat _).read a = _
    rw [Memory.read_writeBytes, e1, if_neg (by omega), Memory.read_writeLE_eq, if_neg (by omega)]

/-! ### `WRITE_BLK` (R152) -/

/-- The writer's carry state is sound: `csh` is 0 or 3, and with 3 the byte at `cbp` is already written. -/
def Writer.carryOk (w : Writer) : Prop :=
  (w.csh = 0 ∨ w.csh = 3) ∧ (w.csh = 3 → ∃ c, w.cbp = some c ∧ c.toNat < w.op.toNat)

/-- The bytes `WRITE_BLK` adds to the stream. -/
def blockBytes (w : Writer) (lc rc d : Nat) : Nat :=
  (if 0 < lc then literalHeadLength lc + lc else 0) + 1 +
    refType (splitOffset w.carry (decide (0 < lc)) d).p + lengthTailLength (codedLength rc w.mref.toNat)

/-- What `WRITE_BLK` leaves: `op` behind its blocks, a sound carry state, every byte but the one at `cbp` and
its own as before, nothing else changed. -/
theorem writeBlk_some {s t : State} {lc rc d ipa : Nat} (h : writeBlk s lc rc d ipa = some t)
    (hop : s.bw.op.toNat + lc + 11 < 2 ^ 32) :
    t = { s with dst := t.dst, bw := { s.bw with op := t.bw.op, csh := t.bw.csh, cbp := t.bw.cbp } } ∧
    t.bw.op.toNat = s.bw.op.toNat + blockBytes s.bw lc rc d ∧
    t.bw.carryOk ∧
    (∀ a, (s.bw.csh = 3 → s.bw.cbp ≠ some (BitVec.ofNat 32 a)) ∧ a < s.bw.op.toNat ∨
        t.bw.op.toNat ≤ a ∧ (s.bw.carryOk) → t.dst.read a = s.dst.read a) ∧
    (s.dst.wf = true → t.dst.wf = true) := by
  have key : ∀ (u : State) (p : Nat), u.bw.mref = s.bw.mref →
      u = { s with dst := u.dst, bw := { s.bw with op := u.bw.op } } →
      u.bw.op.toNat + 6 < 2 ^ 32 → s.bw.op.toNat ≤ u.bw.op.toNat →
      (∀ a, (s.bw.csh = 3 → s.bw.cbp ≠ some (BitVec.ofNat 32 a)) ∧ a < s.bw.op.toNat ∨
        u.bw.op.toNat ≤ a ∧ (s.bw.carryOk) → u.dst.read a = s.dst.read a) →
      (s.dst.wf = true → u.dst.wf = true) →
      let t := writerReference u p (codedLength rc s.bw.mref.toNat)
      t = { s with dst := t.dst, bw := { s.bw with op := t.bw.op, csh := t.bw.csh, cbp := t.bw.cbp } } ∧
      t.bw.op.toNat = u.bw.op.toNat + 1 + refType p + lengthTailLength (codedLength rc s.bw.mref.toNat) ∧
      t.bw.carryOk ∧
      (∀ a, (s.bw.csh = 3 → s.bw.cbp ≠ some (BitVec.ofNat 32 a)) ∧ a < s.bw.op.toNat ∨
        t.bw.op.toNat ≤ a ∧ (s.bw.carryOk) → t.dst.read a = s.dst.read a) ∧
      (s.dst.wf = true → t.dst.wf = true) := by
    intro u p hm hu hlt hle hrd hwf
    obtain ⟨h1, h2, h3, ⟨c, h4, h5⟩, h6, h7⟩ :=
      writerReference_effect u p (codedLength rc s.bw.mref.toNat) hlt
    refine ⟨?_, h2, ⟨?_, fun _ => ⟨c, h4, by omega⟩⟩, fun a ha => ?_, fun hw => h7 (hwf hw)⟩
    · rw [h1, hu]
    · rw [h3]; split <;> simp
    · rcases ha with ⟨ha, hlt⟩ | ⟨hle', hok⟩
      · rw [h6 a (by omega), hrd a (.inl ⟨ha, hlt⟩)]
      · rw [h6 a (by omega), hrd a (.inr ⟨by omega, hok⟩)]
  have hdep : ∀ c3 a, (s.bw.csh = 3 → s.bw.cbp ≠ some (BitVec.ofNat 32 a)) ∧ a < s.bw.op.toNat ∨
        s.bw.op.toNat ≤ a ∧ (s.bw.carryOk) → (writerDeposit s c3).dst.read a = s.dst.read a := by
    intro c3 a ha
    rw [writerDeposit_read, if_neg]
    rintro ⟨h3, c, hc, rfl⟩
    rcases ha with ⟨h1, _⟩ | ⟨h1, h2⟩
    · exact h1 h3 (by rw [hc]; simp)
    · obtain ⟨c', hc', hlt⟩ := h2.2 h3
      rw [hc] at hc'; cases hc'; omega
  have hf := writerDeposit_frame s (splitOffset s.bw.carry (decide (0 < lc)) d).c3
  have hw := fun hw => writerDeposit_wf (s := s) (splitOffset s.bw.carry (decide (0 < lc)) d).c3 hw
  simp only [writeBlk] at h
  unfold blockBytes
  generalize hsp : splitOffset s.bw.carry (decide (0 < lc)) d = sp at *
  generalize hv : writerDeposit s sp.c3 = v at *
  have hvo : v.bw = s.bw := by rw [hf]
  have hvd := hdep sp.c3
  rw [hv] at hvd
  split at h
  · rename_i hlc
    rcases writerLiteral_cases v sp.q lc ipa with ⟨h', _⟩ | ⟨bs, _, _, h'⟩
    · rw [h'] at h; cases h
    · obtain ⟨g1, g2, g3, g4⟩ := writerLiteral_some h' (by rw [hvo]; omega)
      rw [h'] at h
      generalize (v.putBytes bs).putLiterals ipa lc = u at *
      cases h
      have hl5 := literalHeadLength_le lc
      rw [hvo] at g2
      obtain ⟨k1, k2, k3, k4, k5⟩ := key u sp.p (by rw [g1, hvo]) (by rw [g1, hf]) (by omega) (by omega)
        (fun a ha => by
          rcases ha with ⟨ha, hlt⟩ | ⟨hle', hok⟩
          · rw [g3 a (by rw [hvo]; omega), hvd a (.inl ⟨ha, hlt⟩)]
          · rw [g3 a (by omega), hvd a (.inr ⟨by omega, hok⟩)]) (fun hh => g4 (hw hh))
      exact ⟨k1, by rw [k2, if_pos hlc]; omega, k3, k4, k5⟩
  · rename_i hlc
    cases h
    obtain ⟨k1, k2, k3, k4, k5⟩ := key v sp.p (by rw [hvo]) (by rw [hf]) (by rw [hvo]; omega)
      (by rw [hvo]) (fun a ha => by rw [hvo] at ha; exact hvd a ha) hw
    exact ⟨k1, by rw [k2, hvo, if_neg hlc]; omega, k3, k4, k5⟩

/-- `WRITE_BLK` changes nothing but DST and BW. -/
theorem writeBlk_frame {s t : State} {lc rc d ipa : Nat} (h : writeBlk s lc rc d ipa = some t) :
    t = { s with dst := t.dst, bw := t.bw } := by
  simp only [writeBlk] at h
  have hf := writerDeposit_frame s (splitOffset s.bw.carry (decide (0 < lc)) d).c3
  generalize writerDeposit s (splitOffset s.bw.carry (decide (0 < lc)) d).c3 = v at *
  split at h
  · rcases writerLiteral_cases v (splitOffset s.bw.carry (decide (0 < lc)) d).q lc ipa with
      ⟨h', _⟩ | ⟨_, _, _, h'⟩
    · rw [h'] at h; cases h
    · rw [h'] at h; cases h
      rw [hf]; rfl
  · cases h; rw [hf]; rfl

/-- `WRITE_BLK` does not look at MF's registers. -/
theorem writeBlk_setMf (s : State) (m : Finder) (lc rc d ipa : Nat) :
    writeBlk (s.setMf m) lc rc d ipa = (writeBlk s lc rc d ipa).map (·.setMf m) := by
  have hd : ∀ c3, writerDeposit (s.setMf m) c3 = (writerDeposit s c3).setMf m := by
    intro c3
    unfold writerDeposit
    simp only [State.setMf_bw]
    by_cases hc : s.bw.carry = true
    · simp only [hc, if_true]; cases s.bw.cbp <;> rfl
    · simp only [hc]; rfl
  simp only [writeBlk, State.setMf_bw, hd]
  split
  · simp only [writerLiteral]
    cases literalHead _ lc <;> rfl
  · rfl

/-- `WRITE_BLK` is refused only for a literal run no block can carry (R162). -/
theorem writeBlk_eq_none (s : State) (lc rc d ipa : Nat) :
    writeBlk s lc rc d ipa = none ↔ 16 + 2 ^ 28 ≤ lc := by
  simp only [writeBlk]
  split
  · rcases writerLiteral_cases (writerDeposit s (splitOffset s.bw.carry (decide (0 < lc)) d).c3)
      (splitOffset s.bw.carry (decide (0 < lc)) d).q lc ipa with ⟨h, h'⟩ | ⟨_, _, h', h⟩
    · simp [h]; omega
    · simp [h]; omega
  · simp; omega

/-! ### `FINALIZE` and `EncoderFault` (R160, R162) -/

/-- `FINALIZE` does not look at MF's registers. -/
theorem finalize_setMf (s : State) (m : Finder) (lc ipa : Nat) :
    finalize (s.setMf m) lc ipa = (finalize s lc ipa).map (·.setMf m) := by
  unfold finalize writerLiteral
  cases literalHead 0 lc <;> rfl

/-- `FINALIZE` changes nothing but DST and BW. -/
theorem finalize_frame {s t : State} {lc ipa : Nat} (h : finalize s lc ipa = some t) :
    t = { s with dst := t.dst, bw := t.bw } := by
  rcases writerLiteral_cases s 0 lc ipa with ⟨h', _⟩ | ⟨_, _, _, h'⟩ <;> rw [finalize, h'] at h <;> cases h
  rfl

/-- An `EncoderFault` in a command that the host did not spoil. -/
theorem encoderFault_clean (s : State) (h : s.spoiled = false) :
    encoderFault s =
      { s with dst := s.freeDst.dst, draws := s.draws + 1, result := 0, written := 0, status := statusDone
               phase := .idle } :=
  State.endCommand_clean s.freeDst 0 0 h

end Sys2Proof.Machine
end

