-- ==== Sys2Proof/Laws/Search.lean ====
section
/-! SUPPORT. What the parts of a search pass can do: the loop condition, the growth of the stream in one
`WRITE_BLK`, the limits of an extension, the limits of a candidate of mode HI. -/

namespace Sys2Proof.Machine

/-- The loop condition of both searches. -/
theorem Finder.more_iff (m : Finder) : m.more = true ↔ (m.ip.toNat : Int) < m.ipet.toInt := by
  simp [Finder.more]

@[simp] theorem encoderFault_phase (s : State) : (encoderFault s).phase = .idle := by simp [encoderFault]

@[simp] theorem encoderFault_status (s : State) : (encoderFault s).status = statusDone := by simp [encoderFault]

/-- The hash step changes registers of MF only. -/
theorem hashStep_frame (s : State) : hashStep s = { s with mf := (hashStep s).mf } := rfl

theorem hashStepHi_frame (s : State) : hashStepHi s = { s with mf := (hashStepHi s).mf } := rfl

/-! ### Growth of the stream (46_host_operations.md R337) -/

/-- In mode DEFAULT the blocks of a match take at most one byte more for each 150 bytes they cover. -/
theorem blockBytes_le_default (w : Writer) (lc rc d : Nat) (hm : w.mref = 6) (h : 6 ≤ rc) :
    150 * blockBytes w lc rc d ≤ 151 * (lc + rc) := by
  unfold blockBytes
  have := refType_cases (splitOffset w.carry (decide (0 < lc)) d).p
  have h6 : w.mref.toNat = 6 := by rw [hm]; rfl
  rw [h6]
  unfold lengthTailLength literalHeadLength codedLength
  repeat' split
  all_goals omega

/-- In mode HI they take at most one byte more for each 21 bytes they cover. -/
theorem blockBytes_le_hi (w : Writer) (lc rc d : Nat) (hm : w.mref = 5) (h : 5 ≤ rc) :
    21 * blockBytes w lc rc d ≤ 22 * (lc + rc) := by
  unfold blockBytes
  have := refType_cases (splitOffset w.carry (decide (0 < lc)) d).p
  have h5 : w.mref.toNat = 5 := by rw [hm]; rfl
  rw [h5]
  unfold lengthTailLength literalHeadLength codedLength
  repeat' split
  all_goals omega

/-- The carry state of a search is sound. -/
theorem SearchBounds.carryOk {m : Finder} {w : Writer} {cap : Word} (h : SearchBounds m w cap) : w.carryOk :=
  ⟨h.csh_ok, h.cbp_ok⟩

/-! ### Extensions (43_default_match_finder.md R218, R219; 44_hi_ratio_match_finder.md R248, R250) -/

/-- The limits of the extension of a DEFAULT hit. -/
theorem extendHit_bounds (src : Memory) (m : Finder) (hd : 8 ≤ m.d.toNat) (hi : m.ip.toNat + 9 < m.ipe.toNat)
    (hipa : m.ipa.toNat ≤ m.ip.toNat) :
    let e := extendHit src m
    6 ≤ e.fwd ∧ e.fwd + e.bmc ≤ e.ml ∧ e.ml ≤ 530 ∧ e.ml ≤ m.d.toNat ∧ m.ip.toNat + e.ml ≤ m.ipe.toNat ∧
    e.bmc ≤ m.ip.toNat - m.ipa.toNat ∧ e.bmc ≤ 16 := by
  intro e
  have h1 := Memory.fwd_le src (m.ip.toNat + 6) (m.wp.toNat + 6)
    (min (min m.d.toNat 530) (m.ipe.toNat - m.ip.toNat) - 6)
  have h2 := Memory.rev_le src m.ip.toNat m.wp.toNat e.bml
  simp only [e, extendHit, backExtend, Config.refMin, Config.refLen] at *
  split <;> omega

/-- The limits of the back-extension of a candidate. -/
theorem extendCandidate_bounds (src : Memory) (m : Finder) (c : Candidate) :
    let e := extendCandidate src m c
    e.bmc ≤ m.ip.toNat - m.ipa.toNat ∧ e.bmc ≤ c.ml - c.rc ∧ e.bmc ≤ 16 ∧ e.bmc ≤ c.wp := by
  intro e
  have h := Memory.rev_le src m.ip.toNat c.wp e.bml
  simp only [e, extendCandidate, backExtend] at *
  split <;> omega

/-- The limits of a candidate at the position `ip` (R248). -/
structure CandidateBounds (c : Candidate) (ip ipe : Nat) : Prop where
  rc_ge : 4 ≤ c.rc
  rc_le : c.rc ≤ c.ml
  ml_le : c.ml ≤ 529
  ml_le_d : c.ml ≤ c.d
  stop_le : ip + c.ml ≤ ipe
  d_eq : c.d = ip - c.wp
  d_ge : 8 ≤ c.d
  d_lt : c.d < 8388608

/-- One tuple leaves the best candidate or makes one within the limits. -/
theorem probeTuple_cases (src : Memory) (ip ipe : Nat) (iw1 key : Word) (off : Nat) (p : Probe)
    (hi : ip + 9 < ipe) :
    (probeTuple src ip ipe iw1 key off p).best = p.best ∨
    ∃ c, (probeTuple src ip ipe iw1 key off p).best = some c ∧ key = iw1 ∧ c.wp = off ∧
      c.rc = 4 + src.fwd (ip + 4) (off + 4) (c.ml - 4) ∧ p.brc + farCost c.d < c.rc ∧
      CandidateBounds c ip ipe := by
  unfold probeTuple
  split
  · exact .inl rfl
  · rename_i hk
    split
    · exact .inl rfl
    · rename_i hf
      simp only []
      split
      · rename_i hb
        refine .inr ⟨_, rfl, by simpa using hk, rfl, rfl, hb, ?_⟩
        have := Memory.fwd_le src (ip + 4) (off + 4) (min (min (ip - off) 529) (ipe - ip) - 4)
        simp only [Config.winLen, Config.mlenHi] at *
        constructor <;> simp only <;> omega
      · exact .inl rfl

/-- What the probe accepts is its best candidate, long enough for its distance (R249). -/
theorem accepted_some {p : Probe} {c : Candidate} (h : p.accepted = some c) :
    p.best = some c ∧ 5 + farCost c.d ≤ c.rc := by
  unfold Probe.accepted at h
  split at h
  · split at h
    · cases h
    · cases h; exact ⟨by assumption, by omega⟩
  · cases h

end Sys2Proof.Machine
end

