-- ==== Sys2Proof/Laws/Start.lean ====
section
/-! SUPPORT. What the start of a command leaves in the registers that are computed from `SRCL`: the signed limits
and the table's size (10_state.md R25, R29; 42_hash_dictionary.md R182, R195). -/

namespace Sys2Proof.Machine

/-- A word less a small constant, in 33 bits, is the signed difference. -/
theorem toInt_setWidth_sub (w : Word) (c : BitVec 33) (h : c.toNat ≤ 15) :
    (w.setWidth 33 - c).toInt = w.toNat - c.toNat := by
  have := w.isLt
  rw [BitVec.toInt_eq_toNat_bmod, BitVec.toNat_sub, BitVec.toNat_setWidth]
  simp only [Int.bmod]
  split <;> omega

/-- BD's `ipet` at the start of a command, negative below six bytes (R25). -/
theorem Decoder.begin_ipet (b : Decoder) (srcl dstl : Word) :
    (b.begin srcl dstl).ipet.toInt = srcl.toNat - 6 := toInt_setWidth_sub srcl 6 (by decide)

/-- MF's `ipet` at the start of a command (R29). -/
theorem Finder.begin_ipet (m : Finder) (mode : Mode) (srcl : Word) :
    (m.begin mode srcl).ipet.toInt = srcl.toNat - 15 := toInt_setWidth_sub srcl 15 (by decide)

/-- MF's `ipe` at the start of a command of six bytes or more (R29). -/
theorem Finder.begin_ipe (m : Finder) (mode : Mode) (srcl : Word) (h : 6 ≤ srcl.toNat) :
    (m.begin mode srcl).ipe.toNat = srcl.toNat - 6 := by
  have := srcl.isLt
  show (srcl - 6).toNat = _
  rw [BitVec.toNat_sub, show (6 : BitVec 32).toNat = 6 from rfl]
  omega

/-- A search's loop runs at all exactly from 32 bytes on (43_default_match_finder.md R213). -/
theorem Finder.begin_more (m : Finder) (mode : Mode) (srcl : Word) :
    (m.begin mode srcl).more = decide (32 ≤ srcl.toNat) := by
  simp only [Finder.more, Finder.begin_ipet]
  rw [decide_eq_decide]
  show ((16 : BitVec 32).toNat : Int) < _ ↔ _
  rw [show (16 : BitVec 32).toNat = 16 from rfl]
  omega

/-- A table's size fits `htsize`. -/
theorem tableSize_lt (cap srcl : Nat) : tableSize cap srcl < 2 ^ 24 := by
  have key : ∀ k h, h ≤ 2 ^ (23 - k) → k ≤ 12 → growTable cap srcl k h < 2 ^ 24 := by
    intro k
    induction k with
    | zero => intro h hh _; simp [growTable]; omega
    | succ k ih =>
      intro h hh hk
      simp only [growTable]
      split
      · refine ih _ ?_ (by omega)
        have : 2 ^ (23 - k) = 2 * 2 ^ (23 - (k + 1)) := by
          rw [← Nat.pow_succ']; congr 1; omega
        rw [Nat.shiftLeft_eq]; omega
      · have : 2 ^ (23 - (k + 1)) ≤ 2 ^ 23 := Nat.pow_le_pow_right (by omega) (by omega)
        omega
  exact key 12 2048 (by decide) (by omega)

/-- MF's `htsize` at the start of a command (R182, R195). -/
theorem Finder.begin_htsize (m : Finder) (mode : Mode) (srcl : Word) :
    (m.begin mode srcl).htsize.toNat = mode.tableBytes srcl.toNat := by
  show (BitVec.ofNat 24 (mode.tableBytes srcl.toNat)).toNat = _
  rw [BitVec.toNat_ofNat]
  cases mode <;> exact Nat.mod_eq_of_lt (tableSize_lt _ _)

end Sys2Proof.Machine
end

