-- ==== Sys2Proof/Laws/Step.lean ====
section
/-! SUPPORT. Everything a step can do, said once: whose turn it is, which instruction or which step of a
unit runs, and what an access of the host does. -/

namespace Sys2Proof.Machine

/-- A next step is the engine's, with at most the host's turn taken off the script, or one of the host's
accesses. -/
theorem step_cases {s t : State} (h : step s = .next t) :
    (s.engineNext = true ∧ ∃ r, engineStep { s with hostScript := r } = .next t) ∨
    (s.engineNext = false ∧ ∃ a r, s.hostScript = a :: r ∧ hostAccess a { s with hostScript := r } = .next t) := by
  unfold step at h
  unfold State.engineNext
  split at h
  · rename_i hs
    exact .inl ⟨by rw [hs], [], by rw [← hs]; exact h⟩
  · rename_i r hs
    exact .inl ⟨by rw [hs], r, h⟩
  · rename_i a r hne hs
    refine .inr ⟨?_, a, r, hs, h⟩
    rw [hs]
    cases a <;> first | rfl | exact (hne rfl).elim

/-- The commands that a word in `CMD` can hold (10_state.md R23). -/
theorem decodeCommand_ok {w : Word} {i : Instr} (h : decodeCommand w = .ok i) :
    i = .compress ∨ i = .compressHi ∨ i = .decompress ∨ i = .decompressPartial ∨ i = .bound ∨ i = .boundHi := by
  unfold decodeCommand at h
  split at h <;> first | (cases h; simp) | cases h

/-- The prefix byte of a known format holds the prefix instruction of its low nibble. -/
theorem decodePrefix_ok {b : Byte} {i : Instr} (h : decodePrefix b = .ok i) :
    i = .streamPrefix (b.extractLsb' 0 4) ∧ b.extractLsb' 4 4 = 2 := by
  unfold decodePrefix at h
  split at h
  · rename_i hk
    cases h
    exact ⟨rfl, by simpa [Config.formatKnown] using hk⟩
  · cases h

/-- What the engine does in each phase. -/
theorem engineStep_cases {s t : State} (h : engineStep s = .next t) :
    (s.phase = .idle ∧ t = s) ∨
    (s.phase = .start ∧ t = s) ∨
    (s.phase = .start ∧ ∃ i, decodeCommand s.cmd = .ok i ∧ exec i s = .next t) ∨
    (∃ r, s.phase = .header r ∧ (s.src.read 0).extractLsb' 4 4 = 2 ∧
      exec (.streamPrefix ((s.src.read 0).extractLsb' 0 4)) s = .next t) ∨
    (∃ r, s.phase = .header r ∧ t = formatUnknown s) ∨
    (∃ r, s.phase = .blocks r ∧ s.bd.more = true ∧
      exec (decodeBlock (blockWindow s.src s.bd.ip.toNat)) s = .next t) ∨
    (∃ r, s.phase = .blocks r ∧ s.bd.more = false ∧ t = decodeEnd s) ∨
    (s.phase = .search ∧ s.mf.more = true ∧ t = searchPass s) ∨
    (s.phase = .search ∧ s.mf.more = false ∧ t = searchEnd s) ∨
    (s.phase = .searchHi ∧ s.mf.more = true ∧ t = searchHiPass s) ∨
    (s.phase = .searchHi ∧ s.mf.more = false ∧ t = searchHiEnd s) := by
  unfold engineStep fetch at h
  cases hp : s.phase with
  | idle => rw [hp] at h; simp only at h; cases h; simp
  | start =>
    rw [hp] at h
    simp only [decode] at h
    cases hc : decodeCommand s.cmd with
    | error e => rw [hc] at h; simp only at h; cases h; simp
    | ok i => rw [hc] at h; simp only at h; simp [h]
  | header r =>
    rw [hp] at h
    simp only [decode] at h
    cases hc : decodePrefix (s.src.read 0) with
    | error e => rw [hc] at h; simp only at h; cases h; simp
    | ok i =>
      rw [hc] at h
      obtain ⟨rfl, hf⟩ := decodePrefix_ok hc
      simp only at h
      simp [h, hf]
  | blocks r =>
    rw [hp] at h
    cases hm : s.bd.more with
    | true => simp only [hm, if_true] at h; simp [h]
    | false => simp only [hm] at h; cases h; simp
  | search =>
    rw [hp] at h
    cases hm : s.mf.more with
    | true => simp only [hm, if_true] at h; cases h; simp
    | false => simp only [hm] at h; cases h; simp
  | searchHi =>
    rw [hp] at h
    cases hm : s.mf.more with
    | true => simp only [hm, if_true] at h; cases h; simp
    | false => simp only [hm] at h; cases h; simp

/-- What an access of the host does, when it does not stop the machine. -/
theorem hostAccess_cases {s t : State} {a : HostAccess} (h : hostAccess a s = .next t) :
    t = s ∨
    (∃ v i, s.busy = false ∧ decodeCommand v = .ok i ∧
      t = { s with cmd := v, status := statusBusy, phase := .start, spoiled := false }) ∨
    (∃ v, t = { s with srcl := v, spoiled := s.spoiled || s.busy }) ∨
    (∃ v, t = { s with dstl := v, spoiled := s.spoiled || s.busy }) ∨
    (∃ a b, t = { s with src := s.src.write a b, spoiled := s.spoiled || s.busy }) ∨
    (∃ a b, t = { s with dst := s.dst.write a b, spoiled := s.spoiled || s.busy }) ∨
    t = { State.powerOn s.draws with hostScript := s.hostScript } ∨
    (∃ v d, t = { s with readValue := v, draws := d }) ∨
    (∃ v d, s.busy = true ∧ t = { s with readValue := v, draws := d, spoiled := true }) := by
  cases a with
  | engineTurn => cases h; simp
  | writeReg no v =>
    simp only [hostAccess, hostWriteReg] at h
    split at h
    · cases h
      unfold hostWriteCmd
      split
      · simp
      · rename_i hb
        split
        · rename_i i hd
          exact .inr (.inl ⟨v, i, by simpa using hb, hd, rfl⟩)
        · simp
    · cases h; exact .inr (.inr (.inl ⟨v, rfl⟩))
    · cases h; exact .inr (.inr (.inr (.inl ⟨v, rfl⟩)))
    · cases h; simp
    · cases h; simp
    · cases h; simp
    · cases h
  | writeSrc a b =>
    simp only [hostAccess, hostWriteSrc] at h
    split at h
    · cases h; exact .inr (.inr (.inr (.inr (.inl ⟨a, b, rfl⟩))))
    · cases h
  | writeDst a b =>
    simp only [hostAccess, hostWriteDst] at h
    split at h
    · cases h; exact .inr (.inr (.inr (.inr (.inr (.inl ⟨a, b, rfl⟩)))))
    · cases h
  | readReg no =>
    simp only [hostAccess, hostReadReg] at h
    split at h
    all_goals first
      | (cases h; exact .inr (.inr (.inr (.inr (.inr (.inr (.inr (.inl ⟨_, _, rfl⟩))))))))
      | cases h
  | readDst a =>
    simp only [hostAccess, hostReadDst] at h
    split at h
    · split at h
      · rename_i hb
        cases h; exact .inr (.inr (.inr (.inr (.inr (.inr (.inr (.inr ⟨_, _, hb, rfl⟩)))))))
      · cases h; exact .inr (.inr (.inr (.inr (.inr (.inr (.inr (.inl ⟨_, _, rfl⟩)))))))
    · cases h
  | externalReset => cases h; simp

end Sys2Proof.Machine
end

