-- ==== Sys2Proof/Tests/Slice0.lean ====
section
/-! SUPPORT. Tests: well-formedness refuses ill-formed terms, words written out from the spec's encodings
decode to what they stand for, one step of each instruction on the spec's own vectors
(95_test_vectors.md), and for every statement with hypotheses a state and operands that meet them. -/

namespace Sys2Proof.Tests

open Sys2Proof Sys2Proof.Machine Sys2Proof.Claims

/-! ### Helpers -/

/-- A memory in which the bytes stand from `lo` on and nothing else was written. -/
def mem (lo : Nat) (bs : List Byte) : Memory := Memory.writeBytes { seed := 0, cells := [] } lo bs

/-- The bytes of a memory from `lo` on. -/
def bytesAt (m : Memory) (lo n : Nat) : List Byte := (List.range n).map fun i => m.read (lo + i)

/-- The next state, where there is one. -/
def after (o : Host.Outcome State Fault Refusal) : State :=
  match o with
  | .next t => t
  | .fault _ => State.reset
  | .refused _ => State.reset

/-- `n` bytes `b`. -/
def copies (n : Nat) (b : Byte) : List Byte := List.replicate n b

/-- `"ABCDEFGH"`, `"123456"`, `"Hello, World!"`. -/
def abcdefgh : List Byte := [0x41, 0x42, 0x43, 0x44, 0x45, 0x46, 0x47, 0x48]
def digits : List Byte := [0x31, 0x32, 0x33, 0x34, 0x35, 0x36]
def hello : List Byte := [0x48, 0x65, 0x6C, 0x6C, 0x6F, 0x2C, 0x20, 0x57, 0x6F, 0x72, 0x6C, 0x64, 0x21]

/-- BD at its loop condition with `mref1 = 5`: at `ip` of a stream, `out` already in DST, room for `cap`. -/
def decoding (stream out : List Byte) (ip cv csh cap : Nat) : State :=
  { State.reset with
    status := 1, phase := .blocks .full, cap := BitVec.ofNat 32 cap, src := mem 0 stream, dst := mem 0 out
    bd := { Decoder.zero with
      ip := BitVec.ofNat 32 ip, ipe := BitVec.ofNat 32 stream.length, ipet := BitVec.ofInt 33 (stream.length - 6)
      op := BitVec.ofNat 32 out.length, ope := BitVec.ofNat 32 cap, mref1 := 5, cv := cv, csh := csh } }

/-- The streams of section 3.8 of 95_test_vectors.md, at the block under test. -/
def atBlock (block : List Byte) (cap : Nat) : State :=
  decoding ([0x26, 0x08] ++ abcdefgh ++ block ++ [0x06] ++ digits) abcdefgh 10 0 2 cap

/-- A command just started: its code in `CMD`, SRC, `SRCL` and `DSTL`. -/
def started (code : Word) (bs : List Byte) (srcl dstl : Nat) : State :=
  { State.reset with
    status := 1, phase := .start, cmd := code, src := mem 0 bs
    srcl := BitVec.ofNat 32 srcl, dstl := BitVec.ofNat 32 dstl }

/-! ### Ill-formed terms are refused (30_encoding.md R94, R96, R98, R103) -/

theorem test_lits_zero_ill_formed : (Instr.lits 0 0).wellFormed = false := by decide
theorem test_litl_no_varint_byte_ill_formed : (Instr.litl 0 0 0).wellFormed = false := by decide
theorem test_litl_five_varint_bytes_ill_formed : (Instr.litl 0 5 0).wellFormed = false := by decide
theorem test_litl_value_too_large_ill_formed : (Instr.litl 0 1 128).wellFormed = false := by decide
theorem test_ref1s_zero_ill_formed : (Instr.ref1s 0 0 0).wellFormed = false := by decide
theorem test_ref1l_ff_ill_formed : (Instr.ref1l 0 0 255).wellFormed = false := by decide
theorem test_ref2s_zero_ill_formed : (Instr.ref2s 0 0 0).wellFormed = false := by decide
theorem test_ref2l_ff_ill_formed : (Instr.ref2l 0 0 255).wellFormed = false := by decide
theorem test_ref3s_zero_ill_formed : (Instr.ref3s 0 0 0).wellFormed = false := by decide
theorem test_ref3l_ff_ill_formed : (Instr.ref3l 0 0 255).wellFormed = false := by decide

/-! ### Words written out from the spec's encodings

The header byte is `q` in bits 7:6, the type in bits 5:4, the nibble in bits 3:0 (30_encoding.md R92). -/

-- `0x2F`: format 2, mref 15 (R90).
theorem test_decode_prefix : decode (.header 0b00101111) = .ok (.streamPrefix 15) := by decide
-- Formats 1 and 3 are not known (R282).
theorem test_decode_prefix_refused :
    decode (.header 0b00010110) = .error .unknownFormat ∧ decode (.header 0b00110110) = .error .unknownFormat := by
  decide
-- q = 3, type 0, L = 15 (R94).
theorem test_decode_lits : decode (.block [0b11001111]) = .ok (.lits 3 15) := by decide
-- q = 1, varint FF 7F = 127 + 127 * 128 (R95, R96).
theorem test_decode_litl : decode (.block [0b01000000, 0xFF, 0x7F]) = .ok (.litl 1 2 16383) := by decide
-- The fourth varint byte ends the varint whatever its bit 7 is (R106; V-BD-18).
theorem test_decode_litl_fourth_byte :
    decode (.block [0x00, 0x80, 0x80, 0x80, 0x80, 0x55]) = .ok (.litl 0 4 0) := by decide
-- q = 2, type 1, L = 1, offset byte 5 (R97).
theorem test_decode_ref1s : decode (.block [0b10010001, 0x05]) = .ok (.ref1s 2 5 1) := by decide
-- type 1, L = 0, length byte 0xFE (R98).
theorem test_decode_ref1l : decode (.block [0b11010000, 0x80, 0xFE]) = .ok (.ref1l 3 0x80 0xFE) := by decide
-- type 1, L = 0, length bytes FF 01.
theorem test_decode_ref1x : decode (.block [0b00010000, 0x07, 0xFF, 0x01]) = .ok (.ref1x 0 7 1) := by decide
-- type 2: the offset bytes are little-endian.
theorem test_decode_ref2s : decode (.block [0b01101111, 0x34, 0x12]) = .ok (.ref2s 1 0x1234 15) := by decide
theorem test_decode_ref2l : decode (.block [0b00100000, 0x34, 0x12, 0x00]) = .ok (.ref2l 0 0x1234 0) := by
  decide
theorem test_decode_ref2x : decode (.block [0b10100000, 0x34, 0x12, 0xFF, 0xFE]) = .ok (.ref2x 2 0x1234 0xFE) := by
  decide
-- type 3: three offset bytes, the top three bits of the last are c3.
theorem test_decode_ref3s : decode (.block [0b10110011, 0x00, 0x00, 0xA0]) = .ok (.ref3s 2 0xA00000 3) := by
  decide
theorem test_decode_ref3l : decode (.block [0b00110000, 0x3E, 0x32, 0x44, 0x03]) = .ok (.ref3l 0 0x44323E 3) := by
  decide
theorem test_decode_ref3x :
    decode (.block [0b11110000, 0xFF, 0xFF, 0x1F, 0xFF, 0xFE]) = .ok (.ref3x 3 0x1FFFFF 0xFE) := by decide
-- A block cut short inside its head is refused by name.
theorem test_decode_truncated :
    decode (.block [0b00110000, 0x3E, 0x32, 0x44]) = .error .truncated ∧ decode (.block []) = .error .truncated := by
  decide
-- `CMD[2:0]` (10_state.md R23); bits 31:3 are ignored.
theorem test_decode_commands :
    decode (.command 1) = .ok .compress ∧ decode (.command 2) = .ok .compressHi ∧
    decode (.command 3) = .ok .decompress ∧ decode (.command 4) = .ok .decompressPartial ∧
    decode (.command 0xFFFFFFFD) = .ok .bound ∧ decode (.command 0b1110) = .ok .boundHi ∧
    decode (.command 0) = .error .noCommand ∧ decode (.command 7) = .error .noCommand := by decide
-- The opcode table's numbering: the first byte is the low one.
theorem test_decodeTableWord :
    decodeTableWord 8 0x25 = some (.streamPrefix 5) ∧ decodeTableWord 8 0x88 = some (.lits 2 8) ∧
    decodeTableWord 16 0x0591 = some (.ref1s 2 5 1) ∧ decodeTableWord 24 0x1234AF = some (.ref2s 2 0x1234 15) ∧
    decodeTableWord 0 5 = some .bound ∧ decodeTableWord 3 6 = some .boundHi := by decide

/-! ### One step of each instruction, on the spec's vectors -/

-- V-BD-1: `mref1 = 5` for `26`, `-1` for `20`.
theorem test_prefix_step :
    ((after (step (State.reset.withFetchWord 8 0x26))).bd.mref1.toInt,
      (after (step (State.reset.withFetchWord 8 0x20))).bd.mref1.toInt,
      (after (step (State.reset.withFetchWord 8 0x26))).bd.ip) = (5, -1, 1) := by decide

-- V-F-25: `E_UNKFMT`; `RESULT = -6` in V-HOST-12.
theorem test_format_unknown :
    let t := after (step { decoding [0x16, 0, 0, 0, 0, 0, 0] [] 0 0 0 74 with phase := .header .full })
    (t.result, t.written, t.status, t.bd.st, t.phase) = (0xFFFFFFFA, 0, 2, 6, .idle) := by decide

-- P1, block at 14: `q = 1` goes into the carry registers behind `c3 = 5`.
theorem test_lits_step :
    let t := after (step (decoding ([0x26, 0x08] ++ abcdefgh ++ [0xB3, 0x00, 0x00, 0xA0, 0x42, 0x78, 0x79, 0x12, 0x00,
      0x06] ++ digits) (abcdefgh ++ abcdefgh) 14 5 3 31))
    (t.bd.ip, t.bd.op, t.bd.cv, t.bd.csh, bytesAt t.dst 16 2) = (17, 18, 13, 5, [0x78, 0x79]) := by decide

-- V-F-2: 13 literals announced, 12 present; the 12 are committed.
theorem test_lits_srcoob :
    let t := after (step (decoding ([0x26, 0x0D] ++ hello.take 12) [] 1 0 0 13))
    (t.result, t.written, t.status, t.bd.st, bytesAt t.dst 0 12) = (0xFFFFFFFE, 12, 2, 2, hello.take 12) := by
  decide

-- V-BD-3: `26 00 00` and 16 bytes.
theorem test_litl_step :
    let t := after (step (decoding ([0x26, 0x00, 0x00] ++ copies 16 0x61) [] 1 0 0 16))
    (t.bd.ip, t.bd.op, t.bd.cc, t.bd.csh, bytesAt t.dst 0 16) = (19, 16, 16, 2, copies 16 0x61) := by decide

-- V-BD-19: the varint `81 80 80 FF`, and 16 bytes: `cc = 266338321`, the 16 bytes are committed.
theorem test_litl_srcoob :
    let t := after (step (decoding ([0x26, 0x00, 0x81, 0x80, 0x80, 0xFF] ++ copies 16 0x61) [] 1 0 0 16))
    (t.bd.cc, t.bd.st, t.written, t.result) = (266338321, 2, 16, 0xFFFFFFFE) := by decide

-- V-BD-4: `91 00`: `d = 8`, six bytes.
theorem test_ref1s_step :
    let t := after (step (atBlock [0x91, 0x00] 20))
    (t.bd.ip, t.bd.op, t.bd.d, t.bd.csh, bytesAt t.dst 8 6) = (12, 14, 8, 0, abcdefgh.take 6) := by decide

-- V-F-31: `11 02`: `d = 32 > 8`.
theorem test_ref1s_refoob :
    let t := after (step (atBlock [0x11, 0x02] 20))
    (t.result, t.written, t.bd.st, t.bd.d, t.status) = (0xFFFFFFFC, 8, 4, 32, 2) := by decide

-- P2, block at 4: `d = 2 < cc = 21`, the run fills.
theorem test_ref1l_step :
    let t := after (step (decoding ([0x26, 0x82, 0x61, 0x62, 0x10, 0x00, 0x00, 0x51, 0x00, 0x06] ++ digits)
      [0x61, 0x62] 4 2 2 35))
    (t.bd.ip, t.bd.op, t.bd.d, bytesAt t.dst 19 4) = (7, 23, 2, [0x62, 0x61, 0x62, 0x61]) := by decide

-- V-BD-6: `90 00 FF 00`: 276 bytes.
theorem test_ref1x_step :
    let t := after (step (atBlock [0x90, 0x00, 0xFF, 0x00] 290))
    (t.bd.ip, t.bd.op, t.bd.d, t.bd.cc) = (14, 284, 8, 276) := by decide

-- V-BD-7: `AF 00 00`: 20 bytes.
theorem test_ref2s_step :
    let t := after (step (atBlock [0xAF, 0x00, 0x00] 34))
    (t.bd.ip, t.bd.op, t.bd.d, t.bd.cc, bytesAt t.dst 24 4) = (13, 28, 8, 20, abcdefgh.take 4) := by decide

-- V-BD-8: `60 00 00 FE`: `d = 4`, 275 bytes.
theorem test_ref2l_step :
    let t := after (step (atBlock [0x60, 0x00, 0x00, 0xFE] 289))
    (t.bd.ip, t.bd.op, t.bd.d, t.bd.cc) = (14, 283, 4, 275) := by decide

-- V-BD-9: `A0 00 00 FF FE`: 530 bytes.
theorem test_ref2x_step :
    let t := after (step (atBlock [0xA0, 0x00, 0x00, 0xFF, 0xFE] 544))
    (t.bd.ip, t.bd.op, t.bd.d, t.bd.cc) = (15, 538, 8, 530) := by decide

-- V-BD-10: `B3 00 00 A0`: `cv = 5`, `csh = 3` after it.
theorem test_ref3s_step :
    let t := after (step (atBlock [0xB3, 0x00, 0x00, 0xA0, 0x11, 0x00] 28))
    (t.bd.ip, t.bd.op, t.bd.d, t.bd.cv, t.bd.csh) = (14, 16, 8, 5, 3) := by decide

-- V-BD-11: `B0 00 00 00 04`: 25 bytes.
theorem test_ref3l_step :
    let t := after (step (atBlock [0xB0, 0x00, 0x00, 0x00, 0x04, 0x42, 0x78, 0x79, 0x12, 0x00] 48))
    (t.bd.ip, t.bd.op, t.bd.d, t.bd.cv, t.bd.csh) = (15, 33, 8, 0, 3) := by decide

-- V-BD-12: `B0 00 00 E0 FF FF`: 531 bytes, `c3 = 7`.
theorem test_ref3x_step :
    let t := after (step (atBlock [0xB0, 0x00, 0x00, 0xE0, 0xFF, 0xFF] 545))
    (t.bd.ip, t.bd.op, t.bd.d, t.bd.cv, t.bd.csh) = (16, 539, 8, 7, 3) := by decide

-- V-F-16: `d = 8` is legal, then the copy does not fit.
theorem test_ref_dstoob :
    let t := after (step (atBlock [0x91, 0x00] 10))
    (t.result, t.written, t.bd.st, bytesAt t.dst 8 2) = (0xFFFFFFFD, 10, 3, abcdefgh.take 2) := by decide

-- V-F-4: the loop ends with `op = 13`, the host asked for 14.
theorem test_dstlen :
    let t := after (step (decoding ([0x26, 0x0D] ++ hello) hello 15 0 2 14))
    (t.result, t.written, t.bd.st) = (0xFFFFFFFB, 13, 5) := by decide

-- V-HOST-7: the last step of DECOMPRESS.
theorem test_stream_end :
    let t := after (step (decoding ([0x26, 0x0D] ++ hello) hello 15 0 2 13))
    (t.result, t.written, t.bd.st, t.status) = (13, 13, 0, 2) := by decide

-- V-HOST-14: no stream, five bytes asked for.
theorem test_decompress_params :
    let t := after (step (started 3 [] 0 5))
    (t.result, t.written, t.bd.st, t.status) = (0xFFFFFFFF, 0, 1, 2) := by decide

-- The start of V-HOST-7.
theorem test_decompress_step :
    let t := after (step (started 3 ([0x26, 0x0D] ++ hello) 15 13))
    (t.status, t.phase, t.bd.ipe, t.bd.ipet, t.bd.ope) = (1, .header .full, 15, 9, 13) := by decide

-- The start of V-HOST-9; an error reports the bytes committed.
theorem test_decompressPartial_step :
    let t := after (step (started 4 ([0x26, 0x0D] ++ hello) 14 13))
    (t.status, t.phase, t.bd.ipe, t.bd.ope) = (1, .header .bestEffort, 14, 13) := by decide

theorem test_decompressPartial_reports :
    let t := after (step { decoding ([0x26, 0x0D] ++ hello.take 12) [] 1 0 0 13 with phase := .blocks .bestEffort })
    (t.result, t.written, t.bd.st) = (12, 12, 2) := by decide

-- V-HOST-3, V-S1: the short form.
theorem test_compress_short :
    let t := after (step (started 1 hello 13 31))
    (t.result, t.written, t.status, bytesAt t.dst 0 15) = (15, 15, 2, [0x26, 0x0D] ++ hello) := by decide

-- V-HOST-4: `dstl < BOUND(13)`.
theorem test_compress_refused :
    let t := after (step (started 1 hello 13 30))
    (t.result, t.written, t.status, t.dst) = (0, 0, 2, State.reset.dst) := by decide

-- V-BW-34 with `mref = 5`: three bytes, three zeros.
theorem test_compressHi_short :
    let t := after (step (started 2 [0x61, 0x62, 0x63] 3 21))
    (t.result, bytesAt t.dst 0 8) = (8, [0x25, 0x03, 0x61, 0x62, 0x63, 0, 0, 0]) := by decide

-- V-MF-10: 16 bytes start a search whose loop will not run.
theorem test_compressHi_start :
    let t := after (step (started 2 (copies 16 0) 16 34))
    (t.phase, t.mf.ip, t.mf.ipe, t.mf.ipet, t.bw.op) = (.searchHi, 16, 10, 1, 1) := by decide

-- V-HOST-1 and the rows 150, -1 of section 3.10.
theorem test_bound_step :
    ((after (step (started 5 [] 13 0))).result, (after (step (started 5 [] 150 0))).result,
      (after (step (started 5 [] 0xFFFFFFFF 0))).result) = (31, 167, 16) := by decide

-- V-HOST-2 and the rows 21, 2147483647 of section 3.10.
theorem test_boundHi_step :
    ((after (step (started 6 [] 13 0))).result, (after (step (started 6 [] 21 0))).result,
      (after (step (started 6 [] 0x7FFFFFFF 0))).result) = (31, 38, 0x86186197) := by decide

-- V-H-1, V-H-2 and two columns of V-H-7.
theorem test_hash :
    hash 0x64636261 0x6665 = 0x270594B6 ∧ bucketOf 0x270594B6 (maskDefault 2048) = 0x4B0 ∧
    hash 0x64636261 0x65 = 0x7A8850CD ∧ bucketOf 0x7A8850CD (maskHi 2048) = 0x0C0 ∧
    tableSize Config.htMaxDefault 513 = 4096 ∧ tableSize Config.htMaxHi 2097152 = 8388608 := by decide

-- 10_state.md R36, 70_reset_and_hazards.md R401: BOUND too starts every unit anew, whatever the one before left.
theorem test_bound_starts_every_unit :
    let s := started 5 [] 2000 77
    let t := after (step { s with
      bd := { s.bd with op := 9, cv := 9, csh := 9, st := 2 }, bw := { s.bw with op := 9, csh := 3, cbp := some 4 }
      mf := { s.mf with ip := 9, ipa := 9, pv := true, rndb := 1 } })
    ([t.bd.op, t.bd.ipe, t.bd.ope, t.bw.op, t.mf.ip, t.mf.ipa, t.mf.ipe, t.mf.mavg],
      [t.bd.cv, t.bd.csh, t.bd.st.toNat, t.bw.csh.toNat, t.mf.rndb.toNat, t.mf.htsize.toNat],
      t.bd.ipet.toInt, t.mf.ipet.toInt, t.bw.cbp, t.mf.pv) =
    ([0, 2000, 77, 0, 16, 0, 1994, 209715200], [0, 0, 0, 0, 0, 8192], 1994, 1985, none, false) := by decide

-- The same for a refused COMPRESS_HI, whose table would have 4 KiB for 513 bytes (R195), mask `0xFFF & ~63` (R197).
theorem test_compressHi_refused_starts_every_unit :
    let t := after (step (started 2 [] 513 0))
    (t.result, t.bw.mref, t.mf.htsize, t.mf.hmask, t.mf.ip, t.bd.ope) = (0, 5, 4096, 0xFC0, 16, 0) := by decide

/-- BW after `WRITE_BLK(0, 6, 300000, 0)`, SRC as in section 3.5 of 95_test_vectors.md. -/
def afterType3 : State :=
  { State.reset with
    src := mem 0 ((List.range 64).map fun i => BitVec.ofNat 8 (7 * i + 1))
    dst := mem 0 [0x26, 0x31, 0xF8, 0x24, 0x01]
    bw := { op := 5, mref := 6, csh := 3, cbp := some 4 } }

-- V-BW-21: `13 = 0b01101`: deposit 5, `q_lit = 1`, `P = 0`.
theorem test_writeBlk :
    (writeBlk afterType3 3 6 13 6).map (fun t => (bytesAt t.dst 0 11, t.bw)) =
      some ([0x26, 0x31, 0xF8, 0x24, 0xA1, 0x43, 0x2B, 0x32, 0x39, 0x11, 0x00],
        { op := 11, mref := 6, csh := 0, cbp := some 10 }) := by decide

/-! ### Searches -/

/-- The bytes of a word, the least significant first. -/
def wordBytesOf (w : Word) : List Byte :=
  [w.extractLsb' 0 8, w.extractLsb' 8 8, w.extractLsb' 16 8, w.extractLsb' 24 8]

/-- MF over `srcl` bytes with a table of 2 KiB. -/
def finderAt (ip ipa srcl : Nat) (mask : BitVec 24) : Finder :=
  { Finder.zero with
    ip := BitVec.ofNat 32 ip, ipa := BitVec.ofNat 32 ipa, ipe := BitVec.ofNat 32 (srcl - 6)
    ipet := BitVec.ofInt 33 (srcl - 15), htsize := 2048, hmask := mask, mavg := 209715200 }

/-- COMPRESS over `srcl` bytes `z`, at `ip` with the anchor at `ipa`; `bucket` is what the bucket of the
position holds, as words. -/
def searching (z : Byte) (ip ipa srcl op : Nat) (bucket : List Word) : State :=
  let w : Word := z ++ z ++ z ++ z
  { State.reset with
    status := 1, phase := .search, cap := 200
    src := mem 0 (copies srcl z)
    dst := mem 0 [0x26]
    ht := mem (bucketOf (hash w ((z ++ z : BitVec 16).setWidth 32)) (maskDefault 2048)) (bucket.flatMap wordBytesOf)
    bw := { op := BitVec.ofNat 32 op, mref := 6, csh := 0, cbp := none }
    mf := finderAt ip ipa srcl (maskDefault 2048) }

/-- The same for COMPRESS_HI. -/
def searchingHi (z : Byte) (ip ipa srcl op : Nat) (bucket : List Word) : State :=
  let w : Word := z ++ z ++ z ++ z
  { State.reset with
    status := 1, phase := .searchHi, cap := 200
    src := mem 0 (copies srcl z)
    dst := mem 0 [0x25]
    ht := mem (bucketOf (hash w (z.setWidth 32)) (maskHi 2048)) (bucket.flatMap wordBytesOf)
    bw := { op := BitVec.ofNat 32 op, mref := 5, csh := 0, cbp := none }
    mf := finderAt ip ipa srcl (maskHi 2048) }

/-- Seven tuples `(0, 16)`, word 14 and the head. -/
def bucketHi : List Word := [0, 16, 0, 16, 0, 16, 0, 16, 0, 16, 0, 16, 0, 16, 0, 0]

-- V-MF-2, `ip = 24`: `WRITE_BLK(24, 8, 8, 0)`; tuple 1 takes the position; `mavg` as listed there.
theorem test_compress_pass :
    let t := after (step (searching 0 24 0 64 1 [0, 16, 0, 16]))
    (t.mf.ip, t.mf.ipa, t.mf.mavg, bytesAt t.dst 25 4, t.ht.htWord 0x1E0 1) =
      (32, 32, 209526784, [0, 0, 0x93, 0x00], 24) := by decide

-- V-MF-5, `ip = 25` with `(8, 8, 24)` pending: the current one wins, `WRITE_BLK(25, 9, 9, 0)`.
theorem test_compressHi_pass :
    let s := searchingHi 0 25 0 64 1 bucketHi
    let t := after (step (s.setMf { s.mf with pv := true, prc := 8, pd := 8, pip := 24 }))
    (t.mf.ip, t.mf.ipa, t.mf.pv, bytesAt t.dst 1 2, bytesAt t.dst 28 2) =
      (34, 34, false, [0x40, 0x09], [0x95, 0x00]) := by decide

/-! ### States and operands that meet the hypotheses of the statements -/

theorem witness_DecodeEncodeAgree :
    (Instr.litl 3 4 268435455).wellFormed = true ∧
    encode (.litl 3 4 268435455) = .block [0xC0, 0xFF, 0xFF, 0xFF, 0x7F] := by decide

theorem witness_EncodeDecodeAgree_varint :
    let bs : List Byte := [0x00, 0x80, 0x80, 0x80, 0x7F, 0x00]
    6 ≤ bs.length ∧ decode (.block bs) = .ok (.litl 0 4 266338304) ∧ (bs.getD 4 0).toNat < 128 := by decide

theorem witness_EncodeDecodeAgree_other :
    let bs : List Byte := [0x30, 0, 0, 0, 0xFF, 0xFF]
    6 ≤ bs.length ∧ decode (.block bs) = .ok (.ref3x 0 0 255) ∧ ∀ q v, Instr.ref3x 0 0 255 ≠ .litl q 4 v :=
  ⟨by decide, by decide, fun _ _ h => by cases h⟩

theorem witness_EveryHeaderByteSelectsItsRow : 6 ≤ ([0xFF, 0, 0, 0, 0, 0] : List Byte).length := by decide

theorem witness_CommandCodesSelectCommands :
    (1 : Word).toNat % 8 = 1 ∧ (0xFFFFFFFA : Word).toNat % 8 = 2 ∧ (3 : Word).toNat % 8 = 3 ∧
    (12 : Word).toNat % 8 = 4 ∧ (5 : Word).toNat % 8 = 5 ∧ (0xFFFFFFFE : Word).toNat % 8 = 6 ∧
    (0 : Word).toNat % 8 = 0 ∧ (0xFFFFFFFF : Word).toNat % 8 = 7 := by decide

theorem witness_VarintIsShortestAndReadsBack : 268435455 < 2 ^ 28 := by decide

theorem witness_OffsetSplitRejoins : 8388607 < 2 ^ 23 := by decide

theorem witness_WrittenReferenceDecodesBack :
    8388607 < 2 ^ 23 ∧ 1 ≤ 525 ∧ 525 ≤ 525 ∧ afterType3.bw.op.toNat + 6 < 2 ^ 32 := by decide

theorem witness_WrittenLiteralHeadDecodesBack :
    3 < 4 ∧ 1 ≤ 268435471 ∧ literalHead 3 268435471 = some [0xC0, 0xFF, 0xFF, 0xFF, 0x7F] := by decide

theorem witness_StepRunsDecodedInstruction_command :
    (started 5 [] 13 0).phase = .start ∧ decode (.command (started 5 [] 13 0).cmd) = .ok .bound ∧
    (started 5 [] 13 0).hostScript = [] := by decide

theorem witness_StepRunsDecodedInstruction_prefix :
    let s := { decoding [0x26] [] 0 0 0 0 with phase := .header .full, hostScript := [.engineTurn] }
    s.phase = .header .full ∧ decode (.header (s.src.read 0)) = .ok (.streamPrefix 6) ∧
    s.hostScript = .engineTurn :: [] := by decide

theorem witness_StepRunsDecodedInstruction_block :
    let s := atBlock [0xB3, 0x00, 0x00, 0xA0, 0x11, 0x00] 28
    s.phase = .blocks .full ∧ (s.bd.ip.toNat : Int) < s.bd.ipet.toInt ∧
    decode (.block (headWindow s.src s.bd.ip.toNat)) = .ok (.ref3s 2 0xA00000 3) ∧ s.hostScript = [] := by
  decide

/-- DECOMPRESS at the prefix of a stream of one byte. -/
def atPrefix (b : Byte) : State := { decoding [b] [] 0 0 0 4 with phase := .header .full }

theorem witness_PrefixStep :
    (atPrefix 0x16).phase = .header .full ∧ (atPrefix 0x16).spoiled = false ∧ (atPrefix 0x16).hostScript = [] ∧
    ((atPrefix 0x16).src.read 0).toNat / 16 ≠ 2 ∧
    (atPrefix 0x20).phase = .header .full ∧ (atPrefix 0x20).spoiled = false ∧ (atPrefix 0x20).hostScript = [] ∧
    ((atPrefix 0x20).src.read 0).toNat / 16 = 2 := by decide

theorem witness_DecodingCommandsStart :
    let s := started 3 [0x26] 1 2147483647
    1 ≤ s.srcl.toNat ∧ s.srcl.toNat ≤ 2147483647 ∧ s.dstl.toNat ≤ 2147483647 := by decide

theorem witness_DecodingArgumentsChecked :
    let s := started 3 [] 2147483648 0
    let t := started 4 [] 0 1
    let u := started 3 [] 0 0
    s.spoiled = false ∧ 2147483647 < s.srcl.toNat ∧
    t.spoiled = false ∧ t.srcl = 0 ∧ t.dstl ≠ 0 ∧
    u.spoiled = false ∧ u.srcl = 0 ∧ u.dstl = 0 := by decide

-- A literal block of the shortest and one of the 16 bytes of a `LITL`, each ending both stream and output.
theorem witness_LiteralBlocksComplete :
    let s := decoding ([0x26, 0x0D] ++ hello) [] 1 0 0 13
    let t := decoding ([0x26, 0x00, 0x00] ++ copies 16 0x61) [] 1 0 0 16
    s.bd.ip.toNat + 1 + (13 : BitVec 4).toNat ≤ s.bd.ipe.toNat ∧
    s.bd.op.toNat + (13 : BitVec 4).toNat ≤ s.bd.ope.toNat ∧
    t.bd.ip.toNat + (1 + 1) + (16 + (0 : BitVec 28).toNat) ≤ t.bd.ipe.toNat ∧
    t.bd.op.toNat + (16 + (0 : BitVec 28).toNat) ≤ t.bd.ope.toNat := by decide

-- V-F-2 runs past the stream by one byte, V-F-3 past the output by one byte.
theorem witness_LiteralBlocksFault :
    let s := decoding ([0x26, 0x0D] ++ hello.take 12) [] 1 0 0 13
    let t := decoding ([0x26, 0x0D] ++ hello) [] 1 0 0 12
    s.phase = .blocks .full ∧ s.spoiled = false ∧ s.bd.ip.toNat + 1 ≤ s.bd.ipe.toNat ∧
    s.bd.op.toNat ≤ s.bd.ope.toNat ∧ s.bd.ipe.toNat < s.bd.ip.toNat + 1 + (13 : BitVec 4).toNat ∧
    t.phase = .blocks .full ∧ t.spoiled = false ∧ t.bd.ip.toNat + 1 ≤ t.bd.ipe.toNat ∧
    t.bd.op.toNat ≤ t.bd.ope.toNat ∧ t.bd.ip.toNat + 1 + (13 : BitVec 4).toNat ≤ t.bd.ipe.toNat ∧
    t.bd.ope.toNat < t.bd.op.toNat + (13 : BitVec 4).toNat := by decide

-- `d = op`, and the copy ends at `ope`; also with `mref1 = -1` and no byte at all.
theorem witness_ReferenceBlocksComplete :
    let s := atBlock [0x91, 0x00] 14
    let t := s.setBd { s.bd with mref1 := -1 }
    offsetOf s 2 0 = s.bd.op.toNat ∧ -1 ≤ s.bd.mref1.toInt ∧
    s.bd.op.toNat + ((1 : BitVec 4).toNat + s.bd.mref1.toInt).toNat = s.bd.ope.toNat ∧
    -1 ≤ t.bd.mref1.toInt ∧ offsetOf t 2 0 ≤ t.bd.op.toNat ∧
    t.bd.op.toNat + ((1 : BitVec 4).toNat + t.bd.mref1.toInt).toNat ≤ t.bd.ope.toNat := by decide

-- `d = op + 1` reaches before the output; a copy one byte too long.
theorem witness_ReferenceBlocksFault :
    let s := decoding ([0x26, 0x08] ++ abcdefgh ++ [0x91, 0x00, 0x06] ++ digits) abcdefgh 10 1 2 14
    let t := atBlock [0x91, 0x00] 13
    s.phase = .blocks .full ∧ s.spoiled = false ∧ -1 ≤ s.bd.mref1.toInt ∧ s.bd.op.toNat ≤ s.bd.ope.toNat ∧
    s.bd.op.toNat < offsetOf s 2 0 ∧
    t.phase = .blocks .full ∧ t.spoiled = false ∧ -1 ≤ t.bd.mref1.toInt ∧ t.bd.op.toNat ≤ t.bd.ope.toNat ∧
    offsetOf t 2 0 ≤ t.bd.op.toNat ∧
    t.bd.ope.toNat < t.bd.op.toNat + ((1 : BitVec 4).toNat + t.bd.mref1.toInt).toNat := by decide

theorem witness_OverlappingCopyRunFills : 1 ≤ 1 ∧ 1 ≤ 1 := by decide

/-- The engine's step always answers a next state. -/
theorem step_after (s : State) (h : s.hostScript = []) : step s = .next (after (step s)) := by
  unfold step
  rw [h]
  simp only [engineStep]
  cases fetch s with
  | instr i =>
    cases i <;> first
      | rfl
      | (simp only [exec, execCompress, execCompressHi]; split; rfl; split <;> rfl)
  | badFormat => rfl
  | streamEnd => rfl
  | pass => rfl
  | passEnd => rfl
  | passHi => rfl
  | passHiEnd => rfl
  | nothing => rfl

theorem atBlock_ok : (atBlock [0x91, 0x00] 20).decoderOk :=
  ⟨⟨by decide, by decide, by decide, by decide, by decide⟩,
    by decide, by decide, by decide, by decide⟩

theorem witness_BlocksAdvanceByTheirLength :
    let s := atBlock [0x91, 0x00] 20
    undisturbed s ∧ s.decoderOk ∧ s.phase = .blocks .full ∧ (s.bd.ip.toNat : Int) < s.bd.ipet.toInt ∧
    decode (.block (headWindow s.src s.bd.ip.toNat)) = .ok (.ref1s 2 0 1) ∧
    step s = .next (after (step s)) ∧ (after (step s)).phase = .blocks .full :=
  ⟨rfl, atBlock_ok, rfl, by decide, by decide, step_after _ rfl, by decide⟩

theorem witness_StreamEndReports :
    let s := decoding ([0x26, 0x0D] ++ hello) hello 15 0 2 13
    let t := decoding ([0x26, 0x0D] ++ hello) hello 9 0 2 14
    s.hostScript = [] ∧ s.phase = .blocks .full ∧ s.spoiled = false ∧ s.bd.ipet.toInt ≤ s.bd.ip.toNat ∧
    s.bd.op = s.bd.ope ∧
    t.hostScript = [] ∧ t.phase = .blocks .full ∧ t.spoiled = false ∧ t.bd.ipet.toInt ≤ t.bd.ip.toNat ∧
    t.bd.op ≠ t.bd.ope := by decide

theorem atPrefix_ok : (atPrefix 0x26).decoderOk :=
  ⟨⟨by decide, by decide, by decide, by decide, by decide⟩,
    by decide, by decide, by decide⟩

theorem witness_DecoderBoundsKept :
    (atBlock [0x91, 0x00] 20).decoderOk ∧
    step (atBlock [0x91, 0x00] 20) = .next (after (step (atBlock [0x91, 0x00] 20))) ∧
    (atPrefix 0x26).decoderOk ∧ step (atPrefix 0x26) = .next (after (step (atPrefix 0x26))) :=
  ⟨atBlock_ok, step_after _ rfl, atPrefix_ok, step_after _ rfl⟩

theorem witness_DecodingEnds :
    undisturbed (atBlock [0x91, 0x00] 20) ∧ (atBlock [0x91, 0x00] 20).decoderOk ∧
    (atBlock [0x91, 0x00] 20).phase = .blocks .full ∧
    undisturbed (atPrefix 0x26) ∧ (atPrefix 0x26).decoderOk ∧ (atPrefix 0x26).phase = .header .full :=
  ⟨rfl, atBlock_ok, rfl, rfl, atPrefix_ok, rfl⟩

/-- The machine after reset with one access of the host to come. -/
def hostDoes (h : HostAccess) : State := { State.reset with hostScript := [h] }

theorem witness_CommandWriteStarts :
    (hostDoes (.writeReg 0 0xFFFFFFFE)).hostScript = .writeReg 0 0xFFFFFFFE :: [] ∧
    (hostDoes (.writeReg 0 0xFFFFFFFE)).status.getLsbD 0 = false ∧
    1 ≤ (0xFFFFFFFE : Word).toNat % 8 ∧ (0xFFFFFFFE : Word).toNat % 8 ≤ 6 ∧
    (hostDoes (.writeReg 0 7)).hostScript = .writeReg 0 7 :: [] ∧ (7 : Word).toNat % 8 = 7 ∧
    (hostDoes (.writeReg 0 8)).hostScript = .writeReg 0 8 :: [] ∧ (8 : Word).toNat % 8 = 0 ∧
    { started 3 [] 0 0 with hostScript := [.writeReg 0 1] }.status.getLsbD 0 = true := by decide

-- Reading CMD draws a new free value at each read; reading DST while BUSY spoils the command (R22, R412).
theorem test_host_reads :
    let s := after (step (hostDoes (.readReg 0)))
    let t := after (step { started 3 [] 1 1 with hostScript := [.readDst 0] })
    (s.draws, (after (step { s with hostScript := [.readReg 0] })).draws, t.spoiled,
      (after (step { State.reset with srcl := 7, hostScript := [.readReg 1] })).readValue) = (4, 5, true, 7) := by
  decide

theorem witness_HostAccessesLand :
    (hostDoes (.writeReg 3 9)).hostScript = .writeReg 3 9 :: [] ∧ 3 ≤ (3 : BitVec 3).toNat ∧
    (5 : BitVec 3).toNat ≤ 5 ∧ 6 ≤ (6 : BitVec 3).toNat ∧
    (hostDoes (.readReg 0)).hostScript = .readReg 0 :: [] ∧
    (hostDoes (.readReg 7)).hostScript = .readReg 7 :: [] ∧
    (hostDoes (.readDst 2147483646)).status.getLsbD 0 = false ∧
    (hostDoes (.readDst 2147483646)).hostScript = .readDst 2147483646 :: [] ∧
    { started 3 [] 0 0 with hostScript := [.readDst 0] }.status.getLsbD 0 = true ∧
    (hostDoes (.writeDst 2147483647 9)).hostScript = .writeDst 2147483647 9 :: [] ∧
    (hostDoes (.writeReg 1 9)).status.getLsbD 0 = false ∧
    (hostDoes (.writeReg 1 9)).hostScript = .writeReg 1 9 :: [] ∧
    (hostDoes (.writeReg 2 9)).hostScript = .writeReg 2 9 :: [] ∧
    (hostDoes (.writeSrc 2147483646 9)).hostScript = .writeSrc 2147483646 9 :: [] ∧
    (hostDoes (.writeDst 2147483646 9)).hostScript = .writeDst 2147483646 9 :: [] ∧
    2147483646 < 2147483647 := by decide

theorem witness_ResetLeavesAnIdleEngine :
    undisturbed State.reset ∧ State.reset.phase = .idle ∧
    { atPrefix 0x26 with hostScript := [.externalReset, .engineTurn] }.hostScript = .externalReset :: [.engineTurn] :=
  ⟨rfl, rfl, rfl⟩

theorem witness_BoundsAreComputed : (started 5 [] 0xFFFFFFFF 0).spoiled = false := rfl

theorem witness_CompressionRefusesBadArguments :
    (started 1 [] 2147483648 0).spoiled = false ∧ 2147483647 < (started 1 [] 2147483648 0).srcl.toNat ∧
    2147483647 < (started 1 [] 1 2147483648).dstl.toNat ∧ (started 1 [] 0 100).srcl = 0 ∧
    ((started 1 [] 13 30).dstl.toNat : Int) < boundFormula 144 150 6 (started 1 [] 13 30).srcl.toNat ∧
    ((started 2 [] 21 37).dstl.toNat : Int) < boundFormula 16 21 5 (started 2 [] 21 37).srcl.toNat := by
  decide

theorem witness_ShortInputsGiveShortForm :
    let s := started 1 [0x61] 1 19
    let t := started 2 hello 15 33
    s.spoiled = false ∧ 1 ≤ s.srcl.toNat ∧ s.srcl.toNat < 16 ∧
    boundFormula 144 150 6 s.srcl.toNat ≤ s.dstl.toNat ∧ s.dstl.toNat ≤ 2147483647 ∧
    t.spoiled = false ∧ 1 ≤ t.srcl.toNat ∧ t.srcl.toNat < 16 ∧
    boundFormula 16 21 5 t.srcl.toNat ≤ t.dstl.toNat ∧ t.dstl.toNat ≤ 2147483647 := by decide

-- 31 bytes: the loop will not run; 32 bytes: it will.
theorem witness_CompressionStartsItsSearch :
    let s := started 1 (copies 32 0) 32 50
    let t := started 2 (copies 32 0) 31 50
    16 ≤ s.srcl.toNat ∧ s.srcl.toNat ≤ 2147483647 ∧ boundFormula 144 150 6 s.srcl.toNat ≤ s.dstl.toNat ∧
    s.dstl.toNat ≤ 2147483647 ∧ 32 ≤ s.srcl.toNat ∧
    16 ≤ t.srcl.toNat ∧ t.srcl.toNat ≤ 2147483647 ∧ boundFormula 16 21 5 t.srcl.toNat ≤ t.dstl.toNat ∧
    t.dstl.toNat ≤ 2147483647 ∧ t.srcl.toNat < 32 := by decide

/-- The end of a search over `srcl` bytes, of which those before the anchor are coded; the candidate `(5, 8, pip)` is
pending or not. -/
def searchOver (ph : Phase) (ipa srcl : Nat) (pv : Bool) (pip : Nat) : State :=
  { State.reset with
    status := 1, phase := ph, cap := 300000000, bw := { op := 1, mref := 5, csh := 0, cbp := none }
    mf := { finderAt (srcl - 15) ipa srcl 0 with pv := pv, prc := 5, pd := 8, pip := BitVec.ofNat 32 pip } }

-- A last run that can just be coded, and one that is too long, in each phase; after a pending candidate too; a
-- pending candidate that cannot be coded itself.
theorem witness_SearchEndsWithTheTerminalBlock :
    let s := searchOver .search 16 268435487 false 0
    let t := searchOver .searchHi 15 268435487 false 0
    let u := searchOver .searchHi 0 268435497 true 21
    let v := searchOver .searchHi 0 268435498 true 21
    let w := searchOver .searchHi 0 268435497 true 268435472
    s.hostScript = [] ∧ s.spoiled = false ∧ s.mf.ipet.toInt ≤ s.mf.ip.toNat ∧ s.phase = .search ∧
    s.mf.ipe.toNat - s.mf.ipa.toNat + 6 < 16 + 2 ^ 28 ∧
    t.hostScript = [] ∧ t.spoiled = false ∧ t.mf.ipet.toInt ≤ t.mf.ip.toNat ∧ t.phase = .searchHi ∧
    t.mf.pv = false ∧ 16 + 2 ^ 28 ≤ t.mf.ipe.toNat - t.mf.ipa.toNat + 6 ∧
    u.hostScript = [] ∧ u.spoiled = false ∧ u.mf.ipet.toInt ≤ u.mf.ip.toNat ∧ u.phase = .searchHi ∧
    u.mf.pv = true ∧ u.mf.pip.toNat + u.mf.prc.toNat < 2 ^ 32 ∧
    u.mf.pip.toNat - u.mf.ipa.toNat < 16 + 2 ^ 28 ∧
    u.mf.ipe.toNat - (u.mf.pip.toNat + u.mf.prc.toNat) + 6 < 16 + 2 ^ 28 ∧
    16 + 2 ^ 28 ≤ v.mf.ipe.toNat - (v.mf.pip.toNat + v.mf.prc.toNat) + 6 ∧
    w.mf.ipet.toInt ≤ w.mf.ip.toNat ∧ w.mf.pv = true ∧ 16 + 2 ^ 28 ≤ w.mf.pip.toNat - w.mf.ipa.toNat ∧
    w.mf.pip.toNat + w.mf.prc.toNat < 2 ^ 32 := by decide

/-- Where a literal run can be coded, `WRITE_BLK` writes it (41_block_writer.md R162). -/
theorem witness_SearchEndsWithTheTerminalBlock_blocks :
    (writeBlk (searchOver .searchHi 0 268435497 true 21) 21 5 8 0).isSome = true ∧
    writeBlk (searchOver .searchHi 0 268435497 true 268435472) 268435472 5 8 0 = none :=
  ⟨by decide, (writeBlk_eq_none _ _ _ _ _).2 (by decide)⟩

theorem witness_WriteBlkEmitsItsBlocks :
    afterType3.bw.mref.toNat ≤ 6 ∧ 530 ≤ 524 + afterType3.bw.mref.toNat ∧ 8388607 < 2 ^ 23 ∧
    afterType3.bw.csh = 3 ∧ afterType3.bw.cbp = some 4 ∧ (4 : Word).toNat < afterType3.bw.op.toNat ∧
    afterType3.bw.op.toNat + (16 + 2 ^ 28) + 11 < 2 ^ 32 ∧ afterType3.bw.op.toNat + 3 + 11 < 2 ^ 32 := by
  decide

theorem witness_FinalizeWritesTheTerminalBlock :
    6 ≤ 6 ∧ afterType3.bw.op.toNat + (16 + 2 ^ 28) + 5 < 2 ^ 32 ∧ 6 < 16 + 2 ^ 28 := by decide

theorem witness_ScannersAreExact : 8 ≤ 8 ∧ 8 ≤ 17 := by decide

theorem witness_BucketsAreAlignedInTheTable : 11 ≤ 23 ∧ 23 ≤ 23 := by decide

theorem witness_InitialTablesHoldByteSixteen :
    State.reset.ht.wf = true ∧ 2032 % 16 = 0 ∧ 2032 + 16 ≤ 2048 ∧ 1984 % 64 = 0 ∧ 1984 + 64 ≤ 2048 := by
  decide

theorem witness_DefaultDictionaryUpdates : 273 < 274 ∧ 273 ≤ 273 := by decide

-- V-HT-7, V-HT-8.
theorem witness_HiDictionaryUpdate :
    0 < 7 ∧ ((mem 0 (bucketHi.flatMap wordBytesOf)).htWord 0 15).toNat = 2 * 0 ∧
    1 < 7 ∧ (((mem 0 (bucketHi.flatMap wordBytesOf)).setHtWord 0 15 2).htWord 0 15).toNat = 2 * 1 := by decide

-- V-HT-6: tuple 2 is tried although tuple 1's key matched.
theorem witness_ProbeFindsTheFirstMatch :
    let ht := mem 0 (([7, 100, 7, 200] : List Word).flatMap wordBytesOf)
    let src := (mem 104 [1, 2]).writeBytes 204 [3, 4]
    (ht.htWord 0 0 = 7 ∧ src.readLE ((ht.htWord 0 1).toNat + 4) 2 = (0x0201 : BitVec 16).toNat) ∧
    ¬ (ht.htWord 0 0 = 7 ∧ src.readLE ((ht.htWord 0 1).toNat + 4) 2 = (0x0403 : BitVec 16).toNat) ∧
    (ht.htWord 0 2 = 7 ∧ src.readLE ((ht.htWord 0 3).toNat + 4) 2 = (0x0403 : BitVec 16).toNat) ∧
    ¬ (ht.htWord 0 0 = 8) ∧ ¬ (ht.htWord 0 2 = 8) := by decide

theorem witness_RunningAverageUpdates :
    0 ≤ (1111490560 : Word).toInt ∧ (1111490560 : Word).toInt ≤ 530 * 2 ^ 21 ∧ 530 ≤ 530 ∧
    0 ≤ (0 : Word).toInt := by decide

-- Each threshold of the dither, at and below it.
theorem witness_MissAdvanceDithers :
    0 ≤ (3276799 : Word).toInt ∧ (3276799 : Word).toInt < 200 * 2 ^ 14 ∧ 130 * 2 ^ 14 ≤ (2129920 : Word).toInt ∧
    (2129919 : Word).toInt < 130 * 2 ^ 14 ∧ 100 * 2 ^ 14 ≤ (1638400 : Word).toInt ∧
    (1638399 : Word).toInt < 100 * 2 ^ 14 ∧ 200 * 2 ^ 14 ≤ (3276800 : Word).toInt ∧ 17 ≠ 16 := by decide

theorem witness_DefaultPassWithoutMatch :
    let s := searching 0 24 0 64 1 [1, 16, 2, 16]
    let t := searching 0 23 0 64 1 [1, 16, 0, 16]
    s.hostScript = [] ∧ s.phase = .search ∧ (s.mf.ip.toNat : Int) < s.mf.ipet.toInt ∧
    s.mf.ip.toNat + 103 < 2 ^ 32 ∧ 0 ≤ s.mf.mavg.toInt ∧ hitAt s = none ∧
    t.hostScript = [] ∧ t.phase = .search ∧ (t.mf.ip.toNat : Int) < t.mf.ipet.toInt ∧
    t.mf.ip.toNat + 103 < 2 ^ 32 ∧ 0 ≤ t.mf.mavg.toInt ∧ hitAt t = some (.two, 16) ∧
    (16 : Word).toNat ≤ t.mf.ip.toNat ∧ t.mf.ip.toNat - (16 : Word).toNat < 8 := by decide

/-- A hit exactly `WIN_LEN` back: eight zeros at 16 and eight at `8388608 + 16`. -/
def farHit : State :=
  let s := searching 0 24 0 64 1 [0, 16, 0, 16]
  { s with
    src := s.src.writeBytes 8388624 (copies 8 0)
    mf := { s.mf with ip := 8388624, ipe := 8388700, ipet := 8388691 } }

theorem witness_DefaultPassWithoutMatch_far :
    farHit.hostScript = [] ∧ farHit.phase = .search ∧ (farHit.mf.ip.toNat : Int) < farHit.mf.ipet.toInt ∧
    farHit.mf.ip.toNat + 103 < 2 ^ 32 ∧ 0 ≤ farHit.mf.mavg.toInt ∧ hitAt farHit = some (.one, 16) ∧
    8388608 ≤ farHit.mf.ip.toNat - (16 : Word).toNat := by decide

/-! #### The dictionary invariants, on a whole table -/

/-- V-MF-2 at `ip = 24`, with the whole table as it was initialised. -/
def searchingWhole : State :=
  let s := searching 0 24 0 64 1 []
  { s with ht := initTable2 State.reset.ht s.src 2048 }

theorem searchingWhole_htWord (b i : Nat) (hb : b % 16 = 0) (hlt : b < 2048) (hi : i < 4) :
    searchingWhole.ht.htWord b i = if i % 2 = 0 then 0 else 16 := by
  have h := initTable2_htWord (ht := State.reset.ht) (searching 0 24 0 64 1 []).src 2048 b i (by decide)
    (by omega) (by omega)
  rw [show (b / 4 + i) % 2 = i % 2 by omega] at h
  refine h.trans ?_
  congr 1

theorem searchingWhole_searchOk : searchingWhole.searchOk :=
  ⟨⟨by decide, by decide, by decide, by decide, by decide,
      by decide, by decide, by decide, .inl rfl, fun h => absurd h (by decide),
      by decide⟩,
    by decide, by decide, by decide, by decide, by decide⟩

theorem searchingWhole_tuple (b k : Nat) (hb : b % 16 = 0) (hlt : b < 2048) (hk : k = 0 ∨ k = 2) :
    TupleOk searchingWhole b k := by
  have h0 := searchingWhole_htWord b k hb hlt (by omega)
  have h1 := searchingWhole_htWord b (k + 1) hb hlt (by omega)
  rw [if_pos (by omega)] at h0
  rw [if_neg (by omega)] at h1
  refine ⟨?_, ?_, ?_, ?_⟩
  · rw [h1]; decide
  · rw [h1]; decide
  · rw [h1]; decide
  · rw [h0, h1]; decide

theorem searchingWhole_dictionaryOk : searchingWhole.dictionaryOk := fun _ _ =>
  ⟨by decide, by decide, fun b hb hlt =>
    have hlt : b < 2048 := Nat.lt_of_lt_of_eq hlt (by decide)
    ⟨searchingWhole_tuple b 0 hb hlt (.inl rfl), searchingWhole_tuple b 2 hb hlt (.inr rfl)⟩⟩

theorem searchingWhole_memWf : searchingWhole.memWf :=
  ⟨by decide, by decide, initTable2_wf _ _ (by decide)⟩

theorem searchingWhole_hit : hitAt searchingWhole = some (.one, 16) := by
  have hb : bucketAt searchingWhole = 0x1E0 := by decide
  have h0 := searchingWhole_htWord 0x1E0 0 (by decide) (by decide) (by decide)
  have h1 := searchingWhole_htWord 0x1E0 1 (by decide) (by decide) (by decide)
  rw [if_pos (by decide)] at h0
  rw [if_neg (by decide)] at h1
  unfold hitAt probe2 tupleMatches
  rw [hb]
  simp only [Slot.keyWord, h0, h1]
  rw [if_pos (by decide)]

theorem witness_EmittedMatchesAreReal :
    undisturbed searchingWhole ∧ searchingWhole.phase = .search ∧ searchingWhole.searchOk ∧
    searchingWhole.dictionaryOk ∧ (searchingWhole.mf.ip.toNat : Int) < searchingWhole.mf.ipet.toInt ∧
    hitAt searchingWhole = some (.one, 16) ∧ 8 ≤ searchingWhole.mf.ip.toNat - (16 : Word).toNat ∧
    searchingWhole.mf.ip.toNat - (16 : Word).toNat < 8388608 :=
  ⟨rfl, rfl, searchingWhole_searchOk, searchingWhole_dictionaryOk, by decide, searchingWhole_hit,
    by decide, by decide⟩

/-- A search of mode DEFAULT that has emitted nothing in 268435500 bytes, every tuple 8 bytes back, zeros around. -/
def searchingLong : State :=
  { State.reset with
    status := 1, phase := .search, cap := 300000000
    src := mem 268435492 (copies 24 0)
    ht := State.reset.ht.fill 0 1048576 fun a => wordByte (if a / 4 % 2 = 0 then 0 else 268435492) a
    bw := { op := 1, mref := 6, csh := 0, cbp := none }
    mf := { finderAt 268435500 0 268435600 (maskDefault 1048576) with htsize := 1048576 } }

theorem searchingLong_htWord (b i : Nat) (hb : b % 16 = 0) (hlt : b < 1048576) (hi : i < 4) :
    searchingLong.ht.htWord b i = if i % 2 = 0 then 0 else 268435492 := by
  have h := Memory.htWord_fill (ht := State.reset.ht) 1048576 b i (fun k => if k % 2 = 0 then 0 else 268435492)
    (by decide) (by omega) (by omega)
  rw [show (b / 4 + i) % 2 = i % 2 by omega] at h
  exact h

theorem searchingLong_searchOk : searchingLong.searchOk :=
  ⟨⟨by decide, by decide, by decide, by decide, by decide,
      by decide, by decide, by decide, .inl rfl, fun h => absurd h (by decide),
      by decide⟩,
    by decide, by decide, by decide, by decide, by decide⟩

theorem searchingLong_tuple (b k : Nat) (hb : b % 16 = 0) (hlt : b < 1048576) (hk : k = 0 ∨ k = 2) :
    TupleOk searchingLong b k := by
  have h0 := searchingLong_htWord b k hb hlt (by omega)
  have h1 := searchingLong_htWord b (k + 1) hb hlt (by omega)
  rw [if_pos (by omega)] at h0
  rw [if_neg (by omega)] at h1
  refine ⟨?_, ?_, ?_, ?_⟩
  · rw [h1]; decide
  · rw [h1]; decide
  · rw [h1]; decide
  · rw [h0, h1]; decide

theorem searchingLong_htsize : searchingLong.mf.htsize.toNat = 1048576 := by decide

theorem searchingLong_dictionaryOk : searchingLong.dictionaryOk := by
  intro _ _
  refine ⟨by decide, by decide, fun b hb hlt => ?_⟩
  rw [searchingLong_htsize] at hlt
  exact ⟨searchingLong_tuple b 0 hb hlt (.inl rfl), searchingLong_tuple b 2 hb hlt (.inr rfl)⟩

theorem searchingLong_hit : hitAt searchingLong = some (.one, 268435492) := by
  have hb : bucketAt searchingLong % 16 = 0 ∧ bucketAt searchingLong < 1048576 := by decide
  have h0 : searchingLong.ht.htWord (bucketAt searchingLong) 0 = 0 :=
    (searchingLong_htWord _ 0 hb.1 hb.2 (by decide)).trans (if_pos (by decide))
  have h1 : searchingLong.ht.htWord (bucketAt searchingLong) 1 = 268435492 :=
    (searchingLong_htWord _ 1 hb.1 hb.2 (by decide)).trans (if_neg (by decide))
  have hm : ∀ w i, w = 0 → i = 0 → tupleMatches searchingLong.ht searchingLong.src (bucketAt searchingLong) .one w i =
      true := by
    rintro _ _ rfl rfl
    unfold tupleMatches
    rw [show Slot.one.keyWord = 0 from rfl, show 0 + 1 = 1 from rfl, h0, h1]
    decide
  unfold hitAt probe2
  rw [if_pos (hm _ _ (by decide) (by decide)), h1]

-- The match `(8, 8)` after 268435500 literals: no block can carry them (41_block_writer.md R162).
theorem witness_EmittedMatchesAreReal_fault :
    undisturbed searchingLong ∧ searchingLong.phase = .search ∧ searchingLong.searchOk ∧
    searchingLong.dictionaryOk ∧ (searchingLong.mf.ip.toNat : Int) < searchingLong.mf.ipet.toInt ∧
    hitAt searchingLong = some (.one, 268435492) ∧
    8 ≤ searchingLong.mf.ip.toNat - (268435492 : Word).toNat ∧ searchingLong.spoiled = false ∧
    writeBlk searchingLong 268435500 8 8 0 = none :=
  ⟨rfl, rfl, searchingLong_searchOk, searchingLong_dictionaryOk, by decide, searchingLong_hit,
    by decide, rfl, (writeBlk_eq_none _ _ _ _ _).2 (by decide)⟩

theorem witness_DefaultDictionaryKept :
    searchingWhole.engineNext = true ∧ searchingWhole.memWf ∧ searchingWhole.searchOk ∧
    searchingWhole.dictionaryOk ∧ step searchingWhole = .next (after (step searchingWhole)) :=
  ⟨rfl, searchingWhole_memWf, searchingWhole_searchOk, searchingWhole_dictionaryOk, step_after _ rfl⟩

theorem witness_StoresStayInsideDst :
    searchingWhole.engineNext = true ∧ searchingWhole.memWf ∧ searchingWhole.decoderOk ∧
    searchingWhole.searchOk ∧ step searchingWhole = .next (after (step searchingWhole)) ∧
    searchingWhole.capacity ≤ 200 :=
  ⟨rfl, searchingWhole_memWf, trivial, searchingWhole_searchOk, step_after _ rfl, by decide⟩

theorem witness_DefaultSearchEnds :
    undisturbed searchingWhole ∧ searchingWhole.phase = .search ∧ searchingWhole.searchOk :=
  ⟨rfl, rfl, searchingWhole_searchOk⟩

theorem witness_SpoilIsRememberedUntilTheEnd :
    let s := { decoding ([0x26, 0x0D] ++ hello) hello 15 0 2 13 with spoiled := true }
    s.engineNext = true ∧ s.spoiled = true ∧ s.phase ≠ .idle ∧ step s = .next (after (step s)) ∧
    (after (step s)).phase = .idle :=
  ⟨rfl, rfl, by decide, step_after _ rfl, by decide⟩

theorem witness_MemoriesStayCanonical :
    searchingWhole.memWf ∧ step searchingWhole = .next (after (step searchingWhole)) :=
  ⟨searchingWhole_memWf, step_after _ rfl⟩

theorem witness_StatusFitsThePhase :
    searchingWhole.statusOk ∧ step searchingWhole = .next (after (step searchingWhole)) ∧
    (hostDoes (.writeReg 0 3)).statusOk ∧
    step (hostDoes (.writeReg 0 3)) = .next (after (step (hostDoes (.writeReg 0 3)))) :=
  ⟨by simp [State.statusOk, searchingWhole, searching], step_after _ rfl,
    by simp [State.statusOk, hostDoes, State.reset, State.powerOn], rfl⟩

/-- V-MF-5 at `ip = 25` with `(8, 8, 24)` pending, after a block of type 11, with the whole table. -/
def searchingHiWhole : State :=
  let s := searchingHi 0 25 16 64 5 []
  { s with
    ht := initTable7 State.reset.ht s.src 2048
    bw := { s.bw with csh := 3, cbp := some 4 }
    mf := { s.mf with pv := true, prc := 8, pd := 8, pip := 24 } }

theorem searchingHiWhole_searchOk : searchingHiWhole.searchOk :=
  ⟨⟨by decide, by decide, by decide, by decide, by decide,
      by decide, by decide, by decide, .inr rfl,
      fun _ => ⟨4, rfl, by decide⟩, by decide⟩,
    by decide, by decide, by decide,
    fun _ => ⟨by decide, by decide, by decide, by decide, by decide,
      by decide⟩⟩

theorem searchingHiWhole_htWord (b i : Nat) (hb : b % 64 = 0) (hlt : b < 2048) (hi : i < 16) :
    searchingHiWhole.ht.htWord b i = if 14 ≤ i then 0 else if i % 2 = 0 then 0 else 16 := by
  have h := initTable7_htWord (ht := State.reset.ht) (searchingHi 0 25 16 64 5 []).src 2048 b i (by decide)
    (by omega) (by omega)
  rw [show (b / 4 + i) % 16 = i by omega, show (b / 4 + i) % 2 = i % 2 by omega] at h
  refine h.trans ?_
  congr 2

theorem searchingHiWhole_dictionaryHiOk : searchingHiWhole.dictionaryHiOk := fun _ _ =>
  ⟨by decide, by decide, fun b hb hlt => by
    have hlt : b < 2048 := Nat.lt_of_lt_of_eq hlt (by decide)
    refine ⟨⟨0, by decide, ?_⟩, fun j hj => ?_⟩
    · rw [searchingHiWhole_htWord b 15 hb hlt (by decide)]; rfl
    · have h0 := searchingHiWhole_htWord b (2 * j) hb hlt (by omega)
      have h1 := searchingHiWhole_htWord b (2 * j + 1) hb hlt (by omega)
      rw [if_neg (by omega), if_pos (by omega)] at h0
      rw [if_neg (by omega), if_neg (by omega)] at h1
      refine ⟨?_, ?_, ?_⟩
      · rw [h1]; decide
      · rw [h1]; decide
      · rw [h0, h1]; decide⟩

theorem witness_HiDictionaryKept :
    searchingHiWhole.engineNext = true ∧ searchingHiWhole.memWf ∧ searchingHiWhole.searchOk ∧
    searchingHiWhole.dictionaryHiOk ∧ step searchingHiWhole = .next (after (step searchingHiWhole)) :=
  ⟨rfl, ⟨by decide, by decide, initTable7_wf _ _ (by decide)⟩, searchingHiWhole_searchOk,
    searchingHiWhole_dictionaryHiOk, step_after _ rfl⟩

theorem witness_SearchBoundsKept :
    searchingWhole.searchOk ∧ step searchingWhole = .next (after (step searchingWhole)) ∧
    searchingHiWhole.searchOk ∧ step searchingHiWhole = .next (after (step searchingHiWhole)) :=
  ⟨searchingWhole_searchOk, step_after _ rfl, searchingHiWhole_searchOk, step_after _ rfl⟩

-- The candidate of V-MF-5 at `ip = 24`: `d = ml = rc = 8`; at `ip = 23` every tuple has the key and is too near.
theorem witness_HiProbeChoosesARealCandidate :
    let ht := mem 0 (bucketHi.flatMap wordBytesOf)
    let src := mem 0 (copies 64 0)
    24 + 9 < 34 ∧
    (∀ ti, ti ∈ visitOrder ht 0 → ht.htWord 0 ti = BitVec.ofNat 32 (src.readLE (ht.htWord 0 (ti + 1)).toNat 4)) ∧
    (probe7 ht src 0 24 34 (BitVec.ofNat 32 (src.readLE 24 4))).accepted =
      some { wp := 16, rc := 8, d := 8, ml := 8 } ∧
    (probe7 ht src 0 23 34 (BitVec.ofNat 32 (src.readLE 23 4))) = { keyed := true, best := none } := by decide

/-- SRC with `n` zeros from 16 on and from 262161 on, each run ended by another byte, and eight zeros before the
second run. -/
def farSrc (n : Nat) : Memory := (mem 16 (copies n 0 ++ [1])).writeBytes 262153 (copies (8 + n) 0 ++ [2])

-- 44_hi_ratio_match_finder.md R248: after a candidate of 8 bytes one 262145 back replaces it with 10 bytes, not
-- with 9.
theorem test_probe7_far :
    let ht := mem 0 (([0, 262153, 0, 16, 9, 16, 9, 16, 9, 16, 9, 16, 9, 16, 0, 0] : List Word).flatMap wordBytesOf)
    (probe7 ht (farSrc 9) 0 262161 262200 0).best = some { wp := 262153, rc := 8, d := 8, ml := 8 } ∧
    (probe7 ht (farSrc 10) 0 262161 262200 0).best = some { wp := 16, rc := 10, d := 262145, ml := 39 } := by
  decide

/-- V-MF-5 at `ip = 25`, the pending candidate as given. -/
def pendingHi (pv : Bool) (prc pip : Nat) : State :=
  let s := searchingHi 0 25 0 64 1 bucketHi
  { s with mf := { s.mf with pv := pv, prc := BitVec.ofNat 10 prc, pd := 20, pip := BitVec.ofNat 32 pip, ipo := 25 } }

-- Nothing pending; the pending one wins and overlaps; it wins and ends where the current one starts; it loses.
theorem witness_LazySelectionChooses :
    let wins := fun (s : State) (lc rc d : Nat) =>
      decide (rc * blockCost s.bw s.mf.pd.toNat (s.mf.pip.toNat - s.mf.ipa.toNat) < s.mf.prc.toNat * blockCost s.bw d lc)
    9 < 2 ^ 10 ∧ 9 < 2 ^ 23 ∧ 25 + 9 < 2 ^ 32 ∧ (pendingHi true 20 24).mf.ipo.toNat + 1 < 2 ^ 32 ∧
    24 + 20 < 2 ^ 32 ∧ (pendingHi false 0 0).mf.pv = false ∧
    (pendingHi true 20 24).mf.pv = true ∧ wins (pendingHi true 20 24) 25 9 9 = true ∧ 25 < 24 + 20 ∧
    (writeBlk (pendingHi true 20 24) 24 20 20 0).isSome = true ∧
    wins (pendingHi true 20 5) 25 9 9 = true ∧ 5 + 20 ≤ 25 ∧ (writeBlk (pendingHi true 20 5) 5 20 20 0).isSome = true ∧
    wins (pendingHi true 6 24) 25 9 9 = false ∧ (writeBlk (pendingHi true 6 24) 25 9 9 0).isSome = true := by
  decide

-- The same where no block can carry the literals (41_block_writer.md R162): the pending one wins and overlaps; it
-- wins and does not; it loses.
theorem witness_LazySelectionChooses_fault :
    let wins := fun (s : State) (lc rc d : Nat) =>
      decide (rc * blockCost s.bw s.mf.pd.toNat (s.mf.pip.toNat - s.mf.ipa.toNat) < s.mf.prc.toNat * blockCost s.bw d lc)
    wins (pendingHi true 20 268435472) 268435473 9 9 = true ∧ 268435473 < 268435472 + 20 ∧
    wins (pendingHi true 20 268435472) 268435492 9 9 = true ∧ 268435472 + 20 ≤ 268435492 ∧
    wins (pendingHi true 6 268435472) 268435478 9 9 = false ∧ 268435492 + 9 < 2 ^ 32 := by
  decide

theorem witness_LazySelectionChooses_fault_blocks :
    writeBlk (pendingHi true 20 268435472) 268435472 20 20 0 = none ∧
    writeBlk (pendingHi true 6 268435472) 268435478 9 9 0 = none :=
  ⟨(writeBlk_eq_none _ _ _ _ _).2 (by decide), (writeBlk_eq_none _ _ _ _ _).2 (by decide)⟩

/-! #### A pass of mode HI on a whole table -/

theorem searchingHiWhole_visitOrder (b : Nat) (hb : b % 64 = 0) (hlt : b < 2048) :
    visitOrder searchingHiWhole.ht b = [0, 2, 4, 6, 8, 10, 12] := by
  unfold visitOrder
  rw [searchingHiWhole_htWord b 15 hb hlt (by decide)]
  rfl

theorem searchingHiWhole_key (b ti : Nat) (hb : b % 64 = 0) (hlt : b < 2048)
    (h : ti ∈ visitOrder searchingHiWhole.ht b) : searchingHiWhole.ht.htWord b ti = 0 := by
  rw [searchingHiWhole_visitOrder b hb hlt] at h
  simp only [List.mem_cons, List.not_mem_nil, or_false] at h
  rw [searchingHiWhole_htWord b ti hb hlt (by omega), if_neg (by omega), if_pos (by omega)]

theorem searchingHiWhole_offset (b ti : Nat) (hb : b % 64 = 0) (hlt : b < 2048)
    (h : ti ∈ visitOrder searchingHiWhole.ht b) : searchingHiWhole.ht.htWord b (ti + 1) = 16 := by
  rw [searchingHiWhole_visitOrder b hb hlt] at h
  simp only [List.mem_cons, List.not_mem_nil, or_false] at h
  rw [searchingHiWhole_htWord b (ti + 1) hb hlt (by omega), if_neg (by omega), if_neg (by omega)]

theorem searchingHiWhole_pendingReal : pendingReal searchingHiWhole := fun _ =>
  ⟨by decide, by decide, by decide, by decide, by decide, by decide, by decide, by decide⟩

theorem witness_HiPassInsertsExtendsAndSelects :
    undisturbed searchingHiWhole ∧ searchingHiWhole.phase = .searchHi ∧ searchingHiWhole.searchOk ∧
    searchingHiWhole.dictionaryHiOk ∧ pendingReal searchingHiWhole ∧
    (searchingHiWhole.mf.ip.toNat : Int) < searchingHiWhole.mf.ipet.toInt :=
  ⟨rfl, rfl, searchingHiWhole_searchOk, searchingHiWhole_dictionaryHiOk, searchingHiWhole_pendingReal, by decide⟩

/-- The probe of a bucket of seven tuples `(0, 16)`. -/
theorem searchingHiWhole_probe7 (src : Memory) (b ip ipe : Nat) (iw1 : Word) (hb : b % 64 = 0) (hlt : b < 2048) :
    probe7 searchingHiWhole.ht src b ip ipe iw1 =
      [(), (), (), (), (), (), ()].foldl (fun p _ => probeTuple src ip ipe iw1 0 16 p)
        { keyed := false, best := none } := by
  have hk := fun ti h => searchingHiWhole_key b ti hb hlt h
  have ho := fun ti h => searchingHiWhole_offset b ti hb hlt h
  rw [searchingHiWhole_visitOrder b hb hlt] at hk ho
  unfold probe7
  rw [searchingHiWhole_visitOrder b hb hlt]
  simp only [List.foldl_cons, List.foldl_nil]
  rw [hk 0 (by decide), hk 2 (by decide), hk 4 (by decide), hk 6 (by decide), hk 8 (by decide),
    hk 10 (by decide), hk 12 (by decide), ho 0 (by decide), ho 2 (by decide), ho 4 (by decide),
    ho 6 (by decide), ho 8 (by decide), ho 10 (by decide), ho 12 (by decide)]
  rfl

/-- The same search at `ip = 23` with nothing pending, and at `ip = 40` where other bytes stand. -/
def searchingHiNear : State :=
  { searchingHiWhole with mf := { searchingHiWhole.mf with ip := 23, pv := false } }

def searchingHiOther : State :=
  { searchingHiWhole with
    src := searchingHiWhole.src.writeBytes 40 [1, 1, 1, 1, 1], mf := { searchingHiWhole.mf with ip := 40 } }

-- Accepted; keyed but rejected; not keyed.
theorem witness_HiPassInsertsExtendsAndSelects_clauses :
    acceptedAt searchingHiWhole = some { wp := 16, rc := 9, d := 9, ml := 9 } ∧
    acceptedAt searchingHiNear = none ∧ keyedAt searchingHiNear ∧
    ¬ keyedAt searchingHiOther ∧ acceptedAt searchingHiOther = none := by
  refine ⟨?_, ?_, ?_, ?_, ?_⟩
  · unfold acceptedAt
    rw [searchingHiWhole_probe7 _ _ _ _ _ (by decide) (by decide)]
    decide
  · unfold acceptedAt
    rw [show searchingHiNear.ht = searchingHiWhole.ht from rfl,
      searchingHiWhole_probe7 _ _ _ _ _ (by decide) (by decide)]
    decide
  · refine ⟨0, ?_, ?_⟩
    · rw [show searchingHiNear.ht = searchingHiWhole.ht from rfl,
        searchingHiWhole_visitOrder _ (by decide) (by decide)]
      decide
    · rw [show searchingHiNear.ht = searchingHiWhole.ht from rfl,
        searchingHiWhole_key _ 0 (by decide) (by decide)
          (by rw [searchingHiWhole_visitOrder _ (by decide) (by decide)]; decide)]
      decide
  · rintro ⟨ti, h, hk⟩
    rw [show searchingHiOther.ht = searchingHiWhole.ht from rfl] at h hk
    rw [searchingHiWhole_key _ ti (by decide) (by decide) h] at hk
    revert hk
    decide
  · unfold acceptedAt
    rw [show searchingHiOther.ht = searchingHiWhole.ht from rfl,
      searchingHiWhole_probe7 _ _ _ _ _ (by decide) (by decide)]
    decide

-- A held candidate.
theorem witness_HiPassInsertsExtendsAndSelects_progress :
    let s := searchingHi 0 24 0 64 1 bucketHi
    undisturbed s ∧ s.phase = .searchHi ∧ s.searchOk ∧ step s = .next (after (step s)) ∧
    (after (step s)).phase = .searchHi :=
  ⟨rfl, rfl, ⟨⟨by decide, by decide, by decide, by decide, by decide,
      by decide, by decide, by decide, .inl rfl, fun h => absurd h (by decide),
      by decide⟩,
    by decide, by decide, by decide, fun h => absurd h (by decide)⟩, step_after _ rfl,
    by decide⟩

theorem witness_SmallInputsRoundTrip :
    let s := started 1 (copies 31 7) 31 49
    let t := started 2 (copies 31 7) 1 19
    1 ≤ s.srcl.toNat ∧ s.srcl.toNat ≤ 31 ∧ s.spoiled = false ∧ s.phase = .start ∧ s.hostScript = [] ∧
    decode (.command s.cmd) = .ok .compress ∧ boundFormula 144 150 6 s.srcl.toNat ≤ s.dstl.toNat ∧
    s.dstl.toNat ≤ 2147483647 ∧
    1 ≤ t.srcl.toNat ∧ t.srcl.toNat ≤ 31 ∧ t.spoiled = false ∧ t.phase = .start ∧ t.hostScript = [] ∧
    decode (.command t.cmd) = .ok .compressHi ∧ boundFormula 16 21 5 t.srcl.toNat ≤ t.dstl.toNat ∧
    t.dstl.toNat ≤ 2147483647 := by decide

end Sys2Proof.Tests
end

section
/-! SUPPORT. How a step moves the engine between its phases: what the start of a command, a block, the end of a
stream, a pass and the end of a search leave in the phase and in `STATUS` (10_state.md R24; 46_host_operations.md
R330). -/

namespace Sys2Proof.Machine

/-! ### The end of a command -/

/-- No command is in progress and `STATUS` shows `DONE` alone (10_state.md R24). -/
def State.ended (t : State) : Prop := t.phase = .idle ∧ t.status = statusDone

/-- The command in progress goes on in `t` as in `s`: the same phase, the same `STATUS`. -/
def State.goesOn (s t : State) : Prop := t.phase = s.phase ∧ t.status = s.status

theorem State.endCommand_ended (s : State) (r w : Word) : (s.endCommand r w).ended :=
  ⟨s.endCommand_phase r w, s.endCommand_status r w⟩

theorem State.raise_ended (s : State) (r : Report) (e : DecodeFault) (w : Nat) : (s.raise r e w).ended :=
  State.endCommand_ended _ _ _

theorem encoderFault_ended (s : State) : (encoderFault s).ended := State.endCommand_ended _ _ _

/-! ### The start of a command -/

/-- The set-up of the DEFAULT search: the writer has started, and of the rest only HT and the phase differ. -/
theorem searchSetup_eq (s : State) :
    ∃ ht, searchSetup s = { writerStart s 6 with ht := ht, phase := .search } := by
  unfold searchSetup
  simp only []
  split <;> exact ⟨_, rfl⟩

/-- The set-up of the HI search. -/
theorem searchHiSetup_eq (s : State) :
    ∃ ht, searchHiSetup s = { writerStart s 5 with ht := ht, phase := .searchHi } := by
  unfold searchHiSetup
  simp only []
  split <;> exact ⟨_, rfl⟩

/-- The arguments of a compression whose search starts (46_host_operations.md R331, R332). -/
structure CompressAccepts (s : State) (bound : Nat) : Prop where
  srcl_le : s.srcl.toNat ≤ Config.lenMax
  dstl_le : s.dstl.toNat ≤ Config.lenMax
  bound_le : bound ≤ s.dstl.toNat
  srcl_ge : 16 ≤ s.srcl.toNat

theorem compressAccepts_of_not_rejects {s : State} {bound : Nat} (hr : ¬ compressRejects s bound = true)
    (hn : ¬ s.srcl.toNat < 16) : CompressAccepts s bound := by
  simp only [compressRejects, Bool.or_eq_true, decide_eq_true_eq, not_or] at hr
  obtain ⟨⟨⟨hsrcl, hdstl⟩, -⟩, hbound⟩ := hr
  constructor <;> omega

/-- COMPRESS ends in its first step, or starts its search with arguments it accepts. -/
theorem execCompress_cases {s t : State} (h : execCompress s = .next t) :
    t.ended ∨
    (CompressAccepts s (boundDefault s.srcl.toNat) ∧ t = searchSetup (s.beginCommand .default)) := by
  simp only [execCompress] at h
  split at h
  · cases h; exact .inl (State.endCommand_ended _ _ _)
  · rename_i hr
    split at h
    · cases h; exact .inl (State.endCommand_ended _ _ _)
    · rename_i hn
      cases h; exact .inr ⟨compressAccepts_of_not_rejects hr hn, rfl⟩

/-- COMPRESS_HI ends in its first step, or starts its search with arguments it accepts. -/
theorem execCompressHi_cases {s t : State} (h : execCompressHi s = .next t) :
    t.ended ∨
    (CompressAccepts s (boundHi s.srcl.toNat) ∧ t = searchHiSetup (s.beginCommand .hi)) := by
  simp only [execCompressHi] at h
  split at h
  · cases h; exact .inl (State.endCommand_ended _ _ _)
  · rename_i hr
    split at h
    · cases h; exact .inl (State.endCommand_ended _ _ _)
    · rename_i hn
      cases h; exact .inr ⟨compressAccepts_of_not_rejects hr hn, rfl⟩

/-- A decoding command ends in its first step, or goes on to the first byte of the stream. -/
theorem decodeStart_cases (r : Report) (s : State) :
    (decodeStart r s).ended ∨
    decodeStart r s = { s.beginCommand .default with phase := .header r } := by
  simp only [decodeStart]
  split
  · exact .inl (State.raise_ended _ _ _ _)
  · split
    · split
      · exact .inl (State.endCommand_ended _ _ _)
      · exact .inl (State.raise_ended _ _ _ _)
    · exact .inr rfl

/-- What the first step of a command can do. -/
theorem exec_command_cases {w : Word} {i : Instr} {s t : State} (hi : decodeCommand w = .ok i)
    (h : exec i s = .next t) :
    t.ended ∨
    (∃ r, t = { s.beginCommand .default with phase := .header r }) ∨
    (CompressAccepts s (boundDefault s.srcl.toNat) ∧ t = searchSetup (s.beginCommand .default)) ∨
    (CompressAccepts s (boundHi s.srcl.toNat) ∧ t = searchHiSetup (s.beginCommand .hi)) := by
  rcases decodeCommand_ok hi with rfl | rfl | rfl | rfl | rfl | rfl
  case inl =>
    rcases execCompress_cases h with he | hs
    · exact .inl he
    · exact .inr (.inr (.inl hs))
  case inr.inl =>
    rcases execCompressHi_cases h with he | hs
    · exact .inl he
    · exact .inr (.inr (.inr hs))
  case inr.inr.inl =>
    cases h
    rcases decodeStart_cases .full s with he | hs
    · exact .inl he
    · exact .inr (.inl ⟨_, hs⟩)
  case inr.inr.inr.inl =>
    cases h
    rcases decodeStart_cases .bestEffort s with he | hs
    · exact .inl he
    · exact .inr (.inl ⟨_, hs⟩)
  case inr.inr.inr.inr.inl => cases h; exact .inl (State.endCommand_ended _ _ _)
  case inr.inr.inr.inr.inr => cases h; exact .inl (State.endCommand_ended _ _ _)

/-! ### The blocks and the end of a stream -/

/-- A block of the stream runs the steps of a literal block or those of a reference block. -/
theorem exec_decodeBlock_cases (bs : List Byte) (s : State) :
    (∃ bh head cc, exec (decodeBlock bs) s = .next (literalBlock bh head cc s)) ∨
    (∃ bh o lenBytes cc, exec (decodeBlock bs) s = .next (referenceBlock bh o lenBytes cc s)) := by
  simp only [decodeBlock]
  split
  · split <;> exact .inl ⟨_, _, _, rfl⟩
  · right
    split
    · split
      · exact ⟨_, _, _, _, rfl⟩
      · split <;> exact ⟨_, _, _, _, rfl⟩
    · split
      · split
        · exact ⟨_, _, _, _, rfl⟩
        · split <;> exact ⟨_, _, _, _, rfl⟩
      · split
        · exact ⟨_, _, _, _, rfl⟩
        · split <;> exact ⟨_, _, _, _, rfl⟩

theorem literalBlock_ended_or_goesOn (bh : Byte) (head cc : Nat) (s : State) :
    (literalBlock bh head cc s).ended ∨ s.goesOn (literalBlock bh head cc s) := by
  rcases literalBlock_cases bh head cc s with ⟨-, h⟩ | ⟨-, -, h⟩ | ⟨-, -, h⟩
  · exact .inl (h ▸ State.raise_ended _ _ _ _)
  · exact .inl (h ▸ State.raise_ended _ _ _ _)
  · exact .inr (h ▸ ⟨rfl, rfl⟩)

theorem referenceBlock_ended_or_goesOn (bh : Byte) (o lenBytes cc : Nat) (s : State) :
    (referenceBlock bh o lenBytes cc s).ended ∨ s.goesOn (referenceBlock bh o lenBytes cc s) := by
  rcases referenceBlock_cases bh o lenBytes cc s with ⟨-, h⟩ | ⟨-, -, h⟩ | ⟨-, -, h⟩
  · exact .inl (h ▸ State.raise_ended _ _ _ _)
  · exact .inl (h ▸ State.raise_ended _ _ _ _)
  · exact .inr (h ▸ ⟨rfl, rfl⟩)

/-- A block ends the decoding command in an error or leaves it at its loop condition. -/
theorem exec_decodeBlock_ended_or_goesOn {bs : List Byte} {s t : State} (h : exec (decodeBlock bs) s = .next t) :
    t.ended ∨ s.goesOn t := by
  rcases exec_decodeBlock_cases bs s with ⟨bh, head, cc, he⟩ | ⟨bh, o, lenBytes, cc, he⟩
  · rw [he] at h; cases h; exact literalBlock_ended_or_goesOn bh head cc s
  · rw [he] at h; cases h; exact referenceBlock_ended_or_goesOn bh o lenBytes cc s

theorem decodeEnd_ended (s : State) : (decodeEnd s).ended := by
  unfold decodeEnd
  split
  · exact State.endCommand_ended _ _ _
  · exact State.raise_ended _ _ _ _

/-! ### A pass of mode DEFAULT -/

/-- A pass of mode DEFAULT stores the tuple of a miss, or takes up the hit of the probe (R217, R218). -/
theorem searchPass_cases (s : State) :
    (∃ b, searchPass s = searchMiss (hashStep s) b) ∨
    (∃ b hit wp, searchPass s = searchHit (hashStep s) b hit wp) := by
  simp only [searchPass]
  split
  · exact .inl ⟨_, rfl⟩
  · exact .inr ⟨_, _, _, rfl⟩

/-- MF's registers with a hit's position and offset in them (R218). -/
def Finder.hitAt (m : Finder) (wp : Word) : Finder :=
  { m with wp := wp, d := BitVec.ofNat 32 (m.ip.toNat - wp.toNat) }

theorem Finder.hitAt_d (m : Finder) (wp : Word) : (m.hitAt wp).d.toNat = m.ip.toNat - wp.toNat := by
  show (BitVec.ofNat 32 _).toNat = _
  have := m.ip.isLt
  rw [BitVec.toNat_ofNat]
  omega

/-- A hit is rejected, near or far, and the cursor moves by one; or it is a match at least 8 bytes back
(R218). -/
theorem searchHit_cases (s : State) (b : Nat) (hit : Slot) (wp : Word) :
    (∃ ht, searchHit s b hit wp = { s with ht := ht, mf := { s.mf.hitAt wp with ip := s.mf.ip + 1 } }) ∨
    (8 ≤ (s.mf.hitAt wp).d.toNat ∧ searchHit s b hit wp = searchMatch (s.setMf (s.mf.hitAt wp)) b hit) := by
  rw [Finder.hitAt_d]
  simp only [searchHit]
  split
  · exact .inl ⟨_, rfl⟩
  · split
    · exact .inl ⟨_, rfl⟩
    · exact .inr ⟨by omega, rfl⟩

/-- MF's registers after a match was emitted: the cursor and the anchor past it, the average moved (R220,
R221). -/
def Finder.afterMatch (m : Finder) (e : Extension) : Finder :=
  { m.extended e with
    ip := BitVec.ofNat 32 (m.ip.toNat + e.fwd), ipa := BitVec.ofNat 32 (m.ip.toNat + e.fwd)
    mavg := mavgHit m.mavg (e.fwd + e.bmc) }

/-- A match ends the command with an EncoderFault, or its blocks are written and the search goes on past it. -/
theorem searchMatch_cases (s : State) (b : Nat) (hit : Slot) :
    (searchMatch s b hit).ended ∨
    (∃ t ht, writeBlk (s.setMf (s.mf.extended (extendHit s.src s.mf)))
        (s.mf.ip.toNat - s.mf.ipa.toNat - (extendHit s.src s.mf).bmc)
        ((extendHit s.src s.mf).fwd + (extendHit s.src s.mf).bmc) s.mf.d.toNat s.mf.ipa.toNat = some t ∧
      searchMatch s b hit =
        { s with dst := t.dst, bw := t.bw, ht := ht, mf := s.mf.afterMatch (extendHit s.src s.mf) }) := by
  simp only [searchMatch]
  split
  · exact .inl (encoderFault_ended _)
  · rename_i t hw
    refine .inr ⟨t, hit2 t.ht b hit s.mf.iw1 s.mf.ipo s.mf.d.toNat, hw, ?_⟩
    rw [writeBlk_frame hw]
    rfl

theorem searchPass_ended_or_goesOn (s : State) : (searchPass s).ended ∨ s.goesOn (searchPass s) := by
  rcases searchPass_cases s with ⟨b, h⟩ | ⟨b, hit, wp, h⟩ <;> rw [h]
  · exact .inr ⟨rfl, rfl⟩
  · rcases searchHit_cases (hashStep s) b hit wp with ⟨ht, h⟩ | ⟨-, h⟩ <;> rw [h]
    · exact .inr ⟨rfl, rfl⟩
    · rcases searchMatch_cases ((hashStep s).setMf ((hashStep s).mf.hitAt wp)) b hit with he | ⟨t, ht, -, h⟩
      · exact .inl he
      · exact .inr (h ▸ ⟨rfl, rfl⟩)

theorem searchEnd_ended (s : State) : (searchEnd s).ended := by
  unfold searchEnd
  split
  · exact encoderFault_ended _
  · exact State.endCommand_ended _ _ _

/-! ### A pass of mode HI -/

/-- MF's registers when the candidate `c` with its extension `e` goes to the lazy selection (R250). -/
def Finder.withCandidate (m : Finder) (c : Candidate) (e : Extension) : Finder :=
  { m.extended e with wp := BitVec.ofNat 32 c.wp, d := BitVec.ofNat 32 c.d }

/-- A pass of mode HI moves the cursor by one if the probe accepts nothing, else the candidate it accepts goes
to the lazy selection (R249, R250). -/
theorem searchHiPass_cases (s : State) :
    (∃ ht, searchHiPass s = { s with
      ht := ht, mf := { (hashStepHi s).mf with ip := (hashStepHi s).mf.ip + 1 } }) ∨
    (∃ b c ht, (probe7 s.ht s.src b s.mf.ip.toNat s.mf.ipe.toNat (hashStepHi s).mf.iw1).accepted = some c ∧
      searchHiPass s = searchHiMatch ({ s with ht := ht, mf := (hashStepHi s).mf }) c) := by
  simp only [searchHiPass]
  split
  · left
    split <;> exact ⟨_, rfl⟩
  · rename_i c hc
    right
    split <;> exact ⟨_, c, _, hc, rfl⟩

/-- An accepted candidate goes to the lazy selection as the match it extends to, after the literals between the
anchor and its start (R250). -/
theorem searchHiMatch_eq (s : State) (c : Candidate) :
    searchHiMatch s c =
      lazySelect (s.setMf (s.mf.withCandidate c (extendCandidate s.src s.mf c)))
        (s.mf.ip.toNat - (extendCandidate s.src s.mf c).bmc - s.mf.ipa.toNat)
        (c.rc + (extendCandidate s.src s.mf c).bmc) c.d
        (s.mf.ip.toNat - (extendCandidate s.src s.mf c).bmc) := by
  rw [Nat.sub_right_comm]
  rfl

/-- MF's registers when the match of length `rc` at `ip`, after `lc` literals, is emitted (R256). -/
def Finder.emitting (m : Finder) (lc rc d ip : Nat) : Finder :=
  { m with rc := BitVec.ofNat 10 rc, d := BitVec.ofNat 32 d, ip := BitVec.ofNat 32 ip, lc := BitVec.ofNat 32 lc }

/-- MF's registers past an emitted match that ends at `stop`, with nothing pending (R256). -/
def Finder.past (m : Finder) (stop : Nat) : Finder :=
  { m with ip := BitVec.ofNat 32 stop, ipa := BitVec.ofNat 32 stop, pv := false }

/-- The emission that ends a pass: an EncoderFault, or the cursor and the anchor past the match (R256). -/
theorem emitHi_cases (s : State) (lc rc d ip : Nat) :
    (emitHi s lc rc d ip).ended ∨
    (∃ t, writeBlk (s.setMf (s.mf.emitting lc rc d ip)) lc rc d s.mf.ipa.toNat = some t ∧
      emitHi s lc rc d ip =
        { s with dst := t.dst, bw := t.bw, mf := (s.mf.emitting lc rc d ip).past (ip + rc) }) := by
  simp only [emitHi]
  split
  · exact .inl (encoderFault_ended _)
  · rename_i t hw
    refine .inr ⟨t, hw, ?_⟩
    rw [writeBlk_frame hw]
    rfl

/-- The emission of the pending candidate while the current one is held: an EncoderFault, or the anchor past the
match and the current candidate pending (R255). -/
theorem emitPrevious_cases (s : State) (rc d ip : Nat) :
    (emitPrevious s rc d ip).ended ∨
    (∃ t, writeBlk s (s.mf.pip.toNat - s.mf.ipa.toNat) s.mf.prc.toNat s.mf.pd.toNat s.mf.ipa.toNat = some t ∧
      emitPrevious s rc d ip = { s with
        dst := t.dst, bw := t.bw
        mf := { s.mf with ipa := BitVec.ofNat 32 (s.mf.pip.toNat + s.mf.prc.toNat) }.hold rc d ip }) := by
  simp only [emitPrevious]
  split
  · exact .inl (encoderFault_ended _)
  · rename_i t hw
    refine .inr ⟨t, hw, ?_⟩
    rw [writeBlk_frame hw]
    rfl

/-- The four outcomes of the lazy selection (R252 to R256). -/
theorem lazySelect_cases (s : State) (lc rc d ip : Nat) :
    (s.mf.pv = false ∧ lazySelect s lc rc d ip = s.setMf (s.mf.hold rc d ip)) ∨
    (s.mf.pv = true ∧ lazySelect s lc rc d ip =
      emitHi s (s.mf.pip.toNat - s.mf.ipa.toNat) s.mf.prc.toNat s.mf.pd.toNat s.mf.pip.toNat) ∨
    (s.mf.pv = true ∧ s.mf.pip.toNat + s.mf.prc.toNat ≤ ip ∧
      lazySelect s lc rc d ip = emitPrevious s rc d ip) ∨
    lazySelect s lc rc d ip = emitHi s lc rc d ip := by
  simp only [lazySelect]
  split
  · exact .inl ⟨by assumption, rfl⟩
  · rename_i hpv
    have hpv : s.mf.pv = true := by simpa using hpv
    split
    · split
      · exact .inr (.inl ⟨hpv, rfl⟩)
      · exact .inr (.inr (.inl ⟨hpv, by omega, rfl⟩))
    · exact .inr (.inr (.inr rfl))

theorem emitHi_ended_or_goesOn (s : State) (lc rc d ip : Nat) :
    (emitHi s lc rc d ip).ended ∨ s.goesOn (emitHi s lc rc d ip) := by
  rcases emitHi_cases s lc rc d ip with he | ⟨t, -, h⟩
  · exact .inl he
  · exact .inr (h ▸ ⟨rfl, rfl⟩)

theorem lazySelect_ended_or_goesOn (s : State) (lc rc d ip : Nat) :
    (lazySelect s lc rc d ip).ended ∨ s.goesOn (lazySelect s lc rc d ip) := by
  rcases lazySelect_cases s lc rc d ip with ⟨-, h⟩ | ⟨-, h⟩ | ⟨-, -, h⟩ | h <;> rw [h]
  · exact .inr ⟨rfl, rfl⟩
  · exact emitHi_ended_or_goesOn _ _ _ _ _
  · rcases emitPrevious_cases s rc d ip with he | ⟨t, -, h⟩
    · exact .inl he
    · exact .inr (h ▸ ⟨rfl, rfl⟩)
  · exact emitHi_ended_or_goesOn _ _ _ _ _

theorem searchHiPass_ended_or_goesOn (s : State) : (searchHiPass s).ended ∨ s.goesOn (searchHiPass s) := by
  rcases searchHiPass_cases s with ⟨ht, h⟩ | ⟨b, c, ht, -, h⟩ <;> rw [h]
  · exact .inr ⟨rfl, rfl⟩
  · exact lazySelect_ended_or_goesOn _ _ _ _ _

theorem searchHiEnd_ended (s : State) : (searchHiEnd s).ended := by
  simp only [searchHiEnd]
  split
  · split
    · exact encoderFault_ended _
    · exact searchEnd_ended _
  · exact searchEnd_ended _

/-! ### An access of the host -/

/-- The units, the phase and what belongs to the command in progress are in `t` as in `s`. -/
structure EngineKept (s t : State) : Prop where
  phase_eq : t.phase = s.phase
  status_eq : t.status = s.status
  cap_eq : t.cap = s.cap
  bd_eq : t.bd = s.bd
  bw_eq : t.bw = s.bw
  mf_eq : t.mf = s.mf

/-- An access of the host leaves the engine alone, starts a command, or resets the machine. -/
theorem hostAccess_engine_cases {s t : State} {a : HostAccess} (h : hostAccess a s = .next t) :
    EngineKept s t ∨ (t.phase = .start ∧ t.status = statusBusy) ∨ (t.phase = .idle ∧ t.status = 0) := by
  rcases hostAccess_cases h with rfl | ⟨_, _, -, -, rfl⟩ | ⟨_, rfl⟩ | ⟨_, rfl⟩ | ⟨_, _, rfl⟩ | ⟨_, _, rfl⟩ | rfl |
    ⟨_, _, rfl⟩ | ⟨_, _, -, rfl⟩
  · exact .inl ⟨rfl, rfl, rfl, rfl, rfl, rfl⟩
  · exact .inr (.inl ⟨rfl, rfl⟩)
  iterate 4 exact .inl ⟨rfl, rfl, rfl, rfl, rfl, rfl⟩
  · exact .inr (.inr ⟨rfl, rfl⟩)
  iterate 2 exact .inl ⟨rfl, rfl, rfl, rfl, rfl, rfl⟩

end Sys2Proof.Machine
end

section
/-! SUPPORT. The bounds of both searches: the running average and the miss advance of mode DEFAULT, the candidate of
mode HI, the growth of the stream, and what the moves of the cursor keep (10_state.md R32, R38;
44_hi_ratio_match_finder.md R257; 46_host_operations.md R337). -/

namespace Sys2Proof.Machine

/-! ### The running average and the miss advance (43_default_match_finder.md R221 to R224) -/

/-- The range of `mavg` (10_state.md R38). -/
def MavgOk (mavg : Word) : Prop := 0 ≤ mavg.toInt ∧ mavg.toInt ≤ 530 * 2 ^ 21

/-- Within the range a hit moves `mavg` by the floor of a 1024th of the signed difference: nothing wraps. -/
theorem mavgHit_toInt {mavg : Word} {rc : Nat} (h : MavgOk mavg) (hrc : rc ≤ 530) :
    (mavgHit mavg rc).toInt = mavg.toInt + ((rc : Int) * 2 ^ 21 - mavg.toInt) / 1024 := by
  obtain ⟨h0, h1⟩ := h
  have hr : (BitVec.ofNat 32 (rc <<< 21)).toInt = (rc : Int) * 2 ^ 21 := by
    rw [BitVec.toInt_eq_toNat_bmod, BitVec.toNat_ofNat, Nat.shiftLeft_eq]
    simp only [Int.bmod]
    omega
  have hd : (BitVec.ofNat 32 (rc <<< 21) - mavg).toInt = (rc : Int) * 2 ^ 21 - mavg.toInt := by
    rw [BitVec.toInt_sub, hr]
    simp only [Int.bmod]
    omega
  unfold mavgHit
  rw [BitVec.toInt_add, BitVec.toInt_sshiftRight, hd, Int.shiftRight_eq_div_pow]
  simp only [Int.bmod]
  omega

/-- From 0 on a miss lowers `mavg` by the floor of its 2048th part. -/
theorem mavgMiss_toInt {mavg : Word} (h : 0 ≤ mavg.toInt) :
    (mavgMiss mavg).toInt = mavg.toInt - mavg.toInt / 2048 := by
  have := BitVec.toInt_lt (x := mavg)
  unfold mavgMiss
  rw [BitVec.toInt_sub, BitVec.toInt_sshiftRight, Int.shiftRight_eq_div_pow]
  simp only [Int.bmod]
  omega

theorem mavgOk_start : MavgOk Config.mavgStart := ⟨by decide, by decide⟩

theorem mavgOk_hit {mavg : Word} {rc : Nat} (h : MavgOk mavg) (hrc : rc ≤ 530) : MavgOk (mavgHit mavg rc) := by
  have he := mavgHit_toInt h hrc
  obtain ⟨h0, h1⟩ := h
  constructor <;> omega

theorem mavgOk_miss {mavg : Word} (h : MavgOk mavg) : MavgOk (mavgMiss mavg) := by
  obtain ⟨h0, h1⟩ := h
  have he := mavgMiss_toInt h0
  constructor <;> omega

/-- A miss moves the cursor by at most 103 (R224). -/
theorem missAdvance_le {mavg : Word} (rndb : BitVec 1) (ip ipa : Nat) (h : 0 ≤ mavg.toInt) :
    missAdvance mavg rndb ip ipa ≤ 103 := by
  have hr := rndb.isLt
  have hs : 0 ≤ mavg.toInt >>> (14 : Nat) := by rw [Int.shiftRight_eq_div_pow]; omega
  unfold missAdvance
  repeat' split
  all_goals omega

/-! ### The candidate of mode HI (44_hi_ratio_match_finder.md R248, R249) -/

/-- Every candidate that the probe keeps is within the limits. -/
theorem probe7_best_bounds {ht src : Memory} {b ip ipe : Nat} {iw1 : Word} {c : Candidate} (hi : ip + 9 < ipe)
    (h : (probe7 ht src b ip ipe iw1).best = some c) : CandidateBounds c ip ipe := by
  have key : ∀ (l : List Nat) (p : Probe), (∀ c, p.best = some c → CandidateBounds c ip ipe) →
      ∀ c, (l.foldl (fun p ti => probeTuple src ip ipe iw1 (ht.htWord b ti) (ht.htWord b (ti + 1)).toNat p)
        p).best = some c → CandidateBounds c ip ipe := by
    intro l
    induction l with
    | nil => exact fun p hp => hp
    | cons ti l ih =>
      refine fun p hp => ih _ fun c hc => ?_
      rcases probeTuple_cases src ip ipe iw1 (ht.htWord b ti) (ht.htWord b (ti + 1)).toNat p hi with
        hsame | ⟨c', hc', -, -, -, -, hb⟩
      · exact hp c (hsame ▸ hc)
      · rw [hc'] at hc; cases hc; exact hb
  exact key _ { keyed := false, best := none } (fun _ h => nomatch h) c h

/-! ### The growth of the stream (46_host_operations.md R337) -/

/-- How many covered bytes of the input the stream may exceed by one. -/
def Mode.piece : Mode → Nat
  | .default => 150
  | .hi => 21

/-- The writer in a search of the mode, with `covered` bytes of the input in the stream: its carry state is sound,
the stream has begun, and it is at most one byte, the bytes covered, and one byte for each piece of them. -/
structure StreamOk (mode : Mode) (w : Writer) (covered : Nat) : Prop where
  mref_eq : w.mref = mode.mref
  carry : w.carryOk
  op_ge : 1 ≤ w.op.toNat
  op_le : mode.piece * w.op.toNat ≤ mode.piece + (mode.piece + 1) * covered

/-- The blocks of a match grow the stream by no more than what they cover allows. -/
theorem blockBytes_le (mode : Mode) {w : Writer} {lc rc : Nat} (d : Nat) (hm : w.mref = mode.mref)
    (h : mode.mref.toNat ≤ rc) : mode.piece * blockBytes w lc rc d ≤ (mode.piece + 1) * (lc + rc) := by
  cases mode with
  | default => exact blockBytes_le_default w lc rc d hm h
  | hi => exact blockBytes_le_hi w lc rc d hm h

/-- A stream within its bound is hardly longer than the input it covers. -/
theorem StreamOk.op_le_add {mode : Mode} {w : Writer} {covered : Nat} (h : StreamOk mode w covered) :
    w.op.toNat ≤ 1 + covered + covered / 21 := by
  have ho := h.op_le
  cases mode <;> simp only [Mode.piece] at ho <;> omega

/-- `WRITE_BLK` keeps the writer sound and the stream within the bound of what is covered then. -/
theorem writeBlk_streamOk {mode : Mode} {s t : State} {lc rc d ipa : Nat}
    (hw : writeBlk s lc rc d ipa = some t) (hs : StreamOk mode s.bw ipa)
    (hrc : mode.mref.toNat ≤ rc) (hfit : ipa + lc + rc ≤ Config.lenMax) : StreamOk mode t.bw (ipa + lc + rc) := by
  have hlt := hs.op_le_add
  have hop := hs.op_ge
  simp only [Config.lenMax] at hfit
  obtain ⟨hframe, hgrow, hcarry, -⟩ := writeBlk_some hw (by omega)
  have hb := blockBytes_le mode (lc := lc) d hs.mref_eq hrc
  exact {
    mref_eq := by rw [hframe]; exact hs.mref_eq
    carry := hcarry
    op_ge := by omega
    op_le := by
      have ho := hs.op_le
      rw [hgrow, Nat.mul_add, Nat.add_assoc ipa, Nat.mul_add]
      omega }

/-! ### The cursor, the anchor and the writer move -/

/-- The limits of a search's input and capacity (10_state.md R32): the part of the bounds no pass moves. -/
structure InputLimits (m : Finder) (cap : Word) : Prop where
  srcl_ge : 16 ≤ m.ipe.toNat + Config.litFin
  srcl_le : m.ipe.toNat + Config.litFin ≤ Config.lenMax
  cap_le : cap.toNat ≤ Config.lenMax
  ipet_eq : m.ipet.toInt = m.ipe.toNat - 9

theorem SearchBounds.limits {m : Finder} {w : Writer} {cap : Word} (h : SearchBounds m w cap) :
    InputLimits m cap := ⟨h.srcl_ge, h.srcl_le, h.cap_le, h.ipet_eq⟩

/-- The bounds hold for registers that keep the input's limits and have the cursor and the anchor in their places,
with a sound writer. -/
theorem InputLimits.searchBounds {m m' : Finder} {w : Writer} {cap : Word} {mode : Mode} {ip ipa : Nat}
    (h : InputLimits m cap) (hipe : m'.ipe = m.ipe) (hipet : m'.ipet = m.ipet) (hip : m'.ip.toNat = ip)
    (hipa : m'.ipa.toNat = ipa) (hge : 16 ≤ ip) (hle : ip ≤ m.ipe.toNat + 600) (hord : ipa ≤ ip)
    (hstop : ipa ≤ m.ipe.toNat) (hw : StreamOk mode w ipa) : SearchBounds m' w cap where
  srcl_ge := hipe ▸ h.srcl_ge
  srcl_le := hipe ▸ h.srcl_le
  cap_le := h.cap_le
  ipet_eq := by rw [hipe, hipet]; exact h.ipet_eq
  ip_ge := by rw [hip]; exact hge
  ip_le := by rw [hip, hipe]; exact hle
  ipa_le_ip := by rw [hip, hipa]; exact hord
  ipa_le_ipe := by rw [hipa, hipe]; exact hstop
  csh_ok := hw.carry.1
  cbp_ok := hw.carry.2
  op_ge := hw.op_ge

/-- At a pass more than nine bytes before `ipe` are still ahead. -/
theorem SearchBounds.ip_lt {m : Finder} {w : Writer} {cap : Word} (h : SearchBounds m w cap)
    (hm : m.more = true) : m.ip.toNat + 9 < m.ipe.toNat := by
  have hlt := m.more_iff.1 hm
  have he := h.ipet_eq
  omega

theorem toNat_ofNat_of_le {n : Nat} {x : Word} (h : n ≤ x.toNat) : (BitVec.ofNat 32 n).toNat = n := by
  have := x.isLt
  rw [BitVec.toNat_ofNat]
  omega

theorem toNat_add_ofNat (x : Word) {n : Nat} (h : x.toNat + n < 2 ^ 32) :
    (x + BitVec.ofNat 32 n).toNat = x.toNat + n := by
  rw [BitVec.toNat_add, BitVec.toNat_ofNat]
  omega

/-- A position below `ipe` has a next one. -/
theorem toNat_succ_of_lt {x y : Word} (h : x.toNat < y.toNat) : (x + 1).toNat = x.toNat + 1 := by
  have := y.isLt
  exact toNat_add_ofNat x (n := 1) (by omega)

/-- An idle machine meets the bounds. -/
theorem State.ended.searchOk {t : State} (h : t.ended) : t.searchOk := by
  obtain ⟨hidle, -⟩ := h
  unfold State.searchOk
  rw [hidle]
  trivial

/-! ### Mode DEFAULT -/

/-- The bounds of mode DEFAULT, on the registers they speak of. -/
structure DefaultOk (m : Finder) (w : Writer) (cap : Word) : Prop where
  search : SearchBounds m w cap
  stream : StreamOk .default w m.ipa.toNat
  bound_le : boundDefault (m.ipe.toNat + Config.litFin) ≤ cap.toNat
  mavg : MavgOk m.mavg

theorem State.searchOk_search {s : State} (hp : s.phase = .search) :
    s.searchOk ↔ DefaultOk s.mf s.bw s.cap := by
  unfold State.searchOk
  rw [hp]
  constructor
  · rintro ⟨hs, hm, hb, ho, h0, h1⟩
    exact ⟨hs, ⟨hm, hs.carryOk, hs.op_ge, ho⟩, hb, h0, h1⟩
  · rintro ⟨hs, hw, hb, h0, h1⟩
    exact ⟨hs, hw.mref_eq, hb, hw.op_le, h0, h1⟩

/-- The bounds of mode DEFAULT after the cursor, the anchor and the writer have moved. -/
theorem DefaultOk.moved {m m' : Finder} {w w' : Writer} {cap : Word} {ip ipa : Nat} (h : DefaultOk m w cap)
    (hipe : m'.ipe = m.ipe) (hipet : m'.ipet = m.ipet) (hip : m'.ip.toNat = ip) (hipa : m'.ipa.toNat = ipa)
    (hge : 16 ≤ ip) (hle : ip ≤ m.ipe.toNat + 600) (hord : ipa ≤ ip) (hstop : ipa ≤ m.ipe.toNat)
    (hw : StreamOk .default w' ipa) (hm : MavgOk m'.mavg) : DefaultOk m' w' cap where
  search := h.search.limits.searchBounds hipe hipet hip hipa hge hle hord hstop hw
  stream := hipa ▸ hw
  bound_le := hipe ▸ h.bound_le
  mavg := hm

/-- The bounds of mode DEFAULT after the cursor has moved on and the anchor has not. -/
theorem DefaultOk.cursorMoved {m m' : Finder} {w : Writer} {cap : Word} {n : Nat} (h : DefaultOk m w cap)
    (hipe : m'.ipe = m.ipe) (hipet : m'.ipet = m.ipet) (hipa : m'.ipa = m.ipa)
    (hip : m'.ip.toNat = m.ip.toNat + n) (hle : m.ip.toNat + n ≤ m.ipe.toNat + 600) (hm : MavgOk m'.mavg) :
    DefaultOk m' w cap :=
  h.moved hipe hipet hip (hipa ▸ rfl) (le_add_right h.search.ip_ge) hle (le_add_right h.search.ipa_le_ip)
    h.search.ipa_le_ipe h.stream hm

/-- A miss keeps the bounds. -/
theorem searchMiss_searchOk {s : State} (b : Nat) (hp : s.phase = .search) (h : DefaultOk s.mf s.bw s.cap)
    (hm : s.mf.more = true) : (searchMiss s b).searchOk := by
  have hlt := h.search.ip_lt hm
  have hipe := h.search.srcl_le
  have hmavg := mavgOk_miss h.mavg
  have ha := missAdvance_le s.mf.rndb s.mf.ip.toNat s.mf.ipa.toNat hmavg.1
  simp only [Config.lenMax] at hipe
  refine (State.searchOk_search ?_).2
    (h.cursorMoved rfl rfl rfl (toNat_add_ofNat s.mf.ip ?_) ?_ hmavg)
  · exact hp
  · omega
  · omega

/-- A match keeps the bounds, or ends the command: the match ends within the input, and the blocks for what it
covers keep the stream within its bound. -/
theorem searchMatch_searchOk {s : State} (b : Nat) (hit : Slot) (hp : s.phase = .search)
    (h : DefaultOk s.mf s.bw s.cap) (hm : s.mf.more = true) (hd : 8 ≤ s.mf.d.toNat) :
    (searchMatch s b hit).searchOk := by
  have hlt := h.search.ip_lt hm
  have hipe := h.search.srcl_le
  have hipa := h.search.ipa_le_ip
  have hge := h.search.ip_ge
  have he := extendHit_bounds s.src s.mf hd hlt hipa
  rcases searchMatch_cases s b hit with hend | ⟨t, ht, hw, heq⟩
  · exact hend.searchOk
  · generalize extendHit s.src s.mf = e at he hw heq
    obtain ⟨hfwd, hsum, hml, -, hstop, hbmc, -⟩ := he
    simp only [Config.lenMax] at hipe
    have hstream := writeBlk_streamOk hw h.stream (show 6 ≤ e.fwd + e.bmc by omega)
      (by simp only [Config.lenMax]; omega)
    have hcov : s.mf.ipa.toNat + (s.mf.ip.toNat - s.mf.ipa.toNat - e.bmc) + (e.fwd + e.bmc) =
        s.mf.ip.toNat + e.fwd := by omega
    rw [hcov] at hstream
    have hend : s.mf.ip.toNat + e.fwd ≤ s.mf.ipe.toNat := by omega
    have hnew := toNat_ofNat_of_le hend
    rw [State.searchOk_search (heq ▸ hp), heq]
    exact h.moved rfl rfl hnew hnew (by omega) (by omega) le_rfl hend hstream (mavgOk_hit h.mavg (by omega))

/-- A pass of mode DEFAULT keeps the bounds or ends the command. -/
theorem searchPass_searchOk {s : State} (hp : s.phase = .search) (h : s.searchOk) (hm : s.mf.more = true) :
    (searchPass s).searchOk := by
  have hs := (State.searchOk_search hp).1 h
  have hlt := hs.search.ip_lt hm
  have hok : DefaultOk (hashStep s).mf (hashStep s).bw (hashStep s).cap :=
    hs.cursorMoved (n := 0) rfl rfl rfl rfl hs.search.ip_le hs.mavg
  rcases searchPass_cases s with ⟨b, heq⟩ | ⟨b, hit, wp, heq⟩ <;> rw [heq]
  · exact searchMiss_searchOk b hp hok hm
  · rcases searchHit_cases (hashStep s) b hit wp with ⟨ht, heq⟩ | ⟨hd, heq⟩ <;> rw [heq]
    · have hip : (s.mf.ip + 1).toNat = s.mf.ip.toNat + 1 := toNat_succ_of_lt (y := s.mf.ipe) (by omega)
      refine (State.searchOk_search ?_).2 (hs.cursorMoved rfl rfl rfl hip (by omega) hs.mavg)
      exact hp
    · exact searchMatch_searchOk b hit hp
        (hok.cursorMoved (n := 0) rfl rfl rfl rfl hok.search.ip_le hok.mavg) hm hd

/-! ### Mode HI -/

/-- The bounds of mode HI, on the registers they speak of. -/
structure HiOk (m : Finder) (w : Writer) (cap : Word) : Prop where
  search : SearchBounds m w cap
  stream : StreamOk .hi w m.ipa.toNat
  bound_le : boundHi (m.ipe.toNat + Config.litFin) ≤ cap.toNat
  pending : m.pv = true → PendingOk m

theorem State.searchOk_searchHi {s : State} (hp : s.phase = .searchHi) :
    s.searchOk ↔ HiOk s.mf s.bw s.cap := by
  unfold State.searchOk
  rw [hp]
  constructor
  · rintro ⟨hs, hm, hb, ho, hpv⟩
    exact ⟨hs, ⟨hm, hs.carryOk, hs.op_ge, ho⟩, hb, hpv⟩
  · rintro ⟨hs, hw, hb, hpv⟩
    exact ⟨hs, hw.mref_eq, hb, hw.op_le, hpv⟩

/-- The bounds of mode HI less those of the cursor, which is somewhere inside the match while a candidate is
selected. -/
structure SelectOk (m : Finder) (w : Writer) (cap : Word) : Prop where
  limits : InputLimits m cap
  ipa_le_ipe : m.ipa.toNat ≤ m.ipe.toNat
  stream : StreamOk .hi w m.ipa.toNat
  bound_le : boundHi (m.ipe.toNat + Config.litFin) ≤ cap.toNat
  pending : m.pv = true → PendingOk m

theorem HiOk.selectOk {m : Finder} {w : Writer} {cap : Word} (h : HiOk m w cap) : SelectOk m w cap :=
  ⟨h.search.limits, h.search.ipa_le_ipe, h.stream, h.bound_le, h.pending⟩

/-- The bounds of mode HI after the cursor, the anchor and the writer have moved. -/
theorem SelectOk.moved {m m' : Finder} {w w' : Writer} {cap : Word} {ip ipa : Nat} (h : SelectOk m w cap)
    (hipe : m'.ipe = m.ipe) (hipet : m'.ipet = m.ipet) (hip : m'.ip.toNat = ip) (hipa : m'.ipa.toNat = ipa)
    (hge : 16 ≤ ip) (hle : ip ≤ m.ipe.toNat + 600) (hord : ipa ≤ ip) (hstop : ipa ≤ m.ipe.toNat)
    (hw : StreamOk .hi w' ipa) (hpend : m'.pv = true → PendingOk m') : HiOk m' w' cap where
  search := h.limits.searchBounds hipe hipet hip hipa hge hle hord hstop hw
  stream := hipa ▸ hw
  bound_le := hipe ▸ h.bound_le
  pending := hpend

/-- A match at `start` of length `rc` and offset `d`, in the numbers the lazy selection compares: it lies after the
anchor, ends within the input, and its numbers fit their registers (44_hi_ratio_match_finder.md R250, R257). -/
structure MatchFits (m : Finder) (start rc d : Nat) : Prop where
  start_ge : m.ipa.toNat ≤ start
  stop_le : start + rc ≤ m.ipe.toNat
  stop_ge : 16 ≤ start + rc
  len_ge : 5 ≤ rc
  len_lt : rc < 2 ^ 10
  len_le : rc ≤ d
  off_ge : 8 ≤ d
  off_lt : d < 2 ^ 23

/-- A pending candidate is a match that fits. -/
theorem PendingOk.fits {m : Finder} (h : PendingOk m) :
    MatchFits m m.pip.toNat m.prc.toNat m.pd.toNat where
  start_ge := h.start_ge
  stop_le := h.stop_le
  stop_ge := h.stop_ge
  len_ge := h.len_ge
  len_lt := m.prc.isLt
  len_le := h.len_le
  off_ge := h.off_ge
  off_lt := m.pd.isLt

/-- A match that fits and is held is a sound pending candidate. -/
theorem MatchFits.hold {m : Finder} {start rc d : Nat} (h : MatchFits m start rc d) :
    PendingOk (m.hold rc d start) := by
  obtain ⟨hge, hle, h16, h5, hrc, hd, h8, hpd⟩ := h
  have hprc : (BitVec.ofNat 10 rc).toNat = rc := Nat.mod_eq_of_lt hrc
  have hoff : (BitVec.ofNat 23 d).toNat = d := Nat.mod_eq_of_lt hpd
  have hpip : (BitVec.ofNat 32 start).toNat = start :=
    toNat_ofNat_of_le (le_trans (Nat.le_add_right start rc) hle)
  constructor <;> simp only [Finder.hold, hprc, hoff, hpip] <;> assumption

/-- The candidate that a pass accepts is, after its back-extension, a match that fits (R249, R250). -/
theorem extendCandidate_fits (src : Memory) {m : Finder} {w : Writer} {cap : Word} {c : Candidate}
    (h : SearchBounds m w cap) (hc : CandidateBounds c m.ip.toNat m.ipe.toNat) (h5 : 5 ≤ c.rc) :
    MatchFits m (m.ip.toNat - (extendCandidate src m c).bmc) (c.rc + (extendCandidate src m c).bmc) c.d := by
  have hipa := h.ipa_le_ip
  have hge := h.ip_ge
  obtain ⟨hlc, hml, -, -⟩ := extendCandidate_bounds src m c
  obtain ⟨-, hrc, h529, hd, hstop, -, h8, hlt⟩ := hc
  constructor <;> omega

/-- Emitting a match that fits, after the literals between the anchor and its start, leaves a sound writer with all
up to the end of the match covered. -/
theorem writeBlk_of_fits {s t : State} {m : Finder} {start rc d : Nat} (h : SelectOk m s.bw s.cap)
    (hf : MatchFits m start rc d) (hw : writeBlk s (start - m.ipa.toNat) rc d m.ipa.toNat = some t) :
    StreamOk .hi t.bw (start + rc) := by
  have hipe := h.limits.srcl_le
  have hge := hf.start_ge
  have hle := hf.stop_le
  simp only [Config.lenMax] at hipe
  have hcov : m.ipa.toNat + (start - m.ipa.toNat) + rc = start + rc := by omega
  exact hcov ▸ writeBlk_streamOk hw h.stream hf.len_ge (by simp only [Config.lenMax]; omega)

/-- The emission of a match that fits keeps the bounds or ends the command. -/
theorem emitHi_searchOk {s : State} {start rc d : Nat} (hp : s.phase = .searchHi) (h : SelectOk s.mf s.bw s.cap)
    (hf : MatchFits s.mf start rc d) : (emitHi s (start - s.mf.ipa.toNat) rc d start).searchOk := by
  rcases emitHi_cases s (start - s.mf.ipa.toNat) rc d start with he | ⟨t, hw, heq⟩
  · exact he.searchOk
  · have hstream :=
      writeBlk_of_fits (s := s.setMf (s.mf.emitting (start - s.mf.ipa.toNat) rc d start)) h hf hw
    have hnew := toNat_ofNat_of_le hf.stop_le
    rw [State.searchOk_searchHi (heq ▸ hp), heq]
    exact h.moved rfl rfl hnew hnew hf.stop_ge (le_add_right hf.stop_le) le_rfl hf.stop_le hstream
      (fun hpv => nomatch hpv)

/-- The pending candidate is emitted and a match that fits and starts behind it is held: this keeps the bounds or
ends the command (R255). -/
theorem emitPrevious_searchOk {s : State} {start rc d : Nat} (hp : s.phase = .searchHi)
    (h : SelectOk s.mf s.bw s.cap) (hf : MatchFits s.mf start rc d) (hpend : PendingOk s.mf)
    (hno : s.mf.pip.toNat + s.mf.prc.toNat ≤ start) (hstart : start ≤ s.mf.ipo.toNat)
    (hipo : s.mf.ipo.toNat < s.mf.ipe.toNat) : (emitPrevious s rc d start).searchOk := by
  rcases emitPrevious_cases s rc d start with he | ⟨t, hw, heq⟩
  · exact he.searchOk
  · have hstream := writeBlk_of_fits h hpend.fits hw
    have hnew := toNat_ofNat_of_le hpend.stop_le
    have hge := hpend.stop_ge
    have hheld : MatchFits { s.mf with ipa := BitVec.ofNat 32 (s.mf.pip.toNat + s.mf.prc.toNat) } start rc d :=
      { hf with start_ge := le_of_eq_of_le hnew hno }
    have hip := toNat_succ_of_lt hipo
    rw [State.searchOk_searchHi (heq ▸ hp), heq]
    exact h.moved rfl rfl hip hnew (by omega) (by omega) (by omega) hpend.stop_le hstream
      (fun _ => hheld.hold)

/-- The lazy selection keeps the bounds or ends the command, for a current candidate that fits and starts at or
before the hashed position: whichever match is emitted or held fits. -/
theorem lazySelect_searchOk {s : State} {start rc d : Nat} (hp : s.phase = .searchHi) (h : SelectOk s.mf s.bw s.cap)
    (hf : MatchFits s.mf start rc d) (hstart : start ≤ s.mf.ipo.toNat)
    (hipo : s.mf.ipo.toNat < s.mf.ipe.toNat) (hge : 16 ≤ s.mf.ipo.toNat) :
    (lazySelect s (start - s.mf.ipa.toNat) rc d start).searchOk := by
  have hipa := hf.start_ge
  rcases lazySelect_cases s (start - s.mf.ipa.toNat) rc d start with
    ⟨-, heq⟩ | ⟨hpv, heq⟩ | ⟨hpv, hno, heq⟩ | heq <;> rw [heq]
  case inl =>
    have hip := toNat_succ_of_lt hipo
    refine (State.searchOk_searchHi ?_).2 (h.moved (ipa := s.mf.ipa.toNat) rfl rfl hip rfl (by omega) (by omega)
      (by omega) h.ipa_le_ipe h.stream (fun _ => hf.hold))
    exact hp
  case inr.inl => exact emitHi_searchOk hp h (h.pending hpv).fits
  case inr.inr.inl => exact emitPrevious_searchOk hp h hf (h.pending hpv) hno hstart hipo
  case inr.inr.inr => exact emitHi_searchOk hp h hf

/-- An accepted candidate keeps the bounds or ends the command: the selection gets the match the candidate extends
to, in registers whose cursor is at its start. -/
theorem searchHiMatch_searchOk {s : State} {c : Candidate} (hp : s.phase = .searchHi) (h : HiOk s.mf s.bw s.cap)
    (hc : CandidateBounds c s.mf.ip.toNat s.mf.ipe.toNat) (h5 : 5 ≤ c.rc) (hlt : s.mf.ip.toNat < s.mf.ipe.toNat)
    (hipo : s.mf.ipo = s.mf.ip) : (searchHiMatch s c).searchOk := by
  have hf := extendCandidate_fits s.src h.search hc h5
  have hs := h.selectOk
  have hge := h.search.ip_ge
  rw [searchHiMatch_eq]
  generalize extendCandidate s.src s.mf c = e at hf ⊢
  have hsel : SelectOk (s.mf.withCandidate c e) s.bw s.cap :=
    { hs with limits := { hs.limits with }, pending := fun hpv => { hs.pending hpv with } }
  have hfits : MatchFits (s.mf.withCandidate c e) (s.mf.ip.toNat - e.bmc) (c.rc + e.bmc) c.d := { hf with }
  have hle : s.mf.ip.toNat - e.bmc ≤ s.mf.ipo.toNat := by rw [hipo]; omega
  exact lazySelect_searchOk (s := s.setMf (s.mf.withCandidate c e)) hp hsel hfits hle (hipo ▸ hlt) (hipo ▸ hge)

/-- A pass of mode HI keeps the bounds or ends the command. -/
theorem searchHiPass_searchOk {s : State} (hp : s.phase = .searchHi) (h : s.searchOk) (hm : s.mf.more = true) :
    (searchHiPass s).searchOk := by
  have hok := (State.searchOk_searchHi hp).1 h
  have hlt := hok.search.ip_lt hm
  have hge := hok.search.ip_ge
  have hipa := hok.search.ipa_le_ip
  rcases searchHiPass_cases s with ⟨ht, heq⟩ | ⟨b, c, ht, hc, heq⟩ <;> rw [heq]
  · have hip : (s.mf.ip + 1).toNat = s.mf.ip.toNat + 1 := toNat_succ_of_lt (y := s.mf.ipe) (by omega)
    refine (State.searchOk_searchHi ?_).2 (hok.selectOk.moved (ipa := s.mf.ipa.toNat) rfl rfl hip rfl (by omega)
      (by omega) (by omega) hok.search.ipa_le_ipe hok.stream (fun hpv => { hok.pending hpv with }))
    exact hp
  · obtain ⟨hbest, h5⟩ := accepted_some hc
    have hhash : HiOk (hashStepHi s).mf s.bw s.cap :=
      { hok with
        search := { hok.search with }
        pending := fun hpv => { hok.pending hpv with } }
    refine searchHiMatch_searchOk ?_ hhash (probe7_best_bounds hlt hbest) (by omega)
      (Nat.lt_of_add_right_lt hlt) rfl
    exact hp

end Sys2Proof.Machine
end

section
/-! The bounds of both searches and the fit of `STATUS` to the phase, kept by every step (10_state.md R22, R24, R32,
R38; 44_hi_ratio_match_finder.md R257; 46_host_operations.md R331, R336, R337). -/

namespace Sys2Proof.Machine

/-! ### The bounds of both searches -/

/-- Outside the two searches the bounds say nothing. -/
theorem State.searchOk_of_not_searching {t : State} (hd : t.phase ≠ .search) (hh : t.phase ≠ .searchHi) :
    t.searchOk := by
  unfold State.searchOk
  split
  · exact absurd (by assumption) hd
  · exact absurd (by assumption) hh
  all_goals trivial

/-- BW's registers at the start of a search are sound, with nothing covered (R150). -/
theorem streamOk_writerStart (s : State) (mode : Mode) : StreamOk mode (writerStart s mode.mref).bw 0 where
  mref_eq := rfl
  carry := ⟨.inl rfl, fun h => absurd h (by decide : ¬ (0 : BitVec 2) = 3)⟩
  op_ge := Nat.le_refl 1
  op_le := by cases mode <;> exact Nat.le_refl _

/-- MF's registers at the start of a search with accepted arguments meet the bounds (R29, R331, R332). -/
theorem CompressAccepts.searchBounds {s : State} {bound : Nat} (h : CompressAccepts s bound) (mode : Mode) :
    SearchBounds (s.mf.begin mode s.srcl) (writerStart s mode.mref).bw s.dstl := by
  have hge := h.srcl_ge
  have hle := h.srcl_le
  have hipe := Finder.begin_ipe s.mf mode s.srcl (by omega)
  have hipet := Finder.begin_ipet s.mf mode s.srcl
  simp only [Config.lenMax] at hle
  have hlim : InputLimits (s.mf.begin mode s.srcl) s.dstl := by
    constructor <;> simp only [Config.litFin, Config.lenMax, hipe, hipet]
    · omega
    · omega
    · exact h.dstl_le
    · omega
  exact hlim.searchBounds (ip := 16) (ipa := 0) rfl rfl rfl rfl le_rfl (by omega) (Nat.zero_le _) (Nat.zero_le _)
    (streamOk_writerStart s mode)

theorem CompressAccepts.bound_le_cap {s : State} {f : Nat → Nat} (h : CompressAccepts s (f s.srcl.toNat))
    (mode : Mode) : f ((s.mf.begin mode s.srcl).ipe.toNat + Config.litFin) ≤ s.dstl.toNat := by
  have hge := h.srcl_ge
  rw [Finder.begin_ipe s.mf mode s.srcl (by omega), Nat.sub_add_cancel (by omega)]
  exact h.bound_le

theorem searchSetup_searchOk {s : State} (h : CompressAccepts s (boundDefault s.srcl.toNat)) :
    (searchSetup (s.beginCommand .default)).searchOk := by
  obtain ⟨ht, heq⟩ := searchSetup_eq (s.beginCommand .default)
  rw [heq]
  refine (State.searchOk_search ?_).2 ⟨h.searchBounds .default, streamOk_writerStart s .default,
    h.bound_le_cap (f := boundDefault) .default, ?_⟩
  · rfl
  · exact mavgOk_start

theorem searchHiSetup_searchOk {s : State} (h : CompressAccepts s (boundHi s.srcl.toNat)) :
    (searchHiSetup (s.beginCommand .hi)).searchOk := by
  obtain ⟨ht, heq⟩ := searchHiSetup_eq (s.beginCommand .hi)
  rw [heq]
  refine (State.searchOk_searchHi ?_).2 ⟨h.searchBounds .hi, streamOk_writerStart s .hi,
    h.bound_le_cap (f := boundHi) .hi, fun hpv => nomatch hpv⟩
  rfl

/-- The first step of a command ends it or starts something within the bounds. -/
theorem exec_command_searchOk {w : Word} {i : Instr} {s t : State} (hi : decodeCommand w = .ok i)
    (h : exec i s = .next t) : t.searchOk := by
  rcases exec_command_cases hi h with he | ⟨r, rfl⟩ | ⟨ha, rfl⟩ | ⟨ha, rfl⟩
  · exact he.searchOk
  · exact trivial
  · exact searchSetup_searchOk ha
  · exact searchHiSetup_searchOk ha

/-- A step of the engine keeps the bounds of both searches. -/
theorem engineStep_searchOk {s t : State} (hok : s.searchOk) (h : engineStep s = .next t) : t.searchOk := by
  rcases engineStep_cases h with ⟨-, rfl⟩ | ⟨-, rfl⟩ | ⟨-, i, hi, he⟩ | ⟨r, -, -, he⟩ | ⟨r, -, rfl⟩ |
    ⟨r, hp, -, he⟩ | ⟨r, -, -, rfl⟩ | ⟨hp, hm, rfl⟩ | ⟨-, -, rfl⟩ | ⟨hp, hm, rfl⟩ | ⟨-, -, rfl⟩
  · exact hok
  · exact hok
  · exact exec_command_searchOk hi he
  · cases he; exact trivial
  · exact (State.raise_ended _ _ _ _).searchOk
  · rcases exec_decodeBlock_ended_or_goesOn he with hend | ⟨hph, -⟩
    · exact hend.searchOk
    · rw [hp] at hph
      exact State.searchOk_of_not_searching (by simp [hph]) (by simp [hph])
  · exact (decodeEnd_ended s).searchOk
  · exact searchPass_searchOk hp hok hm
  · exact (searchEnd_ended s).searchOk
  · exact searchHiPass_searchOk hp hok hm
  · exact (searchHiEnd_ended s).searchOk

/-- An access of the host keeps them: it writes no register they speak of, unless it starts a command or resets. -/
theorem hostAccess_searchOk {s t : State} {a : HostAccess} (hok : s.searchOk) (h : hostAccess a s = .next t) :
    t.searchOk := by
  rcases hostAccess_engine_cases h with hk | ⟨hp, -⟩ | ⟨hp, -⟩
  · unfold State.searchOk at hok ⊢
    rwa [hk.phase_eq, hk.mf_eq, hk.bw_eq, hk.cap_eq]
  · exact State.searchOk_of_not_searching (by simp [hp]) (by simp [hp])
  · exact State.searchOk_of_not_searching (by simp [hp]) (by simp [hp])

/-! ### `STATUS` and the phase -/

theorem State.ended.statusOk {t : State} (h : t.ended) : t.statusOk := by
  obtain ⟨hidle, hdone⟩ := h
  unfold State.statusOk
  rw [if_pos hidle]
  exact .inr hdone

theorem State.statusOk_of_busy {t : State} (hp : t.phase ≠ .idle) (hb : t.status = statusBusy) : t.statusOk := by
  unfold State.statusOk
  rwa [if_neg hp]

/-- A command in progress shows `BUSY` alone. -/
theorem State.statusOk.busy {s : State} (h : s.statusOk) (hp : s.phase ≠ .idle) : s.status = statusBusy := by
  unfold State.statusOk at h
  rwa [if_neg hp] at h

/-- A command that goes on keeps the fit. -/
theorem State.statusOk.goesOn {s t : State} (h : s.statusOk) (hg : s.goesOn t) : t.statusOk := by
  obtain ⟨hp, hs⟩ := hg
  unfold State.statusOk at h ⊢
  rwa [hp, hs]

theorem exec_command_statusOk {w : Word} {i : Instr} {s t : State} (hi : decodeCommand w = .ok i)
    (h : exec i s = .next t) : t.statusOk := by
  rcases exec_command_cases hi h with he | ⟨r, rfl⟩ | ⟨-, rfl⟩ | ⟨-, rfl⟩
  · exact he.statusOk
  · exact State.statusOk_of_busy (by simp) rfl
  · obtain ⟨ht, heq⟩ := searchSetup_eq (s.beginCommand .default)
    exact heq ▸ State.statusOk_of_busy (by simp) rfl
  · obtain ⟨ht, heq⟩ := searchHiSetup_eq (s.beginCommand .hi)
    exact heq ▸ State.statusOk_of_busy (by simp) rfl

/-- A step of the engine keeps the fit of `STATUS`. -/
theorem engineStep_statusOk {s t : State} (hok : s.statusOk) (h : engineStep s = .next t) : t.statusOk := by
  have hkeep : t.ended ∨ s.goesOn t → t.statusOk := fun hc => hc.elim State.ended.statusOk hok.goesOn
  rcases engineStep_cases h with ⟨-, rfl⟩ | ⟨-, rfl⟩ | ⟨-, i, hi, he⟩ | ⟨r, hp, -, he⟩ | ⟨r, -, rfl⟩ |
    ⟨r, -, -, he⟩ | ⟨r, -, -, rfl⟩ | ⟨-, -, rfl⟩ | ⟨-, -, rfl⟩ | ⟨-, -, rfl⟩ | ⟨-, -, rfl⟩
  · exact hok
  · exact hok
  · exact exec_command_statusOk hi he
  · cases he
    exact State.statusOk_of_busy (by simp) (hok.busy (by simp [hp]))
  · exact (State.raise_ended _ _ _ _).statusOk
  · exact hkeep (exec_decodeBlock_ended_or_goesOn he)
  · exact (decodeEnd_ended s).statusOk
  · exact hkeep (searchPass_ended_or_goesOn s)
  · exact (searchEnd_ended s).statusOk
  · exact hkeep (searchHiPass_ended_or_goesOn s)
  · exact (searchHiEnd_ended s).statusOk

/-- An access of the host keeps it: only a start of a command and a reset change `STATUS` or the phase. -/
theorem hostAccess_statusOk {s t : State} {a : HostAccess} (hok : s.statusOk) (h : hostAccess a s = .next t) :
    t.statusOk := by
  rcases hostAccess_engine_cases h with hk | ⟨hp, hb⟩ | ⟨hp, hz⟩
  · exact hok.goesOn ⟨hk.phase_eq, hk.status_eq⟩
  · exact State.statusOk_of_busy (by simp [hp]) hb
  · unfold State.statusOk
    rw [if_pos hp]
    exact .inl hz

end Sys2Proof.Machine

namespace Sys2Proof.StateProofs

open Sys2Proof Sys2Proof.Machine Sys2Proof.Claims

/-- Settles O52: a pass covers input only by matches that end within it, each of which grows the stream by no more
than the compress bound allows for what it covers; all other steps end the search, start one, or leave its registers
alone. -/
theorem searchBoundsKept : Obligations.SearchBoundsKept := by
  unfold Obligations.SearchBoundsKept
  intro s t hok h
  rcases step_cases h with ⟨-, r, he⟩ | ⟨-, a, r, -, ha⟩
  · exact engineStep_searchOk (s := { s with hostScript := r }) hok he
  · exact hostAccess_searchOk (s := { s with hostScript := r }) hok ha

/-- Settles O56: every step starts a command, keeps the phase and `STATUS`, moves on inside a command, or ends it
with `DONE`. -/
theorem statusFitsThePhase : Obligations.StatusFitsThePhase := by
  unfold Obligations.StatusFitsThePhase
  intro s t hok h
  rcases step_cases h with ⟨-, r, he⟩ | ⟨-, a, r, -, ha⟩
  · exact engineStep_statusOk (s := { s with hostScript := r }) hok he
  · exact hostAccess_statusOk (s := { s with hostScript := r }) hok ha

/-- Settles O59: the memories are empty, `STATUS` is 0, and an idle machine is in none of the phases of which the
other invariants speak. -/
theorem resetMeetsTheInvariants : Obligations.ResetMeetsTheInvariants := by
  unfold Obligations.ResetMeetsTheInvariants
  have hsearch : State.reset.phase ≠ .search := by decide
  have hsearchHi : State.reset.phase ≠ .searchHi := by decide
  exact ⟨State.reset_memories_wf, .inl rfl, trivial, State.searchOk_of_not_searching hsearch hsearchHi,
    fun hp => absurd hp hsearch, fun hp => absurd hp hsearchHi⟩

end Sys2Proof.StateProofs
end

section
/-! The host's side of the interface: the command codes, which writes of `CMD` start a command, and what every other
access does (10_state.md R22 to R24, R34; 46_host_operations.md R330; 70_reset_and_hazards.md R403, R404, R412). -/

namespace Sys2Proof.Machine

/-! ### The command codes (10_state.md R23) -/

/-- Bits 2:0 of a word are its remainder by 8. -/
theorem commandCode_toNat (w : Word) : (w.extractLsb' 0 3).toNat = w.toNat % 8 := by
  rw [BitVec.extractLsb'_toNat, Nat.shiftRight_zero]

/-- A word with a code from 1 to 6 holds a command. -/
theorem decodeCommand_of_code {w : Word} (h1 : 1 ≤ w.toNat % 8) (h6 : w.toNat % 8 ≤ 6) :
    ∃ i, decodeCommand w = .ok i := by
  have hcodes : w.toNat % 8 = 1 ∨ w.toNat % 8 = 2 ∨ w.toNat % 8 = 3 ∨ w.toNat % 8 = 4 ∨ w.toNat % 8 = 5 ∨
      w.toNat % 8 = 6 := by omega
  unfold decodeCommand
  rw [commandCode_toNat]
  rcases hcodes with h | h | h | h | h | h <;> rw [h] <;> exact ⟨_, rfl⟩

/-- A word with code 0 or 7 holds none. -/
theorem decodeCommand_of_no_code {w : Word} (h : w.toNat % 8 = 0 ∨ w.toNat % 8 = 7) :
    decodeCommand w = .error .noCommand := by
  unfold decodeCommand
  rw [commandCode_toNat]
  rcases h with h | h <;> rw [h] <;> rfl

/-! ### The host's turn -/

/-- With an access of the host due, a step is that access, taken off the script. -/
theorem step_of_hostScript {s : State} {a : HostAccess} {rest : List HostAccess} (hs : s.hostScript = a :: rest)
    (ha : a ≠ .engineTurn) : step s = hostAccess a { s with hostScript := rest } := by
  unfold step
  rw [hs]
  cases a with
  | engineTurn => exact absurd rfl ha
  | _ => rfl

/-- While no command is in progress a write of a code starts its command (R22, R330). -/
theorem hostWriteCmd_of_idle {s : State} {v : Word} {i : Instr} (hb : s.busy = false)
    (hd : decodeCommand v = .ok i) :
    hostWriteCmd v s = { s with cmd := v, status := statusBusy, phase := .start, spoiled := false } := by
  simp [hostWriteCmd, hb, hd]

/-- A write of `CMD` while a command is in progress, or of a word that holds none, has no effect (R24). -/
theorem hostWriteCmd_ignored {s : State} {v : Word}
    (h : s.busy = true ∨ decodeCommand v = .error .noCommand) : hostWriteCmd v s = s := by
  unfold hostWriteCmd
  split
  · rfl
  · rename_i hb
    rw [h.resolve_left hb]

/-- A write of a read-only register has no effect (log 7). -/
theorem hostWriteReg_readOnly (s : State) {no : BitVec 3} (v : Word) (h3 : 3 ≤ no.toNat) (h5 : no.toNat ≤ 5) :
    hostWriteReg no v s = .next s := by
  have hno : no.toNat = 3 ∨ no.toNat = 4 ∨ no.toNat = 5 := by omega
  unfold hostWriteReg
  rcases hno with h | h | h <;> rw [h] <;> rfl

/-- There is no register 6 or 7 to write (log 8). -/
theorem hostWriteReg_none (s : State) {no : BitVec 3} (v : Word) (h6 : 6 ≤ no.toNat) :
    hostWriteReg no v s = .fault .noSuchRegister := by
  have hno : no.toNat = 6 ∨ no.toNat = 7 := by omega
  unfold hostWriteReg
  rcases hno with h | h <;> rw [h] <;> rfl

/-- There is no register 6 or 7 to read (log 8). -/
theorem hostReadReg_none (s : State) {no : BitVec 3} (h6 : 6 ≤ no.toNat) :
    hostReadReg no s = .fault .noSuchRegister := by
  have hno : no.toNat = 6 ∨ no.toNat = 7 := by omega
  unfold hostReadReg
  rcases hno with h | h <;> rw [h] <;> rfl

/-! ### The host's accesses of the memories -/

theorem hostWriteSrc_inside (s : State) {a : Nat} (b : Byte) (h : a < Config.lenMax) :
    hostWriteSrc a b s = .next { s with src := s.src.write a b, spoiled := s.spoiled || s.busy } := if_pos h

theorem hostWriteDst_inside (s : State) {a : Nat} (b : Byte) (h : a < Config.lenMax) :
    hostWriteDst a b s = .next { s with dst := s.dst.write a b, spoiled := s.spoiled || s.busy } := if_pos h

/-- While no command is in progress a read of DST gives the byte (R34). -/
theorem hostReadDst_of_idle {s : State} {a : Nat} (h : a < Config.lenMax) (hb : s.busy = false) :
    hostReadDst a s = .next (s.hostGot ((s.dst.read a).setWidth 32)) := by
  simp [hostReadDst, h, hb]

/-- While one is, a read of DST gives a free byte and marks the command (R412, log 5). -/
theorem hostReadDst_of_busy {s : State} {a : Nat} (h : a < Config.lenMax) (hb : s.busy = true) :
    hostReadDst a s = .next { s.hostGot ((Config.freeByte s.draws a).setWidth 32) with
      draws := s.draws + 1, spoiled := true } := by
  simp [hostReadDst, h, hb]

theorem hostWriteSrc_outside (s : State) {a : Nat} (b : Byte) (h : Config.lenMax ≤ a) :
    hostWriteSrc a b s = .fault .noSuchIndex := if_neg (Nat.not_lt.2 h)

theorem hostWriteDst_outside (s : State) {a : Nat} (b : Byte) (h : Config.lenMax ≤ a) :
    hostWriteDst a b s = .fault .noSuchIndex := if_neg (Nat.not_lt.2 h)

theorem hostReadDst_outside (s : State) {a : Nat} (h : Config.lenMax ≤ a) :
    hostReadDst a s = .fault .noSuchIndex := if_neg (Nat.not_lt.2 h)

end Sys2Proof.Machine

namespace Sys2Proof.StateProofs

open Sys2Proof Sys2Proof.Machine Sys2Proof.Claims

/-- A write of one byte leaves every other byte. -/
theorem sameOutside_write (m : Memory) (a : Nat) (b : Byte) : sameOutside m (m.write a b) a 1 :=
  fun c hc => Memory.read_write_other m b (by omega)

/-- Settles O5, by the value of bits 2:0. -/
theorem commandCodesSelectCommands : Obligations.CommandCodesSelectCommands := by
  unfold Obligations.CommandCodesSelectCommands
  intro w
  have hcode : ∀ n, w.toNat % 8 = n → (w.extractLsb' 0 3).toNat = n := fun n h => (commandCode_toNat w).trans h
  refine ⟨?_, ?_, ?_, ?_, ?_, ?_, ?_⟩
  case refine_7 =>
    intro h i hi
    have hnone : decode (.command w) = .error .noCommand := decodeCommand_of_no_code h
    rw [hnone] at hi
    cases hi
  all_goals
    intro h
    simp only [decode, decodeCommand, hcode _ h]

/-- Settles O23, by whether the word holds a command and `BUSY` is 0. -/
theorem commandWriteStarts : Obligations.CommandWriteStarts := by
  unfold Obligations.CommandWriteStarts
  intro s v rest hs
  have hstep : step s = .next (hostWriteCmd v { s with hostScript := rest }) :=
    step_of_hostScript hs HostAccess.noConfusion
  rw [hstep]
  constructor
  · intro hb h1 h6
    obtain ⟨i, hi⟩ := decodeCommand_of_code h1 h6
    rw [hostWriteCmd_of_idle (s := { s with hostScript := rest }) hb hi]
    exact ⟨_, rfl, rfl, rfl⟩
  · intro h
    rw [hostWriteCmd_ignored (s := { s with hostScript := rest }) (h.imp_right decodeCommand_of_no_code)]

/-- Settles O24, one clause for each access of the host. -/
theorem hostAccessesLand : Obligations.HostAccessesLand := by
  unfold Obligations.HostAccessesLand
  intro s no v a b rest broken
  have hstep : ∀ {h : HostAccess}, s.hostScript = h :: rest → h ≠ .engineTurn →
      step s = hostAccess h { s with hostScript := rest } := step_of_hostScript
  refine ⟨?writeSrcl, ?writeDstl, ?writeReadOnly, ?writeSrc, ?writeDst, ?readCmd, ?readSrcl, ?readDstl, ?readStatus,
    ?readResult, ?readWritten, ?readDst, ?noRegister, ?noIndex⟩
  case writeReadOnly =>
    intro hs h3 h5
    exact (hstep hs HostAccess.noConfusion).trans (hostWriteReg_readOnly _ v h3 h5)
  case writeSrc =>
    intro hs ha
    exact ⟨_, (hstep hs HostAccess.noConfusion).trans (hostWriteSrc_inside _ b ha), rfl,
      Memory.read_write_same s.src a b, sameOutside_write s.src a b⟩
  case writeDst =>
    intro hs ha
    exact ⟨_, (hstep hs HostAccess.noConfusion).trans (hostWriteDst_inside _ b ha), rfl,
      Memory.read_write_same s.dst a b, sameOutside_write s.dst a b⟩
  case readCmd =>
    intro hs
    exact ⟨_, hstep hs HostAccess.noConfusion, rfl⟩
  case readDst =>
    intro hs ha
    have hread : step s = hostReadDst a { s with hostScript := rest } := hstep hs HostAccess.noConfusion
    cases hb : s.status.getLsbD 0 with
    | false =>
      refine ⟨_, hread.trans (hostReadDst_of_idle ha hb), fun _ => ⟨rfl, ?_⟩, fun h => absurd h Bool.false_ne_true⟩
      exact BitVec.toNat_setWidth_of_le (by decide)
    | true =>
      exact ⟨_, hread.trans (hostReadDst_of_busy ha hb), fun h => absurd h.symm Bool.false_ne_true, fun _ => rfl⟩
  case noRegister =>
    rintro (hs | hs) h6
    · exact (hstep hs HostAccess.noConfusion).trans (hostWriteReg_none _ v h6)
    · exact (hstep hs HostAccess.noConfusion).trans (hostReadReg_none _ h6)
  case noIndex =>
    rintro (hs | hs | hs) ha
    · exact (hstep hs HostAccess.noConfusion).trans (hostWriteSrc_outside _ b ha)
    · exact (hstep hs HostAccess.noConfusion).trans (hostWriteDst_outside _ b ha)
    · exact (hstep hs HostAccess.noConfusion).trans (hostReadDst_outside _ ha)
  all_goals
    intro hs
    exact hstep hs HostAccess.noConfusion

end Sys2Proof.StateProofs
end

section
/-! The three memories: every operation keeps their canonical form, and the engine stores in DST only below the
capacity of its command (20_memory.md R60, R61, R63; 45_decoder.md R300; 46_host_operations.md R331, R337;
70_reset_and_hazards.md R412). -/

namespace Sys2Proof.Machine

/-! ### The dictionary in HT (42_hash_dictionary.md R186 to R188, R199) -/

theorem miss2_wf {ht : Memory} (b : Nat) (iw1 ipo : Word) (h : ht.wf = true) : (miss2 ht b iw1 ipo).wf = true :=
  Memory.wf_setHtWord _ _ _ (Memory.wf_setHtWord _ _ _ h)

theorem refresh2_wf {ht : Memory} (b : Nat) (hit : Slot) (ipo : Word) (h : ht.wf = true) :
    (refresh2 ht b hit ipo).wf = true := Memory.wf_setHtWord _ _ _ h

theorem hit2_wf {ht : Memory} (b : Nat) (hit : Slot) (iw1 ipo : Word) (d : Nat) (h : ht.wf = true) :
    (hit2 ht b hit iw1 ipo d).wf = true := by
  unfold hit2
  split
  · iterate 4 apply Memory.wf_setHtWord
    exact h
  · exact refresh2_wf b hit ipo h

theorem miss7_wf {ht : Memory} (b : Nat) (iw1 ipo : Word) (h : ht.wf = true) : (miss7 ht b iw1 ipo).wf = true := by
  simp only [miss7]
  iterate 3 apply Memory.wf_setHtWord
  exact h

/-! ### The writer's blocks, wherever `op` is -/

theorem writerLiteral_wf {s t : State} {q lc ipa : Nat} (h : writerLiteral s q lc ipa = some t)
    (hw : s.dst.wf = true) : t.dst.wf = true := by
  rcases writerLiteral_cases s q lc ipa with ⟨h', -⟩ | ⟨bs, -, -, h'⟩ <;> rw [h'] at h <;> cases h
  exact Memory.wf_copyFrom _ _ _ _ (Memory.wf_writeBytes _ _ hw)

theorem writerReference_wf {s : State} (p rcp : Nat) (hw : s.dst.wf = true) :
    (writerReference s p rcp).dst.wf = true :=
  Memory.wf_writeBytes _ _ (Memory.wf_writeLE _ _ _ hw)

theorem writeBlk_wf {s t : State} {lc rc d ipa : Nat} (h : writeBlk s lc rc d ipa = some t)
    (hw : s.dst.wf = true) : t.dst.wf = true := by
  have hdep := fun c3 => writerDeposit_wf c3 hw
  simp only [writeBlk] at h
  split at h
  · split at h
    · rename_i u hu
      cases h
      exact writerReference_wf _ _ (writerLiteral_wf hu (hdep _))
    · cases h
  · cases h
    exact writerReference_wf _ _ (hdep _)

/-- `WRITE_BLK` keeps the canonical form. -/
theorem writeBlk_memWf {s t : State} {lc rc d ipa : Nat} (h : writeBlk s lc rc d ipa = some t) (hw : s.memWf) :
    t.memWf := by
  obtain ⟨hsrc, hdst, hht⟩ := hw
  have hdst' := writeBlk_wf h hdst
  rw [writeBlk_frame h]
  exact ⟨hsrc, hdst', hht⟩

/-- `FINALIZE` keeps the canonical form. -/
theorem finalize_memWf {s t : State} {lc ipa : Nat} (h : finalize s lc ipa = some t) (hw : s.memWf) : t.memWf := by
  obtain ⟨hsrc, hdst, hht⟩ := hw
  have hdst' : t.dst.wf = true := writerLiteral_wf (q := 0) h hdst
  rw [finalize_frame h]
  exact ⟨hsrc, hdst', hht⟩

/-! ### Sound memories, with DST kept beyond a capacity -/

/-- The memories of `s` are in canonical form, and its DST reads as `m` at and beyond `cap`. -/
def MemOk (cap : Nat) (m : Memory) (s : State) : Prop :=
  s.memWf ∧ ∀ a, cap ≤ a → s.dst.read a = m.read a

section
variable {cap : Nat} {m : Memory} {s t : State}

theorem State.memWf.memOk (cap : Nat) (h : s.memWf) : MemOk cap s.dst s := ⟨h, fun _ _ => rfl⟩

theorem MemOk.memWf (h : MemOk cap m s) : s.memWf := h.1

theorem MemOk.read_eq (h : MemOk cap m s) {a : Nat} (ha : cap ≤ a) : s.dst.read a = m.read a := h.2 a ha

theorem MemOk.setBd (h : MemOk cap m s) (bd : Decoder) : MemOk cap m (s.setBd bd) := h

/-- Other contents of HT do not touch DST. -/
theorem MemOk.setHt (h : MemOk cap m s) {ht : Memory} (hht : s.ht.wf = true → ht.wf = true) :
    MemOk cap m (s.setHt ht) := by
  obtain ⟨⟨hsrc, hdst, hwf⟩, hread⟩ := h
  exact ⟨⟨hsrc, hdst, hht hwf⟩, hread⟩

/-- A change of DST alone that reads as before from `cap` on. -/
theorem MemOk.setDst (h : MemOk cap m s) {dst : Memory} (hwf : s.dst.wf = true → dst.wf = true)
    (hread : s.dst.wf = true → ∀ a, cap ≤ a → dst.read a = s.dst.read a) : MemOk cap m (s.setDst dst) := by
  obtain ⟨⟨hsrc, hdst, hht⟩, hm⟩ := h
  exact ⟨⟨hsrc, hwf hdst, hht⟩, fun a ha => (hread hdst a ha).trans (hm a ha)⟩

/-! ### The end of a command (46_host_operations.md R330; 70_reset_and_hazards.md R412) -/

theorem MemOk.freeDst (h : MemOk cap m s) (hc : s.cap.toNat ≤ cap) : MemOk cap m s.freeDst :=
  h.setDst (Memory.wf_fill 0 s.cap.toNat (Config.freeByte s.draws)) fun hw a ha => by
    rw [Memory.read_fill _ _ _ _ hw, if_neg (by omega)]

/-- A command that ends leaves DST as it is, or free below its capacity. -/
theorem MemOk.endCommand (h : MemOk cap m s) (hc : s.cap.toNat ≤ cap) (r w : Word) :
    MemOk cap m (s.endCommand r w) := by
  unfold State.endCommand
  split
  · exact h.freeDst hc
  · exact h

theorem MemOk.raise (h : MemOk cap m s) (hc : s.cap.toNat ≤ cap) (r : Report) (e : DecodeFault) (w : Nat) :
    MemOk cap m (s.raise r e w) :=
  (h.setBd { s.bd with st := BitVec.ofNat 3 e.number }).endCommand hc _ _

theorem MemOk.encoderFault (h : MemOk cap m s) (hc : s.cap.toNat ≤ cap) : MemOk cap m (encoderFault s) :=
  (h.freeDst hc).endCommand hc 0 0

/-! ### The start of a command -/

theorem MemOk.decodeStart (h : MemOk s.dstl.toNat m s) (r : Report) : MemOk s.dstl.toNat m (decodeStart r s) := by
  have hbegun : MemOk s.dstl.toNat m (s.beginCommand .default) := h
  simp only [Machine.decodeStart]
  split
  · exact hbegun.raise le_rfl _ _ _
  · split
    · split
      · exact hbegun.endCommand le_rfl _ _
      · exact hbegun.raise le_rfl _ _ _
    · exact h

/-- `START` stores one byte (41_block_writer.md R150). -/
theorem MemOk.writerStart (h : MemOk cap m s) (mref : BitVec 3) (hc : 1 ≤ cap) : MemOk cap m (writerStart s mref) :=
  h.setDst (Memory.wf_write 0 (BitVec.ofNat 8 (2 * 16 + mref.toNat))) fun _ a ha =>
    Memory.read_write_other _ _ (by omega)

theorem MemOk.putBytes (h : MemOk cap m s) (bs : List Byte) (hc : s.bw.op.toNat + bs.length ≤ cap) :
    MemOk cap m (s.putBytes bs) :=
  h.setDst (Memory.wf_writeBytes s.bw.op.toNat bs) fun _ a ha => by
    rw [Memory.read_writeBytes, if_neg (by omega)]

theorem MemOk.putLiterals (h : MemOk cap m s) (ipa lc : Nat) (hc : s.bw.op.toNat + lc ≤ cap) :
    MemOk cap m (s.putLiterals ipa lc) :=
  h.setDst (Memory.wf_copyFrom s.src s.bw.op.toNat ipa lc) fun _ a ha => by
    rw [Memory.read_copyFrom, if_neg (by omega)]

/-- The short form of fewer than 16 bytes takes at most two bytes more than the larger of these and six
(41_block_writer.md R161). -/
theorem MemOk.shortForm (h : MemOk cap m s) (mref : BitVec 3) {n : Nat} (hn : n < 16) (hc : 2 + max n 6 ≤ cap) :
    MemOk cap m (shortForm s mref n) := by
  have hop : (Machine.writerStart s mref).bw.op.toNat = 1 := rfl
  have hcount : ((Machine.writerStart s mref).putBytes [BitVec.ofNat 8 n]).bw.op.toNat = 2 := rfl
  have hlits := State.putLiterals_op_toNat ((Machine.writerStart s mref).putBytes [BitVec.ofNat 8 n]) 0 n (by omega)
  have hzeros : (List.replicate (6 - n) (0 : Byte)).length = 6 - n := List.length_replicate
  have hstarted := h.writerStart mref (by omega)
  have hcounted := hstarted.putBytes [BitVec.ofNat 8 n] (by rw [hop, List.length_singleton]; omega)
  have hcopied := hcounted.putLiterals 0 n (by omega)
  exact hcopied.putBytes (List.replicate (6 - n) 0) (by omega)

theorem MemOk.searchSetup (h : MemOk cap m s) (hc : 1 ≤ cap) : MemOk cap m (searchSetup s) := by
  have hstart := h.writerStart 6 hc
  simp only [Machine.searchSetup]
  split
  · exact hstart.setHt (initTable2_wf s.src (tableSize Config.htMaxDefault s.srcl.toNat))
  · exact hstart

theorem MemOk.searchHiSetup (h : MemOk cap m s) (hc : 1 ≤ cap) : MemOk cap m (searchHiSetup s) := by
  have hstart := h.writerStart 5 hc
  simp only [Machine.searchHiSetup]
  split
  · exact hstart.setHt (initTable7_wf s.src (tableSize Config.htMaxHi s.srcl.toNat))
  · exact hstart

/-- The bound of mode DEFAULT has room for the bytes, one more for each 150 of them, and 16 (R336). -/
theorem le_boundDefault (n : Nat) : n + n / 150 + 16 ≤ boundDefault n := by
  simp only [boundDefault]
  split <;> omega

/-- The bound of mode HI has room for the bytes, one more for each 21 of them, and 16 (R336). -/
theorem le_boundHi (n : Nat) : n + n / 21 + 16 ≤ boundHi n := by
  simp only [boundHi]
  split <;> omega

theorem le_dstl_of_not_compressRejects {bound : Nat} (h : ¬ compressRejects s bound = true) :
    bound ≤ s.dstl.toNat := by
  simp only [compressRejects, Bool.or_eq_true, decide_eq_true_eq, not_or, not_lt] at h
  exact h.2

theorem MemOk.execCompress (h : MemOk s.dstl.toNat m s) (he : execCompress s = .next t) :
    MemOk s.dstl.toNat m t := by
  have hbegun : MemOk s.dstl.toNat m (s.beginCommand .default) := h
  have hbound := le_boundDefault s.srcl.toNat
  simp only [Machine.execCompress] at he
  split at he
  · cases he
    exact hbegun.endCommand le_rfl 0 0
  · rename_i hr
    have hle := le_dstl_of_not_compressRejects hr
    split at he
    · rename_i hn
      cases he
      exact (hbegun.shortForm 6 hn (by omega)).endCommand le_rfl _ _
    · cases he
      exact hbegun.searchSetup (by omega)

theorem MemOk.execCompressHi (h : MemOk s.dstl.toNat m s) (he : execCompressHi s = .next t) :
    MemOk s.dstl.toNat m t := by
  have hbegun : MemOk s.dstl.toNat m (s.beginCommand .hi) := h
  have hbound := le_boundHi s.srcl.toNat
  simp only [Machine.execCompressHi] at he
  split at he
  · cases he
    exact hbegun.endCommand le_rfl 0 0
  · rename_i hr
    have hle := le_dstl_of_not_compressRejects hr
    split at he
    · rename_i hn
      cases he
      exact (hbegun.shortForm 5 hn (by omega)).endCommand le_rfl _ _
    · cases he
      exact hbegun.searchHiSetup (by omega)

/-- The first step of a command stores only below the capacity it reads then, whatever its arguments are. -/
theorem MemOk.exec_command {w : Word} {i : Instr} (h : MemOk s.dstl.toNat m s) (hi : decodeCommand w = .ok i)
    (he : exec i s = .next t) : MemOk s.dstl.toNat m t := by
  have hbegun : MemOk s.dstl.toNat m (s.beginCommand .default) := h
  rcases decodeCommand_ok hi with rfl | rfl | rfl | rfl | rfl | rfl
  case inl => exact h.execCompress he
  case inr.inl => exact h.execCompressHi he
  case inr.inr.inl => cases he; exact h.decodeStart .full
  case inr.inr.inr.inl => cases he; exact h.decodeStart .bestEffort
  all_goals
    cases he
    exact hbegun.endCommand le_rfl _ _

/-! ### The blocks and the end of a stream (45_decoder.md R285, R290, R298, R300) -/

/-- A literal block copies into DST up to `ope` at most; what follows is the end of the command, if any. -/
theorem literalBlock_memories (bh : Byte) (head cc : Nat) (s : State) :
    ∃ n, n ≤ s.bd.ope.toNat - s.bd.op.toNat ∧
      ∀ {cap m}, MemOk cap m (s.setDst (s.dst.copyFrom s.src s.bd.op.toNat (s.bd.ip.toNat + head) n)) →
        s.cap.toNat ≤ cap → MemOk cap m (literalBlock bh head cc s) := by
  rcases literalBlock_cases bh head cc s with ⟨-, h⟩ | ⟨-, -, h⟩ | ⟨-, hfit, h⟩ <;> rw [h]
  · exact ⟨_, Nat.min_le_right (s.bd.ipe.toNat - (s.bd.ip.toNat + head)) _,
      fun hcopy hc => (hcopy.setBd (s.bd.afterLiteralHead bh head cc)).raise hc _ _ _⟩
  · exact ⟨_, le_rfl, fun hcopy hc => (hcopy.setBd (s.bd.afterLiteralHead bh head cc)).raise hc _ _ _⟩
  · exact ⟨cc, by omega, fun hcopy _ => hcopy⟩

/-- A reference block copies inside DST up to `ope` at most; what follows is the end of the command, if any. -/
theorem referenceBlock_memories (bh : Byte) (o lenBytes cc : Nat) (s : State) :
    ∃ b n, n ≤ s.bd.ope.toNat - s.bd.op.toNat ∧
      ∀ {cap m}, MemOk cap m (s.setDst (s.dst.copyWithin s.bd.op.toNat b n)) →
        s.cap.toNat ≤ cap → MemOk cap m (referenceBlock bh o lenBytes cc s) := by
  rcases referenceBlock_cases bh o lenBytes cc s with ⟨-, h⟩ | ⟨-, -, h⟩ | ⟨-, hfit, h⟩ <;> rw [h]
  · exact ⟨0, 0, Nat.zero_le _, fun hcopy hc => (hcopy.setBd (s.bd.afterOffset bh o)).raise hc _ _ _⟩
  · exact ⟨s.bd.op.toNat - assembleOffset (headerQ bh) o s.bd.csh s.bd.cv, _, le_rfl,
      fun hcopy hc => (hcopy.setBd _).raise hc _ _ _⟩
  · exact ⟨_, cc, by omega, fun hcopy _ => hcopy⟩

theorem exec_decodeBlock_memWf {bs : List Byte} (hw : s.memWf) (he : exec (decodeBlock bs) s = .next t) :
    t.memWf := by
  obtain ⟨hsrc, hdst, hht⟩ := hw
  rcases exec_decodeBlock_cases bs s with ⟨bh, head, cc, h⟩ | ⟨bh, o, lenBytes, cc, h⟩ <;>
    (rw [h] at he; cases he)
  · obtain ⟨n, -, hblock⟩ := literalBlock_memories bh head cc s
    have hcopy : (s.setDst (s.dst.copyFrom s.src s.bd.op.toNat (s.bd.ip.toNat + head) n)).memWf :=
      ⟨hsrc, Memory.wf_copyFrom _ _ _ _ hdst, hht⟩
    exact (hblock (hcopy.memOk _) le_rfl).memWf
  · obtain ⟨b, n, -, hblock⟩ := referenceBlock_memories bh o lenBytes cc s
    have hcopy : (s.setDst (s.dst.copyWithin s.bd.op.toNat b n)).memWf :=
      ⟨hsrc, Memory.wf_copyWithin _ _ _ hdst, hht⟩
    exact (hblock (hcopy.memOk _) le_rfl).memWf

/-- With `op ≤ ope` a block stores only below `ope`, which is the capacity. -/
theorem MemOk.exec_decodeBlock {bs : List Byte} (h : MemOk s.cap.toNat m s) (hb : DecoderBounds s.bd s.cap)
    (he : exec (decodeBlock bs) s = .next t) : MemOk s.cap.toNat m t := by
  have hop := hb.op_le
  have hcap : s.cap.toNat = s.bd.ope.toNat := by rw [hb.ope_cap]
  rcases exec_decodeBlock_cases bs s with ⟨bh, head, cc, hx⟩ | ⟨bh, o, lenBytes, cc, hx⟩ <;>
    (rw [hx] at he; cases he)
  · obtain ⟨n, hn, hblock⟩ := literalBlock_memories bh head cc s
    refine hblock (h.setDst (Memory.wf_copyFrom _ _ _ _) fun _ a ha => ?_) le_rfl
    rw [Memory.read_copyFrom, if_neg (by omega)]
  · obtain ⟨b, n, hn, hblock⟩ := referenceBlock_memories bh o lenBytes cc s
    refine hblock (h.setDst (Memory.wf_copyWithin _ _ _) fun _ a ha => ?_) le_rfl
    exact Memory.read_copyWithin_outside _ _ _ _ _ (.inr (by omega))

theorem MemOk.decodeEnd (h : MemOk cap m s) (hc : s.cap.toNat ≤ cap) : MemOk cap m (decodeEnd s) := by
  unfold Machine.decodeEnd
  split
  · exact h.endCommand hc _ _
  · exact h.raise hc _ _ _

/-! ### `WRITE_BLK` and `FINALIZE` in a search -/

/-- The state that `WRITE_BLK` leaves, or `s` if it is an EncoderFault. -/
def afterBlk (s : State) (lc rc d ipa : Nat) : State := (writeBlk s lc rc d ipa).getD s

theorem afterBlk_of_none {lc rc d ipa : Nat} (h : writeBlk s lc rc d ipa = none) : afterBlk s lc rc d ipa = s := by
  rw [afterBlk, h, Option.getD_none]

theorem afterBlk_of_some {lc rc d ipa : Nat} (h : writeBlk s lc rc d ipa = some t) :
    afterBlk s lc rc d ipa = t := by
  rw [afterBlk, h, Option.getD_some]

theorem afterBlk_memWf (lc rc d ipa : Nat) (hw : s.memWf) : (afterBlk s lc rc d ipa).memWf := by
  cases h : writeBlk s lc rc d ipa with
  | none => rwa [afterBlk_of_none h]
  | some t => exact afterBlk_of_some h ▸ writeBlk_memWf h hw

/-- The capacity of a search of `n` bytes in the mode has room for the bytes, one more for each piece of them, and
16 (46_host_operations.md R331, R337). -/
structure RoomFor (mode : Mode) (n cap : Nat) : Prop where
  bound_le : n + n / mode.piece + 16 ≤ cap
  cap_le : cap ≤ Config.lenMax

/-- What is not covered yet fits behind the stream, with 15 bytes to spare. -/
theorem StreamOk.room {mode : Mode} {w : Writer} {covered n : Nat} (h : StreamOk mode w covered)
    (hr : RoomFor mode n cap) (hc : covered ≤ n) : w.op.toNat + (n - covered) + 15 ≤ cap := by
  have ho := h.op_le
  have hb := hr.bound_le
  cases mode <;> simp only [Mode.piece] at ho hb <;> omega

theorem RoomFor.length_le {mode : Mode} {n : Nat} (h : RoomFor mode n cap) : n ≤ Config.lenMax := by
  have hle := h.bound_le
  have hcap := h.cap_le
  cases mode <;> simp only [Mode.piece] at hle <;> omega

/-- A match within the input is written below the capacity. -/
theorem MemOk.afterBlk {mode : Mode} {lc rc d ipa n : Nat} (h : MemOk cap m s) (hs : StreamOk mode s.bw ipa)
    (hr : RoomFor mode n cap) (hrc : mode.mref.toNat ≤ rc) (hfit : ipa + lc + rc ≤ n) :
    MemOk cap m (afterBlk s lc rc d ipa) := by
  cases hb : writeBlk s lc rc d ipa with
  | none => rwa [afterBlk_of_none hb]
  | some t =>
    have hmax := hr.cap_le
    have hroom := hs.room hr (by omega)
    have hstop := (writeBlk_streamOk hb hs hrc (hfit.trans hr.length_le)).room hr hfit
    simp only [Config.lenMax] at hmax
    obtain ⟨-, -, -, hread, -⟩ := writeBlk_some hb (by omega)
    rw [afterBlk_of_some hb]
    exact ⟨writeBlk_memWf hb h.memWf, fun a ha => (hread a (.inr ⟨by omega, hs.carry⟩)).trans (h.read_eq ha)⟩

/-- The end of the input is an EncoderFault, or the end of the command after the terminal block
(43_default_match_finder.md R225). -/
theorem searchEnd_cases (s : State) :
    searchEnd s = encoderFault s ∨
    (∃ t, finalize s (s.mf.ipe.toNat - s.mf.ipa.toNat + Config.litFin) s.mf.ipa.toNat = some t ∧
      t.cap = s.cap ∧ searchEnd s = compressDone t) := by
  unfold searchEnd
  split
  · exact .inl rfl
  · rename_i t h
    exact .inr ⟨t, h, by rw [finalize_frame h], rfl⟩

theorem searchEnd_memWf (hw : s.memWf) : (searchEnd s).memWf := by
  rcases searchEnd_cases s with h | ⟨t, ht, -, h⟩ <;> rw [h]
  · exact ((hw.memOk _).encoderFault le_rfl).memWf
  · exact (((finalize_memWf ht hw).memOk _).endCommand le_rfl _ _).memWf

/-- The terminal block with the rest of the input is written below the capacity. -/
theorem MemOk.searchEnd {mode : Mode} (h : MemOk s.cap.toNat m s) (hs : StreamOk mode s.bw s.mf.ipa.toNat)
    (hr : RoomFor mode (s.mf.ipe.toNat + Config.litFin) s.cap.toNat) (hipa : s.mf.ipa.toNat ≤ s.mf.ipe.toNat) :
    MemOk s.cap.toNat m (searchEnd s) := by
  rcases searchEnd_cases s with heq | ⟨t, ht, hcap, heq⟩ <;> rw [heq]
  · exact h.encoderFault le_rfl
  · have hmax := hr.cap_le
    have hroom := hs.room hr (by omega)
    have hhead := literalHeadLength_le (s.mf.ipe.toNat - s.mf.ipa.toNat + 6)
    simp only [Config.litFin, Config.lenMax] at hmax hroom
    obtain ⟨-, hop, hread, -⟩ := writerLiteral_some (q := 0) ht (by simp only [Config.litFin]; omega)
    simp only [Config.litFin] at hop
    have hwritten : MemOk s.cap.toNat m t :=
      ⟨finalize_memWf ht h.memWf, fun a ha => (hread a (.inr (by omega))).trans (h.read_eq ha)⟩
    exact hwritten.endCommand (hcap ▸ le_rfl) _ _

/-! ### A pass of mode DEFAULT -/

theorem MemOk.searchMiss (h : MemOk cap m s) (b : Nat) : MemOk cap m (searchMiss s b) :=
  h.setHt (miss2_wf b s.mf.iw1 s.mf.ipo)

/-- A hit is rejected without a store in DST, or it is a match at least 8 bytes back (R218). -/
theorem searchHit_memories (s : State) (b : Nat) (hit : Slot) (wp : Word) :
    (∀ {cap m}, MemOk cap m s → MemOk cap m (searchHit s b hit wp)) ∨
    (8 ≤ (s.mf.hitAt wp).d.toNat ∧ searchHit s b hit wp = searchMatch (s.setMf (s.mf.hitAt wp)) b hit) := by
  rw [Finder.hitAt_d]
  simp only [searchHit]
  split
  · exact .inl fun h => h
  · split
    · exact .inl fun h => h.setHt (refresh2_wf b hit s.mf.ipo)
    · exact .inr ⟨by omega, rfl⟩

/-- The state after `WRITE_BLK` of the match of a DEFAULT pass. -/
def afterMatchBlk (s : State) : State :=
  afterBlk (s.setMf (s.mf.extended (extendHit s.src s.mf)))
    (s.mf.ip.toNat - s.mf.ipa.toNat - (extendHit s.src s.mf).bmc)
    ((extendHit s.src s.mf).fwd + (extendHit s.src s.mf).bmc) s.mf.d.toNat s.mf.ipa.toNat

theorem afterMatchBlk_memWf (hw : s.memWf) : (afterMatchBlk s).memWf :=
  afterBlk_memWf (s := s.setMf (s.mf.extended (extendHit s.src s.mf))) _ _ _ _ hw

/-- After its `WRITE_BLK` a match changes HT, or ends the command in an EncoderFault. -/
theorem searchMatch_memories (b : Nat) (hit : Slot) (h : MemOk cap m (afterMatchBlk s)) (hc : s.cap.toNat ≤ cap) :
    MemOk cap m (searchMatch s b hit) := by
  unfold afterMatchBlk at h
  simp only [searchMatch]
  split
  · rename_i hw
    rw [afterBlk_of_none hw] at h
    exact h.encoderFault hc
  · rename_i t hw
    rw [afterBlk_of_some hw] at h
    exact h.setHt (hit2_wf b hit s.mf.iw1 s.mf.ipo s.mf.d.toNat)

theorem searchPass_memWf (hw : s.memWf) : (searchPass s).memWf := by
  have hhash : MemOk s.cap.toNat s.dst (hashStep s) := hw.memOk _
  rcases searchPass_cases s with ⟨b, h⟩ | ⟨b, hit, wp, h⟩ <;> rw [h]
  · exact (hhash.searchMiss b).memWf
  · rcases searchHit_memories (hashStep s) b hit wp with hno | ⟨-, h⟩
    · exact (hno hhash).memWf
    · have hblk := afterMatchBlk_memWf (s := (hashStep s).setMf ((hashStep s).mf.hitAt wp)) hw
      rw [h]
      exact (searchMatch_memories b hit (hblk.memOk _) le_rfl).memWf

theorem DefaultOk.room {f : Finder} {w : Writer} {c : Word} (h : DefaultOk f w c) :
    RoomFor .default (f.ipe.toNat + Config.litFin) c.toNat :=
  ⟨(le_boundDefault _).trans h.bound_le, h.search.cap_le⟩

/-- A match of mode DEFAULT ends within the input, so it is written below the capacity. -/
theorem MemOk.searchMatch (h : MemOk s.cap.toNat m s) (hs : DefaultOk s.mf s.bw s.cap) (hm : s.mf.more = true)
    (hd : 8 ≤ s.mf.d.toNat) (b : Nat) (hit : Slot) : MemOk s.cap.toNat m (searchMatch s b hit) := by
  have hipa := hs.search.ipa_le_ip
  obtain ⟨hfwd, hsum, -, -, hstop, hbmc, -⟩ := extendHit_bounds s.src s.mf hd (hs.search.ip_lt hm) hipa
  refine searchMatch_memories b hit ?_ le_rfl
  exact MemOk.afterBlk (mode := .default) (s := s.setMf (s.mf.extended (extendHit s.src s.mf))) h hs.stream hs.room
    (show 6 ≤ (extendHit s.src s.mf).fwd + (extendHit s.src s.mf).bmc by omega) (by omega)

theorem MemOk.searchPass (h : MemOk s.cap.toNat m s) (hs : DefaultOk s.mf s.bw s.cap) (hm : s.mf.more = true) :
    MemOk s.cap.toNat m (searchPass s) := by
  have hhash : MemOk (hashStep s).cap.toNat m (hashStep s) := h
  have hok : DefaultOk (hashStep s).mf (hashStep s).bw (hashStep s).cap :=
    hs.cursorMoved (n := 0) rfl rfl rfl rfl hs.search.ip_le hs.mavg
  rcases searchPass_cases s with ⟨b, heq⟩ | ⟨b, hit, wp, heq⟩ <;> rw [heq]
  · exact hhash.searchMiss b
  · rcases searchHit_memories (hashStep s) b hit wp with hno | ⟨hd, heq⟩
    · exact hno hhash
    · have hokAt : DefaultOk ((hashStep s).mf.hitAt wp) (hashStep s).bw (hashStep s).cap :=
        hok.cursorMoved (n := 0) rfl rfl rfl rfl hok.search.ip_le hok.mavg
      rw [heq]
      exact MemOk.searchMatch (s := (hashStep s).setMf ((hashStep s).mf.hitAt wp)) hhash hokAt hm hd b hit

/-! ### A pass of mode HI -/

/-- After its `WRITE_BLK` an emission moves the cursor and the anchor, or ends the command in an EncoderFault. -/
theorem emitHi_memories {lc rc d ip : Nat}
    (h : MemOk cap m (afterBlk (s.setMf (s.mf.emitting lc rc d ip)) lc rc d s.mf.ipa.toNat))
    (hc : s.cap.toNat ≤ cap) : MemOk cap m (emitHi s lc rc d ip) := by
  simp only [emitHi]
  split
  · rename_i hw
    rw [afterBlk_of_none (ipa := s.mf.ipa.toNat) (s := s.setMf (s.mf.emitting lc rc d ip)) hw] at h
    exact h.encoderFault hc
  · rename_i t hw
    rw [afterBlk_of_some (ipa := s.mf.ipa.toNat) (s := s.setMf (s.mf.emitting lc rc d ip)) hw] at h
    exact h

/-- The state after `WRITE_BLK` of the pending candidate (44_hi_ratio_match_finder.md R255, R256). -/
def afterPendingBlk (s : State) : State :=
  afterBlk s (s.mf.pip.toNat - s.mf.ipa.toNat) s.mf.prc.toNat s.mf.pd.toNat s.mf.ipa.toNat

theorem emitPrevious_memories (rc d ip : Nat) (h : MemOk cap m (afterPendingBlk s)) (hc : s.cap.toNat ≤ cap) :
    MemOk cap m (emitPrevious s rc d ip) := by
  unfold afterPendingBlk at h
  simp only [emitPrevious]
  split
  · rename_i hw
    rw [afterBlk_of_none hw] at h
    exact h.encoderFault hc
  · rename_i t hw
    rw [afterBlk_of_some hw] at h
    exact h

theorem emitHi_memWf (lc rc d ip : Nat) (hw : s.memWf) : (emitHi s lc rc d ip).memWf := by
  have hblk : (afterBlk (s.setMf (s.mf.emitting lc rc d ip)) lc rc d s.mf.ipa.toNat).memWf :=
    afterBlk_memWf _ _ _ _ hw
  exact (emitHi_memories (hblk.memOk _) le_rfl).memWf

theorem lazySelect_memWf (lc rc d ip : Nat) (hw : s.memWf) : (lazySelect s lc rc d ip).memWf := by
  rcases lazySelect_cases s lc rc d ip with ⟨-, h⟩ | ⟨-, h⟩ | ⟨-, -, h⟩ | h <;> rw [h]
  · exact hw
  · exact emitHi_memWf _ _ _ _ hw
  · have hblk : (afterPendingBlk s).memWf := afterBlk_memWf _ _ _ _ hw
    exact (emitPrevious_memories rc d ip (hblk.memOk _) le_rfl).memWf
  · exact emitHi_memWf _ _ _ _ hw

/-- The state in which a pass of mode HI takes up its candidate: MF has hashed, HT is `ht` (R248). -/
def hashedHi (s : State) (ht : Memory) : State := { s with ht := ht, mf := (hashStepHi s).mf }

theorem MemOk.hashedHi (h : MemOk cap m s) {ht : Memory} (hht : s.ht.wf = true → ht.wf = true) :
    MemOk cap m (hashedHi s ht) := h.setHt hht

/-- A pass of mode HI hashes and inserts, and then moves the cursor or takes up the candidate that the probe accepts
(R248 to R250). -/
theorem searchHiPass_memories (s : State) :
    ∃ ht, (s.ht.wf = true → ht.wf = true) ∧
      ((∃ f, searchHiPass s = (hashedHi s ht).setMf f) ∨
      (∃ b c, (probe7 s.ht s.src b s.mf.ip.toNat s.mf.ipe.toNat (hashStepHi s).mf.iw1).accepted = some c ∧
        searchHiPass s = searchHiMatch (hashedHi s ht) c)) := by
  simp only [searchHiPass]
  split
  · split
    · exact ⟨s.ht, id, .inl ⟨_, rfl⟩⟩
    · exact ⟨_, miss7_wf _ _ _, .inl ⟨_, rfl⟩⟩
  · rename_i c hc
    split
    · exact ⟨s.ht, id, .inr ⟨_, c, hc, rfl⟩⟩
    · exact ⟨_, miss7_wf _ _ _, .inr ⟨_, c, hc, rfl⟩⟩

theorem searchHiPass_memWf (hw : s.memWf) : (searchHiPass s).memWf := by
  obtain ⟨ht, hht, ⟨f, h⟩ | ⟨b, c, -, h⟩⟩ := searchHiPass_memories s <;> rw [h]
  · exact ((hw.memOk 0).hashedHi hht).memWf
  · rw [searchHiMatch_eq]
    exact lazySelect_memWf _ _ _ _ ((hw.memOk 0).hashedHi hht).memWf

theorem SelectOk.room {f : Finder} {w : Writer} {c : Word} (h : SelectOk f w c) :
    RoomFor .hi (f.ipe.toNat + Config.litFin) c.toNat :=
  ⟨(le_boundHi _).trans h.bound_le, h.limits.cap_le⟩

/-- A match that fits is written below the capacity. -/
theorem MemOk.afterBlk_of_fits {f : Finder} {start rc d : Nat} (h : MemOk s.cap.toNat m s)
    (hs : SelectOk f s.bw s.cap) (hf : MatchFits f start rc d) :
    MemOk s.cap.toNat m (Machine.afterBlk s (start - f.ipa.toNat) rc d f.ipa.toNat) := by
  have hge := hf.start_ge
  have hle := hf.stop_le
  exact h.afterBlk hs.stream hs.room hf.len_ge (by omega)

theorem MemOk.emitHi {start rc d : Nat} (h : MemOk s.cap.toNat m s) (hs : SelectOk s.mf s.bw s.cap)
    (hf : MatchFits s.mf start rc d) : MemOk s.cap.toNat m (emitHi s (start - s.mf.ipa.toNat) rc d start) := by
  have hblk := MemOk.afterBlk_of_fits (s := s.setMf (s.mf.emitting (start - s.mf.ipa.toNat) rc d start)) h hs hf
  exact emitHi_memories hblk le_rfl

/-- Whichever match the lazy selection emits fits, so it is written below the capacity. -/
theorem MemOk.lazySelect {start rc d : Nat} (h : MemOk s.cap.toNat m s) (hs : SelectOk s.mf s.bw s.cap)
    (hf : MatchFits s.mf start rc d) :
    MemOk s.cap.toNat m (lazySelect s (start - s.mf.ipa.toNat) rc d start) := by
  rcases lazySelect_cases s (start - s.mf.ipa.toNat) rc d start with
    ⟨-, heq⟩ | ⟨hpv, heq⟩ | ⟨hpv, -, heq⟩ | heq <;> rw [heq]
  · exact h
  · exact h.emitHi hs (hs.pending hpv).fits
  · exact emitPrevious_memories rc d start (h.afterBlk_of_fits hs (hs.pending hpv).fits) le_rfl
  · exact h.emitHi hs hf

theorem MemOk.searchHiMatch {c : Candidate} (h : MemOk s.cap.toNat m s) (hs : HiOk s.mf s.bw s.cap)
    (hc : CandidateBounds c s.mf.ip.toNat s.mf.ipe.toNat) (h5 : 5 ≤ c.rc) :
    MemOk s.cap.toNat m (searchHiMatch s c) := by
  have hf := extendCandidate_fits s.src hs.search hc h5
  have hsel := hs.selectOk
  rw [searchHiMatch_eq]
  generalize extendCandidate s.src s.mf c = e at hf ⊢
  have hselAt : SelectOk (s.mf.withCandidate c e) s.bw s.cap :=
    { hsel with limits := { hsel.limits with }, pending := fun hpv => { hsel.pending hpv with } }
  have hfits : MatchFits (s.mf.withCandidate c e) (s.mf.ip.toNat - e.bmc) (c.rc + e.bmc) c.d := { hf with }
  exact MemOk.lazySelect (s := s.setMf (s.mf.withCandidate c e)) h hselAt hfits

theorem MemOk.searchHiPass (h : MemOk s.cap.toNat m s) (hs : HiOk s.mf s.bw s.cap) (hm : s.mf.more = true) :
    MemOk s.cap.toNat m (searchHiPass s) := by
  obtain ⟨ht, hht, ⟨f, heq⟩ | ⟨b, c, hc, heq⟩⟩ := searchHiPass_memories s <;> rw [heq]
  · exact h.hashedHi hht
  · obtain ⟨hbest, h5⟩ := accepted_some hc
    have hhash : HiOk (hashStepHi s).mf s.bw s.cap :=
      { hs with
        search := { hs.search with }
        pending := fun hpv => { hs.pending hpv with } }
    exact MemOk.searchHiMatch (s := Machine.hashedHi s ht) (h.hashedHi hht) hhash
      (probe7_best_bounds (hs.search.ip_lt hm) hbest) (by omega)

/-- MF's registers past the pending candidate at the end of the input, with nothing pending (R256). -/
def Finder.pastPending (f : Finder) : Finder :=
  { f with ipa := BitVec.ofNat 32 (f.pip.toNat + f.prc.toNat), pv := false }

/-- The end of the input in mode HI: the terminal block at once, an EncoderFault, or the terminal block after the
pending candidate (R256). -/
theorem searchHiEnd_cases (s : State) :
    searchHiEnd s = searchEnd s ∨ searchHiEnd s = encoderFault s ∨
    (s.mf.pv = true ∧ ∃ t, writeBlk s (s.mf.pip.toNat - s.mf.ipa.toNat) s.mf.prc.toNat s.mf.pd.toNat
        s.mf.ipa.toNat = some t ∧
      t.cap = s.cap ∧ searchHiEnd s = searchEnd (t.setMf s.mf.pastPending)) := by
  simp only [searchHiEnd]
  split
  · rename_i hpv
    split
    · exact .inr (.inl rfl)
    · rename_i t h
      have hmf : t.mf = s.mf := by rw [writeBlk_frame h]
      exact .inr (.inr ⟨hpv, t, h, by rw [writeBlk_frame h], by rw [hmf]; rfl⟩)
  · exact .inl rfl

theorem searchHiEnd_memWf (hw : s.memWf) : (searchHiEnd s).memWf := by
  rcases searchHiEnd_cases s with h | h | ⟨-, t, ht, -, h⟩ <;> rw [h]
  · exact searchEnd_memWf hw
  · exact ((hw.memOk _).encoderFault le_rfl).memWf
  · have hblk : t.memWf := writeBlk_memWf ht hw
    exact searchEnd_memWf (s := t.setMf s.mf.pastPending) hblk

theorem MemOk.searchHiEnd (h : MemOk s.cap.toNat m s) (hs : SelectOk s.mf s.bw s.cap) :
    MemOk s.cap.toNat m (searchHiEnd s) := by
  rcases searchHiEnd_cases s with heq | heq | ⟨hpv, t, ht, hcap, heq⟩ <;> rw [heq]
  · exact h.searchEnd hs.stream hs.room hs.ipa_le_ipe
  · exact h.encoderFault le_rfl
  · have hf := (hs.pending hpv).fits
    have hstop := hf.stop_le
    have hblk := h.afterBlk_of_fits hs hf
    have hstream := writeBlk_of_fits hs hf ht
    have hroom := hs.room
    have hipa : s.mf.pastPending.ipa.toNat = s.mf.pip.toNat + s.mf.prc.toNat := toNat_ofNat_of_le hstop
    rw [afterBlk_of_some ht] at hblk
    rw [← hipa] at hstream hstop
    rw [← hcap] at hblk hroom ⊢
    exact MemOk.searchEnd (s := t.setMf s.mf.pastPending) hblk hstream hroom hstop

/-! ### Every step -/

/-- A step of the engine keeps the canonical form. -/
theorem engineStep_memWf (hw : s.memWf) (he : engineStep s = .next t) : t.memWf := by
  rcases engineStep_cases he with ⟨-, rfl⟩ | ⟨-, rfl⟩ | ⟨-, i, hi, he⟩ | ⟨r, -, -, he⟩ | ⟨r, -, rfl⟩ |
    ⟨r, -, -, he⟩ | ⟨r, -, -, rfl⟩ | ⟨-, -, rfl⟩ | ⟨-, -, rfl⟩ | ⟨-, -, rfl⟩ | ⟨-, -, rfl⟩
  · exact hw
  · exact hw
  · exact ((hw.memOk _).exec_command hi he).memWf
  · cases he; exact hw
  · exact ((hw.memOk _).raise le_rfl _ _ _).memWf
  · exact exec_decodeBlock_memWf hw he
  · exact ((hw.memOk _).decodeEnd le_rfl).memWf
  · exact searchPass_memWf hw
  · exact searchEnd_memWf hw
  · exact searchHiPass_memWf hw
  · exact searchHiEnd_memWf hw

/-- An access of the host keeps the canonical form: it writes one byte or none, or resets the machine. -/
theorem hostAccess_memWf {a : HostAccess} (hw : s.memWf) (h : hostAccess a s = .next t) : t.memWf := by
  have ⟨hsrc, hdst, hht⟩ := hw
  rcases hostAccess_cases h with rfl | ⟨_, _, -, -, rfl⟩ | ⟨_, rfl⟩ | ⟨_, rfl⟩ | ⟨_, _, rfl⟩ | ⟨_, _, rfl⟩ | rfl |
    ⟨_, _, rfl⟩ | ⟨_, _, -, rfl⟩
  iterate 4 exact hw
  · exact ⟨Memory.wf_write _ _ hsrc, hdst, hht⟩
  · exact ⟨hsrc, Memory.wf_write _ _ hdst, hht⟩
  · exact ⟨rfl, rfl, rfl⟩
  iterate 2 exact hw

theorem State.capacity_of_start (hp : s.phase = .start) : s.capacity = s.dstl.toNat := if_pos hp

theorem State.capacity_of_not_start (hp : s.phase ≠ .start) : s.capacity = s.cap.toNat := if_neg hp

theorem State.decoderOk.bounds {r : Report} (h : s.decoderOk) (hp : s.phase = .blocks r) :
    DecoderBounds s.bd s.cap := by
  unfold State.decoderOk at h
  rw [hp] at h
  exact h.1

/-- A step of the engine from within the bounds stores in DST only below the capacity. -/
theorem engineStep_memOk (hw : s.memWf) (hd : s.decoderOk) (hs : s.searchOk) (he : engineStep s = .next t) :
    MemOk s.capacity s.dst t := by
  rcases engineStep_cases he with ⟨-, rfl⟩ | ⟨-, rfl⟩ | ⟨hp, i, hi, he⟩ | ⟨r, -, -, he⟩ | ⟨r, hp, rfl⟩ |
    ⟨r, hp, -, he⟩ | ⟨r, hp, -, rfl⟩ | ⟨hp, hm, rfl⟩ | ⟨hp, -, rfl⟩ | ⟨hp, hm, rfl⟩ | ⟨hp, -, rfl⟩
  · exact hw.memOk _
  · exact hw.memOk _
  · rw [State.capacity_of_start hp]
    exact (hw.memOk _).exec_command hi he
  · cases he; exact hw.memOk _
  all_goals rw [State.capacity_of_not_start (by simp [hp])]
  · exact (hw.memOk _).raise le_rfl _ _ _
  · exact (hw.memOk _).exec_decodeBlock (hd.bounds hp) he
  · exact (hw.memOk _).decodeEnd le_rfl
  · exact (hw.memOk _).searchPass ((State.searchOk_search hp).1 hs) hm
  · have hok := (State.searchOk_search hp).1 hs
    exact (hw.memOk _).searchEnd hok.stream hok.room hok.search.ipa_le_ipe
  · exact (hw.memOk _).searchHiPass ((State.searchOk_searchHi hp).1 hs) hm
  · exact (hw.memOk _).searchHiEnd ((State.searchOk_searchHi hp).1 hs).selectOk

end

end Sys2Proof.Machine

namespace Sys2Proof.MemoryProofs

open Sys2Proof Sys2Proof.Machine

/-- Settles O58: a step stores only by the memories' own operations, each of which keeps the addresses rising. -/
theorem memoriesStayCanonical : Obligations.MemoriesStayCanonical := by
  unfold Obligations.MemoriesStayCanonical
  intro s t hw h
  rcases step_cases h with ⟨-, r, he⟩ | ⟨-, a, r, -, ha⟩
  · exact engineStep_memWf (s := { s with hostScript := r }) hw he
  · exact hostAccess_memWf (s := { s with hostScript := r }) hw ha

/-- Settles O55: a decoder's copy is clipped at `ope`, the stream of a search with the rest of the input behind it
is within the bound, and what the end of a command frees lies below the capacity. -/
theorem storesStayInsideDst : Obligations.StoresStayInsideDst := by
  unfold Obligations.StoresStayInsideDst
  intro s t a hturn hw hd hs h ha
  rcases step_cases h with ⟨-, r, he⟩ | ⟨hno, -⟩
  · exact (engineStep_memOk (s := { s with hostScript := r }) hw hd hs he).read_eq ha
  · rw [hturn] at hno
    cases hno

end Sys2Proof.MemoryProofs
end

section
/-! The varint of a long literal block: the decoder reads back every spelling the encoder and the writer give, and the
bytes it read are the spelling of what it read (30_encoding.md R96; 41_block_writer.md R155; 45_decoder.md R288). -/

namespace Sys2Proof

open Sys2Proof.Machine

/-! ### One byte -/

theorem varintRead_last {k : Nat} {b : Byte} (bs : List Byte) (h : b.toNat < 128) :
    varintRead (k + 1) (b :: bs) = (b.toNat, 1) := if_pos h

theorem varintRead_continued {k : Nat} {b : Byte} (bs : List Byte) (h : 128 ≤ b.toNat) :
    varintRead (k + 1) (b :: bs) =
      (b.toNat % 128 + 128 * (varintRead k bs).1, (varintRead k bs).2 + 1) := if_neg (Nat.not_lt.mpr h)

/-! ### What was written is read back -/

/-- A value that `n` varint bytes hold is read back from them, and no more than them is read, though up to `k` bytes
could be. -/
theorem varintRead_varintBytes (rest : List Byte) :
    ∀ {n k v : Nat}, 1 ≤ n → n ≤ k → v < 2 ^ (7 * n) → varintRead k (varintBytes n v ++ rest) = (v, n)
  | 1, k + 1, v, _, _, hv => by
    have hb : (BitVec.ofNat 8 (v % 128)).toNat = v := by rw [BitVec.toNat_ofNat]; omega
    exact (varintRead_last rest (by omega)).trans (by rw [hb])
  | n + 2, k + 1, v, _, hk, hv => by
    have hb : (BitVec.ofNat 8 (128 + v % 128)).toNat = 128 + v % 128 := by rw [BitVec.toNat_ofNat]; omega
    have hlt : v / 128 < 2 ^ (7 * (n + 1)) :=
      Nat.div_lt_of_lt_mul (by rw [show 7 * (n + 2) = 7 + 7 * (n + 1) by omega, Nat.pow_add] at hv; exact hv)
    have ih := varintRead_varintBytes rest (Nat.succ_pos n) (Nat.le_of_succ_le_succ hk) hlt
    rw [varintBytes, List.cons_append, varintRead_continued _ (by omega), ih, hb]
    exact Prod.ext (by show (128 + v % 128) % 128 + 128 * (v / 128) = v; omega) rfl

/-- The writer's varint is the encoder's in some number of bytes that hold the value. -/
theorem shortVarint_eq_varintBytes : ∀ {k v : Nat}, v < 2 ^ (7 * (k + 1)) →
    ∃ n, 1 ≤ n ∧ n ≤ k + 1 ∧ v < 2 ^ (7 * n) ∧ shortVarint k v = varintBytes n v
  | 0, v, hv => ⟨1, le_rfl, le_rfl, hv, by rw [shortVarint, varintBytes, Nat.mod_eq_of_lt (by simpa using hv)]⟩
  | k + 1, v, hv => by
    by_cases hlong : 127 < v
    · have hlt : v >>> 7 < 2 ^ (7 * (k + 1)) := by
        rw [Nat.shiftRight_eq_div_pow]
        exact Nat.div_lt_of_lt_mul (by rw [← Nat.pow_add]; convert hv using 2; omega)
      obtain ⟨m, hm, hmk, hvm, heq⟩ := shortVarint_eq_varintBytes hlt
      obtain ⟨n, rfl⟩ : ∃ n, m = n + 1 := ⟨m - 1, by omega⟩
      have hlow : 0x80 ||| (v &&& 0x7F) = 128 + v % 128 := by
        rw [Nat.and_two_pow_sub_one_eq_mod v 7]
        exact (Nat.two_pow_add_eq_or_of_lt (Nat.mod_lt v (Nat.two_pow_pos 7)) 1).symm
      rw [Nat.shiftRight_eq_div_pow] at hvm heq
      refine ⟨n + 2, by omega, by omega, ?_, ?_⟩
      · rw [show 7 * (n + 2) = 7 + 7 * (n + 1) by omega, Nat.pow_add]
        omega
      · rw [shortVarint, if_pos hlong, hlow, Nat.shiftRight_eq_div_pow, heq, varintBytes]
    · exact ⟨1, le_rfl, by omega, by omega, by
        rw [shortVarint, if_neg hlong, varintBytes, Nat.mod_eq_of_lt (by omega)]⟩

/-! ### What was read is spelled by the bytes read -/

theorem varintRead_count_le : ∀ (k : Nat) (bs : List Byte), (varintRead k bs).2 ≤ k
  | 0, _ => le_rfl
  | k + 1, bs => by
    have ih := varintRead_count_le k bs.tail
    rw [varintRead]
    dsimp only
    split
    · exact Nat.succ_pos k
    · exact Nat.succ_le_succ ih

theorem one_le_varintRead_count (k : Nat) (bs : List Byte) : 1 ≤ (varintRead (k + 1) bs).2 := by
  rw [varintRead]
  dsimp only
  split
  · exact le_rfl
  · exact Nat.succ_pos _

/-- The value read fits the seven bits a byte of the bytes it took. -/
theorem varintRead_value_lt : ∀ (k : Nat) (bs : List Byte), (varintRead k bs).1 < 2 ^ (7 * (varintRead k bs).2)
  | 0, _ => Nat.one_pos
  | k + 1, bs => by
    have ih := varintRead_value_lt k bs.tail
    rw [varintRead]
    dsimp only
    split
    · assumption
    · rw [show 7 * ((varintRead k bs.tail).2 + 1) = 7 + 7 * (varintRead k bs.tail).2 by omega, Nat.pow_add]
      omega

theorem varintRead_bounds {k v n : Nat} {bs : List Byte} (h : varintRead (k + 1) bs = (v, n)) :
    1 ≤ n ∧ n ≤ k + 1 ∧ v < 2 ^ (7 * n) := by
  have hpos := one_le_varintRead_count k bs
  have hle := varintRead_count_le (k + 1) bs
  have hlt := varintRead_value_lt (k + 1) bs
  rw [h] at hpos hle hlt
  exact ⟨hpos, hle, hlt⟩

/-- The bytes a varint was read from are the encoder's spelling of it, unless the last byte allowed was read and has
the ignored bit 7 set. -/
theorem varintBytes_of_varintRead : ∀ {k v n : Nat} {bs : List Byte}, varintRead k bs = (v, n) → n ≤ bs.length →
    n ≠ k ∨ (bs.getD (k - 1) 0).toNat < 128 → varintBytes n v = bs.take n
  | 0, _, _, _, hread, _, _ => by cases hread; rfl
  | k + 1, v, n, [], hread, hn, _ => by
    have hpos := (varintRead_bounds hread).1
    exact absurd hn (Nat.not_le.mpr hpos)
  | k + 1, v, n, b :: bs, hread, hn, hlast => by
    by_cases hb : b.toNat < 128
    · rw [varintRead_last bs hb] at hread
      cases hread
      rw [varintBytes, Nat.mod_eq_of_lt hb, BitVec.ofNat_toNat, BitVec.setWidth_eq]
      rfl
    · rw [varintRead_continued bs (by omega)] at hread
      rcases hr : varintRead k bs with ⟨v', n'⟩
      rw [hr] at hread
      cases hread
      obtain ⟨j, rfl⟩ : ∃ j, k = j + 1 := by
        cases k with
        | zero =>
          cases hr
          exact hlast.elim (fun hne => absurd rfl hne) fun hlt => absurd hlt hb
        | succ j => exact ⟨j, rfl⟩
      have ih := varintBytes_of_varintRead hr (Nat.le_of_succ_le_succ hn) (by simpa using hlast)
      obtain ⟨m, rfl⟩ : ∃ m, n' = m + 1 := ⟨n' - 1, by have := (varintRead_bounds hr).1; omega⟩
      have hbyte : BitVec.ofNat 8 (128 + (b.toNat % 128 + 128 * v') % 128) = b := by
        apply BitVec.eq_of_toNat_eq
        rw [BitVec.toNat_ofNat]
        omega
      have hrest : (b.toNat % 128 + 128 * v') / 128 = v' := by omega
      rw [varintBytes, hbyte, hrest, ih, List.take_succ_cons]

end Sys2Proof

namespace Sys2Proof.EncodingProofs

open Sys2Proof Sys2Proof.Machine Sys2Proof.Laws.EncodeLength

/-- Settles O6: the writer's varint is the encoder's in as many bytes as the value needs, and the encoder's is read
back. -/
theorem varintIsShortestAndReadsBack : Obligations.VarintIsShortestAndReadsBack := by
  unfold Obligations.VarintIsShortestAndReadsBack
  intro v rest hv
  obtain ⟨n, hn, hn4, hvn, heq⟩ := shortVarint_eq_varintBytes (k := 3) hv
  refine ⟨?_, shortVarint_length v⟩
  rw [heq, varintRead_varintBytes rest hn hn4 hvn, varintBytes_length]

end Sys2Proof.EncodingProofs
end

section
/-! The opcode map as a relation between the bytes at a block's header and the block they hold, tied to the decoder and
to the encoder; from it the agreement of the two and the row that each header byte selects (30_encoding.md R90 to R98,
R103, R106; 10_state.md R23). -/

namespace Sys2Proof

open Sys2Proof.Laws.EncodeLength Sys2Proof.Claims

/-! ### Fields -/

theorem offset2Bytes_append (b2 b1 : Byte) : offset2Bytes (b2 ++ b1) = [b1, b2] := by
  have h0 : (b2 ++ b1).extractLsb' 0 8 = b1 := BitVec.extractLsb'_append_eq_right
  have h1 : (b2 ++ b1).extractLsb' 8 8 = b2 := BitVec.extractLsb'_append_eq_left
  rw [offset2Bytes, h0, h1]

theorem offset3Bytes_append (b3 b2 b1 : Byte) : offset3Bytes (b3 ++ b2 ++ b1) = [b1, b2, b3] := by
  have h0 : (b3 ++ b2 ++ b1).extractLsb' 0 8 = b1 := BitVec.extractLsb'_append_eq_right
  have h1 : (b3 ++ b2 ++ b1).extractLsb' 8 8 = b2 :=
    (BitVec.extractLsb'_append_eq_of_le (by decide)).trans BitVec.extractLsb'_append_eq_right
  have h2 : (b3 ++ b2 ++ b1).extractLsb' 16 8 = b3 :=
    (BitVec.extractLsb'_append_eq_of_le (by decide)).trans BitVec.extractLsb'_append_eq_left
  rw [offset3Bytes, h0, h1, h2]

theorem append_offset2Bytes (o : BitVec 16) : o.extractLsb' 8 8 ++ o.extractLsb' 0 8 = o := by
  rw [BitVec.extractLsb'_append_extractLsb'_eq_extractLsb' (by rfl), BitVec.extractLsb'_eq_self]

theorem append_offset3Bytes (o : BitVec 24) :
    o.extractLsb' 16 8 ++ o.extractLsb' 8 8 ++ o.extractLsb' 0 8 = o := by
  rw [BitVec.extractLsb'_append_extractLsb'_eq_extractLsb' (by rfl),
    BitVec.extractLsb'_append_extractLsb'_eq_extractLsb' (by rfl), BitVec.extractLsb'_eq_self]

theorem headerByte_typeBits (q bt : BitVec 2) (len : BitVec 4) : (headerByte q bt len).toNat / 16 % 4 = bt.toNat := by
  revert q bt len; decide

theorem headerByte_nibble (q bt : BitVec 2) (len : BitVec 4) : (headerByte q bt len).toNat % 16 = len.toNat := by
  revert q bt len; decide

/-! ### The opcode map (30_encoding.md R103) -/

/-- The bytes `bs` begin with the head of the block `i`: the eleven rows of the opcode map, each with the fields of its
header byte, its varint or offset bytes and its length bytes, and any bytes behind them. -/
inductive BlockRow : List Byte → Instr → Prop
  | lits (q : BitVec 2) {len : BitVec 4} (bs : List Byte) (hlen : len ≠ 0#4) :
    BlockRow (headerByte q 0 len :: bs) (.lits q len)
  | litl (q : BitVec 2) {bs : List Byte} {v nv : Nat} (hread : varintRead 4 bs = (v, nv)) (hbs : nv ≤ bs.length) :
    BlockRow (headerByte q 0 0 :: bs) (.litl q nv (BitVec.ofNat 28 v))
  | ref1s (q : BitVec 2) (o : BitVec 8) {len : BitVec 4} (bs : List Byte) (hlen : len ≠ 0#4) :
    BlockRow (headerByte q 1 len :: o :: bs) (.ref1s q o len)
  | ref1l (q : BitVec 2) (o : BitVec 8) {b : Byte} (bs : List Byte) (hb : b ≠ 255#8) :
    BlockRow (headerByte q 1 0 :: o :: b :: bs) (.ref1l q o b)
  | ref1x (q : BitVec 2) (o : BitVec 8) (b2 : Byte) (bs : List Byte) :
    BlockRow (headerByte q 1 0 :: o :: 255 :: b2 :: bs) (.ref1x q o b2)
  | ref2s (q : BitVec 2) (o : BitVec 16) {len : BitVec 4} (bs : List Byte) (hlen : len ≠ 0#4) :
    BlockRow (headerByte q 2 len :: (offset2Bytes o ++ bs)) (.ref2s q o len)
  | ref2l (q : BitVec 2) (o : BitVec 16) {b : Byte} (bs : List Byte) (hb : b ≠ 255#8) :
    BlockRow (headerByte q 2 0 :: (offset2Bytes o ++ b :: bs)) (.ref2l q o b)
  | ref2x (q : BitVec 2) (o : BitVec 16) (b2 : Byte) (bs : List Byte) :
    BlockRow (headerByte q 2 0 :: (offset2Bytes o ++ 255 :: b2 :: bs)) (.ref2x q o b2)
  | ref3s (q : BitVec 2) (o : BitVec 24) {len : BitVec 4} (bs : List Byte) (hlen : len ≠ 0#4) :
    BlockRow (headerByte q 3 len :: (offset3Bytes o ++ bs)) (.ref3s q o len)
  | ref3l (q : BitVec 2) (o : BitVec 24) {b : Byte} (bs : List Byte) (hb : b ≠ 255#8) :
    BlockRow (headerByte q 3 0 :: (offset3Bytes o ++ b :: bs)) (.ref3l q o b)
  | ref3x (q : BitVec 2) (o : BitVec 24) (b2 : Byte) (bs : List Byte) :
    BlockRow (headerByte q 3 0 :: (offset3Bytes o ++ 255 :: b2 :: bs)) (.ref3x q o b2)

/-- The decoder reads the block of the row. -/
theorem BlockRow.decodeBlock_eq {bs : List Byte} {i : Instr} (h : BlockRow bs i) : decodeBlock bs = i := by
  cases h with
  | lits q bs hlen => simp [decodeBlock, byteAt, hlen]
  | litl q hread hbs => simp [decodeBlock, byteAt, hread]
  | ref1s q o bs hlen => simp [decodeBlock, byteAt, hlen]
  | ref1l q o bs hb => simp [decodeBlock, byteAt, hb]
  | ref1x q o b2 bs => simp [decodeBlock, byteAt]
  | ref2s q o bs hlen => simp [decodeBlock, byteAt, offset2Bytes, append_offset2Bytes, hlen]
  | ref2l q o bs hb => simp [decodeBlock, byteAt, offset2Bytes, append_offset2Bytes, hb]
  | ref2x q o b2 bs => simp [decodeBlock, byteAt, offset2Bytes, append_offset2Bytes]
  | ref3s q o bs hlen => simp [decodeBlock, byteAt, offset3Bytes, append_offset3Bytes, hlen]
  | ref3l q o bs hb => simp [decodeBlock, byteAt, offset3Bytes, append_offset3Bytes, hb]
  | ref3x q o b2 bs => simp [decodeBlock, byteAt, offset3Bytes, append_offset3Bytes]

theorem BlockRow.headBytes_le {bs : List Byte} {i : Instr} (h : BlockRow bs i) : i.headBytes ≤ bs.length := by
  cases h <;> simp only [Instr.headBytes, offset2Bytes, offset3Bytes, List.length_append, List.length_cons] <;> omega

theorem BlockRow.decode_eq {bs : List Byte} {i : Instr} (h : BlockRow bs i) : decode (.block bs) = .ok i := by
  rw [decode, h.decodeBlock_eq, if_pos h.headBytes_le]

/-- Six bytes hold the head of some block: no header byte is illegal. -/
theorem exists_blockRow {bs : List Byte} (h : 6 ≤ bs.length) : ∃ i, BlockRow bs i := by
  obtain ⟨b0, b1, b2, b3, b4, b5, bs, rfl⟩ :
      ∃ b0 b1 b2 b3 b4 b5 tail, bs = b0 :: b1 :: b2 :: b3 :: b4 :: b5 :: tail := by
    match bs, h with
    | b0 :: b1 :: b2 :: b3 :: b4 :: b5 :: tail, _ => exact ⟨b0, b1, b2, b3, b4, b5, tail, rfl⟩
  rw [← headerByte_fields b0]
  generalize headerQ b0 = q
  generalize headerLen b0 = len
  have htype : headerType b0 = 0 ∨ headerType b0 = 1 ∨ headerType b0 = 2 ∨ headerType b0 = 3 := by
    generalize headerType b0 = bt
    revert bt; decide
  rcases htype with ht | ht | ht | ht <;> rw [ht]
  · by_cases hlen : len = 0#4
    · subst hlen
      rcases hr : varintRead 4 (b1 :: b2 :: b3 :: b4 :: b5 :: bs) with ⟨v, nv⟩
      have hnv := (varintRead_bounds hr).2.1
      exact ⟨_, .litl q hr (by simp only [List.length_cons]; omega)⟩
    · exact ⟨_, .lits q _ hlen⟩
  · by_cases hlen : len = 0#4
    · subst hlen
      by_cases hb : b2 = 255#8
      · subst hb; exact ⟨_, .ref1x q b1 b3 _⟩
      · exact ⟨_, .ref1l q b1 _ hb⟩
    · exact ⟨_, .ref1s q b1 _ hlen⟩
  · rw [show b1 :: b2 :: b3 :: b4 :: b5 :: bs = offset2Bytes (b2 ++ b1) ++ b3 :: b4 :: b5 :: bs by
      rw [offset2Bytes_append]; rfl]
    by_cases hlen : len = 0#4
    · subst hlen
      by_cases hb : b3 = 255#8
      · subst hb; exact ⟨_, .ref2x q _ b4 _⟩
      · exact ⟨_, .ref2l q _ _ hb⟩
    · exact ⟨_, .ref2s q _ _ hlen⟩
  · rw [show b1 :: b2 :: b3 :: b4 :: b5 :: bs = offset3Bytes (b3 ++ b2 ++ b1) ++ b4 :: b5 :: bs by
      rw [offset3Bytes_append]; rfl]
    by_cases hlen : len = 0#4
    · subst hlen
      by_cases hb : b4 = 255#8
      · subst hb; exact ⟨_, .ref3x q _ b5 _⟩
      · exact ⟨_, .ref3l q _ _ hb⟩
    · exact ⟨_, .ref3s q _ _ hlen⟩

/-- What the decoder reads from six bytes is a row of the opcode map. -/
theorem blockRow_of_decode {bs : List Byte} {i : Instr} (hlen : 6 ≤ bs.length) (h : decode (.block bs) = .ok i) :
    BlockRow bs i := by
  obtain ⟨j, hrow⟩ := exists_blockRow hlen
  rw [hrow.decode_eq] at h
  cases h
  exact hrow

theorem BlockRow.wellFormed {bs : List Byte} {i : Instr} (h : BlockRow bs i) : i.wellFormed = true := by
  cases h with
  | @litl q bs v nv hread hbs =>
    obtain ⟨hpos, hle, hlt⟩ := varintRead_bounds hread
    have hv : (BitVec.ofNat 28 v).toNat ≤ v := by rw [BitVec.toNat_ofNat]; exact Nat.mod_le _ _
    simp only [Instr.wellFormed, Bool.and_eq_true, decide_eq_true_eq]
    exact ⟨⟨hpos, hle⟩, hv.trans_lt hlt⟩
  | lits _ _ hlen => exact bne_iff_ne.mpr hlen
  | ref1s _ _ _ hlen => exact bne_iff_ne.mpr hlen
  | ref2s _ _ _ hlen => exact bne_iff_ne.mpr hlen
  | ref3s _ _ _ hlen => exact bne_iff_ne.mpr hlen
  | ref1l _ _ _ hb => exact bne_iff_ne.mpr hb
  | ref2l _ _ _ hb => exact bne_iff_ne.mpr hb
  | ref3l _ _ _ hb => exact bne_iff_ne.mpr hb
  | ref1x => rfl
  | ref2x => rfl
  | ref3x => rfl

/-- The encoder writes the head that the bytes begin with, but for the ignored bit 7 of a fourth varint byte (R96). -/
theorem BlockRow.encode_eq {bs : List Byte} {i : Instr} (h : BlockRow bs i)
    (hlast : (∀ q v, i ≠ .litl q 4 v) ∨ (bs.getD 4 0).toNat < 128) :
    encode i = .block (bs.take i.headBytes) := by
  cases h with
  | @litl q bs v nv hread hbs =>
    obtain ⟨-, hle, hlt⟩ := varintRead_bounds hread
    have hv : (BitVec.ofNat 28 v).toNat = v := by
      have hpow : 2 ^ (7 * nv) ≤ 2 ^ 28 := Nat.pow_le_pow_right (by decide) (by omega)
      rw [BitVec.toNat_ofNat, Nat.mod_eq_of_lt (hlt.trans_le hpow)]
    have hfour : nv ≠ 4 ∨ (bs.getD 3 0).toNat < 128 :=
      hlast.imp_left fun hne hnv => hne q _ (by rw [hnv])
    rw [encode, hv, varintBytes_of_varintRead hread hbs hfour, Instr.headBytes, Nat.add_comm, List.take_succ_cons]
  | lits => rfl
  | ref1s => rfl
  | ref1l => rfl
  | ref1x => rfl
  | ref2s => rfl
  | ref2l => rfl
  | ref2x => rfl
  | ref3s => rfl
  | ref3l => rfl
  | ref3x => rfl

/-- What the encoder writes for a well-formed block, with any bytes behind it, is a row of the opcode map. -/
theorem blockRow_of_encode {i : Instr} {bs : List Byte} (hwf : i.wellFormed = true) (he : encode i = .block bs)
    (rest : List Byte) : BlockRow (bs ++ rest) i := by
  cases i <;> cases he
  case lits q len => exact .lits q rest (bne_iff_ne.mp hwf)
  case litl q nv v =>
    simp only [Instr.wellFormed, Bool.and_eq_true, decide_eq_true_eq] at hwf
    obtain ⟨⟨hpos, hle⟩, hlt⟩ := hwf
    have hrow := BlockRow.litl q (varintRead_varintBytes rest hpos hle hlt)
      (by rw [List.length_append, varintBytes_length]; exact Nat.le_add_right _ _)
    rwa [BitVec.ofNat_toNat, BitVec.setWidth_eq] at hrow
  case ref1s q o len => exact .ref1s q o rest (bne_iff_ne.mp hwf)
  case ref1l q o b => exact .ref1l q o rest (bne_iff_ne.mp hwf)
  case ref1x q o b2 => exact .ref1x q o b2 rest
  case ref2s q o len => exact .ref2s q o rest (bne_iff_ne.mp hwf)
  case ref2l q o b => exact .ref2l q o rest (bne_iff_ne.mp hwf)
  case ref2x q o b2 => exact .ref2x q o b2 rest
  case ref3s q o len => exact .ref3s q o rest (bne_iff_ne.mp hwf)
  case ref3l q o b => exact .ref3l q o rest (bne_iff_ne.mp hwf)
  case ref3x q o b2 => exact .ref3x q o b2 rest

/-- The row is the one that the type bits, the nibble and the byte at `1 + bt` select (R103). -/
theorem BlockRow.rowSelectedBy {bs : List Byte} {i : Instr} (h : BlockRow bs i) :
    rowSelectedBy ((bs.getD 0 0).toNat / 16 % 4) (decide ((bs.getD 0 0).toNat % 16 = 0))
      (decide ((bs.getD (1 + (bs.getD 0 0).toNat / 16 % 4) 0).toNat = 255)) i := by
  have hheader : ∀ (q bt : BitVec 2) (len : BitVec 4) (tail : List Byte),
      ((headerByte q bt len :: tail).getD 0 0).toNat / 16 % 4 = bt.toNat ∧
      ((headerByte q bt len :: tail).getD 0 0).toNat % 16 = len.toNat :=
    fun q bt len _ => ⟨headerByte_typeBits q bt len, headerByte_nibble q bt len⟩
  have hshort : ∀ {len : BitVec 4}, len ≠ 0#4 → decide (len.toNat = 0) = false :=
    fun hlen => decide_eq_false fun h0 => hlen (BitVec.eq_of_toNat_eq h0)
  have hbyte : ∀ {b : Byte}, b ≠ 255#8 → decide (b.toNat = 255) = false :=
    fun hb => decide_eq_false fun h0 => hb (BitVec.eq_of_toNat_eq h0)
  cases h <;> simp only [hheader]
  case lits hlen => exact ⟨rfl, hshort hlen⟩
  case litl => exact ⟨rfl, rfl⟩
  case ref1s hlen => exact ⟨rfl, hshort hlen⟩
  case ref1l hb => exact ⟨rfl, rfl, hbyte hb⟩
  case ref1x => exact ⟨rfl, rfl, rfl⟩
  case ref2s hlen => exact ⟨rfl, hshort hlen⟩
  case ref2l hb => exact ⟨rfl, rfl, hbyte hb⟩
  case ref2x => exact ⟨rfl, rfl, rfl⟩
  case ref3s hlen => exact ⟨rfl, hshort hlen⟩
  case ref3l hb => exact ⟨rfl, rfl, hbyte hb⟩
  case ref3x => exact ⟨rfl, rfl, rfl⟩

/-! ### The other windows -/

theorem decode_encode_streamPrefix (mref : BitVec 4) :
    decode (encode (.streamPrefix mref)) = .ok (.streamPrefix mref) := by
  revert mref; decide

/-- Decoding undoes encoding, in each of the three windows. -/
theorem decode_encode {i : Instr} (hwf : i.wellFormed = true) : decode (encode i) = .ok i := by
  cases he : encode i with
  | block bs =>
    have hrow := blockRow_of_encode hwf he []
    rw [List.append_nil] at hrow
    exact hrow.decode_eq
  | header b =>
    rw [← he]
    cases i <;> cases he
    exact decode_encode_streamPrefix _
  | command w => cases i <;> cases he <;> rfl

end Sys2Proof

namespace Sys2Proof.EncodingProofs

open Sys2Proof Sys2Proof.Machine Sys2Proof.Claims

/-- Settles O1: what is written for a block is a row of the opcode map whatever follows it, and the row determines
what is read; the other two windows hold a few bits each. -/
theorem decodeEncodeAgree : Obligations.DecodeEncodeAgree := by
  unfold Obligations.DecodeEncodeAgree
  exact fun i hwf => ⟨decode_encode hwf, fun bs rest he => (blockRow_of_encode hwf he rest).decode_eq⟩

/-- Settles O2: six bytes are a row of the opcode map, and the row determines what is written. -/
theorem encodeDecodeAgree : Obligations.EncodeDecodeAgree := by
  unfold Obligations.EncodeDecodeAgree
  intro bs hlen
  obtain ⟨i, hrow⟩ := exists_blockRow hlen
  exact ⟨i, hrow.decode_eq, hrow.wellFormed, hrow.encode_eq⟩

/-- Settles O3: six bytes are a row of the opcode map, and no other than the one their header byte and the byte at
`1 + bt` select. -/
theorem everyHeaderByteSelectsItsRow : Obligations.EveryHeaderByteSelectsItsRow := by
  unfold Obligations.EveryHeaderByteSelectsItsRow
  intro bs hlen
  obtain ⟨i, hrow⟩ := exists_blockRow hlen
  refine ⟨i, hrow.decode_eq, hrow.rowSelectedBy, fun j hj => ?_⟩
  rw [hrow.decode_eq] at hj
  cases hj
  rfl

/-- Settles O4: each word, evaluated. -/
theorem specWordsDecode : Obligations.SpecWordsDecode := by
  unfold Obligations.SpecWordsDecode
  decide

end Sys2Proof.EncodingProofs
end

section
/-! The split of an offset over the carry channel, undone by the decoder's assembly, and the way `ip` moves over a block
(30_encoding.md R97, R101, R102, R104, R105; 41_block_writer.md R153, R154, R157; 45_decoder.md R285, R290, R292). -/

namespace Sys2Proof.Machine

open Sys2Proof.Claims

/-! ### Offsets -/

/-- The type chosen for an offset part has room for it (R102, R157). -/
theorem lt_of_refType {p : Nat} (h : p < 2 ^ 23) : p < 2 ^ (2 + 8 * refType p) := by
  unfold refType
  split
  · exact Nat.lt_succ_of_le ‹_›
  · split
    · exact Nat.lt_succ_of_le ‹_›
    · exact h.trans (by decide)

/-- The two low bits in the header and the rest in the offset bytes give the offset part back (R97). -/
theorem offsetPart_split {p : Nat} (h : p < 2 ^ 23) : offsetPart (BitVec.ofNat 2 p) (p / 4) = p := by
  have hrest : p / 4 &&& 0x1FFFFF = p / 4 := by
    rw [Nat.and_two_pow_sub_one_eq_mod _ 21, Nat.mod_eq_of_lt (by omega)]
  rw [offsetPart, hrest, BitVec.toNat_ofNat, Nat.lor_comm, ← Nat.shiftLeft_add_eq_or_of_lt (by omega),
    Nat.shiftLeft_eq]
  omega

/-- A carry value within the carry shift is added below the offset part (R292). -/
theorem assembleOffset_split {p csh cv : Nat} (hp : p < 2 ^ 23) (hcv : cv < 2 ^ csh) :
    assembleOffset (BitVec.ofNat 2 p) (p / 4) csh cv = p * 2 ^ csh + cv := by
  rw [assembleOffset, offsetPart_split hp, ← Nat.shiftLeft_add_eq_or_of_lt hcv, Nat.shiftLeft_eq]

/-- An offset divided by the carry's modulus `2 ^ a` and then by the literal header's `2 ^ b` is assembled from the last
quotient and both remainders (R101, R102). -/
theorem assembleOffset_rejoin {d : Nat} (a b : Nat) (hd : d < 2 ^ 23) :
    assembleOffset (BitVec.ofNat 2 (d / 2 ^ a / 2 ^ b)) (d / 2 ^ a / 2 ^ b / 4) (a + b)
      (d % 2 ^ a + d / 2 ^ a % 2 ^ b * 2 ^ a) = d := by
  have hcv : d % 2 ^ a + d / 2 ^ a % 2 ^ b * 2 ^ a = d % 2 ^ (a + b) := by
    rw [Nat.pow_add, Nat.mod_mul, Nat.mul_comm]
  rw [hcv, Nat.div_div_eq_div_mul, ← Nat.pow_add,
    assembleOffset_split ((Nat.div_le_self _ _).trans_lt hd) (Nat.mod_lt _ (Nat.two_pow_pos _)), Nat.div_add_mod']

/-- The split of an offset by division: `c3` is the remainder by the carry's modulus, `q` that of the quotient by the
literal header's, `p` the quotient left (R102). -/
theorem splitOffset_eq (carry lit : Bool) (d : Nat) :
    splitOffset carry lit d =
      { c3 := d % 2 ^ (if carry then 3 else 0)
        q := d / 2 ^ (if carry then 3 else 0) % 2 ^ (if lit then 2 else 0)
        p := d / 2 ^ (if carry then 3 else 0) / 2 ^ (if lit then 2 else 0) } := by
  have hand3 : ∀ n, n &&& 7 = n % 2 ^ 3 := fun n => Nat.and_two_pow_sub_one_eq_mod n 3
  have hand2 : ∀ n, n &&& 3 = n % 2 ^ 2 := fun n => Nat.and_two_pow_sub_one_eq_mod n 2
  cases carry <;> cases lit <;>
    simp [splitOffset, hand3, hand2, Nat.shiftRight_eq_div_pow, Nat.mod_one]

/-! ### The blocks move `ip` -/

theorem step_of_undisturbed {s : State} (h : undisturbed s) : step s = engineStep s := by
  unfold step
  rw [show s.hostScript = [] from h]

/-- At the loop condition the engine runs the block at `ip` (R284). -/
theorem engineStep_of_blocks {s : State} {r : Report} (hp : s.phase = .blocks r)
    (hm : (s.bd.ip.toNat : Int) < s.bd.ipet.toInt) :
    engineStep s = exec (decodeBlock (headWindow s.src s.bd.ip.toNat)) s := by
  have hmore : s.bd.more = true := decide_eq_true hm
  have hwindow : blockWindow s.src s.bd.ip.toNat = headWindow s.src s.bd.ip.toNat := rfl
  simp only [engineStep, fetch, hp, hmore, if_true, hwindow]

/-- Each block runs the steps of a literal block or those of a reference block, with operands whose bytes add up to
the block's length (R104). -/
theorem exec_of_blockRow {bs : List Byte} {i : Instr} (h : BlockRow bs i) (s : State) :
    (∃ bh head cc, exec i s = .next (literalBlock bh head cc s) ∧ blockLength i = head + cc) ∨
    (∃ bh o lenBytes cc, exec i s = .next (referenceBlock bh o lenBytes cc s) ∧ lenBytes ≤ 2 ∧
      blockLength i = 1 + (headerType bh).toNat + lenBytes) := by
  cases h
  case lits => exact .inl ⟨_, _, _, rfl, rfl⟩
  case litl => exact .inl ⟨_, _, _, rfl, Nat.add_assoc _ _ _⟩
  all_goals
    refine .inr ⟨_, _, _, _, rfl, by decide, ?_⟩
    rw [headerType_headerByte]
    rfl

theorem not_ended_of_blocks {t : State} {r : Report} (hp : t.phase = .blocks r) : ¬ t.ended := fun hend => by
  rw [hend.1] at hp
  cases hp

/-- A literal block that does not end the command moves `ip` over its head and its literals. -/
theorem literalBlock_ip {bh : Byte} {head cc : Nat} {s : State} (hipe : s.bd.ipe.toNat < 2 ^ 32)
    (hgo : ¬ (literalBlock bh head cc s).ended) :
    (literalBlock bh head cc s).bd.ip.toNat = s.bd.ip.toNat + head + cc := by
  rcases literalBlock_cases bh head cc s with ⟨-, h⟩ | ⟨-, -, h⟩ | ⟨hfit, -, h⟩
  · exact absurd (h ▸ State.raise_ended _ _ _ _) hgo
  · exact absurd (h ▸ State.raise_ended _ _ _ _) hgo
  · rw [h]
    exact (BitVec.toNat_ofNat _ _).trans (Nat.mod_eq_of_lt (hfit.trans_lt hipe))

/-- A reference block that does not end the command moves `ip` over its header, its offset and its length bytes. -/
theorem referenceBlock_ip {bh : Byte} {o lenBytes cc : Nat} {s : State}
    (hip : s.bd.ip.toNat + 1 + (headerType bh).toNat + lenBytes < 2 ^ 32)
    (hgo : ¬ (referenceBlock bh o lenBytes cc s).ended) :
    (referenceBlock bh o lenBytes cc s).bd.ip.toNat = s.bd.ip.toNat + 1 + (headerType bh).toNat + lenBytes := by
  rcases referenceBlock_cases bh o lenBytes cc s with ⟨-, h⟩ | ⟨-, -, h⟩ | ⟨-, -, h⟩
  · exact absurd (h ▸ State.raise_ended _ _ _ _) hgo
  · exact absurd (h ▸ State.raise_ended _ _ _ _) hgo
  · rw [h]
    exact (BitVec.toNat_ofNat _ _).trans (Nat.mod_eq_of_lt hip)

end Sys2Proof.Machine

namespace Sys2Proof.EncodingProofs

open Sys2Proof Sys2Proof.Machine Sys2Proof.Claims

/-- Settles O7: the split divides by the carry's modulus and then by the literal header's, and the assembly multiplies
the quotient back and adds both remainders. -/
theorem offsetSplitRejoins : Obligations.OffsetSplitRejoins := by
  unfold Obligations.OffsetSplitRejoins
  intro carry lit d hd
  rw [splitOffset_eq]
  have hp : d / 2 ^ (if carry then 3 else 0) / 2 ^ (if lit then 2 else 0) < 2 ^ 23 :=
    (Nat.div_le_self _ _).trans_lt ((Nat.div_le_self _ _).trans_lt hd)
  have hc3 : 2 ^ (if carry then 3 else 0) ≤ 8 := by cases carry <;> decide
  have hq : 2 ^ (if lit then 2 else 0) ≤ 4 := by cases lit <;> decide
  exact ⟨(Nat.mod_lt _ (Nat.two_pow_pos _)).trans_le hc3, (Nat.mod_lt _ (Nat.two_pow_pos _)).trans_le hq,
    lt_of_refType hp, hp, assembleOffset_rejoin _ _ hd⟩

/-- Settles O19: the step runs the block at `ip`, every block runs one of two operations, and each of them moves `ip`
over the block unless it ends the command. -/
theorem blocksAdvanceByTheirLength : Obligations.BlocksAdvanceByTheirLength := by
  unfold Obligations.BlocksAdvanceByTheirLength
  intro s t r i hturn hok hp hm hi h ht
  have hrow : BlockRow (headWindow s.src s.bd.ip.toNat) i := blockRow_of_decode le_rfl hi
  have hgo := not_ended_of_blocks ht
  have hipe := (hok.bounds hp).ipe_le
  have hipet := (hok.bounds hp).ipet_eq
  rw [step_of_undisturbed hturn, engineStep_of_blocks hp hm, hrow.decodeBlock_eq] at h
  simp only [Config.lenMax, Config.litFin] at hipe hipet
  rcases exec_of_blockRow hrow s with ⟨bh, head, cc, hexec, hlen⟩ | ⟨bh, o, lenBytes, cc, hexec, hle, hlen⟩ <;>
    (rw [hexec] at h; cases h; rw [hlen])
  · rw [literalBlock_ip (by omega) hgo, Nat.add_assoc]
  · have htype := (headerType bh).isLt
    rw [referenceBlock_ip (by omega) hgo]
    omega

end Sys2Proof.EncodingProofs
end

section
/-! Wide accesses byte by byte, and the counts of the two scanners (20_memory.md R62; 40_byte_io_and_scanners.md R130,
R131, R134, R135). -/

namespace Sys2Proof.Machine

/-! ### Wide accesses -/

/-- The value of a wide read as the sum of R130. -/
theorem Memory.readLE_eq_sum (m : Memory) (a n : Nat) :
    m.readLE a n = ((List.range n).map fun i => (m.read (a + i)).toNat * 2 ^ (8 * i)).sum := by
  induction n generalizing a with
  | zero => rfl
  | succ n ih =>
    have hscale : ∀ i, (m.read (a + (i + 1))).toNat * 2 ^ (8 * (i + 1)) =
        256 * ((m.read (a + 1 + i)).toNat * 2 ^ (8 * i)) := fun i => by
      rw [Nat.add_right_comm a 1 i, Nat.mul_add_one, Nat.pow_add, Nat.mul_comm (2 ^ (8 * i)), Nat.mul_left_comm]
      rfl
    calc m.readLE a (n + 1)
      _ = (m.read a).toNat + 256 * m.readLE (a + 1) n := rfl
      _ = ((List.range (n + 1)).map fun i => (m.read (a + i)).toNat * 2 ^ (8 * i)).sum := by
        rw [ih, ← List.sum_map_mul_left, List.range_succ_eq_map, List.map_cons, List.map_map, List.sum_cons]
        simp [Function.comp_def, hscale]

theorem Memory.read_writeLE_inside (m : Memory) (a v : Nat) {n i : Nat} (h : i < n) :
    (m.writeLE a n v).read (a + i) = BitVec.ofNat 8 (v >>> (8 * i)) := by
  rw [Memory.read_writeLE_eq, if_pos (by omega), Nat.add_sub_cancel_left, Nat.shiftRight_eq_div_pow, Nat.pow_mul]

theorem sameOutside_writeLE (m : Memory) (a n v : Nat) : Claims.sameOutside m (m.writeLE a n v) a n := fun b hb => by
  rw [Memory.read_writeLE_eq, if_neg (by omega)]

/-! ### Scanners -/

/-- `n` is the length of the longest initial run of `p`, cut at `ml`: what the loops of R134 and R135 count. -/
structure IsRunLength (p : Nat → Prop) (ml n : Nat) : Prop where
  le : n ≤ ml
  holds : ∀ j, j < n → p j
  stops : n < ml → ¬ p n

theorem isRunLength_zero (p : Nat → Prop) : IsRunLength p 0 0 :=
  ⟨le_rfl, fun _ h => absurd h (Nat.not_lt_zero _), fun h => absurd h (Nat.not_lt_zero _)⟩

theorem isRunLength_of_not {p : Nat → Prop} (ml : Nat) (h : ¬ p 0) : IsRunLength p ml 0 :=
  ⟨Nat.zero_le _, fun _ hj => absurd hj (Nat.not_lt_zero _), fun _ => h⟩

/-- A first hit in front of a run makes it longer by one. -/
theorem IsRunLength.cons {p : Nat → Prop} {ml n : Nat} (h : IsRunLength (fun j => p (j + 1)) ml n) (h0 : p 0) :
    IsRunLength p (ml + 1) (1 + n) := by
  rw [Nat.add_comm 1 n]
  refine ⟨Nat.succ_le_succ h.le, fun j hj => ?_, fun hn => h.stops (Nat.lt_of_succ_lt_succ hn)⟩
  cases j with
  | zero => exact h0
  | succ j => exact h.holds j (Nat.lt_of_succ_lt_succ hj)

theorem Memory.fwd_succ_of_eq {m : Memory} {a b : Nat} (ml : Nat) (h : m.read a = m.read b) :
    m.fwd a b (ml + 1) = 1 + m.fwd (a + 1) (b + 1) ml := if_pos h

theorem Memory.fwd_succ_of_ne {m : Memory} {a b : Nat} (ml : Nat) (h : m.read a ≠ m.read b) :
    m.fwd a b (ml + 1) = 0 := if_neg h

theorem Memory.rev_succ_of_eq {m : Memory} {a b : Nat} (ml : Nat) (h : m.read (a - 1) = m.read (b - 1)) :
    m.rev a b (ml + 1) = 1 + m.rev (a - 1) (b - 1) ml := if_pos h

theorem Memory.rev_succ_of_ne {m : Memory} {a b : Nat} (ml : Nat) (h : m.read (a - 1) ≠ m.read (b - 1)) :
    m.rev a b (ml + 1) = 0 := if_neg h

/-- `FWD` measures the run of equal bytes upwards from its two origins (R134). -/
theorem Memory.fwd_isRunLength (m : Memory) (a b ml : Nat) :
    IsRunLength (fun j => m.read (a + j) = m.read (b + j)) ml (m.fwd a b ml) := by
  induction ml generalizing a b with
  | zero => exact isRunLength_zero _
  | succ ml ih =>
    by_cases h : m.read a = m.read b
    · rw [Memory.fwd_succ_of_eq ml h]
      have htail := ih (a + 1) (b + 1)
      simp only [Nat.add_right_comm _ 1] at htail
      exact htail.cons h
    · rw [Memory.fwd_succ_of_ne ml h]
      exact isRunLength_of_not _ h

/-- `REV` measures the run of equal bytes downwards from just before its two origins (R135). An origin at 0 stays
there, so this needs no bound on `ml`. -/
theorem Memory.rev_isRunLength (m : Memory) (a b ml : Nat) :
    IsRunLength (fun j => m.read (a - 1 - j) = m.read (b - 1 - j)) ml (m.rev a b ml) := by
  induction ml generalizing a b with
  | zero => exact isRunLength_zero _
  | succ ml ih =>
    by_cases h : m.read (a - 1) = m.read (b - 1)
    · rw [Memory.rev_succ_of_eq ml h]
      have hdown : ∀ x j : Nat, x - 1 - 1 - j = x - 1 - (j + 1) := fun x j => by omega
      have htail := ih (a - 1) (b - 1)
      simp only [hdown] at htail
      exact htail.cons h
    · rw [Memory.rev_succ_of_ne ml h]
      exact isRunLength_of_not _ h

end Sys2Proof.Machine

namespace Sys2Proof.ByteIoProofs

open Sys2Proof Sys2Proof.Machine

/-- Settles O34: the read by induction on the number of bytes, the store by what it leaves at each address. -/
theorem wideAccessesAreLittleEndian : Obligations.WideAccessesAreLittleEndian := by
  unfold Obligations.WideAccessesAreLittleEndian
  intro m a n v
  exact ⟨m.readLE_eq_sum a n, fun i hi => m.read_writeLE_inside a v hi, sameOutside_writeLE m a n v⟩

/-- Settles O35: each scanner measures the run of equal bytes in its own direction. -/
theorem scannersAreExact : Obligations.ScannersAreExact := by
  unfold Obligations.ScannersAreExact
  intro m a b ml
  have hfwd := m.fwd_isRunLength a b ml
  have hrev := m.rev_isRunLength a b ml
  exact ⟨⟨hfwd.le, hfwd.holds, hfwd.stops⟩, fun _ _ => ⟨hrev.le, hrev.holds, hrev.stops⟩⟩

end Sys2Proof.ByteIoProofs
end

section
/-! What BW appends to the stream: each of its operations puts a list of bytes at `op`, moves `op` behind them and
leaves the rest of DST alone, and such steps compose; from it `START`, `WRITE_BLK` and `FINALIZE`
(41_block_writer.md R150 to R160, R162). -/

namespace Sys2Proof.Machine

open Sys2Proof.Claims

variable {s t u : State} {bs cs : List Byte}

/-! startWritesThePrefix# Appending bytes -/

/-- The bytes `bs` stand in DST from the old `op` on, `op` is behind them, and all other bytes of DST are as before. -/
structure Emits (s t : State) (bs : List Byte) : Prop where
  op_eq : t.bw.op.toNat = s.bw.op.toNat + bs.length
  stands : standsAt t.dst s.bw.op.toNat bs
  outside : sameOutside s.dst t.dst s.bw.op.toNat bs.length

theorem emits_of_read (hop : t.bw.op.toNat = s.bw.op.toNat + bs.length)
    (hread : ∀ a, t.dst.read a =
      if s.bw.op.toNat ≤ a ∧ a < s.bw.op.toNat + bs.length then bs.getD (a - s.bw.op.toNat) 0 else s.dst.read a) :
    Emits s t bs where
  op_eq := hop
  stands j hj := by rw [hread, if_pos (by omega), Nat.add_sub_cancel_left]
  outside a ha := by rw [hread, if_neg (by omega)]

theorem Emits.nil (s : State) : Emits s s [] where
  op_eq := rfl
  stands j hj := absurd hj (Nat.not_lt_zero j)
  outside _ _ := rfl

theorem Emits.append (h : Emits s t bs) (h' : Emits t u cs) : Emits s u (bs ++ cs) where
  op_eq := by rw [h'.op_eq, h.op_eq, List.length_append, Nat.add_assoc]
  stands j hj := by
    have hop := h.op_eq
    rw [List.length_append] at hj
    by_cases hb : j < bs.length
    · rw [h'.outside _ (by omega), h.stands j hb, List.getD_append _ _ _ _ hb]
    · have hstands := h'.stands (j - bs.length) (by omega)
      rw [List.getD_append_right _ _ _ _ (by omega), ← hstands, hop]
      congr 1
      omega
  outside a ha := by
    have hop := h.op_eq
    rw [List.length_append] at ha
    rw [h'.outside _ (by omega), h.outside _ (by omega)]

theorem emits_putBytes (s : State) (bs : List Byte) (h : s.bw.op.toNat + bs.length < 2 ^ 32) :
    Emits s (s.putBytes bs) bs := emits_of_read (s.putBytes_op_toNat bs h) (s.putBytes_read bs)

/-- The `n` bytes of a memory from `a` on. -/
def Memory.slice (m : Memory) (a n : Nat) : List Byte := (List.range n).map fun j => m.read (a + j)

@[simp] theorem Memory.slice_length (m : Memory) (a n : Nat) : (m.slice a n).length = n := by
  rw [Memory.slice, List.length_map, List.length_range]

theorem Memory.slice_getD (m : Memory) (a : Nat) {n j : Nat} (h : j < n) : (m.slice a n).getD j 0 = m.read (a + j) := by
  rw [List.getD_eq_getElem _ _ (by rwa [Memory.slice_length])]
  simp only [Memory.slice, List.getElem_map, List.getElem_range]

theorem emits_putLiterals (s : State) (ipa lc : Nat) (h : s.bw.op.toNat + lc < 2 ^ 32) :
    Emits s (s.putLiterals ipa lc) (s.src.slice ipa lc) := by
  refine emits_of_read (by rw [s.putLiterals_op_toNat ipa lc h, Memory.slice_length]) fun a => ?_
  rw [State.putLiterals_read, Memory.slice_length]
  by_cases ha : s.bw.op.toNat ≤ a ∧ a < s.bw.op.toNat + lc
  · rw [if_pos ha, if_pos ha, Memory.slice_getD _ _ (by omega)]
  · rw [if_neg ha, if_neg ha]

/-! startWritesThePrefix# `START` (R150) -/

/-- The first byte of a stream, as `START` writes it (R150). -/
def startByte (mref : BitVec 3) : Byte := BitVec.ofNat 8 (2 * 16 + mref.toNat)

theorem startByte_toNat (mref : BitVec 3) : (startByte mref).toNat = 2 * 2 ^ 4 + mref.toNat := by
  revert mref; decide

theorem writerStart_read (s : State) (mref : BitVec 3) (a : Nat) :
    (writerStart s mref).dst.read a = if a = 0 then startByte mref else s.dst.read a := Memory.read_write _ _ _ _

/-- At the start of a command, where `op` is 0, `START` appends the first byte of the stream. -/
theorem emits_writerStart (mref : BitVec 3) (h : s.bw.op = 0) : Emits s (writerStart s mref) [startByte mref] := by
  have hop : s.bw.op.toNat = 0 := by rw [h]; rfl
  refine emits_of_read (by rw [hop]; rfl) fun a => ?_
  rw [writerStart_read, hop]
  by_cases ha : a = 0
  · rw [if_pos ha, if_pos ⟨by omega, by rw [List.length_singleton]; omega⟩, ha]
    rfl
  · rw [if_neg ha, if_neg (by rw [List.length_singleton]; omega)]

/-! startWritesThePrefix# The literal block (R155, R156) -/

/-- The fields of a header byte, added up (30_encoding.md R92). -/
theorem header_eq_sum (q : Nat) {bt len : Nat} (hbt : bt < 4) (hlen : len < 16) :
    q <<< 6 ||| bt <<< 4 ||| len = q * 64 + bt * 16 + len := by
  have hlow : bt <<< 4 ||| len = bt * 16 + len := by
    rw [← Nat.shiftLeft_add_eq_or_of_lt hlen, Nat.shiftLeft_eq]
  rw [Nat.or_assoc, hlow, ← Nat.shiftLeft_add_eq_or_of_lt (by omega), Nat.shiftLeft_eq, Nat.add_assoc]

/-- The header and length bytes of a literal block of a length that can be coded (R155). -/
def literalHeadOf (q lc : Nat) : List Byte :=
  if lc ≤ 15 then [BitVec.ofNat 8 (q * 64 + lc)] else BitVec.ofNat 8 (q * 64) :: shortVarint 3 (lc - 16)

theorem literalHead_eq (q : Nat) {lc : Nat} (h : lc < 16 + 2 ^ 28) : literalHead q lc = some (literalHeadOf q lc) := by
  have hshort : lc ≤ 15 → q <<< 6 ||| lc = q * 64 + lc := fun hlc => by
    rw [← Nat.shiftLeft_add_eq_or_of_lt (by omega), Nat.shiftLeft_eq]
  unfold literalHead literalHeadOf
  by_cases hlc : lc ≤ 15
  · rw [if_pos hlc, if_pos hlc, hshort hlc]
  · rw [if_neg hlc, if_neg hlc, if_neg (by omega), Nat.shiftLeft_eq]

theorem literalHeadOf_length (q : Nat) {lc : Nat} (h : lc < 16 + 2 ^ 28) :
    (literalHeadOf q lc).length = literalHeadLength lc := literalHead_length (literalHead_eq q h)

theorem literalBytesOf_zero (src : Memory) (q ipa : Nat) : literalBytesOf src q 0 ipa = [] := if_pos rfl

theorem literalBytesOf_eq (src : Memory) (q ipa : Nat) {lc : Nat} (h : 0 < lc) :
    literalBytesOf src q lc ipa = literalHeadOf q lc ++ src.slice ipa lc := if_neg (Nat.ne_of_gt h)

theorem literalBytesOf_length (src : Memory) (q ipa : Nat) {lc : Nat} (h : 0 < lc) (hlc : lc < 16 + 2 ^ 28) :
    (literalBytesOf src q lc ipa).length = literalHeadLength lc + lc := by
  rw [literalBytesOf_eq src q ipa h, List.length_append, literalHeadOf_length q hlc, Memory.slice_length]

/-- A literal block that can be coded is appended. -/
theorem writerLiteral_emits (s : State) (q ipa : Nat) {lc : Nat} (h : 0 < lc) (hlc : lc < 16 + 2 ^ 28)
    (hop : s.bw.op.toNat + lc + 5 < 2 ^ 32) :
    ∃ t, writerLiteral s q lc ipa = some t ∧ Emits s t (literalBytesOf s.src q lc ipa) := by
  have hlen := literalHeadOf_length q hlc
  have hle := literalHeadLength_le lc
  have hhead := emits_putBytes s (literalHeadOf q lc) (by omega)
  have hlits := emits_putLiterals (s.putBytes (literalHeadOf q lc)) ipa lc (by rw [hhead.op_eq]; omega)
  refine ⟨(s.putBytes (literalHeadOf q lc)).putLiterals ipa lc, ?_, ?_⟩
  · rw [writerLiteral, literalHead_eq q hlc]
  · rw [literalBytesOf_eq _ _ _ h]
    exact hhead.append hlits

theorem writerLiteral_eq_none (s : State) (q ipa : Nat) {lc : Nat} (h : 16 + 2 ^ 28 ≤ lc) :
    writerLiteral s q lc ipa = none := by
  rw [writerLiteral, (literalHead_eq_none q lc).2 h]

/-! startWritesThePrefix# The reference block (R157, R159) -/

theorem bytesLE_length : ∀ n v, (bytesLE n v).length = n
  | 0, _ => rfl
  | n + 1, v => by rw [bytesLE, List.length_cons, bytesLE_length n]

theorem bytesLE_getD : ∀ {n j : Nat} (v : Nat), j < n → (bytesLE n v).getD j 0 = BitVec.ofNat 8 (v / 256 ^ j)
  | n + 1, 0, v, _ => by rw [bytesLE, List.getD_cons_zero, Nat.pow_zero, Nat.div_one]
  | n + 1, j + 1, v, h => by
    rw [bytesLE, List.getD_cons_succ, bytesLE_getD _ (Nat.lt_of_succ_lt_succ h), Nat.div_div_eq_div_mul, Nat.pow_succ']

theorem lengthNibble_lt (rcp : Nat) : lengthNibble rcp < 16 := by
  unfold lengthNibble
  split <;> omega

/-- The bytes of a reference block, in the writer's own terms. -/
theorem referenceBytesOf_eq (p rcp : Nat) :
    referenceBytesOf p rcp = bytesLE (1 + refType p) (refWord p (refType p) (lengthNibble rcp)) ++ lengthTail rcp := by
  have htype : 1 + (if 1023 < p then 1 else 0) + (if 262143 < p then 1 else 0) = refType p := by
    unfold refType
    repeat' split
    all_goals omega
  have hlt : refType p < 4 := by rcases refType_cases p with h | h | h <;> omega
  simp only [referenceBytesOf, htype]
  rw [refWord, header_eq_sum p hlt (lengthNibble_lt rcp), lengthTail, lengthNibble, Nat.sub_sub]

theorem referenceBytesOf_length (p rcp : Nat) :
    (referenceBytesOf p rcp).length = 1 + refType p + lengthTailLength rcp := by
  rw [referenceBytesOf_eq, List.length_append, bytesLE_length, lengthTail_length]

theorem referenceBytesOf_length_le (p rcp : Nat) : (referenceBytesOf p rcp).length ≤ 6 := by
  have htail := lengthTailLength_le rcp
  rw [referenceBytesOf_length]
  rcases refType_cases p with h | h | h <;> omega

/-- A reference block before its length bytes: the packed word is written, `csh` and `cbp` are set for the next deposit
(R157, R158). -/
def referenceHeaded (s : State) (p rcp : Nat) : State :=
  { s with dst := s.dst.writeLE s.bw.op.toNat (1 + refType p) (refWord p (refType p) (lengthNibble rcp))
           bw := { s.bw with op := s.bw.op + BitVec.ofNat 32 (1 + refType p)
                             csh := if refType p = 3 then 3 else 0
                             cbp := some (s.bw.op + BitVec.ofNat 32 (refType p)) } }

theorem writerReference_eq (s : State) (p rcp : Nat) :
    writerReference s p rcp = (referenceHeaded s p rcp).putBytes (lengthTail rcp) := rfl

theorem emits_referenceHeaded (s : State) (p rcp : Nat) (hop : s.bw.op.toNat + 6 < 2 ^ 32) :
    Emits s (referenceHeaded s p rcp) (bytesLE (1 + refType p) (refWord p (refType p) (lengthNibble rcp))) := by
  have htype := refType_cases p
  refine emits_of_read ?_ fun a => ?_
  · rw [bytesLE_length]
    exact toNat_add_ofNat s.bw.op (by omega)
  · rw [bytesLE_length]
    refine (Memory.read_writeLE_eq _ _ _ _ _).trans ?_
    by_cases ha : s.bw.op.toNat ≤ a ∧ a < s.bw.op.toNat + (1 + refType p)
    · rw [if_pos ha, if_pos ha, bytesLE_getD _ (by omega)]
    · rw [if_neg ha, if_neg ha]

/-- A reference block is appended. -/
theorem writerReference_emits (s : State) (p rcp : Nat) (hop : s.bw.op.toNat + 6 < 2 ^ 32) :
    Emits s (writerReference s p rcp) (referenceBytesOf p rcp) := by
  have hlen := referenceBytesOf_length_le p rcp
  have hhead := emits_referenceHeaded s p rcp hop
  rw [referenceBytesOf_eq] at hlen ⊢
  rw [List.length_append] at hlen
  rw [writerReference_eq]
  exact hhead.append (emits_putBytes _ _ (by rw [hhead.op_eq]; omega))

/-- `csh` and `cbp` after a reference block, for the deposit that type 3 has room for (R158). -/
theorem writerReference_carry (s : State) (p rcp : Nat) :
    (writerReference s p rcp).bw.csh = (if 262143 < p then 3 else 0) ∧
    (262143 < p → (writerReference s p rcp).bw.cbp = some (s.bw.op + BitVec.ofNat 32 3)) := by
  have htype : refType p = 3 ↔ 262143 < p := by
    unfold refType
    repeat' split
    all_goals omega
  refine ⟨?_, fun hp => ?_⟩
  · show (if refType p = 3 then (3 : BitVec 2) else 0) = _
    simp only [htype]
  · show some (s.bw.op + BitVec.ofNat 32 (refType p)) = _
    rw [htype.2 hp]

/-! startWritesThePrefix# `WRITE_BLK` (R152 to R159) -/

/-- The split of an offset by the writer's carry shift and the literal run in front of the block (R153, R154). -/
theorem splitOffset_carry (w : Writer) (lc d : Nat) :
    splitOffset w.carry (decide (0 < lc)) d =
      { c3 := if w.csh = 3 then d % 8 else 0
        q := if 0 < lc then (if w.csh = 3 then d / 8 else d) % 4 else 0
        p := if 0 < lc then (if w.csh = 3 then d / 8 else d) / 4 else if w.csh = 3 then d / 8 else d } := by
  have hcarry : w.csh = 3 ↔ w.carry = true := beq_iff_eq.symm
  simp only [splitOffset_eq, hcarry]
  cases w.carry <;> by_cases hpos : 0 < lc <;> simp [hpos, Nat.mod_one]

/-- With an old byte at `cbp` the deposit ORs into that byte and leaves the others (R153). -/
theorem writerDeposit_read_of_lt (s : State) (c3 : Nat) {a : Nat} (ha : a < 2 ^ 32) :
    (writerDeposit s c3).dst.read a =
      if s.bw.csh = 3 ∧ s.bw.cbp = some (BitVec.ofNat 32 a) then s.dst.read a ||| BitVec.ofNat 8 (c3 * 32)
      else s.dst.read a := by
  have hcbp : (∃ c, s.bw.cbp = some c ∧ c.toNat = a) ↔ s.bw.cbp = some (BitVec.ofNat 32 a) := by
    constructor
    · rintro ⟨c, hc, rfl⟩
      rw [hc, BitVec.ofNat_toNat, BitVec.setWidth_eq]
    · exact fun hc => ⟨_, hc, by rw [BitVec.toNat_ofNat, Nat.mod_eq_of_lt ha]⟩
  simp only [writerDeposit_read, hcbp, Nat.shiftLeft_eq]

/-- A sound deposit leaves the bytes from `op` on (R153). -/
theorem writerDeposit_read_of_ge (c3 : Nat) (h : s.bw.carryOk) {a : Nat} (ha : s.bw.op.toNat ≤ a) :
    (writerDeposit s c3).dst.read a = s.dst.read a := by
  rw [writerDeposit_read, if_neg]
  rintro ⟨hcsh, c, hc, rfl⟩
  obtain ⟨c', hc', hlt⟩ := h.2 hcsh
  rw [hc] at hc'
  cases hc'
  omega

/-- `WRITE_BLK` is the deposit, then the literal block, if there are literals, and the reference block behind it. -/
theorem writeBlk_emits (rc ipa : Nat) {lc d c3 q p : Nat}
    (hsplit : splitOffset s.bw.carry (decide (0 < lc)) d = { c3 := c3, q := q, p := p })
    (hlc : lc < 16 + 2 ^ 28) (hop : s.bw.op.toNat + lc + 11 < 2 ^ 32) :
    ∃ u, writeBlk s lc rc d ipa = some (writerReference u p (codedLength rc s.bw.mref.toNat)) ∧
      Emits (writerDeposit s c3) u (literalBytesOf s.src q lc ipa) := by
  have hframe := writerDeposit_frame s c3
  have hbw : (writerDeposit s c3).bw = s.bw := by rw [hframe]
  have hsrc : (writerDeposit s c3).src = s.src := by rw [hframe]
  simp only [writeBlk, hsplit]
  by_cases hpos : 0 < lc
  · obtain ⟨u, hu, hemits⟩ := writerLiteral_emits (writerDeposit s c3) q ipa hpos hlc (by rw [hbw]; omega)
    refine ⟨u, ?_, hsrc ▸ hemits⟩
    rw [if_pos hpos, hu]
  · obtain rfl : lc = 0 := by omega
    refine ⟨writerDeposit s c3, if_neg hpos, ?_⟩
    rw [literalBytesOf_zero]
    exact Emits.nil _

/-! startWritesThePrefix# `FINALIZE` (R160) -/

/-- A terminal block that can be coded is appended. -/
theorem finalize_emits (s : State) (ipa : Nat) {lc : Nat} (h : 0 < lc) (hlc : lc < 16 + 2 ^ 28)
    (hop : s.bw.op.toNat + lc + 5 < 2 ^ 32) :
    ∃ t, finalize s lc ipa = some t ∧ Emits s t (literalBytesOf s.src 0 lc ipa) :=
  writerLiteral_emits s 0 ipa h hlc hop

end Sys2Proof.Machine

namespace Sys2Proof.BlockWriterProofs

open Sys2Proof Sys2Proof.Machine Sys2Proof.Claims

/-- Settles O31: one byte is written, and its value is within a byte. -/
theorem startWritesThePrefix : Obligations.StartWritesThePrefix := by
  unfold Obligations.StartWritesThePrefix
  intro s mref t
  refine ⟨rfl, ?_, fun a ha => ?_⟩
  · rw [writerStart_read, if_pos rfl, startByte_toNat]
  · rw [writerStart_read, if_neg (by omega)]

/-- Settles O33: `FINALIZE` appends a literal block and does nothing else. -/
theorem finalizeWritesTheTerminalBlock : Obligations.FinalizeWritesTheTerminalBlock := by
  unfold Obligations.FinalizeWritesTheTerminalBlock
  intro s lc ipa h6 hop
  refine ⟨fun hlc => ?_, fun hlc => writerLiteral_eq_none s 0 ipa hlc⟩
  obtain ⟨t, ht, hemits⟩ := finalize_emits s ipa (by omega) hlc hop
  exact ⟨t, ht, (writerLiteral_some ht hop).1, hemits.op_eq, hemits.stands, hemits.outside⟩

/-- Settles O32: the deposit changes one byte below `op`, and behind it the two blocks are appended. -/
theorem writeBlkEmitsItsBlocks : Obligations.WriteBlkEmitsItsBlocks := by
  unfold Obligations.WriteBlkEmitsItsBlocks
  intro s lc rc d ipa _ _ _ hcarry hop
  refine ⟨fun hlc => ?_, (writeBlk_eq_none s lc rc d ipa).2⟩
  intro c3 d1 q p lits refs
  have hok : s.bw.carryOk := by
    refine ⟨hcarry.imp_right And.left, fun h3 => ?_⟩
    rcases hcarry with h0 | ⟨-, hc⟩
    · rw [h0] at h3; exact absurd h3 (by decide)
    · exact hc
  obtain ⟨u, hu, hlits⟩ := writeBlk_emits rc ipa (splitOffset_carry s.bw lc d) hlc hop
  have hbw : (writerDeposit s c3).bw = s.bw := by rw [writerDeposit_frame]
  have hlen : lits.length ≤ lc + 5 := by
    rcases Nat.eq_zero_or_pos lc with rfl | hpos
    · simp [lits, literalBytesOf_zero]
    · have := literalHeadLength_le lc
      rw [literalBytesOf_length _ _ _ hpos hlc]
      omega
  have huop : u.bw.op.toNat = s.bw.op.toNat + lits.length := hbw ▸ hlits.op_eq
  have hboth : Emits (writerDeposit s c3) (writerReference u p (codedLength rc s.bw.mref.toNat)) (lits ++ refs) :=
    hlits.append (writerReference_emits u p _ (by omega))
  have htop := hboth.op_eq
  have hstands := hboth.stands
  have houtside := hboth.outside
  rw [hbw] at htop hstands houtside
  obtain ⟨hcsh, hcbp⟩ := writerReference_carry u p (codedLength rc s.bw.mref.toNat)
  refine ⟨_, hu, (writeBlk_some hu hop).1, ?_, hstands, fun a ha => ?_, fun a ha => ?_, hcsh, fun hp => ?_⟩
  · exact htop.trans (by rw [List.length_append, Nat.add_assoc])
  · rw [houtside a (.inl ha), writerDeposit_read_of_lt s c3 (by omega)]
  · have ha' : s.bw.op.toNat + (lits ++ refs).length ≤ a := htop ▸ ha
    rw [houtside a (.inr ha'), writerDeposit_read_of_ge c3 hok (by omega)]
  · rw [hcbp hp]
    congr 1
    apply BitVec.eq_of_toNat_eq
    rw [toNat_add_ofNat _ (by omega), huop, BitVec.toNat_ofNat, Nat.mod_eq_of_lt (by omega)]

end Sys2Proof.BlockWriterProofs
end

section
/-! The blocks BW writes decode back: the bytes of a reference block and the head of a literal block are what the
encoder gives for a block of their offset part, length and carry bits (41_block_writer.md R155, R157, R159;
30_encoding.md R94, R95, R97 to R99, R109). -/

namespace Sys2Proof.Machine

open Sys2Proof.Claims Sys2Proof.Laws.EncodeLength

/-! startWritesThePrefix# Fields -/

/-- The low byte of a packed word is the header byte of its fields (30_encoding.md R92, R97). -/
theorem ofNat_eq_headerByte (q : Nat) {bt len : Nat} (hbt : bt < 4) (hlen : len < 16) :
    BitVec.ofNat 8 (q * 64 + bt * 16 + len) =
      headerByte (BitVec.ofNat 2 q) (BitVec.ofNat 2 bt) (BitVec.ofNat 4 len) := by
  apply BitVec.eq_of_toNat_eq
  simp only [headerByte, BitVec.toNat_append, BitVec.toNat_ofNat]
  rw [← Nat.shiftLeft_add_eq_or_of_lt (by omega), ← Nat.shiftLeft_add_eq_or_of_lt (by omega), Nat.shiftLeft_eq,
    Nat.shiftLeft_eq]
  omega

theorem bytesLE_one (v : Nat) : bytesLE 1 v = [BitVec.ofNat 8 v] := rfl

theorem extractLsb'_ofNat_byte {w v i : Nat} (h : v < 2 ^ w) :
    (BitVec.ofNat w v).extractLsb' i 8 = BitVec.ofNat 8 (v / 2 ^ i) := by
  apply BitVec.eq_of_toNat_eq
  rw [BitVec.extractLsb'_toNat, BitVec.toNat_ofNat, BitVec.toNat_ofNat, Nat.mod_eq_of_lt h, Nat.shiftRight_eq_div_pow]

theorem bytesLE_two {v : Nat} (h : v < 2 ^ 16) : bytesLE 2 v = offset2Bytes (BitVec.ofNat 16 v) := by
  simp only [offset2Bytes, extractLsb'_ofNat_byte h]
  simp [bytesLE]

theorem bytesLE_three {v : Nat} (h : v < 2 ^ 24) : bytesLE 3 v = offset3Bytes (BitVec.ofNat 24 v) := by
  simp only [offset3Bytes, extractLsb'_ofNat_byte h]
  simp [bytesLE, Nat.div_div_eq_div_mul]

/-- The packed word's bytes are the header byte and the bytes of the offset (R157). -/
theorem bytesLE_refWord (n : Nat) {p bt nib : Nat} (hbt : bt < 4) (hnib : nib < 16) :
    bytesLE (1 + n) (refWord p bt nib) =
      headerByte (BitVec.ofNat 2 p) (BitVec.ofNat 2 bt) (BitVec.ofNat 4 nib) :: bytesLE n (p / 4) := by
  have hrest : (p * 64 + bt * 16 + nib) / 256 = p / 4 := by omega
  rw [refWord, header_eq_sum p hbt hnib, Nat.add_comm 1 n, bytesLE, ofNat_eq_headerByte p hbt hnib, hrest]

/-! startWritesThePrefix# The reference block (R157, R159) -/

/-- The three forms of a coded length: its nibble, its length bytes (30_encoding.md R98). -/
theorem lengthForm_cases {rcp : Nat} (h1 : 1 ≤ rcp) (h525 : rcp ≤ 525) :
    (∃ len : BitVec 4, len ≠ 0#4 ∧ len.toNat = rcp ∧
      BitVec.ofNat 4 (lengthNibble rcp) = len ∧ lengthTail rcp = []) ∨
    (∃ b : Byte, b ≠ 255#8 ∧ 16 + b.toNat = rcp ∧
      BitVec.ofNat 4 (lengthNibble rcp) = 0 ∧ lengthTail rcp = [b]) ∨
    (∃ b2 : Byte, 16 + 255 + b2.toNat = rcp ∧
      BitVec.ofNat 4 (lengthNibble rcp) = 0 ∧ lengthTail rcp = [255, b2]) := by
  have hne : ∀ {w n m : Nat}, n < 2 ^ w → m < 2 ^ w → n ≠ m → BitVec.ofNat w n ≠ BitVec.ofNat w m :=
    fun hn hm hnm h => hnm (by
      have := congrArg BitVec.toNat h
      rwa [BitVec.toNat_ofNat, BitVec.toNat_ofNat, Nat.mod_eq_of_lt hn, Nat.mod_eq_of_lt hm] at this)
  have hval : ∀ {w n : Nat}, n < 2 ^ w → (BitVec.ofNat w n).toNat = n := fun hn => by
    rw [BitVec.toNat_ofNat, Nat.mod_eq_of_lt hn]
  unfold lengthNibble lengthTail
  by_cases hS : rcp < 16
  · exact .inl ⟨BitVec.ofNat 4 rcp, hne hS (by decide) (by omega), hval hS, by rw [if_pos (by omega)], if_pos hS⟩
  · rw [if_neg hS, if_neg (by omega)]
    by_cases hL : rcp < 16 + 255
    · exact .inr (.inl ⟨BitVec.ofNat 8 (rcp - 16), hne (by omega) (by decide) (by omega),
        by rw [hval (by omega)]; omega, rfl, if_pos hL⟩)
    · exact .inr (.inr ⟨BitVec.ofNat 8 (rcp - 16 - 255), by rw [hval (by omega)]; omega, rfl, if_neg hL⟩)

/-- The three types of an offset part: the header's `q` and the offset bytes behind it (30_encoding.md R97, R102). -/
theorem offsetForm_cases {p : Nat} (hp : p < 2 ^ 23) :
    (∃ o : BitVec 8, refType p = 1 ∧ (BitVec.ofNat 2 p).toNat + 4 * o.toNat = p ∧ bytesLE 1 (p / 4) = [o]) ∨
    (∃ o : BitVec 16, refType p = 2 ∧ (BitVec.ofNat 2 p).toNat + 4 * o.toNat = p ∧
      bytesLE 2 (p / 4) = offset2Bytes o) ∨
    (∃ o : BitVec 24, refType p = 3 ∧ (BitVec.ofNat 2 p).toNat + 4 * (o.toNat % 2 ^ 21) = p ∧ o.toNat / 2 ^ 21 = 0 ∧
      bytesLE 3 (p / 4) = offset3Bytes o) := by
  have hq : (BitVec.ofNat 2 p).toNat = p % 4 := BitVec.toNat_ofNat p 2
  have hval : ∀ {w : Nat}, p / 4 < 2 ^ w → (BitVec.ofNat w (p / 4)).toNat = p / 4 := fun h => by
    rw [BitVec.toNat_ofNat, Nat.mod_eq_of_lt h]
  have hroom := lt_of_refType hp
  rcases refType_cases p with ht | ht | ht <;> rw [ht] at hroom
  · exact .inl ⟨BitVec.ofNat 8 (p / 4), ht, by rw [hq, hval (by omega)]; omega, bytesLE_one _⟩
  · exact .inr (.inl ⟨BitVec.ofNat 16 (p / 4), ht, by rw [hq, hval (by omega)]; omega, bytesLE_two (by omega)⟩)
  · exact .inr (.inr ⟨BitVec.ofNat 24 (p / 4), ht, by rw [hq, hval (by omega)]; omega,
      by rw [hval (by omega)]; omega, bytesLE_three (by omega)⟩)

/-- `i` is a reference block of the offset part and the coded length, with no carry bits, and the bytes are its
encoding. -/
structure IsReference (i : Instr) (bs : List Byte) (p rcp : Nat) : Prop where
  wellFormed : i.wellFormed = true
  encode_eq : encode i = .block bs
  part_eq : offsetPartOf i = p
  carry_eq : carryBitsOf i = 0
  coded_eq : codedLengthOf i = rcp
  length_eq : bs.length = blockLength i

/-- What BW writes for an offset part and a coded length is the encoding of a reference block: one of the nine, by its
type and its form. -/
theorem exists_isReference {p rcp : Nat} (hp : p < 2 ^ 23) (h1 : 1 ≤ rcp) (h525 : rcp ≤ 525) :
    ∃ i, IsReference i (referenceBytesOf p rcp) p rcp := by
  have hnib := lengthNibble_lt rcp
  rw [referenceBytesOf_eq]
  rcases offsetForm_cases hp with ⟨o, ht, hpart, hbytes⟩ | ⟨o, ht, hpart, hbytes⟩ | ⟨o, ht, hpart, hc3, hbytes⟩ <;>
    rw [ht, bytesLE_refWord _ (by decide) hnib, hbytes] <;>
    rcases lengthForm_cases h1 h525 with ⟨len, hlen, hcoded, hn, htail⟩ | ⟨b, hb, hcoded, hn, htail⟩ |
      ⟨b2, hcoded, hn, htail⟩ <;>
    rw [hn, htail]
  · exact ⟨.ref1s (BitVec.ofNat 2 p) o len, bne_iff_ne.mpr hlen, rfl, hpart, rfl, hcoded, rfl⟩
  · exact ⟨.ref1l (BitVec.ofNat 2 p) o b, bne_iff_ne.mpr hb, rfl, hpart, rfl, hcoded, rfl⟩
  · exact ⟨.ref1x (BitVec.ofNat 2 p) o b2, rfl, rfl, hpart, rfl, hcoded, rfl⟩
  · exact ⟨.ref2s (BitVec.ofNat 2 p) o len, bne_iff_ne.mpr hlen, rfl, hpart, rfl, hcoded, rfl⟩
  · exact ⟨.ref2l (BitVec.ofNat 2 p) o b, bne_iff_ne.mpr hb, rfl, hpart, rfl, hcoded, rfl⟩
  · exact ⟨.ref2x (BitVec.ofNat 2 p) o b2, rfl, rfl, hpart, rfl, hcoded, rfl⟩
  · exact ⟨.ref3s (BitVec.ofNat 2 p) o len, bne_iff_ne.mpr hlen, rfl, hpart, hc3, hcoded, rfl⟩
  · exact ⟨.ref3l (BitVec.ofNat 2 p) o b, bne_iff_ne.mpr hb, rfl, hpart, hc3, hcoded, rfl⟩
  · exact ⟨.ref3x (BitVec.ofNat 2 p) o b2, rfl, rfl, hpart, hc3, hcoded, rfl⟩

/-! startWritesThePrefix# The head of a literal block (R155) -/

/-- What BW writes before the literals is the encoding of a literal block of that length with those carry bits. -/
theorem exists_encode_literalHeadOf (q : Nat) {lc : Nat} (h : 0 < lc) (hlc : lc < 16 + 2 ^ 28) :
    ∃ i, i.wellFormed = true ∧ encode i = .block (literalHeadOf q lc) ∧ i.literalBytes = lc ∧
      i.headBytes = (literalHeadOf q lc).length ∧
      ((∃ len, i = .lits (BitVec.ofNat 2 q) len) ∨ ∃ nv v, i = .litl (BitVec.ofNat 2 q) nv v) := by
  unfold literalHeadOf
  by_cases hshort : lc ≤ 15
  · have hlen : (BitVec.ofNat 4 lc).toNat = lc := by rw [BitVec.toNat_ofNat]; omega
    have hheader := ofNat_eq_headerByte q (bt := 0) (len := lc) (by decide) (by omega)
    rw [Nat.zero_mul, Nat.add_zero] at hheader
    rw [if_pos hshort, hheader]
    refine ⟨.lits (BitVec.ofNat 2 q) (BitVec.ofNat 4 lc), bne_iff_ne.mpr fun h0 => ?_, rfl, hlen, rfl, .inl ⟨_, rfl⟩⟩
    rw [h0] at hlen
    exact Nat.ne_of_gt h hlen.symm
  · obtain ⟨n, hn, hn4, hv, hvarint⟩ := shortVarint_eq_varintBytes (k := 3) (v := lc - 16) (by omega)
    have hval : (BitVec.ofNat 28 (lc - 16)).toNat = lc - 16 := by rw [BitVec.toNat_ofNat]; omega
    have hheader := ofNat_eq_headerByte q (bt := 0) (len := 0) (by decide) (by decide)
    rw [Nat.zero_mul, Nat.add_zero] at hheader
    rw [if_neg hshort, hheader, hvarint]
    refine ⟨.litl (BitVec.ofNat 2 q) n (BitVec.ofNat 28 (lc - 16)), ?_, ?_, ?_, ?_, .inr ⟨_, _, rfl⟩⟩
    · rw [Instr.wellFormed, hval]
      simp only [Bool.and_eq_true, decide_eq_true_eq]
      exact ⟨⟨hn, hn4⟩, hv⟩
    · rw [encode, hval]
      rfl
    · rw [Instr.literalBytes, hval]
      omega
    · rw [List.length_cons, varintBytes_length, Instr.headBytes, Nat.add_comm]

/-! startWritesThePrefix# Blocks in a memory -/

/-- A window of six bytes begins with the bytes that stand there. -/
theorem headWindow_of_standsAt {m : Memory} {lo : Nat} {bs : List Byte} (h : standsAt m lo bs) (hlen : bs.length ≤ 6) :
    ∃ rest, headWindow m lo = bs ++ rest := by
  refine ⟨(headWindow m lo).drop bs.length, ?_⟩
  have htake : (headWindow m lo).take bs.length = bs := by
    refine List.ext_getElem (by rw [List.length_take]; exact Nat.min_eq_left hlen) fun j hj hj' => ?_
    have hread : (headWindow m lo)[j]'(hj'.trans_le hlen) = m.read (lo + j) := by
      have hj6 := hj'.trans_le hlen
      interval_cases j <;> rfl
    rw [List.getElem_take]
    exact hread.trans ((h j hj').trans (List.getD_eq_getElem _ _ hj'))
  conv_lhs => rw [← List.take_append_drop bs.length (headWindow m lo), htake]

/-- The decoder reads a block whose encoding stands in a memory. -/
theorem blockRow_of_standsAt {m : Memory} {lo : Nat} {i : Instr} {bs : List Byte} (hwf : i.wellFormed = true)
    (he : encode i = .block bs) (h : standsAt m lo bs) (hlen : bs.length ≤ 6) : BlockRow (headWindow m lo) i := by
  obtain ⟨rest, hrest⟩ := headWindow_of_standsAt h hlen
  rw [hrest]
  exact blockRow_of_encode hwf he rest

end Sys2Proof.Machine

namespace Sys2Proof.BlockWriterProofs

open Sys2Proof Sys2Proof.Machine Sys2Proof.Claims

/-- Settles O8: what is appended is the encoding of the block. -/
theorem writtenReferenceDecodesBack : Obligations.WrittenReferenceDecodesBack := by
  unfold Obligations.WrittenReferenceDecodesBack
  intro s p rcp hp h1 h525 hop t
  have hemits := writerReference_emits s p rcp hop
  obtain ⟨i, hi⟩ := exists_isReference hp h1 h525
  have hrow := blockRow_of_standsAt hi.wellFormed hi.encode_eq hemits.stands (referenceBytesOf_length_le p rcp)
  exact ⟨i, hrow.decode_eq, hi.part_eq, hi.carry_eq, hi.coded_eq, by rw [hemits.op_eq, hi.length_eq]⟩

/-- Settles O9: the head is the encoding of the block, whatever follows it. -/
theorem writtenLiteralHeadDecodesBack : Obligations.WrittenLiteralHeadDecodesBack := by
  unfold Obligations.WrittenLiteralHeadDecodesBack
  intro q lc bs rest _ h1 hhead
  have hlc : lc < 16 + 2 ^ 28 := by
    by_contra hlong
    rw [(literalHead_eq_none q lc).2 (by omega)] at hhead
    cases hhead
  rw [literalHead_eq q hlc] at hhead
  cases hhead
  obtain ⟨i, hwf, he, hlits, hbytes, hkind⟩ := exists_encode_literalHeadOf q h1 hlc
  exact ⟨i, (blockRow_of_encode hwf he rest).decode_eq, hlits, hbytes, hkind⟩

end Sys2Proof.BlockWriterProofs
end

section
/-! The short form of both compression commands: when they accept their arguments, what `SHORT` appends, and the start
values of the units around it (41_block_writer.md R150, R161; 46_host_operations.md R331, R332, R336; 10_state.md R36).
-/

namespace Sys2Proof.Machine

open Sys2Proof.Claims

/-! startWritesThePrefix# The two modes of a compression -/

/-- The command of a mode (46_host_operations.md R331, R332). -/
def Mode.command : Mode → Instr
  | .default => .compress
  | .hi => .compressHi

/-- The phase of a mode's search. -/
def Mode.searchPhase : Mode → Phase
  | .default => .search
  | .hi => .searchHi

/-- The least capacity a mode accepts, as the spec's formula (R336). -/
def Mode.boundFormula : Mode → Int → Int
  | .default => Claims.boundFormula 144 150 6
  | .hi => Claims.boundFormula 16 21 5

/-- The least capacity a mode accepts, as the command computes it. -/
def Mode.boundOf : Mode → Nat → Nat
  | .default => boundDefault
  | .hi => boundHi

/-- The largest table of a mode (42_hash_dictionary.md R182, R195). -/
def Mode.tableCap : Mode → Nat
  | .default => Config.htMaxDefault
  | .hi => Config.htMaxHi

/-- The bound's subtractions never go below 0, so that it is the formula on the integers (R336). -/
theorem boundDefault_eq (n : Nat) : (boundDefault n : Int) = Claims.boundFormula 144 150 6 n := by
  unfold boundDefault Claims.boundFormula
  by_cases hn : n = 0
  · rw [if_pos hn, if_pos (by omega)]
    rfl
  · rw [if_neg hn, if_neg (by omega)]
    dsimp only
    omega

theorem boundHi_eq (n : Nat) : (boundHi n : Int) = Claims.boundFormula 16 21 5 n := by
  unfold boundHi Claims.boundFormula
  by_cases hn : n = 0
  · rw [if_pos hn, if_pos (by omega)]
    rfl
  · rw [if_neg hn, if_neg (by omega)]
    dsimp only
    omega

theorem Mode.boundOf_eq (mode : Mode) (n : Nat) : (mode.boundOf n : Int) = mode.boundFormula n := by
  cases mode with
  | default => exact boundDefault_eq n
  | hi => exact boundHi_eq n

theorem Mode.tableBytes_eq (mode : Mode) (n : Nat) : mode.tableBytes n = tableSize mode.tableCap n := by
  cases mode <;> rfl

/-! startWritesThePrefix# Accepted arguments -/

/-- Arguments within the limits, with a capacity of at least the bound, are not rejected (R331). -/
theorem compressRejects_eq_false {s : State} (mode : Mode) (h1 : 1 ≤ s.srcl.toNat) (hs : s.srcl.toNat ≤ 2147483647)
    (hb : mode.boundFormula s.srcl.toNat ≤ s.dstl.toNat) (hd : s.dstl.toNat ≤ 2147483647) :
    compressRejects s (mode.boundOf s.srcl.toNat) = false := by
  rw [← mode.boundOf_eq] at hb
  simp only [compressRejects, Config.lenMax, Bool.or_eq_false_iff, decide_eq_false_iff_not]
  omega

/-- A compression of fewer than 16 accepted bytes is the short form (R331, R332). -/
theorem exec_compress_short {s : State} (mode : Mode) (hr : compressRejects s (mode.boundOf s.srcl.toNat) = false)
    (hn : s.srcl.toNat < 16) :
    exec mode.command s = .next (compressDone (shortForm (s.beginCommand mode) mode.mref s.srcl.toNat)) := by
  have hno : ¬ compressRejects s (mode.boundOf s.srcl.toNat) = true := by rw [hr]; exact Bool.false_ne_true
  cases mode with
  | default => exact (if_neg hno).trans (if_pos hn)
  | hi => exact (if_neg hno).trans (if_pos hn)

/-- A compression of 16 accepted bytes or more starts the search of its mode (R331, R332). -/
theorem exec_compress_search {s : State} (mode : Mode) (hr : compressRejects s (mode.boundOf s.srcl.toNat) = false)
    (hn : 16 ≤ s.srcl.toNat) :
    ∃ ht, exec mode.command s =
      .next { writerStart (s.beginCommand mode) mode.mref with ht := ht, phase := mode.searchPhase } := by
  have hno : ¬ compressRejects s (mode.boundOf s.srcl.toNat) = true := by rw [hr]; exact Bool.false_ne_true
  cases mode with
  | default =>
    obtain ⟨ht, heq⟩ := searchSetup_eq (s.beginCommand .default)
    refine ⟨ht, ((if_neg hno).trans (if_neg (Nat.not_lt.mpr hn))).trans ?_⟩
    rw [heq]
    rfl
  | hi =>
    obtain ⟨ht, heq⟩ := searchHiSetup_eq (s.beginCommand .hi)
    refine ⟨ht, ((if_neg hno).trans (if_neg (Nat.not_lt.mpr hn))).trans ?_⟩
    rw [heq]
    rfl

/-! startWritesThePrefix# Start values -/

/-- The registers that the start of a command gives BD and MF are the start values (10_state.md R36). -/
theorem unitsStart_of_begin {s t : State} (mode : Mode) (hbd : t.bd = s.bd.begin s.srcl s.dstl)
    (hmf : t.mf = s.mf.begin mode s.srcl) : UnitsStart s t where
  bd_eq := by rw [hbd]; rfl
  bd_ipet := by rw [hbd]; exact Decoder.begin_ipet _ _ _
  mf_eq := by rw [hmf]; rfl
  mf_ipe h := by rw [hmf]; exact Finder.begin_ipe _ _ _ h
  mf_ipet := by rw [hmf]; exact Finder.begin_ipet _ _ _

theorem tableStarts_begin (m : Finder) (mode : Mode) (srcl : Word) :
    TableStarts (m.begin mode srcl) mode.tableCap srcl.toNat mode.mask where
  htsize_eq := by rw [Finder.begin_htsize, mode.tableBytes_eq]
  hmask_eq := by rw [← mode.tableBytes_eq]; rfl

/-! startWritesThePrefix# `SHORT` (41_block_writer.md R161) -/

/-- The bytes of the short form: the first byte, the length, the input, zeros up to six bytes of it. -/
def shortBytes (src : Memory) (mref : BitVec 3) (n : Nat) : List Byte :=
  [startByte mref] ++ [BitVec.ofNat 8 n] ++ src.slice 0 n ++ List.replicate (6 - n) 0

theorem shortBytes_length (src : Memory) (mref : BitVec 3) (n : Nat) :
    (shortBytes src mref n).length = 2 + max n 6 := by
  simp only [shortBytes, List.length_append, List.length_singleton, Memory.slice_length, List.length_replicate]
  omega

theorem shortForm_emits {s : State} (mref : BitVec 3) {n : Nat} (hop : s.bw.op = 0) (hn : n < 16) :
    Emits s (shortForm s mref n) (shortBytes s.src mref n) := by
  have hstart := emits_writerStart mref hop
  have hop1 : (writerStart s mref).bw.op.toNat = 1 := rfl
  have hcount := emits_putBytes (writerStart s mref) [BitVec.ofNat 8 n] (by rw [hop1, List.length_singleton]; omega)
  have hop2 := hcount.op_eq
  rw [hop1, List.length_singleton] at hop2
  have hlits := emits_putLiterals ((writerStart s mref).putBytes [BitVec.ofNat 8 n]) 0 n (by omega)
  have hop3 := hlits.op_eq
  rw [hop2, Memory.slice_length] at hop3
  have hzeros := emits_putBytes (((writerStart s mref).putBytes [BitVec.ofNat 8 n]).putLiterals 0 n)
    (List.replicate (6 - n) 0) (by rw [hop3, List.length_replicate]; omega)
  exact ((hstart.append hcount).append hlits).append hzeros

/-- `SHORT` changes DST and BW alone, and leaves BW as `START` does with `op` behind the stream. -/
theorem shortForm_eq {s : State} (mref : BitVec 3) {n : Nat} (hop : s.bw.op = 0) (hn : n < 16) :
    shortForm s mref n = { s with
      dst := (shortForm s mref n).dst
      bw := { op := BitVec.ofNat 32 (2 + max n 6), mref := mref, csh := 0, cbp := none } } := by
  have hlen : (shortForm s mref n).bw.op.toNat = 2 + max n 6 := by
    rw [(shortForm_emits mref hop hn).op_eq, shortBytes_length, hop]
    exact Nat.zero_add _
  have hnew : (shortForm s mref n).bw.op = BitVec.ofNat 32 (2 + max n 6) := by
    rw [← hlen, BitVec.ofNat_toNat, BitVec.setWidth_eq]
  rw [← hnew]
  rfl

/-- The end of a short form that the host did not spoil. -/
theorem compressDone_shortForm {s : State} (mref : BitVec 3) {n : Nat} (hclean : s.spoiled = false) (hop : s.bw.op = 0)
    (hn : n < 16) :
    compressDone (shortForm s mref n) = { s with
      dst := (shortForm s mref n).dst
      bw := { op := BitVec.ofNat 32 (2 + max n 6), mref := mref, csh := 0, cbp := none }
      result := BitVec.ofNat 32 (2 + max n 6), written := BitVec.ofNat 32 (2 + max n 6)
      status := statusDone, phase := .idle } := by
  have heq := shortForm_eq mref hop hn
  generalize (shortForm s mref n).dst = dst at heq ⊢
  rw [heq]
  exact State.endCommand_clean _ _ _ hclean

/-- What the short form's bytes are, one by one. -/
theorem shortBytes_stands {m src : Memory} {mref : BitVec 3} {n : Nat} (h : standsAt m 0 (shortBytes src mref n)) :
    m.read 0 = startByte mref ∧ m.read 1 = BitVec.ofNat 8 n ∧
    (∀ j, j < n → m.read (2 + j) = src.read j) ∧ (∀ j, n ≤ j → j < 6 → m.read (2 + j) = 0) := by
  have hread : ∀ j, j < 2 + max n 6 → m.read j = (shortBytes src mref n).getD j 0 := fun j hj => by
    have := h j (by rwa [shortBytes_length])
    rwa [Nat.zero_add] at this
  have hlen : (src.slice 0 n).length = n := Memory.slice_length src 0 n
  have htail : ∀ j, (shortBytes src mref n).getD (2 + j) 0 =
      (src.slice 0 n ++ List.replicate (6 - n) 0).getD j 0 := fun j => by rw [Nat.add_comm]; rfl
  refine ⟨hread 0 (by omega), hread 1 (by omega), fun j hj => ?_, fun j hj hj6 => ?_⟩
  · rw [hread _ (by omega), htail, List.getD_append _ _ _ _ (by omega), Memory.slice_getD _ _ hj, Nat.zero_add]
  · rw [hread _ (by omega), htail, List.getD_append_right _ _ _ _ (by omega),
      List.getD_eq_getElem _ _ (by rw [List.length_replicate]; omega), List.getElem_replicate]

/-- The short form of both commands. -/
theorem shortFormWritten_command (mode : Mode) :
    shortFormWritten mode.command (startByte mode.mref) mode.mref mode.boundFormula mode.tableCap mode.mask := by
  intro s hclean h1 hn hb hd n
  have hr := compressRejects_eq_false mode h1 (by omega) hb hd
  have hemits := shortForm_emits (s := s.beginCommand mode) mode.mref rfl hn
  have hdone := compressDone_shortForm (s := s.beginCommand mode) mode.mref hclean rfl hn
  have houtside := hemits.outside
  rw [shortBytes_length] at houtside
  obtain ⟨hpre, hcount, hlits, hzeros⟩ := shortBytes_stands hemits.stands
  exact ⟨_, (exec_compress_short mode hr hn).trans (congrArg _ hdone), rfl, unitsStart_of_begin mode rfl rfl, rfl,
    tableStarts_begin _ _ _, hpre, hcount, hlits, hzeros, houtside⟩

end Sys2Proof.Machine

namespace Sys2Proof.BlockWriterProofs

open Sys2Proof Sys2Proof.Machine Sys2Proof.Claims

/-- Settles O28: the two commands run the same short form with the constants of their modes. -/
theorem shortInputsGiveShortForm : Obligations.ShortInputsGiveShortForm := by
  unfold Obligations.ShortInputsGiveShortForm
  exact ⟨shortFormWritten_command .default, shortFormWritten_command .hi⟩

end Sys2Proof.BlockWriterProofs
end

section
/-! The round trip of an input whose stream is one literal block: what either compression command leaves for 1 to 31
bytes, and what DECOMPRESS makes of such a stream (41_block_writer.md R160, R161, R164;
43_default_match_finder.md R213, R225; 45_decoder.md R282 to R285, R298). -/

namespace Sys2Proof.Machine

open Sys2Proof.Claims

/-! startWritesThePrefix# Runs -/

theorem run_succ_of_step {s t : State} (k : Nat) (h : step s = .next t) : core.run (k + 1) s = core.run k t := by
  have hstep : core.step s = .next t := h
  simp only [Host.Core.run, hstep]

theorem run_zero (s : State) : core.run 0 s = .next s := rfl

/-- The first step of a command runs it (46_host_operations.md R330). -/
theorem step_of_start {s : State} {i : Instr} (hturn : undisturbed s) (hp : s.phase = .start)
    (hi : decode (.command s.cmd) = .ok i) : step s = exec i s := by
  rw [step_of_undisturbed hturn]
  simp only [engineStep, fetch, hp, hi]

/-- The first byte of a known format is executed (45_decoder.md R282). -/
theorem step_of_header {s : State} {r : Report} {i : Instr} (hturn : undisturbed s) (hp : s.phase = .header r)
    (hi : decode (.header (s.src.read 0)) = .ok i) : step s = exec i s := by
  rw [step_of_undisturbed hturn]
  simp only [engineStep, fetch, hp, hi]

/-- BD's loop ends when no more than six bytes are left (45_decoder.md R284, R298). -/
theorem step_of_streamEnd {s : State} {r : Report} (hturn : undisturbed s) (hp : s.phase = .blocks r)
    (hm : s.bd.ipet.toInt ≤ s.bd.ip.toNat) : step s = .next (decodeEnd s) := by
  have hmore : s.bd.more = false := decide_eq_false (Int.not_lt.mpr hm)
  rw [step_of_undisturbed hturn]
  simp only [engineStep, fetch, hp, hmore, Bool.false_eq_true, if_false]

/-- A search whose loop is over writes the terminal block, in mode HI too if nothing is pending
(43_default_match_finder.md R225; 44_hi_ratio_match_finder.md R256). -/
theorem step_of_searchEnd {s : State} (mode : Mode) (hturn : undisturbed s) (hp : s.phase = mode.searchPhase)
    (hm : s.mf.more = false) (hpv : s.mf.pv = false) : step s = .next (searchEnd s) := by
  have hend : searchHiEnd s = searchEnd s := if_neg (by rw [hpv]; exact Bool.false_ne_true)
  rw [step_of_undisturbed hturn]
  cases mode <;> simp only [engineStep, fetch, hp, Mode.searchPhase, hm, hend, Bool.false_eq_true, if_false]

/-! startWritesThePrefix# Bytes in a memory -/

theorem standsAt_append {m : Memory} {lo : Nat} {bs cs : List Byte} (h : standsAt m lo (bs ++ cs)) :
    standsAt m lo bs ∧ standsAt m (lo + bs.length) cs := by
  refine ⟨fun j hj => ?_, fun j hj => ?_⟩
  · rw [h j (by rw [List.length_append]; omega), List.getD_append _ _ _ _ hj]
  · rw [Nat.add_assoc, h _ (by rw [List.length_append]; omega), List.getD_append_right _ _ _ _ (Nat.le_add_right _ _),
      Nat.add_sub_cancel_left]

/-- The first `len` bytes of `m` are a stream of one literal block: the first byte, the block of the first `n` bytes of
`input`, and so few bytes behind it that BD's loop ends there. -/
structure OneBlockStream (m : Memory) (len : Nat) (mref : BitVec 3) (input : Memory) (n : Nat) : Prop where
  head_stands : standsAt m 0 ([startByte mref] ++ literalHeadOf 0 n)
  literals_stand : standsAt m (1 + literalHeadLength n) (input.slice 0 n)
  seven_lt : 7 < len
  block_le : 1 + literalHeadLength n + n ≤ len
  le_block : len ≤ 1 + literalHeadLength n + n + 6

theorem oneBlockStream_of_standsAt {m input : Memory} {len n : Nat} {mref : BitVec 3} {rest : List Byte} (h1 : 0 < n)
    (hn : n < 16 + 2 ^ 28) (h : standsAt m 0 ([startByte mref] ++ literalBytesOf input 0 n 0 ++ rest))
    (hlen : len = 1 + literalHeadLength n + n + rest.length) (h7 : 7 < len) (hrest : rest.length ≤ 6) :
    OneBlockStream m len mref input n := by
  rw [literalBytesOf_eq _ _ _ h1, ← List.append_assoc] at h
  obtain ⟨hhead, hlits⟩ := standsAt_append (standsAt_append h).1
  rw [List.length_append, literalHeadOf_length 0 hn, Nat.zero_add] at hlits
  exact ⟨hhead, hlits, h7, by omega, by omega⟩

/-! startWritesThePrefix# Compression -/

/-- A compression command that has ended, not spoiled and with no accesses of the host to come, left the stream of one
literal block with the input of `s`. -/
structure CompressedTo (mode : Mode) (s t : State) : Prop where
  ended : t.ended
  clean : t.spoiled = false
  turn : undisturbed t
  stream : OneBlockStream t.dst t.result.toNat mode.mref s.src s.srcl.toNat

/-- The short form is a short literal block with zeros behind it (41_block_writer.md R161). -/
theorem shortBytes_eq (src : Memory) (mref : BitVec 3) {n : Nat} (h1 : 0 < n) (hn : n < 16) :
    shortBytes src mref n = [startByte mref] ++ literalBytesOf src 0 n 0 ++ List.replicate (6 - n) 0 := by
  have hhead : literalHeadOf 0 n = [BitVec.ofNat 8 n] := by
    rw [literalHeadOf, if_pos (by omega), Nat.zero_mul, Nat.zero_add]
  rw [shortBytes, literalBytesOf_eq _ _ _ h1, hhead, List.append_assoc [startByte mref]]

/-- The short form of 1 to 15 bytes. -/
theorem compressedTo_short {s : State} (mode : Mode) (hclean : s.spoiled = false) (hturn : undisturbed s)
    (h1 : 1 ≤ s.srcl.toNat) (hn : s.srcl.toNat < 16) :
    CompressedTo mode s (compressDone (shortForm (s.beginCommand mode) mode.mref s.srcl.toNat)) := by
  have hstands := (shortForm_emits (s := s.beginCommand mode) mode.mref rfl hn).stands
  rw [shortBytes_eq _ _ h1 hn] at hstands
  rw [compressDone_shortForm (s := s.beginCommand mode) mode.mref hclean rfl hn]
  generalize (shortForm (s.beginCommand mode) mode.mref s.srcl.toNat).dst = dst at hstands ⊢
  have hlen : (BitVec.ofNat 32 (2 + max s.srcl.toNat 6)).toNat =
      1 + literalHeadLength s.srcl.toNat + s.srcl.toNat + (List.replicate (6 - s.srcl.toNat) (0 : Byte)).length := by
    rw [BitVec.toNat_ofNat, literalHeadLength, if_pos (by omega), List.length_replicate]
    omega
  refine ⟨⟨rfl, rfl⟩, hclean, hturn, oneBlockStream_of_standsAt h1 (by omega) hstands hlen ?_ ?_⟩
  · rw [BitVec.toNat_ofNat]
    omega
  · rw [List.length_replicate]
    omega

/-- The end of a search that has just started over 16 bytes or more: the terminal block holds all of the input
(43_default_match_finder.md R225). -/
theorem compressedTo_searchEnd {s : State} (mode : Mode) (ht : Memory) (hclean : s.spoiled = false)
    (hturn : undisturbed s) (h16 : 16 ≤ s.srcl.toNat) (hn : s.srcl.toNat < 16 + 2 ^ 28) :
    CompressedTo mode s
      (searchEnd { writerStart (s.beginCommand mode) mode.mref with ht := ht, phase := mode.searchPhase }) := by
  have hstart := emits_writerStart (s := s.beginCommand mode) mode.mref rfl
  generalize hu : { writerStart (s.beginCommand mode) mode.mref with ht := ht, phase := mode.searchPhase } = u
  have hstart' : Emits (s.beginCommand mode) u [startByte mode.mref] := hu ▸ { hstart with }
  have hmf : u.mf = s.mf.begin mode s.srcl := hu ▸ rfl
  have hsrc : u.src = s.src := hu ▸ rfl
  have huclean : u.spoiled = false := hu ▸ hclean
  have huturn : u.hostScript = [] := hu ▸ hturn
  have hop : u.bw.op.toNat = 1 := hu ▸ rfl
  have hrun : u.mf.ipe.toNat - u.mf.ipa.toNat + Config.litFin = s.srcl.toNat := by
    rw [hmf, Finder.begin_ipe _ _ _ (by omega)]
    show s.srcl.toNat - 6 - 0 + 6 = _
    omega
  have hipa : u.mf.ipa.toNat = 0 := by rw [hmf]; rfl
  obtain ⟨t, hfin, hemits⟩ := finalize_emits u 0 (lc := s.srcl.toNat) (by omega) hn (by omega)
  have hframe := finalize_frame hfin
  have htclean : t.spoiled = false := by rw [hframe]; exact huclean
  have htturn : t.hostScript = [] := by rw [hframe]; exact huturn
  have hall := hstart'.append hemits
  have hstands : standsAt t.dst 0 ([startByte mode.mref] ++ literalBytesOf u.src 0 s.srcl.toNat 0) := hall.stands
  have hlen := hemits.op_eq
  rw [hop, literalBytesOf_length _ _ _ (by omega) hn] at hlen
  rw [searchEnd, hrun, hipa, hfin]
  show CompressedTo mode s (t.endCommand t.bw.op t.bw.op)
  rw [State.endCommand_clean _ _ _ htclean]
  rw [← List.append_nil (_ ++ _), hsrc] at hstands
  refine ⟨⟨rfl, rfl⟩, htclean, htturn, oneBlockStream_of_standsAt (by omega) hn hstands ?_ ?_ (Nat.zero_le _)⟩
  · exact hlen.trans (Nat.add_assoc _ _ _).symm
  · exact hlen ▸ (by omega)

/-- A compression of 1 to 31 bytes ends in one step, or in two from 16 bytes on, and leaves a stream of one literal
block. -/
theorem exists_compressedTo {s : State} (mode : Mode) (hclean : s.spoiled = false) (hp : s.phase = .start)
    (hturn : undisturbed s) (hi : decode (.command s.cmd) = .ok mode.command) (h1 : 1 ≤ s.srcl.toNat)
    (h31 : s.srcl.toNat ≤ 31) (hb : mode.boundFormula s.srcl.toNat ≤ s.dstl.toNat) (hd : s.dstl.toNat ≤ 2147483647) :
    ∃ t, core.run (if s.srcl.toNat < 16 then 1 else 2) s = .next t ∧ CompressedTo mode s t := by
  have hr := compressRejects_eq_false mode h1 (by omega) hb hd
  have hstep := step_of_start hturn hp hi
  by_cases hn : s.srcl.toNat < 16
  · rw [exec_compress_short mode hr hn] at hstep
    rw [if_pos hn, run_succ_of_step 0 hstep]
    exact ⟨_, rfl, compressedTo_short mode hclean hturn h1 hn⟩
  · obtain ⟨ht, hexec⟩ := exec_compress_search mode hr (by omega)
    have hmore : (s.mf.begin mode s.srcl).more = false := by
      rw [Finder.begin_more]
      exact decide_eq_false (by omega)
    rw [hexec] at hstep
    have hend := step_of_searchEnd mode
      (s := { writerStart (s.beginCommand mode) mode.mref with ht := ht, phase := mode.searchPhase })
      hturn rfl hmore rfl
    rw [if_neg hn, run_succ_of_step 1 hstep, run_succ_of_step 0 hend]
    exact ⟨_, rfl, compressedTo_searchEnd mode ht hclean hturn (by omega) (by omega)⟩

/-! startWritesThePrefix# Decompression -/

/-- The byte that `START` writes is `PREFIX` (45_decoder.md R282). -/
theorem decode_startByte (mref : BitVec 3) :
    decode (.header (startByte mref)) = .ok (.streamPrefix (mref.setWidth 4)) := by
  revert mref; decide

/-- DECOMPRESS with arguments in range starts (45_decoder.md R281, R283). -/
theorem exec_decompress_start {s : State} (h1 : 1 ≤ s.srcl.toNat) (hs : s.srcl.toNat ≤ Config.lenMax)
    (hd : s.dstl.toNat ≤ Config.lenMax) :
    exec .decompress s = .next { s.beginCommand .default with phase := .header .full } := by
  have hsrcl : s.srcl ≠ 0 := fun h0 => by
    rw [h0] at h1
    exact absurd h1 (by decide)
  have hlens : ¬ (Config.lenMax < s.srcl.toNat ∨ Config.lenMax < s.dstl.toNat) := by omega
  exact congrArg Host.Outcome.next ((if_neg hlens).trans (if_neg hsrcl))

/-- The step at a byte that `START` wrote sets `mref1` and `ip` and begins the dispatch loop (45_decoder.md R282). -/
theorem step_of_startByte {s : State} {r : Report} {mref : BitVec 3} (hturn : undisturbed s)
    (hp : s.phase = .header r) (h : s.src.read 0 = startByte mref) :
    ∃ mref1, step s = .next { s with bd := { s.bd with mref1 := mref1, ip := 1 }, phase := .blocks r } := by
  have hi : decode (.header (s.src.read 0)) = .ok (.streamPrefix (mref.setWidth 4)) := h ▸ decode_startByte mref
  have hr : s.phase.report = r := by rw [hp]; rfl
  refine ⟨(mref.setWidth 4).setWidth 5 - 1, (step_of_header hturn hp hi).trans ?_⟩
  rw [← hr]
  rfl

/-- A literal block that fits completes, with what its instruction says precedes the literals and how many there are
(45_decoder.md R285). -/
theorem exec_literal_fits {i : Instr} {q : BitVec 2} {s : State}
    (hi : (∃ len, i = .lits q len) ∨ ∃ nv v, i = .litl q nv v)
    (hin : s.bd.ip.toNat + i.headBytes + i.literalBytes ≤ s.bd.ipe.toNat)
    (hout : s.bd.op.toNat + i.literalBytes ≤ s.bd.ope.toNat) :
    ∃ b : Decoder, exec i s = .next { s with
        dst := s.dst.copyFrom s.src s.bd.op.toNat (s.bd.ip.toNat + i.headBytes) i.literalBytes
        bd := { b with
          ip := BitVec.ofNat 32 (s.bd.ip.toNat + i.headBytes + i.literalBytes), ipe := s.bd.ipe, ipet := s.bd.ipet
          op := BitVec.ofNat 32 (s.bd.op.toNat + i.literalBytes), ope := s.bd.ope } } := by
  have hblock : ∃ bh, exec i s = .next (literalBlock bh i.headBytes i.literalBytes s) := by
    rcases hi with ⟨len, rfl⟩ | ⟨nv, v, rfl⟩ <;> exact ⟨_, rfl⟩
  obtain ⟨bh, hexec⟩ := hblock
  refine ⟨s.bd.afterLiteralHead bh i.headBytes i.literalBytes, hexec.trans ?_⟩
  rcases literalBlock_cases bh i.headBytes i.literalBytes s with ⟨hover, -⟩ | ⟨-, hover, -⟩ | ⟨-, -, heq⟩
  · exact absurd hin (Nat.not_le.mpr hover)
  · exact absurd hout (Nat.not_le.mpr hover)
  · rw [heq]
    rfl

/-- BD's loop ends with success where the output is full (45_decoder.md R298). -/
theorem step_of_fullOutput {s : State} {r : Report} (hclean : s.spoiled = false) (hp : s.phase = .blocks r)
    (hturn : undisturbed s) (hm : s.bd.ipet.toInt ≤ s.bd.ip.toNat) (hop : s.bd.op = s.bd.ope) :
    step s = .next { s with result := s.bd.ope, written := s.bd.op, status := statusDone, phase := .idle } := by
  rw [step_of_streamEnd hturn hp hm, decodeEnd, if_pos hop, State.endCommand_clean _ _ _ hclean]

/-- From its loop condition behind the first byte, BD takes two steps for a stream of one literal block, the block
and the end, and the output is the input (45_decoder.md R285, R298). -/
theorem run_oneBlock {s : State} {r : Report} {mref : BitVec 3} {input : Memory} {n : Nat} (hclean : s.spoiled = false)
    (hp : s.phase = .blocks r) (hturn : undisturbed s) (h1 : 0 < n) (hn : n < 16 + 2 ^ 28) (hip : s.bd.ip = 1)
    (hop : s.bd.op = 0) (hope : s.bd.ope.toNat = n) (hipet : s.bd.ipet.toInt = s.bd.ipe.toNat - 6)
    (hstream : OneBlockStream s.src s.bd.ipe.toNat mref input n) :
    ∃ u, core.run 2 s = .next u ∧ u.phase = .idle ∧ u.result = s.bd.ope ∧ u.written = s.bd.ope ∧
      ∀ a, a < n → u.dst.read a = input.read a := by
  obtain ⟨hheads, hlits, hseven, hcover, hrest⟩ := hstream
  have hip1 : s.bd.ip.toNat = 1 := by rw [hip]; rfl
  have hop0 : s.bd.op.toNat = 0 := by rw [hop]; rfl
  have hlen := literalHeadOf_length 0 hn
  have hle := literalHeadLength_le n
  have hfull : BitVec.ofNat 32 n = s.bd.ope := by rw [← hope, BitVec.ofNat_toNat, BitVec.setWidth_eq]
  have hstop : (BitVec.ofNat 32 (1 + literalHeadLength n + n)).toNat = 1 + literalHeadLength n + n :=
    toNat_ofNat_of_le hcover
  obtain ⟨i, hwf, he, hcount, hbytes, hkind⟩ := exists_encode_literalHeadOf 0 h1 hn
  rw [hlen] at hbytes
  have hrow : BlockRow (headWindow s.src s.bd.ip.toNat) i :=
    blockRow_of_standsAt hwf he (hip1 ▸ (standsAt_append hheads).2) (by omega)
  obtain ⟨b, hexec⟩ := exec_literal_fits (s := s) hkind (by omega) (by omega)
  rw [hcount, hbytes, hip1, hop0, Nat.zero_add] at hexec
  have hblock : step s = exec i s := by
    rw [step_of_undisturbed hturn, engineStep_of_blocks hp (by omega), hrow.decodeBlock_eq]
  refine ⟨_, (run_succ_of_step 1 (hblock.trans hexec)).trans
    (run_succ_of_step 0 (step_of_fullOutput hclean hp hturn ?_ hfull)), rfl, rfl, hfull, fun a ha => ?_⟩
  · show s.bd.ipet.toInt ≤ (BitVec.ofNat 32 (1 + literalHeadLength n + n)).toNat
    omega
  · show (s.dst.copyFrom s.src 0 (1 + literalHeadLength n) n).read a = _
    have hread := hlits a (by rwa [Memory.slice_length])
    rw [Memory.slice_getD _ _ ha, Nat.zero_add] at hread
    rw [Memory.read_copyFrom, if_pos ⟨Nat.zero_le _, by omega⟩, Nat.sub_zero, hread]

/-- DECOMPRESS of a stream of one literal block takes four steps, the start, `PREFIX` and those two, and gives the
input back. -/
theorem run_decompress_oneBlock {s : State} {mref : BitVec 3} {input : Memory} {n : Nat} (hclean : s.spoiled = false)
    (hp : s.phase = .start) (hturn : undisturbed s) (hi : decode (.command s.cmd) = .ok .decompress) (h1 : 0 < n)
    (hn : n < 16 + 2 ^ 28) (hs : s.srcl.toNat ≤ Config.lenMax) (hd : s.dstl.toNat = n)
    (hstream : OneBlockStream s.src s.srcl.toNat mref input n) :
    ∃ u, core.run 4 s = .next u ∧ u.phase = .idle ∧ u.result = s.dstl ∧ u.written = s.dstl ∧
      ∀ a, a < n → u.dst.read a = input.read a := by
  have hseven := hstream.seven_lt
  have hfirst := (standsAt_append hstream.head_stands).1 0 Nat.one_pos
  have hstart := step_of_start hturn hp hi
  rw [exec_decompress_start (by omega) hs (by simp only [Config.lenMax]; omega)] at hstart
  obtain ⟨mref1, hpre⟩ := step_of_startByte
    (s := { s.beginCommand .default with phase := .header .full }) hturn rfl hfirst
  rw [run_succ_of_step 3 hstart, run_succ_of_step 2 hpre]
  exact run_oneBlock hclean rfl hturn h1 hn rfl rfl hd (Decoder.begin_ipet s.bd s.srcl s.dstl) hstream

/-! startWritesThePrefix# Both -/

/-- What either compression command leaves for 1 to 31 bytes decompresses to them. -/
theorem roundTrips_command (mode : Mode) {s : State} (h1 : 1 ≤ s.srcl.toNat) (h31 : s.srcl.toNat ≤ 31) :
    roundTrips mode.command mode.boundFormula (if s.srcl.toNat < 16 then 1 else 2) s := by
  intro hclean hp hturn hi hb hd
  obtain ⟨t, hrun, ⟨hidle, hdone⟩, htclean, htturn, hstream⟩ :=
    exists_compressedTo mode hclean hp hturn hi h1 h31 hb hd
  have hle := hstream.le_block
  have hhead := literalHeadLength_le s.srcl.toNat
  have hseven := hstream.seven_lt
  obtain ⟨u, hrun', hu⟩ := run_decompress_oneBlock
    (s := { t with src := t.dst, dst := s.dst, srcl := t.result, dstl := s.srcl, cmd := 3, phase := .start
                   status := 1 })
    htclean rfl htturn rfl h1 (by omega) (by simp only [Config.lenMax]; omega) rfl hstream
  exact ⟨t, u, hrun, hidle, hdone, by omega, hrun', hu⟩

end Sys2Proof.Machine

namespace Sys2Proof.BlockWriterProofs

open Sys2Proof Sys2Proof.Machine Sys2Proof.Claims

/-- Settles O60: both commands leave a stream of one literal block, the short form being one with zeros behind it, and
the decoder gives its literals back. -/
theorem smallInputsRoundTrip : Obligations.SmallInputsRoundTrip := by
  unfold Obligations.SmallInputsRoundTrip
  exact fun s h1 h31 => ⟨roundTrips_command .default h1 h31, roundTrips_command .hi h1 h31⟩

end Sys2Proof.BlockWriterProofs
end

section
/-! SUPPORT. The hash, the table's size, the buckets and the words of the dictionary: what each operation of
42_hash_dictionary.md leaves in HT, word by word, and what it leaves alone (R180 to R199). -/

namespace Sys2Proof.Machine

open Sys2Proof.Claims

/-! ### The hash (R181) -/

/-- The product of two words fits 64 bits. -/
theorem mul_toNat_lt (x y : Word) : x.toNat * y.toNat < 2 ^ 64 := by
  have := Nat.mul_lt_mul'' x.isLt y.isLt
  omega

theorem hash_toNat (iw1 iw2 : Word) :
    let m := (0x243F6A88 ^^^ iw1 : Word).toNat * (0x85A308D3 ^^^ iw2 : Word).toNat
    (hash iw1 iw2).toNat = (m % 2 ^ 32) ^^^ (m / 2 ^ 32) := by
  intro m
  have hm : m < 2 ^ 64 := mul_toNat_lt _ _
  have hprod : ((0x243F6A88 ^^^ iw1 : Word).setWidth 64 * (0x85A308D3 ^^^ iw2 : Word).setWidth 64).toNat = m := by
    rw [BitVec.toNat_mul, BitVec.toNat_setWidth_of_le (by decide), BitVec.toNat_setWidth_of_le (by decide)]
    exact Nat.mod_eq_of_lt hm
  have hhigh : m / 2 ^ 32 < 2 ^ 32 := by omega
  rw [hash, BitVec.toNat_xor, BitVec.toNat_setWidth, BitVec.toNat_setWidth, BitVec.toNat_ushiftRight, hprod,
    Nat.shiftRight_eq_div_pow, Nat.mod_eq_of_lt hhigh]

/-! ### The table's size (R182, R195) -/

/-- The loop that grows a table, started at `2 ^ k` with enough doublings to reach the cap `2 ^ e`. -/
theorem growTable_two_pow (e srcl : Nat) :
    ∀ n k, k ≤ e → e ≤ k + n →
      ∃ l, k ≤ l ∧ l ≤ e ∧ growTable (2 ^ e) srcl n (2 ^ k) = 2 ^ l ∧ (l < e → srcl ≤ 2 ^ l / 4) ∧
        ∀ j, k ≤ j → j < l → 2 ^ j / 4 < srcl
  | 0, k, hk, hn => ⟨k, le_rfl, hk, rfl, fun _ => by omega, fun _ _ _ => by omega⟩
  | n + 1, k, hk, hn => by
    rw [growTable, Nat.shiftRight_eq_div_pow]
    by_cases hgrow : 2 ^ k ≠ 2 ^ e ∧ 2 ^ k / 2 ^ 2 < srcl
    · obtain ⟨hne, hsmall⟩ := hgrow
      have hlt : k < e := lt_of_le_of_ne hk fun h => hne (h ▸ rfl)
      obtain ⟨l, hkl, hle, heq, hcover, hbelow⟩ := growTable_two_pow e srcl n (k + 1) hlt (by omega)
      rw [if_pos ⟨hne, hsmall⟩, Nat.shiftLeft_eq, ← Nat.pow_succ]
      refine ⟨l, by omega, hle, heq, hcover, fun j hj hjl => ?_⟩
      rcases Nat.eq_or_lt_of_le hj with rfl | hj
      · exact hsmall
      · exact hbelow j hj hjl
    · rw [if_neg hgrow]
      refine ⟨k, le_rfl, hk, rfl, fun hlt => ?_, fun _ _ _ => by omega⟩
      have hne : 2 ^ k ≠ 2 ^ e := (Nat.pow_lt_pow_right (by decide) hlt).ne
      exact Nat.le_of_not_lt fun hsmall => hgrow ⟨hne, hsmall⟩

/-- The size of a table with a cap that twelve doublings reach. -/
theorem tableSize_two_pow {e : Nat} (srcl : Nat) (h11 : 11 ≤ e) (h23 : e ≤ 23) :
    ∃ k, 11 ≤ k ∧ k ≤ e ∧ tableSize (2 ^ e) srcl = 2 ^ k ∧ (k < e → srcl ≤ 2 ^ k / 4) ∧
      ∀ j, 11 ≤ j → j < k → 2 ^ j / 4 < srcl :=
  growTable_two_pow e srcl 12 11 h11 (by omega)

/-- The table of a mode is a power of two from 2 KiB to 8 MiB. -/
theorem Mode.tableBytes_two_pow (mode : Mode) (n : Nat) :
    ∃ k, 11 ≤ k ∧ k ≤ 23 ∧ mode.tableBytes n = 2 ^ k := by
  cases mode with
  | default =>
    obtain ⟨k, h11, h20, heq, -⟩ := tableSize_two_pow (e := 20) n (by decide) (by decide)
    exact ⟨k, h11, by omega, heq⟩
  | hi =>
    obtain ⟨k, h11, h23, heq, -⟩ := tableSize_two_pow (e := 23) n (by decide) (by decide)
    exact ⟨k, h11, h23, heq⟩

/-! ### Buckets (R184, R197) -/

/-- The bucket under a mask made of the bits from `j` on below `k`. -/
theorem bucketOf_mask (h : Word) {j k : Nat} (hk : k ≤ 24) :
    bucketOf h (BitVec.ofNat 24 (2 ^ k - 1) &&& ~~~ BitVec.ofNat 24 (2 ^ j - 1)) =
      h.toNat % 2 ^ k / 2 ^ j * 2 ^ j := by
  apply Nat.eq_of_testBit_eq
  intro i
  rw [bucketOf, ← BitVec.getLsbD]
  simp only [BitVec.getLsbD_and, BitVec.getLsbD_setWidth, BitVec.getLsbD_not, BitVec.getLsbD_ofNat,
    Nat.testBit_two_pow_sub_one, Nat.testBit_mul_two_pow, Nat.testBit_div_two_pow, Nat.testBit_mod_two_pow]
  by_cases hj : j ≤ i
  · by_cases hi : i < k
    · simp [hi, hj, show i < 24 by omega, show i < 32 by omega, BitVec.getLsbD]
    · simp [hi, Nat.sub_add_cancel hj]
  · simp [hj, show i < j by omega]

theorem bucketOf_maskDefault (h : Word) {k : Nat} (hk : k ≤ 24) :
    bucketOf h (maskDefault (2 ^ k)) = h.toNat % 2 ^ k / 16 * 16 := bucketOf_mask h (j := 4) hk

theorem bucketOf_maskHi (h : Word) {k : Nat} (hk : k ≤ 24) :
    bucketOf h (maskHi (2 ^ k)) = h.toNat % 2 ^ k / 64 * 64 := bucketOf_mask h (j := 6) hk

/-! ### Words of a bucket -/

/-- A word of a bucket after a word of the same bucket was written. -/
theorem Memory.htWord_setHtWord (m : Memory) (b i j : Nat) (v : Word) :
    (m.setHtWord b i v).htWord b j = if j = i then v else m.htWord b j := by
  by_cases h : j = i
  · rw [if_pos h, h, Memory.htWord_setHtWord_same]
  · rw [if_neg h, Memory.htWord_setHtWord_other m v (by omega)]

theorem sameOutside_setHtWord (m : Memory) (b i : Nat) (v : Word) :
    sameOutside m (m.setHtWord b i v) (b + 4 * i) 4 := sameOutside_writeLE _ _ _ _

/-- A word is written inside any region that holds it. -/
theorem sameOutside_then_setHtWord {m m' : Memory} {lo n b i : Nat} (v : Word) (hlo : lo ≤ b + 4 * i)
    (hhi : b + 4 * i + 4 ≤ lo + n) (h : sameOutside m m' lo n) : sameOutside m (m'.setHtWord b i v) lo n :=
  fun a ha => (sameOutside_setHtWord m' b i v a (by omega)).trans (h a ha)

theorem sameOutside_refl (m : Memory) (lo n : Nat) : sameOutside m m lo n := fun _ _ => rfl

/-- A word outside the region that changed is as before. -/
theorem htWord_of_sameOutside {m m' : Memory} {lo n b i : Nat} (h : sameOutside m m' lo n)
    (hd : b + 4 * i + 4 ≤ lo ∨ lo + n ≤ b + 4 * i) : m'.htWord b i = m.htWord b i := by
  rw [Memory.htWord, Memory.htWord, Memory.readLE_congr fun a h1 h2 => h a (by omega)]

/-! ### The initial tables (R183, R196) -/

theorem initTable2_tuple {ht : Memory} (src : Memory) {size b j : Nat} (h : ht.wf = true) (hb : b % 16 = 0)
    (hs : b + 16 ≤ size) (hj : j < 2) :
    (initTable2 ht src size).htWord b (2 * j) = initialKey src ∧
    (initTable2 ht src size).htWord b (2 * j + 1) = 16 := by
  rw [initTable2_htWord src size b _ h (by omega) (by omega), initTable2_htWord src size b _ h (by omega) (by omega)]
  exact ⟨if_pos (by omega), if_neg (by omega)⟩

theorem initTable7_tuple {ht : Memory} (src : Memory) {size b j : Nat} (h : ht.wf = true) (hb : b % 64 = 0)
    (hs : b + 64 ≤ size) (hj : j < 7) :
    (initTable7 ht src size).htWord b (2 * j) = initialKey src ∧
    (initTable7 ht src size).htWord b (2 * j + 1) = 16 := by
  rw [initTable7_htWord src size b _ h (by omega) (by omega), initTable7_htWord src size b _ h (by omega) (by omega)]
  exact ⟨(if_neg (by omega)).trans (if_pos (by omega)), (if_neg (by omega)).trans (if_neg (by omega))⟩

/-- Word 14 and the head of an initial bucket of mode HI. -/
theorem initTable7_tail {ht : Memory} (src : Memory) {size b i : Nat} (h : ht.wf = true) (hb : b % 64 = 0)
    (hs : b + 64 ≤ size) (h14 : 14 ≤ i) (h15 : i ≤ 15) : (initTable7 ht src size).htWord b i = 0 := by
  rw [initTable7_htWord src size b _ h (by omega) (by omega)]
  exact if_pos (by omega)

theorem sameOutside_fill {m : Memory} (n : Nat) (f : Nat → Byte) (h : m.wf = true) :
    sameOutside m (m.fill 0 n f) 0 n := fun a ha => by
  rw [Memory.read_fill 0 n f a h, if_neg (by omega)]

/-! ### The updates of mode DEFAULT (R186 to R188) -/

theorem miss2_htWord (ht : Memory) (b j : Nat) (iw1 ipo : Word) :
    (miss2 ht b iw1 ipo).htWord b j = if j = 3 then ipo else if j = 2 then iw1 else ht.htWord b j := by
  rw [miss2, Memory.htWord_setHtWord, Memory.htWord_setHtWord]

theorem sameOutside_miss2 (ht : Memory) (b : Nat) (iw1 ipo : Word) : sameOutside ht (miss2 ht b iw1 ipo) b 16 := by
  iterate 2 refine sameOutside_then_setHtWord _ (by omega) (by omega) ?_
  exact sameOutside_refl ht b 16

theorem refresh2_htWord (ht : Memory) (b j : Nat) (hit : Slot) (ipo : Word) :
    (refresh2 ht b hit ipo).htWord b j = if j = hit.keyWord + 1 then ipo else ht.htWord b j :=
  Memory.htWord_setHtWord _ _ _ _ _

theorem sameOutside_refresh2 (ht : Memory) (b : Nat) (hit : Slot) (ipo : Word) :
    sameOutside ht (refresh2 ht b hit ipo) b 16 := by
  have hword : hit.keyWord + 1 ≤ 3 := by cases hit <;> decide
  exact sameOutside_then_setHtWord ipo (by omega) (by omega) (sameOutside_refl ht b 16)

/-- A hit near by refreshes the tuple that hit. -/
theorem hit2_near (ht : Memory) (b : Nat) (hit : Slot) (iw1 ipo : Word) {d : Nat} (h : d ≤ 273) :
    hit2 ht b hit iw1 ipo d = refresh2 ht b hit ipo := if_neg (by simpa using h)

/-- A hit further back promotes: tuple 1 becomes tuple 2, the new tuple takes its place. -/
theorem hit2_far (ht : Memory) (b : Nat) (hit : Slot) (iw1 ipo : Word) {d : Nat} (h : 273 < d) :
    hit2 ht b hit iw1 ipo d =
      (((ht.setHtWord b 2 (ht.htWord b 0)).setHtWord b 3 (ht.htWord b 1)).setHtWord b 0 iw1).setHtWord b 1 ipo :=
  if_pos h

theorem hit2_far_htWord (ht : Memory) (b j : Nat) (hit : Slot) (iw1 ipo : Word) {d : Nat} (h : 273 < d) :
    (hit2 ht b hit iw1 ipo d).htWord b j =
      if j = 1 then ipo else if j = 0 then iw1 else if j = 3 then ht.htWord b 1 else if j = 2 then ht.htWord b 0
      else ht.htWord b j := by
  rw [hit2_far ht b hit iw1 ipo h]
  simp only [Memory.htWord_setHtWord]

theorem sameOutside_hit2 (ht : Memory) (b : Nat) (hit : Slot) (iw1 ipo : Word) (d : Nat) :
    sameOutside ht (hit2 ht b hit iw1 ipo d) b 16 := by
  rcases Nat.lt_or_ge 273 d with h | h
  · rw [hit2_far ht b hit iw1 ipo h]
    iterate 4 refine sameOutside_then_setHtWord _ (by omega) (by omega) ?_
    exact sameOutside_refl ht b 16
  · rw [hit2_near ht b hit iw1 ipo h]
    exact sameOutside_refresh2 ht b hit ipo

/-! ### The update of mode HI (R199) -/

/-- The head one slot before the head `2 * k`. -/
def headBefore (k : Nat) : Nat := if k = 0 then 12 else 2 * k - 2

theorem headBefore_even {k : Nat} (h : k < 7) : ∃ l, l < 7 ∧ headBefore k = 2 * l := by
  unfold headBefore
  split
  · exact ⟨6, by decide, rfl⟩
  · exact ⟨k - 1, by omega, by omega⟩

theorem miss7_eq {ht : Memory} {b k : Nat} (iw1 ipo : Word) (h : (ht.htWord b 15).toNat = 2 * k) :
    miss7 ht b iw1 ipo =
      ((ht.setHtWord b (headBefore k) iw1).setHtWord b (headBefore k + 1) ipo).setHtWord b 15
        (BitVec.ofNat 32 (headBefore k)) := by
  have hk : (2 * k = 0) = (k = 0) := by simp
  simp only [miss7, h, hk, headBefore]

/-- The words of a bucket after an insertion, its head being `2 * k`. -/
theorem miss7_htWord {ht : Memory} {b k : Nat} (iw1 ipo : Word) (h : (ht.htWord b 15).toNat = 2 * k) (j : Nat) :
    (miss7 ht b iw1 ipo).htWord b j =
      if j = 15 then BitVec.ofNat 32 (headBefore k) else if j = headBefore k + 1 then ipo
      else if j = headBefore k then iw1 else ht.htWord b j := by
  rw [miss7_eq iw1 ipo h]
  simp only [Memory.htWord_setHtWord]

section
variable {ht : Memory} {b k : Nat} (iw1 ipo : Word) (hk : k < 7) (h : (ht.htWord b 15).toNat = 2 * k)
include hk h

theorem miss7_head : ((miss7 ht b iw1 ipo).htWord b 15).toNat = headBefore k := by
  obtain ⟨l, hl, hhead⟩ := headBefore_even hk
  rw [miss7_htWord iw1 ipo h, if_pos rfl, BitVec.toNat_ofNat]
  omega

theorem miss7_key : (miss7 ht b iw1 ipo).htWord b (headBefore k) = iw1 := by
  obtain ⟨l, hl, hhead⟩ := headBefore_even hk
  rw [miss7_htWord iw1 ipo h, if_neg (by omega), if_neg (by omega), if_pos rfl]

theorem miss7_offset : (miss7 ht b iw1 ipo).htWord b (headBefore k + 1) = ipo := by
  obtain ⟨l, hl, hhead⟩ := headBefore_even hk
  rw [miss7_htWord iw1 ipo h, if_neg (by omega), if_pos rfl]

omit hk in
theorem miss7_other {j : Nat} (h15 : j ≠ 15) (hkey : j ≠ headBefore k) (hoff : j ≠ headBefore k + 1) :
    (miss7 ht b iw1 ipo).htWord b j = ht.htWord b j := by
  rw [miss7_htWord iw1 ipo h, if_neg h15, if_neg hoff, if_neg hkey]

theorem sameOutside_miss7 : sameOutside ht (miss7 ht b iw1 ipo) b 64 := by
  obtain ⟨l, hl, hhead⟩ := headBefore_even hk
  rw [miss7_eq iw1 ipo h, hhead]
  iterate 3 refine sameOutside_then_setHtWord _ (by omega) (by omega) ?_
  exact sameOutside_refl ht b 64

end

/-! ### The probe of mode DEFAULT (R185) -/

theorem tupleMatches_iff (ht src : Memory) (b : Nat) (k : Slot) (iw1 : Word) (iw2 : BitVec 16) :
    tupleMatches ht src b k iw1 iw2 = true ↔
      ht.htWord b k.keyWord = iw1 ∧ src.readLE ((ht.htWord b (k.keyWord + 1)).toNat + 4) 2 = iw2.toNat := by
  have hlt : src.readLE ((ht.htWord b (k.keyWord + 1)).toNat + 4) 2 < 2 ^ 16 := src.readLE_lt _ 2
  simp only [tupleMatches, Bool.and_eq_true, beq_iff_eq, ← BitVec.toNat_inj (n := 16), BitVec.toNat_ofNat]
  rw [Nat.mod_eq_of_lt hlt]

/-- A tuple that the probe finds has the key. -/
theorem probe2_some {ht src : Memory} {b : Nat} {iw1 wp : Word} {iw2 : BitVec 16} {hit : Slot}
    (h : probe2 ht src b iw1 iw2 = some (hit, wp)) : ht.htWord b hit.keyWord = iw1 := by
  have hmatch : tupleMatches ht src b hit iw1 iw2 = true := by
    unfold probe2 at h
    split at h
    · cases h; assumption
    · split at h
      · cases h; assumption
      · cases h
  exact ((tupleMatches_iff ht src b hit iw1 iw2).1 hmatch).left

end Sys2Proof.Machine

namespace Sys2Proof.DictionaryProofs

open Sys2Proof Sys2Proof.Machine Sys2Proof.Claims

/-- Settles O36: the product fits 64 bits, so the machine's multiplication is exact. -/
theorem hashFoldsTheProduct : Obligations.HashFoldsTheProduct := by
  unfold Obligations.HashFoldsTheProduct
  intro iw1 iw2
  have hlt := mul_toNat_lt (0x243F6A88 ^^^ iw1) (0x85A308D3 ^^^ iw2)
  have heq := hash_toNat iw1 iw2
  rw [BitVec.toNat_xor, BitVec.toNat_xor] at hlt heq
  exact ⟨hlt, heq⟩

/-- Settles O37: the loop doubles exactly while the quarter is too small and the cap is not reached, and twelve
doublings reach the larger cap. -/
theorem tableSizeIsTheSmallest : Obligations.TableSizeIsTheSmallest := by
  unfold Obligations.TableSizeIsTheSmallest
  rintro e srcl (rfl | rfl)
  · exact tableSize_two_pow srcl (by decide) (by decide)
  · exact tableSize_two_pow srcl (by decide) (by decide)

/-- Settles O38: the mask holds the bits from 4, or 6, on below the table's size. -/
theorem bucketsAreAlignedInTheTable : Obligations.BucketsAreAlignedInTheTable := by
  unfold Obligations.BucketsAreAlignedInTheTable
  exact fun h k _ hk => ⟨bucketOf_maskDefault h (by omega), bucketOf_maskHi h (by omega)⟩

/-- Settles O39: a fill gives every word of the table by its place in its bucket. -/
theorem initialTablesHoldByteSixteen : Obligations.InitialTablesHoldByteSixteen := by
  unfold Obligations.InitialTablesHoldByteSixteen
  intro ht src size b hwf k16
  refine ⟨fun hb hs => ?_, fun hb hs => ⟨fun j hj => initTable7_tuple src hwf hb hs hj, ?_, ?_⟩,
    sameOutside_fill size _ hwf, sameOutside_fill size _ hwf⟩
  · obtain ⟨hkey1, hoff1⟩ := initTable2_tuple src hwf hb hs (j := 0) (by decide)
    obtain ⟨hkey2, hoff2⟩ := initTable2_tuple src hwf hb hs (j := 1) (by decide)
    exact ⟨hkey1, hoff1, hkey2, hoff2⟩
  · exact initTable7_tail src hwf hb hs le_rfl (by decide)
  · exact initTable7_tail src hwf hb hs (by decide) le_rfl

/-- Settles O40: each update is a few words written in one bucket. -/
theorem defaultDictionaryUpdates : Obligations.DefaultDictionaryUpdates := by
  unfold Obligations.DefaultDictionaryUpdates
  intro ht b d iw1 ipo
  refine ⟨?_, fun hit hd => ?_, fun hit hd => hit2_near ht b hit iw1 ipo hd, ?_,
    fun hit => sameOutside_hit2 ht b hit iw1 ipo d, sameOutside_miss2 ht b iw1 ipo⟩
  · simp [miss2_htWord]
  · simp [hit2_far_htWord ht b _ hit iw1 ipo hd]
  · exact ⟨Memory.htWord_setHtWord_same _ _ _ _, Memory.htWord_setHtWord_same _ _ _ _,
      sameOutside_setHtWord ht b 1 ipo, sameOutside_setHtWord ht b 3 ipo⟩

/-- Settles O41: the head before a legal head is a legal head, so the tuple goes below word 14. -/
theorem hiDictionaryUpdate : Obligations.HiDictionaryUpdate := by
  unfold Obligations.HiDictionaryUpdate
  exact fun ht b k iw1 ipo hk h => ⟨miss7_head iw1 ipo hk h, miss7_key iw1 ipo hk h, miss7_offset iw1 ipo hk h,
    fun w hw hkey hoff => miss7_other iw1 ipo h hw.ne hkey hoff, sameOutside_miss7 iw1 ipo hk h⟩

/-- Settles O42: a tuple matches exactly if its key and its two bytes do. -/
theorem probeFindsTheFirstMatch : Obligations.ProbeFindsTheFirstMatch := by
  unfold Obligations.ProbeFindsTheFirstMatch
  intro ht src b iw1 iw2 one two
  have hone : tupleMatches ht src b .one iw1 iw2 = true ↔ one := tupleMatches_iff ht src b .one iw1 iw2
  have htwo : tupleMatches ht src b .two iw1 iw2 = true ↔ two := tupleMatches_iff ht src b .two iw1 iw2
  simp only [probe2, hone, htwo]
  refine ⟨fun h1 => if_pos h1, fun h1 h2 => ?_, fun h1 h2 => ?_⟩
  · rw [if_neg h1, if_pos h2]
  · rw [if_neg h1, if_neg h2]

end Sys2Proof.DictionaryProofs
end

section
/-! SUPPORT. The dictionary invariants of both modes as one predicate on the table, kept by each update of a bucket and
true of both initial tables (42_hash_dictionary.md R183, R189, R196, R200). -/

namespace Sys2Proof.Machine

open Sys2Proof.Claims

/-! ### The buckets of a mode -/

/-- The size of a bucket (R184, R197). -/
def Mode.bucketBytes : Mode → Nat
  | .default => 16
  | .hi => 64

/-- The number of tuples in a bucket (20_memory.md R63). -/
def Mode.tuples : Mode → Nat
  | .default => 2
  | .hi => 7

/-- The initial table (R183, R196). -/
def Mode.initTable (ht src : Memory) (size : Nat) : Mode → Memory
  | .default => initTable2 ht src size
  | .hi => initTable7 ht src size

theorem Mode.initTable_tuple (mode : Mode) {ht : Memory} (src : Memory) {size b j : Nat} (h : ht.wf = true)
    (hb : b % mode.bucketBytes = 0) (hs : b + mode.bucketBytes ≤ size) (hj : j < mode.tuples) :
    (mode.initTable ht src size).htWord b (2 * j) = initialKey src ∧
    (mode.initTable ht src size).htWord b (2 * j + 1) = 16 := by
  cases mode with
  | default => exact initTable2_tuple src h hb hs hj
  | hi => exact initTable7_tuple src h hb hs hj

/-- The size of a mode's table is a multiple of both bucket sizes. -/
theorem Mode.tableBytes_mod (mode : Mode) (n : Nat) : mode.tableBytes n % 64 = 0 := by
  obtain ⟨k, h11, -, heq⟩ := mode.tableBytes_two_pow n
  rw [heq]
  exact Nat.mod_eq_zero_of_dvd (Nat.pow_dvd_pow 2 (by omega : 6 ≤ k))

/-- A bucket that starts in the table lies in it. -/
theorem Mode.bucket_end_le (mode : Mode) {n b : Nat} (hb : b % mode.bucketBytes = 0) (hlt : b < mode.tableBytes n) :
    b + mode.bucketBytes ≤ mode.tableBytes n := by
  have hsize := mode.tableBytes_mod n
  cases mode <;> simp only [Mode.bucketBytes] at hb ⊢ <;> omega

/-- A hash names a bucket of the table (R184, R197). -/
theorem Mode.bucketOf_mem (mode : Mode) (h : Word) (n : Nat) :
    bucketOf h (mode.mask (mode.tableBytes n)) % mode.bucketBytes = 0 ∧
    bucketOf h (mode.mask (mode.tableBytes n)) < mode.tableBytes n := by
  obtain ⟨k, -, h23, heq⟩ := mode.tableBytes_two_pow n
  have hmod := Nat.mod_lt h.toNat (Nat.two_pow_pos k)
  rw [heq]
  cases mode with
  | default =>
    simp only [Mode.mask, Mode.bucketBytes, bucketOf_maskDefault h (show k ≤ 24 by omega)]
    omega
  | hi =>
    simp only [Mode.mask, Mode.bucketBytes, bucketOf_maskHi h (show k ≤ 24 by omega)]
    omega

/-! ### Sound tuples and buckets -/

/-- A tuple whose offset is a position from 16 on below `limit`, and whose key is the four bytes there (R189,
R200). -/
structure TupleSound (src : Memory) (limit : Int) (key off : Word) : Prop where
  off_ge : 16 ≤ off.toNat
  off_lt : (off.toNat : Int) < limit
  key_eq : key = BitVec.ofNat 32 (src.readLE off.toNat 4)

/-- A bucket of sound tuples, with a legal head in mode HI (R189, R200). -/
structure BucketSound (mode : Mode) (src : Memory) (limit : Int) (ht : Memory) (b : Nat) : Prop where
  tuple : ∀ j, j < mode.tuples → TupleSound src limit (ht.htWord b (2 * j)) (ht.htWord b (2 * j + 1))
  head : mode = .hi → ∃ k, k < 7 ∧ (ht.htWord b 15).toNat = 2 * k

theorem BucketSound.mono {mode : Mode} {src ht : Memory} {limit limit' : Int} {b : Nat}
    (h : BucketSound mode src limit ht b) (hle : limit ≤ limit') : BucketSound mode src limit' ht b where
  tuple j hj := { h.tuple j hj with off_lt := (h.tuple j hj).off_lt.trans_le hle }
  head := h.head

/-- A bucket is sound if its words are those of a sound one. -/
theorem BucketSound.congr {mode : Mode} {src ht ht' : Memory} {limit : Int} {b : Nat}
    (h : BucketSound mode src limit ht b)
    (hw : ∀ i, 4 * i + 4 ≤ mode.bucketBytes → ht'.htWord b i = ht.htWord b i) :
    BucketSound mode src limit ht' b where
  tuple j hj := by
    have hfit : 4 * (2 * j + 1) + 4 ≤ mode.bucketBytes := by
      cases mode <;> simp only [Mode.tuples, Mode.bucketBytes] at hj ⊢ <;> omega
    rw [hw _ (by omega), hw _ hfit]
    exact h.tuple j hj
  head hm := by
    rw [hw 15 (by rw [hm]; decide)]
    exact h.head hm

theorem bucketSound_default_iff {src ht : Memory} {limit : Int} {b : Nat} :
    BucketSound .default src limit ht b ↔
      TupleSound src limit (ht.htWord b 0) (ht.htWord b 1) ∧ TupleSound src limit (ht.htWord b 2) (ht.htWord b 3) := by
  refine ⟨fun h => ⟨h.tuple 0 (by decide), h.tuple 1 (by decide)⟩, fun ⟨hone, htwo⟩ => ⟨fun j hj => ?_, nofun⟩⟩
  match j, hj with
  | 0, _ => exact hone
  | 1, _ => exact htwo

section
variable {src ht : Memory} {limit : Int} {b : Nat} {iw1 ipo : Word} (hnew : TupleSound src limit iw1 ipo)
include hnew

theorem BucketSound.miss2 (h : BucketSound .default src limit ht b) :
    BucketSound .default src limit (Machine.miss2 ht b iw1 ipo) b := by
  obtain ⟨hone, -⟩ := bucketSound_default_iff.1 h
  rw [bucketSound_default_iff]
  simp only [miss2_htWord]
  exact ⟨hone, hnew⟩

/-- The refreshed tuple keeps its key, which is the key of the new position (R187, R188). -/
theorem BucketSound.refresh2 {hit : Slot} (hkey : ht.htWord b hit.keyWord = iw1)
    (h : BucketSound .default src limit ht b) :
    BucketSound .default src limit (Machine.refresh2 ht b hit ipo) b := by
  obtain ⟨hone, htwo⟩ := bucketSound_default_iff.1 h
  rw [bucketSound_default_iff]
  simp only [refresh2_htWord]
  cases hit with
  | one => exact ⟨hkey ▸ hnew, htwo⟩
  | two => exact ⟨hone, hkey ▸ hnew⟩

/-- A promotion moves a sound tuple and puts the new one in its place (R187). -/
theorem BucketSound.hit2 {hit : Slot} (d : Nat) (hkey : ht.htWord b hit.keyWord = iw1)
    (h : BucketSound .default src limit ht b) :
    BucketSound .default src limit (Machine.hit2 ht b hit iw1 ipo d) b := by
  rcases Nat.lt_or_ge 273 d with hd | hd
  · obtain ⟨hone, -⟩ := bucketSound_default_iff.1 h
    rw [bucketSound_default_iff]
    simp only [hit2_far_htWord ht b _ hit iw1 ipo hd]
    exact ⟨hnew, hone⟩
  · rw [hit2_near ht b hit iw1 ipo hd]
    exact h.refresh2 hnew hkey

/-- An insertion replaces the tuple before the head and makes it the head (R199). -/
theorem BucketSound.miss7 (h : BucketSound .hi src limit ht b) :
    BucketSound .hi src limit (Machine.miss7 ht b iw1 ipo) b := by
  obtain ⟨k, hk, hhead⟩ := h.head rfl
  obtain ⟨l, hl, hbefore⟩ := headBefore_even hk
  refine ⟨fun j hj => ?_, fun _ => ⟨l, hl, (miss7_head iw1 ipo hk hhead).trans hbefore⟩⟩
  have hj : j < 7 := hj
  by_cases heq : j = l
  · rw [heq, ← hbefore, miss7_key iw1 ipo hk hhead, miss7_offset iw1 ipo hk hhead]
    exact hnew
  · rw [miss7_other iw1 ipo hhead (by omega) (by omega) (by omega),
      miss7_other iw1 ipo hhead (by omega) (by omega) (by omega)]
    exact h.tuple j hj

end

/-! ### Sound tables -/

/-- The table of a search: its size and mask are those for the input's length, and its buckets are sound with all
offsets below `limit` (R182 to R184, R189; R195 to R197, R200). -/
structure TableSound (mode : Mode) (limit : Int) (s : State) : Prop where
  hmask_eq : s.mf.hmask = mode.mask s.mf.htsize.toNat
  htsize_eq : s.mf.htsize.toNat = mode.tableBytes (s.mf.ipe.toNat + Config.litFin)
  bucket : ∀ b, b % mode.bucketBytes = 0 → b < s.mf.htsize.toNat → BucketSound mode s.src limit s.ht b

theorem TableSound.mono {mode : Mode} {limit limit' : Int} {s : State} (h : TableSound mode limit s)
    (hle : limit ≤ limit') : TableSound mode limit' s :=
  { h with bucket := fun b hb hlt => (h.bucket b hb hlt).mono hle }

/-- The bucket a hash names is in the table. -/
theorem TableSound.bucketOf_mem {mode : Mode} {limit : Int} {s : State} (h : TableSound mode limit s) (x : Word) :
    bucketOf x s.mf.hmask % mode.bucketBytes = 0 ∧ bucketOf x s.mf.hmask < s.mf.htsize.toNat := by
  rw [h.hmask_eq, h.htsize_eq]
  exact mode.bucketOf_mem x _

/-- An update of the bucket that a hash names, which keeps it sound and changes nothing outside it. -/
theorem TableSound.update {mode : Mode} {limit : Int} {s : State} {ht : Memory} (h : TableSound mode limit s)
    (x : Word)
    (hupd : BucketSound mode s.src limit s.ht (bucketOf x s.mf.hmask) →
      sameOutside s.ht ht (bucketOf x s.mf.hmask) mode.bucketBytes ∧
      BucketSound mode s.src limit ht (bucketOf x s.mf.hmask)) :
    TableSound mode limit (s.setHt ht) := by
  obtain ⟨halign, hin⟩ := h.bucketOf_mem x
  obtain ⟨hframe, hsound⟩ := hupd (h.bucket _ halign hin)
  refine { h with bucket := fun b hb hlt => ?_ }
  rcases Nat.lt_trichotomy b (bucketOf x s.mf.hmask) with hne | rfl | hne
  · refine (h.bucket b hb hlt).congr fun i hi => htWord_of_sameOutside hframe (.inl ?_)
    cases mode <;> simp only [Mode.bucketBytes] at halign hb hi <;> omega
  · exact hsound
  · refine (h.bucket b hb hlt).congr fun i hi => htWord_of_sameOutside hframe (.inr ?_)
    cases mode <;> simp only [Mode.bucketBytes] at halign hb ⊢ <;> omega

section
variable {limit : Int} {s : State} {iw1 ipo : Word} (hnew : TupleSound s.src limit iw1 ipo) (x : Word)
include hnew

theorem TableSound.miss2 (h : TableSound .default limit s) :
    TableSound .default limit (s.setHt (Machine.miss2 s.ht (bucketOf x s.mf.hmask) iw1 ipo)) :=
  h.update x fun hb => ⟨sameOutside_miss2 _ _ _ _, hb.miss2 hnew⟩

theorem TableSound.refresh2 {hit : Slot} (hkey : s.ht.htWord (bucketOf x s.mf.hmask) hit.keyWord = iw1)
    (h : TableSound .default limit s) :
    TableSound .default limit (s.setHt (Machine.refresh2 s.ht (bucketOf x s.mf.hmask) hit ipo)) :=
  h.update x fun hb => ⟨sameOutside_refresh2 _ _ _ _, hb.refresh2 hnew hkey⟩

theorem TableSound.hit2 {hit : Slot} (d : Nat) (hkey : s.ht.htWord (bucketOf x s.mf.hmask) hit.keyWord = iw1)
    (h : TableSound .default limit s) :
    TableSound .default limit (s.setHt (Machine.hit2 s.ht (bucketOf x s.mf.hmask) hit iw1 ipo d)) :=
  h.update x fun hb => ⟨sameOutside_hit2 _ _ _ _ _ _, hb.hit2 hnew d hkey⟩

theorem TableSound.miss7 (h : TableSound .hi limit s) :
    TableSound .hi limit (s.setHt (Machine.miss7 s.ht (bucketOf x s.mf.hmask) iw1 ipo)) :=
  h.update x fun hb => by
    obtain ⟨k, hk, hhead⟩ := hb.head rfl
    exact ⟨sameOutside_miss7 iw1 ipo hk hhead, hb.miss7 hnew⟩

end

/-! ### The invariants of the model -/

/-- What every offset in the table is below: the loop's end, in mode DEFAULT also the position after the cursor
(R189, R200). -/
def Mode.offsetLimit (m : Finder) : Mode → Int
  | .default => min (m.ip.toNat + 1) m.ipet.toInt
  | .hi => m.ipet.toInt

/-- The dictionary invariant of a mode, in a search whose loop runs at all. -/
def State.dictionarySound (mode : Mode) (s : State) : Prop :=
  s.phase = mode.searchPhase → 32 ≤ s.mf.ipe.toNat + Config.litFin → TableSound mode (mode.offsetLimit s.mf) s

theorem tupleOk_iff {s : State} {b k : Nat} :
    TupleOk s b k ↔
      TupleSound s.src (Mode.offsetLimit s.mf .default) (s.ht.htWord b k) (s.ht.htWord b (k + 1)) := by
  constructor
  · rintro ⟨hge, hle, hlt, hkey⟩
    exact ⟨hge, lt_min (by omega) hlt, hkey⟩
  · rintro ⟨hge, hlim, hkey⟩
    obtain ⟨hle, hlt⟩ := lt_min_iff.1 hlim
    exact ⟨hge, by omega, hlt, hkey⟩

theorem tupleHiOk_iff {s : State} {b k : Nat} :
    TupleHiOk s b k ↔
      TupleSound s.src (Mode.offsetLimit s.mf .hi) (s.ht.htWord b k) (s.ht.htWord b (k + 1)) :=
  ⟨fun ⟨hge, hlt, hkey⟩ => ⟨hge, hlt, hkey⟩, fun ⟨hge, hlt, hkey⟩ => ⟨hge, hlt, hkey⟩⟩

theorem State.dictionaryOk_iff {s : State} : s.dictionaryOk ↔ s.dictionarySound .default := by
  refine forall_congr' fun _ => forall_congr' fun _ => ⟨?_, ?_⟩
  · rintro ⟨hmask, hsize, htuples⟩
    refine ⟨hmask, hsize, fun b hb hlt => bucketSound_default_iff.2 ?_⟩
    obtain ⟨hone, htwo⟩ := htuples b hb hlt
    exact ⟨tupleOk_iff.1 hone, tupleOk_iff.1 htwo⟩
  · rintro ⟨hmask, hsize, hbucket⟩
    refine ⟨hmask, hsize, fun b hb hlt => ?_⟩
    obtain ⟨hone, htwo⟩ := bucketSound_default_iff.1 (hbucket b hb hlt)
    exact ⟨tupleOk_iff.2 hone, tupleOk_iff.2 htwo⟩

theorem State.dictionaryHiOk_iff {s : State} : s.dictionaryHiOk ↔ s.dictionarySound .hi := by
  refine forall_congr' fun _ => forall_congr' fun _ => ⟨?_, ?_⟩
  · rintro ⟨hmask, hsize, hbuckets⟩
    refine ⟨hmask, hsize, fun b hb hlt => ?_⟩
    obtain ⟨hhead, htuples⟩ := hbuckets b hb hlt
    exact ⟨fun j hj => tupleHiOk_iff.1 (htuples j hj), fun _ => hhead⟩
  · rintro ⟨hmask, hsize, hbucket⟩
    refine ⟨hmask, hsize, fun b hb hlt => ?_⟩
    obtain ⟨htuple, hhead⟩ := hbucket b hb hlt
    exact ⟨hhead rfl, fun j hj => tupleHiOk_iff.2 (htuple j hj)⟩

end Sys2Proof.Machine
end

section
/-! The dictionary invariants, established by the start of a search and kept by every pass (42_hash_dictionary.md R183,
R189, R196, R200; 43_default_match_finder.md R216 to R224; 44_hi_ratio_match_finder.md R247 to R256). -/

namespace Sys2Proof.Machine

/-! ### Steps that lead to a search -/

/-- The set-up of a mode's search (43_default_match_finder.md R210 to R213; 44_hi_ratio_match_finder.md R240, R242). -/
def Mode.setup (s : State) : Mode → State
  | .default => searchSetup s
  | .hi => searchHiSetup s

/-- A pass of a mode's search (R216, R247). -/
def Mode.pass (s : State) : Mode → State
  | .default => searchPass s
  | .hi => searchHiPass s

/-- A set-up starts the writer and the mode's search; of the rest only HT may differ. -/
theorem Mode.setup_eq (mode : Mode) (s : State) :
    ∃ ht, mode.setup s = { writerStart s mode.mref with ht := ht, phase := mode.searchPhase } := by
  cases mode with
  | default => exact searchSetup_eq s
  | hi => exact searchHiSetup_eq s

theorem Mode.setup_phase (mode : Mode) (s : State) : (mode.setup s).phase = mode.searchPhase := by
  obtain ⟨ht, heq⟩ := mode.setup_eq s
  rw [heq]

theorem Mode.setup_mf (mode : Mode) (s : State) : (mode.setup s).mf = s.mf := by
  obtain ⟨ht, heq⟩ := mode.setup_eq s
  rw [heq]
  rfl

theorem Mode.searchPhase_injective : ∀ {mode mode' : Mode}, mode.searchPhase = mode'.searchPhase → mode = mode'
  | .default, .default, _ => rfl
  | .hi, .hi, _ => rfl

theorem Mode.searchPhase_ne_idle (mode : Mode) : mode.searchPhase ≠ .idle := by cases mode <;> decide

theorem Mode.searchPhase_ne_start (mode : Mode) : mode.searchPhase ≠ .start := by cases mode <;> decide

theorem Mode.searchPhase_ne_header (mode : Mode) (r : Report) : mode.searchPhase ≠ .header r := by
  cases mode <;> exact nofun

theorem Mode.searchPhase_ne_blocks (mode : Mode) (r : Report) : mode.searchPhase ≠ .blocks r := by
  cases mode <;> exact nofun

/-- A command that has ended is in no search. -/
theorem State.ended.phase_ne {t : State} (h : t.ended) (mode : Mode) : t.phase ≠ mode.searchPhase :=
  fun hp => by
    obtain ⟨hidle, -⟩ := h
    exact mode.searchPhase_ne_idle (hp.symm.trans hidle)

/-- A search is reached by the start of its command or by one of its passes. -/
theorem engineStep_searching {s t : State} {mode : Mode} (h : engineStep s = .next t)
    (hp : t.phase = mode.searchPhase) :
    (CompressAccepts s (mode.boundOf s.srcl.toNat) ∧ t = mode.setup (s.beginCommand mode)) ∨
    (s.phase = mode.searchPhase ∧ s.mf.more = true ∧ t = mode.pass s) := by
  rcases engineStep_cases h with ⟨hs, rfl⟩ | ⟨hs, rfl⟩ | ⟨-, i, hi, he⟩ | ⟨r, -, -, he⟩ | ⟨r, -, rfl⟩ |
    ⟨r, hs, -, he⟩ | ⟨r, -, -, rfl⟩ | ⟨hs, hm, rfl⟩ | ⟨-, -, rfl⟩ | ⟨hs, hm, rfl⟩ | ⟨-, -, rfl⟩
  · exact absurd (hp.symm.trans hs) mode.searchPhase_ne_idle
  · exact absurd (hp.symm.trans hs) mode.searchPhase_ne_start
  · rcases exec_command_cases hi he with hend | ⟨r, rfl⟩ | ⟨ha, rfl⟩ | ⟨ha, rfl⟩
    · exact absurd hp (hend.phase_ne mode)
    · exact absurd hp.symm (mode.searchPhase_ne_header r)
    · obtain rfl := Mode.searchPhase_injective ((Mode.setup_phase .default _).symm.trans hp)
      exact .inl ⟨ha, rfl⟩
    · obtain rfl := Mode.searchPhase_injective ((Mode.setup_phase .hi _).symm.trans hp)
      exact .inl ⟨ha, rfl⟩
  · cases he
    exact absurd hp.symm (mode.searchPhase_ne_blocks _)
  · exact absurd hp ((State.raise_ended _ _ _ _).phase_ne mode)
  · rcases exec_decodeBlock_ended_or_goesOn he with hend | ⟨hsame, -⟩
    · exact absurd hp (hend.phase_ne mode)
    · exact absurd (hp.symm.trans (hsame.trans hs)) (mode.searchPhase_ne_blocks r)
  · exact absurd hp ((decodeEnd_ended s).phase_ne mode)
  · rcases searchPass_ended_or_goesOn s with hend | ⟨hsame, -⟩
    · exact absurd hp (hend.phase_ne mode)
    · obtain rfl : Mode.default = mode := Mode.searchPhase_injective (hs.symm.trans (hsame.symm.trans hp))
      exact .inr ⟨hs, hm, rfl⟩
  · exact absurd hp ((searchEnd_ended s).phase_ne mode)
  · rcases searchHiPass_ended_or_goesOn s with hend | ⟨hsame, -⟩
    · exact absurd hp (hend.phase_ne mode)
    · obtain rfl : Mode.hi = mode := Mode.searchPhase_injective (hs.symm.trans (hsame.symm.trans hp))
      exact .inr ⟨hs, hm, rfl⟩
  · exact absurd hp ((searchHiEnd_ended s).phase_ne mode)

/-! ### The start of a search -/

/-- A set-up whose loop will run initialises the table (R183, R196). -/
theorem Mode.setup_of_more (mode : Mode) {s : State} (h : s.mf.more = true) :
    mode.setup s = { writerStart s mode.mref with
      ht := mode.initTable s.ht s.src (mode.tableBytes s.srcl.toNat), phase := mode.searchPhase } := by
  cases mode with
  | default => exact if_pos h
  | hi => exact if_pos h

/-- The tuple of the initial tables names position 16, so it is sound for every limit from 17 on (R183, R196). -/
theorem tupleSound_initial (src : Memory) : TupleSound src 17 (initialKey src) 16 :=
  ⟨by decide, by decide, rfl⟩

theorem BucketSound.initTable (mode : Mode) {ht : Memory} (src : Memory) {size b : Nat} (h : ht.wf = true)
    (hb : b % mode.bucketBytes = 0) (hs : b + mode.bucketBytes ≤ size) :
    BucketSound mode src 17 (mode.initTable ht src size) b where
  tuple j hj := by
    obtain ⟨hkey, hoff⟩ := mode.initTable_tuple src h hb hs hj
    rw [hkey, hoff]
    exact tupleSound_initial src
  head hm := by
    subst hm
    exact ⟨0, by decide, congrArg BitVec.toNat (initTable7_tail src h hb hs (by decide) le_rfl)⟩

/-- The start of a compression establishes its dictionary. -/
theorem Mode.setup_dictionarySound (mode : Mode) {s : State} (hwf : s.memWf) (hge : 16 ≤ s.srcl.toNat) :
    (mode.setup (s.beginCommand mode)).dictionarySound mode := by
  intro _ hloop
  obtain ⟨-, -, hht⟩ := hwf
  have hipe := Finder.begin_ipe s.mf mode s.srcl (by omega)
  have hsize := Finder.begin_htsize s.mf mode s.srcl
  have hipet := Finder.begin_ipet s.mf mode s.srcl
  rw [mode.setup_mf, State.beginCommand_mf, hipe] at hloop
  simp only [Config.litFin] at hloop
  have hmore : (s.beginCommand mode).mf.more = true := by
    rw [State.beginCommand_mf, Finder.begin_more, decide_eq_true_eq]
    omega
  rw [mode.setup_of_more hmore]
  refine TableSound.mono (limit := 17) ⟨?_, ?_, fun b hb hlt => ?_⟩ ?_
  · show mode.mask _ = mode.mask (s.mf.begin mode s.srcl).htsize.toNat
    rw [hsize]
  · show (s.mf.begin mode s.srcl).htsize.toNat = mode.tableBytes ((s.mf.begin mode s.srcl).ipe.toNat + 6)
    rw [hsize, hipe, Nat.sub_add_cancel (by omega)]
  · have hlt : b < mode.tableBytes s.srcl.toNat := hsize ▸ hlt
    exact BucketSound.initTable mode s.src hht hb (mode.bucket_end_le hb hlt)
  · show 17 ≤ mode.offsetLimit (s.mf.begin mode s.srcl)
    cases mode with
    | default =>
      have hip : (s.mf.begin .default s.srcl).ip.toNat = 16 := rfl
      rw [Mode.offsetLimit, hip, hipet]
      exact le_min (by decide) (by omega)
    | hi =>
      rw [Mode.offsetLimit, hipet]
      omega

/-! ### A pass of mode DEFAULT -/

/-- The hash step leaves the position's four bytes and the position as a sound new tuple (R180, R217). -/
theorem SearchBounds.hashed_tupleSound {m : Finder} {w : Writer} {cap : Word} (h : SearchBounds m w cap)
    (src : Memory) (hm : m.more = true) :
    TupleSound src (Mode.offsetLimit m .default) (BitVec.ofNat 32 (src.readLE m.ip.toNat 4)) m.ip :=
  ⟨h.ip_ge, lt_min (by omega) (m.more_iff.1 hm), rfl⟩

section
variable {limit : Int} {s : State} {hit : Slot} {x : Word}
  (hnew : TupleSound s.src limit s.mf.iw1 s.mf.ipo)
  (hkey : s.ht.htWord (bucketOf x s.mf.hmask) hit.keyWord = s.mf.iw1)
  (h : TableSound .default limit s)
include hnew h

theorem searchMiss_tableSound (x : Word) :
    TableSound .default limit (searchMiss s (bucketOf x s.mf.hmask)) :=
  { h.miss2 hnew x with }

include hkey

theorem searchMatch_tableSound :
    (searchMatch s (bucketOf x s.mf.hmask) hit).ended ∨
    TableSound .default limit (searchMatch s (bucketOf x s.mf.hmask) hit) := by
  simp only [searchMatch]
  split
  · exact .inl (encoderFault_ended _)
  · rename_i t hw
    right
    rw [writeBlk_frame hw]
    exact { h.hit2 hnew x s.mf.d.toNat hkey with }

theorem searchHit_tableSound (wp : Word) :
    (searchHit s (bucketOf x s.mf.hmask) hit wp).ended ∨
    TableSound .default limit (searchHit s (bucketOf x s.mf.hmask) hit wp) := by
  simp only [searchHit]
  split
  · exact .inr { h with }
  · split
    · exact .inr { h.refresh2 hnew x hkey with }
    · exact searchMatch_tableSound (s := s.setMf (s.mf.hitAt wp)) hnew hkey { h with }

end

/-- A pass keeps the table sound below the position after the cursor, or ends the command. -/
theorem searchPass_tableSound {limit : Int} {s : State} (h : TableSound .default limit s)
    (hnew : TupleSound s.src limit (BitVec.ofNat 32 (s.src.readLE s.mf.ip.toNat 4)) s.mf.ip) :
    (searchPass s).ended ∨ TableSound .default limit (searchPass s) := by
  have hhash : TableSound .default limit (hashStep s) := { h with }
  simp only [searchPass]
  split
  · exact .inr (searchMiss_tableSound hnew hhash _)
  · rename_i hit wp hprobe
    exact searchHit_tableSound hnew (probe2_some hprobe) hhash wp

/-- The cursor of mode DEFAULT does not go back over a pass, and the loop's end stays (R218, R220, R224). -/
theorem searchPass_cursor {s : State} (hok : DefaultOk s.mf s.bw s.cap) (hm : s.mf.more = true) :
    (searchPass s).ended ∨
    (s.mf.ip.toNat ≤ (searchPass s).mf.ip.toNat ∧ (searchPass s).mf.ipet = s.mf.ipet) := by
  have hlt := hok.search.ip_lt hm
  have hipe := hok.search.srcl_le
  simp only [Config.lenMax] at hipe
  rcases searchPass_cases s with ⟨b, heq⟩ | ⟨b, hit, wp, heq⟩ <;> rw [heq]
  · have hadv := missAdvance_le s.mf.rndb s.mf.ip.toNat s.mf.ipa.toNat (mavgOk_miss hok.mavg).1
    have hip := toNat_add_ofNat s.mf.ip
      (n := missAdvance (mavgMiss s.mf.mavg) s.mf.rndb s.mf.ip.toNat s.mf.ipa.toNat) (by omega)
    exact .inr ⟨(Nat.le_add_right _ _).trans_eq hip.symm, rfl⟩
  · rcases searchHit_cases (hashStep s) b hit wp with ⟨ht, heq⟩ | ⟨hd, heq⟩ <;> rw [heq]
    · have hip : (s.mf.ip + 1).toNat = s.mf.ip.toNat + 1 := toNat_succ_of_lt (y := s.mf.ipe) (by omega)
      exact .inr ⟨(Nat.le_succ _).trans_eq hip.symm, rfl⟩
    · rcases searchMatch_cases ((hashStep s).setMf ((hashStep s).mf.hitAt wp)) b hit with hend | ⟨t, ht, -, heq⟩
      · exact .inl hend
      · obtain ⟨-, hsum, -, -, hstop, -⟩ := extendHit_bounds s.src ((hashStep s).mf.hitAt wp) hd hlt
          hok.search.ipa_le_ip
        have hend : s.mf.ip.toNat + (extendHit s.src ((hashStep s).mf.hitAt wp)).fwd ≤ s.mf.ipe.toNat :=
          (Nat.add_le_add_left (by omega) _).trans hstop
        rw [heq]
        exact .inr ⟨(Nat.le_add_right _ _).trans_eq (toNat_ofNat_of_le hend).symm, rfl⟩

/-! ### A pass of mode HI -/

/-- The table and what it is sound for are in `t` as in `s`. -/
structure TableKept (s t : State) : Prop where
  src_eq : t.src = s.src
  ht_eq : t.ht = s.ht
  hmask_eq : t.mf.hmask = s.mf.hmask
  htsize_eq : t.mf.htsize = s.mf.htsize
  ipe_eq : t.mf.ipe = s.mf.ipe
  ipet_eq : t.mf.ipet = s.mf.ipet

theorem TableSound.kept {mode : Mode} {limit : Int} {s t : State} (h : TableSound mode limit s)
    (hk : TableKept s t) : TableSound mode limit t where
  hmask_eq := by rw [hk.hmask_eq, hk.htsize_eq]; exact h.hmask_eq
  htsize_eq := by rw [hk.htsize_eq, hk.ipe_eq]; exact h.htsize_eq
  bucket b hb hlt := by
    rw [hk.src_eq, hk.ht_eq]
    exact h.bucket b hb (hk.htsize_eq ▸ hlt)

theorem emitHi_ended_or_tableKept (s : State) (lc rc d ip : Nat) :
    (emitHi s lc rc d ip).ended ∨ TableKept s (emitHi s lc rc d ip) := by
  rcases emitHi_cases s lc rc d ip with hend | ⟨t, -, heq⟩
  · exact .inl hend
  · exact .inr (heq ▸ ⟨rfl, rfl, rfl, rfl, rfl, rfl⟩)

/-- The lazy selection does not touch the table. -/
theorem lazySelect_ended_or_tableKept (s : State) (lc rc d ip : Nat) :
    (lazySelect s lc rc d ip).ended ∨ TableKept s (lazySelect s lc rc d ip) := by
  rcases lazySelect_cases s lc rc d ip with ⟨-, heq⟩ | ⟨-, heq⟩ | ⟨-, -, heq⟩ | heq <;> rw [heq]
  · exact .inr ⟨rfl, rfl, rfl, rfl, rfl, rfl⟩
  · exact emitHi_ended_or_tableKept _ _ _ _ _
  · rcases emitPrevious_cases s rc d ip with hend | ⟨t, -, heq⟩
    · exact .inl hend
    · exact .inr (heq ▸ ⟨rfl, rfl, rfl, rfl, rfl, rfl⟩)
  · exact emitHi_ended_or_tableKept _ _ _ _ _

theorem searchHiMatch_ended_or_tableKept (s : State) (c : Candidate) :
    (searchHiMatch s c).ended ∨ TableKept s (searchHiMatch s c) := by
  rw [searchHiMatch_eq]
  exact (lazySelect_ended_or_tableKept _ _ _ _ _).imp_right fun hk => { hk with }

/-- HT after the probe of a pass: the position is inserted if no tuple of its bucket has the key (R199, R248). -/
theorem searchHiPass_inserts (s : State) :
    ∃ ht, (ht = s.ht ∨ ht = miss7 s.ht (bucketOf (hashStepHi s).mf.h s.mf.hmask)
        (BitVec.ofNat 32 (s.src.readLE s.mf.ip.toNat 4)) s.mf.ip) ∧
      ((searchHiPass s).ended ∨ TableKept (hashedHi s ht) (searchHiPass s)) := by
  simp only [searchHiPass]
  split
  · split
    · exact ⟨s.ht, .inl rfl, .inr ⟨rfl, rfl, rfl, rfl, rfl, rfl⟩⟩
    · exact ⟨_, .inr rfl, .inr ⟨rfl, rfl, rfl, rfl, rfl, rfl⟩⟩
  · rename_i c hc
    split
    · exact ⟨s.ht, .inl rfl, searchHiMatch_ended_or_tableKept (hashedHi s s.ht) c⟩
    · exact ⟨_, .inr rfl, searchHiMatch_ended_or_tableKept (hashedHi s (miss7 _ _ _ _)) c⟩

/-- A pass keeps the table sound below the loop's end, or ends the command. -/
theorem searchHiPass_tableSound {s : State} (h : TableSound .hi s.mf.ipet.toInt s)
    (hnew : TupleSound s.src s.mf.ipet.toInt (BitVec.ofNat 32 (s.src.readLE s.mf.ip.toNat 4)) s.mf.ip) :
    (searchHiPass s).ended ∨ TableSound .hi (searchHiPass s).mf.ipet.toInt (searchHiPass s) := by
  obtain ⟨ht, hht, hend | hk⟩ := searchHiPass_inserts s
  · exact .inl hend
  · have hhashed : TableSound .hi s.mf.ipet.toInt (hashedHi s ht) := by
      rcases hht with rfl | rfl
      · exact { h with }
      · exact { h.miss7 hnew (hashStepHi s).mf.h with }
    have hipet : (searchHiPass s).mf.ipet = s.mf.ipet := hk.ipet_eq
    rw [hipet]
    exact .inr (hhashed.kept hk)

/-! ### Every step of the engine -/

theorem State.searchOk.searchBounds {s : State} {mode : Mode} (h : s.searchOk) (hp : s.phase = mode.searchPhase) :
    SearchBounds s.mf s.bw s.cap := by
  cases mode with
  | default => exact ((State.searchOk_search hp).1 h).search
  | hi => exact ((State.searchOk_searchHi hp).1 h).search

/-- A pass keeps the dictionary of its mode sound, or ends the command. -/
theorem Mode.pass_tableSound (mode : Mode) {s : State} (hp : s.phase = mode.searchPhase) (hok : s.searchOk)
    (hm : s.mf.more = true) (h : TableSound mode (mode.offsetLimit s.mf) s) :
    (mode.pass s).ended ∨ TableSound mode (mode.offsetLimit (mode.pass s).mf) (mode.pass s) := by
  have hnew := (hok.searchBounds hp).hashed_tupleSound s.src hm
  cases mode with
  | default =>
    rcases searchPass_tableSound h hnew with hend | hsound
    · exact .inl hend
    · rcases searchPass_cursor ((State.searchOk_search hp).1 hok) hm with hend | ⟨hip, hipet⟩
      · exact .inl hend
      · have hcursor : (s.mf.ip.toNat : Int) + 1 ≤ (searchPass s).mf.ip.toNat + 1 := by omega
        exact .inr (hsound.mono (min_le_min hcursor (congrArg BitVec.toInt hipet).ge))
  | hi => exact searchHiPass_tableSound h { hnew with off_lt := s.mf.more_iff.1 hm }

/-- A step of the engine keeps the dictionary invariant of each mode: the start of a search establishes it, a pass
keeps it, and no other step leads to a search. -/
theorem engineStep_dictionarySound (mode : Mode) {s t : State} (hwf : s.memWf) (hok : s.searchOk)
    (h : s.dictionarySound mode) (he : engineStep s = .next t) : t.dictionarySound mode := by
  intro hp hloop
  rcases engineStep_searching he hp with ⟨ha, rfl⟩ | ⟨hs, hm, rfl⟩
  · exact mode.setup_dictionarySound hwf ha.srcl_ge hp hloop
  · have hb := hok.searchBounds hs
    have hlt := hb.ip_lt hm
    have hge := hb.ip_ge
    rcases mode.pass_tableSound hs hok hm (h hs (by simp only [Config.litFin]; omega)) with hend | hsound
    · exact absurd hp (hend.phase_ne mode)
    · exact hsound

/-- A step that is the engine's keeps the dictionary invariant of each mode. -/
theorem step_dictionarySound (mode : Mode) {s t : State} (hturn : s.engineNext = true) (hwf : s.memWf)
    (hok : s.searchOk) (h : s.dictionarySound mode) (hstep : step s = .next t) : t.dictionarySound mode := by
  rcases step_cases hstep with ⟨-, r, he⟩ | ⟨hno, -⟩
  · refine engineStep_dictionarySound (s := { s with hostScript := r }) mode hwf hok (fun hp hloop => ?_) he
    exact { h hp hloop with }
  · exact absurd hturn (Bool.eq_false_iff.1 hno)

end Sys2Proof.Machine

namespace Sys2Proof.DictionaryProofs

open Sys2Proof Sys2Proof.Machine

/-- Settles O53: COMPRESS fills the table with the tuple of position 16; a pass stores the hashed position, which lies
below the loop's end, with its own key, and the cursor does not go back. -/
theorem defaultDictionaryKept : Obligations.DefaultDictionaryKept := by
  unfold Obligations.DefaultDictionaryKept
  intro s t hturn hwf hok h hstep
  rw [State.dictionaryOk_iff] at h ⊢
  exact step_dictionarySound .default hturn hwf hok h hstep

/-- Settles O54: COMPRESS_HI fills the table likewise, with the head 0; a pass that inserts steps a legal head back and
stores the hashed position there with its own key. -/
theorem hiDictionaryKept : Obligations.HiDictionaryKept := by
  unfold Obligations.HiDictionaryKept
  intro s t hturn hwf hok h hstep
  rw [State.dictionaryHiOk_iff] at h ⊢
  exact step_dictionarySound .hi hturn hwf hok h hstep

end Sys2Proof.DictionaryProofs
end

section
/-! The statistic of mode DEFAULT: the three thresholds of the advance on a miss, its dither bit, and the range of the
running average (43_default_match_finder.md R221, R223, R224; 10_state.md R38). -/

namespace Sys2Proof.Machine

section
variable {mavg : Word} {rndb : BitVec 1} {ip ipa : Nat}

theorem dithers_iff : dithers mavg ip ipa = true ↔ mavg.toInt < 200 * 2 ^ 14 ∧ ip ≠ ipa := by
  simp only [dithers, Bool.and_eq_true, decide_eq_true_eq]
  exact Iff.rfl

/-! ### A miss that does not dither -/

theorem missAdvance_of_not_dithers (h : ¬ dithers mavg ip ipa = true) : missAdvance mavg rndb ip ipa = 1 := if_neg h

theorem missDither_of_not_dithers (h : ¬ dithers mavg ip ipa = true) : missDither mavg rndb ip ipa = rndb := if_neg h

/-! ### A miss that dithers, by the threshold below which the average lies -/

theorem missDither_of_dithers (h : dithers mavg ip ipa = true) : (missDither mavg rndb ip ipa).toNat = ip % 2 := by
  rw [missDither, if_pos h, BitVec.toNat_ofNat]

theorem missAdvance_of_dithers (h : dithers mavg ip ipa = true) :
    missAdvance mavg rndb ip ipa = 1 + rndb.toNat +
      if mavg.toInt < 130 * 2 ^ 14 then
        1 + if mavg.toInt < 100 * 2 ^ 14 then (100 - mavg.toInt / 2 ^ 14).toNat else 0
      else 0 := by
  rw [missAdvance, if_pos h, Int.shiftRight_eq_div_pow]
  rfl

theorem missAdvance_of_high (h : dithers mavg ip ipa = true) (hm : 130 * 2 ^ 14 ≤ mavg.toInt) :
    missAdvance mavg rndb ip ipa = 1 + rndb.toNat := by
  rw [missAdvance_of_dithers h, if_neg (Int.not_lt.mpr hm), Nat.add_zero]

theorem missAdvance_of_mid (h : dithers mavg ip ipa = true) (hl : 100 * 2 ^ 14 ≤ mavg.toInt)
    (hm : mavg.toInt < 130 * 2 ^ 14) : missAdvance mavg rndb ip ipa = 2 + rndb.toNat := by
  rw [missAdvance_of_dithers h, if_pos hm, if_neg (Int.not_lt.mpr hl)]
  omega

theorem missAdvance_of_low (h : dithers mavg ip ipa = true) (hl : mavg.toInt < 100 * 2 ^ 14) :
    (missAdvance mavg rndb ip ipa : Int) = 2 + rndb.toNat + (100 - mavg.toInt / 2 ^ 14) := by
  rw [missAdvance_of_dithers h, if_pos (by omega), if_pos hl]
  omega

/-- A miss moves the cursor. -/
theorem one_le_missAdvance : 1 ≤ missAdvance mavg rndb ip ipa := by
  unfold missAdvance
  split <;> omega

end

end Sys2Proof.Machine

namespace Sys2Proof.FinderProofs

open Sys2Proof Sys2Proof.Machine Sys2Proof.Claims

/-- Settles O43: within the range nothing wraps, and each update moves the average toward a value of the range. -/
theorem runningAverageUpdates : Obligations.RunningAverageUpdates := by
  unfold Obligations.RunningAverageUpdates
  intro mavg rc h0 h1 hrc
  obtain ⟨hlo, hhi⟩ := mavgOk_hit ⟨h0, h1⟩ hrc
  have hmiss := mavgMiss_toInt h0
  exact ⟨mavgHit_toInt ⟨h0, h1⟩ hrc, hmiss, hlo, hhi, by omega, by omega⟩

/-- Settles O44, by the thresholds that the average is below. -/
theorem missAdvanceDithers : Obligations.MissAdvanceDithers := by
  unfold Obligations.MissAdvanceDithers
  intro mavg rndb ip ipa h0 a r
  refine ⟨fun h => ?_, fun h => ?_, one_le_missAdvance, missAdvance_le rndb ip ipa h0⟩
  · have hd := dithers_iff.2 h
    exact ⟨missDither_of_dithers hd, missAdvance_of_high hd, missAdvance_of_mid hd, missAdvance_of_low hd⟩
  · have hd : ¬ dithers mavg ip ipa = true := fun hd => by
      obtain ⟨hlt, hne⟩ := dithers_iff.1 hd
      exact h.elim (Int.not_le.mpr hlt) hne
    exact ⟨missAdvance_of_not_dithers hd, missDither_of_not_dithers hd⟩

end Sys2Proof.FinderProofs
end

section
/-! A pass of the DEFAULT search as its probe decides it: the miss, the near and the far reject, the match
(43_default_match_finder.md R216 to R222). -/

namespace Sys2Proof.Machine

open Sys2Proof.Claims

/-- Where the loop goes on, the step is a pass (R216). -/
theorem step_of_searchPass {s : State} (hturn : undisturbed s) (hp : s.phase = .search)
    (hm : (s.mf.ip.toNat : Int) < s.mf.ipet.toInt) : step s = .next (searchPass s) := by
  have hmore : s.mf.more = true := s.mf.more_iff.2 hm
  rw [step_of_undisturbed hturn]
  simp only [engineStep, fetch, hp, hmore, if_true]

/-! ### The hash step (R217) -/

/-- MF's registers with the two words at the cursor, the cursor and the hash in them. -/
def Finder.hashed (m : Finder) (iw1 : Word) (iw2 : BitVec 16) : Finder :=
  { m with iw1 := iw1, iw2 := iw2, ipo := m.ip, h := hash iw1 (iw2.setWidth 32) }

/-- The hash step sets four registers of MF, by the two words it reads. -/
theorem exists_hashStep_eq (s : State) :
    ∃ iw1 iw2, BitVec.ofNat 32 (s.src.readLE s.mf.ip.toNat 4) = iw1 ∧
      BitVec.ofNat 16 (s.src.readLE (s.mf.ip.toNat + 4) 2) = iw2 ∧
      hashStep s = s.setMf (s.mf.hashed iw1 iw2) := ⟨_, _, rfl, rfl, rfl⟩

/-- The two bytes that a pass compares fill `iw2`, so that the hash is that of the two bytes (42_hash_dictionary.md
R180). -/
theorem hashStep_bucket (s : State) : bucketOf (hashStep s).mf.h (hashStep s).mf.hmask = bucketAt s := by
  have hlt : s.src.readLE (s.mf.ip.toNat + 4) 2 < 2 ^ 16 := s.src.readLE_lt _ 2
  have hwide : (BitVec.ofNat 16 (s.src.readLE (s.mf.ip.toNat + 4) 2)).setWidth 32 =
      BitVec.ofNat 32 (s.src.readLE (s.mf.ip.toNat + 4) 2) := by
    apply BitVec.eq_of_toNat_eq
    rw [BitVec.toNat_setWidth, BitVec.toNat_ofNat, BitVec.toNat_ofNat, Nat.mod_eq_of_lt hlt]
  exact congrArg (fun x => bucketOf (hash _ x) s.mf.hmask) hwide

/-! ### A hit, by its distance (R218) -/

/-- A hit nearer than 8 moves the cursor by one. -/
theorem searchHit_of_near {s : State} (b : Nat) (hit : Slot) {wp : Word} (hd : s.mf.ip.toNat - wp.toNat < 8) :
    searchHit s b hit wp = { s with mf := { s.mf.hitAt wp with ip := s.mf.ip + 1 } } := by
  simp only [searchHit, if_pos hd]
  rfl

/-- A hit at `WIN_LEN` or beyond refreshes its tuple too (R218; 42_hash_dictionary.md R188). -/
theorem searchHit_of_far {s : State} (b : Nat) (hit : Slot) {wp : Word} (hd : 8388608 ≤ s.mf.ip.toNat - wp.toNat) :
    searchHit s b hit wp = { s with
      ht := refresh2 s.ht b hit s.mf.ipo, mf := { s.mf.hitAt wp with ip := s.mf.ip + 1 } } := by
  have hnear : ¬ s.mf.ip.toNat - wp.toNat < 8 := by omega
  simp only [searchHit, if_neg hnear, Config.winLen, if_pos hd]
  rfl

theorem searchHit_of_match {s : State} (b : Nat) (hit : Slot) {wp : Word} (h8 : 8 ≤ s.mf.ip.toNat - wp.toNat)
    (hwin : s.mf.ip.toNat - wp.toNat < 8388608) :
    searchHit s b hit wp = searchMatch (s.setMf (s.mf.hitAt wp)) b hit := by
  simp only [searchHit, if_neg (Nat.not_lt.mpr h8), Config.winLen, if_neg (Nat.not_le.mpr hwin)]
  rfl

/-! ### The pass -/

/-- The probe of a pass looks into the bucket of the hashed position (R217; 42_hash_dictionary.md R185). -/
theorem hashStep_probe (s : State) :
    probe2 (hashStep s).ht (hashStep s).src (bucketAt s) (hashStep s).mf.iw1 (hashStep s).mf.iw2 = hitAt s := rfl

theorem searchPass_of_miss {s : State} (h : hitAt s = none) :
    searchPass s = searchMiss (hashStep s) (bucketAt s) := by
  simp only [searchPass, hashStep_bucket, hashStep_probe, h]

theorem searchPass_of_hit {s : State} {hit : Slot} {wp : Word} (h : hitAt s = some (hit, wp)) :
    searchPass s = searchHit (hashStep s) (bucketAt s) hit wp := by
  simp only [searchPass, hashStep_bucket, hashStep_probe, h]

section
variable {s : State} {hit : Slot} {wp iw1 : Word} {iw2 : BitVec 16} (h : hitAt s = some (hit, wp))
  (hhash : hashStep s = s.setMf (s.mf.hashed iw1 iw2))
include h hhash

theorem searchPass_of_near (hd : s.mf.ip.toNat - wp.toNat < 8) :
    searchPass s = { s with mf := { (s.mf.hashed iw1 iw2).hitAt wp with ip := s.mf.ip + 1 } } := by
  rw [searchPass_of_hit h, hhash, searchHit_of_near (s := s.setMf (s.mf.hashed iw1 iw2)) _ _ hd]
  rfl

theorem searchPass_of_far (hd : 8388608 ≤ s.mf.ip.toNat - wp.toNat) :
    searchPass s = { s with
      ht := refresh2 s.ht (bucketAt s) hit s.mf.ip
      mf := { (s.mf.hashed iw1 iw2).hitAt wp with ip := s.mf.ip + 1 } } := by
  rw [searchPass_of_hit h, hhash, searchHit_of_far (s := s.setMf (s.mf.hashed iw1 iw2)) _ _ hd]
  rfl

theorem searchPass_of_match (h8 : 8 ≤ s.mf.ip.toNat - wp.toNat) (hwin : s.mf.ip.toNat - wp.toNat < 8388608) :
    searchPass s = searchMatch (s.setMf ((s.mf.hashed iw1 iw2).hitAt wp)) (bucketAt s) hit := by
  rw [searchPass_of_hit h, hhash, searchHit_of_match (s := s.setMf (s.mf.hashed iw1 iw2)) _ _ h8 hwin]
  rfl

end

end Sys2Proof.Machine

namespace Sys2Proof.FinderProofs

open Sys2Proof Sys2Proof.Machine Sys2Proof.Claims

/-- Settles O45: the step is a pass, and the pass is the miss or one of the two rejects. -/
theorem defaultPassWithoutMatch : Obligations.DefaultPassWithoutMatch := by
  unfold Obligations.DefaultPassWithoutMatch
  intro s hturn hp hm hip hmavg
  have hstep := step_of_searchPass hturn hp hm
  have hnext : (s.mf.ip + 1).toNat = s.mf.ip.toNat + 1 := toNat_add_ofNat s.mf.ip (n := 1) (by omega)
  obtain ⟨iw1, iw2, hiw1, hiw2, hhash⟩ := exists_hashStep_eq s
  refine ⟨fun hmiss => ?_, fun hit wp hhit _ hnear => ?_, fun hit wp hhit hfar => ?_⟩
  · have hmavg' : 0 ≤ (mavgMiss s.mf.mavg).toInt := by
      rw [mavgMiss_toInt hmavg]
      omega
    have hle := missAdvance_le s.mf.rndb s.mf.ip.toNat s.mf.ipa.toNat hmavg'
    have hadv := toNat_add_ofNat s.mf.ip
      (n := missAdvance (mavgMiss s.mf.mavg) s.mf.rndb s.mf.ip.toNat s.mf.ipa.toNat) (by omega)
    rw [searchPass_of_miss hmiss, hhash] at hstep
    exact ⟨_, hstep, rfl, ⟨hiw1.symm, hiw2.symm, rfl, rfl⟩, rfl, rfl, rfl, hadv, rfl⟩
  · rw [searchPass_of_near hhit hhash hnear] at hstep
    exact ⟨_, hstep, rfl, ⟨hiw1.symm, hiw2.symm, rfl, rfl⟩, rfl, rfl, rfl, hnext, rfl⟩
  · rw [searchPass_of_far hhit hhash hfar] at hstep
    exact ⟨_, hstep, rfl, ⟨hiw1.symm, hiw2.symm, rfl, rfl⟩, rfl, rfl, rfl, hnext, rfl⟩

end Sys2Proof.FinderProofs
end

section
/-! The end of a search in one step: the pending candidate of mode HI, the terminal block, and the `EncoderFault` at
either place (43_default_match_finder.md R225; 44_hi_ratio_match_finder.md R256; 41_block_writer.md R160, R162). -/

namespace Sys2Proof.Machine

open Sys2Proof.Claims

/-! ### The step -/

/-- At the loop's end the DEFAULT search ends (R225). -/
theorem step_of_loopEnd {s : State} (hturn : undisturbed s) (hp : s.phase = .search)
    (hm : s.mf.ipet.toInt ≤ s.mf.ip.toNat) : step s = .next (searchEnd s) := by
  have hmore : s.mf.more = false := decide_eq_false (Int.not_lt.mpr hm)
  rw [step_of_undisturbed hturn]
  simp only [engineStep, fetch, hp, hmore, Bool.false_eq_true, if_false]

/-- At the loop's end the HI search ends (R256). -/
theorem step_of_loopEndHi {s : State} (hturn : undisturbed s) (hp : s.phase = .searchHi)
    (hm : s.mf.ipet.toInt ≤ s.mf.ip.toNat) : step s = .next (searchHiEnd s) := by
  have hmore : s.mf.more = false := decide_eq_false (Int.not_lt.mpr hm)
  rw [step_of_undisturbed hturn]
  simp only [engineStep, fetch, hp, hmore, Bool.false_eq_true, if_false]

/-! ### The end of the input and the pending candidate before it -/

/-- The end of the input, with other registers of MF: the terminal block does not look at them (R225). -/
theorem searchEnd_of_some {s v : State} (m : Finder)
    (h : finalize s (m.ipe.toNat - m.ipa.toNat + 6) m.ipa.toNat = some v) :
    searchEnd (s.setMf m) = compressDone (v.setMf m) := by
  have hfin := finalize_setMf s m (m.ipe.toNat - m.ipa.toNat + 6) m.ipa.toNat
  rw [h] at hfin
  simp only [searchEnd, State.setMf_mf, Config.litFin, hfin, Option.map_some]

theorem searchEnd_of_none {s : State} (m : Finder)
    (h : finalize s (m.ipe.toNat - m.ipa.toNat + 6) m.ipa.toNat = none) :
    searchEnd (s.setMf m) = encoderFault (s.setMf m) := by
  have hfin := finalize_setMf s m (m.ipe.toNat - m.ipa.toNat + 6) m.ipa.toNat
  rw [h] at hfin
  simp only [searchEnd, State.setMf_mf, Config.litFin, hfin, Option.map_none]

theorem searchHiEnd_of_not_pending {s : State} (hpv : s.mf.pv = false) : searchHiEnd s = searchEnd s :=
  if_neg (by rw [hpv]; exact Bool.false_ne_true)

section
variable {s : State} (hpv : s.mf.pv = true)
include hpv

/-- A pending candidate is written, and the end of the input follows behind it (R256). -/
theorem searchHiEnd_of_some {u : State}
    (h : writeBlk s (s.mf.pip.toNat - s.mf.ipa.toNat) s.mf.prc.toNat s.mf.pd.toNat s.mf.ipa.toNat = some u) :
    searchHiEnd s = searchEnd (u.setMf s.mf.pastPending) := by
  have hmf : u.mf = s.mf := by rw [writeBlk_frame h]
  simp only [searchHiEnd, if_pos hpv, h, hmf]
  rfl

theorem searchHiEnd_of_none
    (h : writeBlk s (s.mf.pip.toNat - s.mf.ipa.toNat) s.mf.prc.toNat s.mf.pd.toNat s.mf.ipa.toNat = none) :
    searchHiEnd s = encoderFault s := by
  simp only [searchHiEnd, if_pos hpv, h]

end

/-! ### What an end of the command leaves -/

@[simp] theorem encoderFault_mf (s : State) : (encoderFault s).mf = s.mf := State.endCommand_mf _ _ _

/-- An `EncoderFault` frees the bytes of DST below the capacity and ends the command, whatever MF holds (R162). -/
theorem encoderFaulted_encoderFault {s : State} (m : Finder) (hclean : s.spoiled = false) :
    encoderFaulted s (encoderFault (s.setMf m)) := by
  rw [encoderFault_clean (s.setMf m) hclean]
  exact ⟨rfl, sameOutside_fill _ _⟩

theorem compressDone_clean {v : State} (m : Finder) (hclean : v.spoiled = false) :
    compressDone (v.setMf m) =
      { v with mf := m, result := v.bw.op, written := v.bw.op, status := statusDone, phase := .idle } :=
  State.endCommand_clean (v.setMf m) v.bw.op v.bw.op hclean

/-- The end of the input keeps MF's registers. -/
theorem searchEnd_mf (s : State) : (searchEnd s).mf = s.mf := by
  rcases searchEnd_cases s with heq | ⟨v, hfin, -, heq⟩ <;> rw [heq]
  · exact encoderFault_mf s
  · rw [finalize_frame hfin]
    exact State.endCommand_mf _ _ _

/-- The terminal block reaches from the anchor to the end of the input; a run that no block can carry is an
`EncoderFault` (R225). -/
theorem searchEnd_endsWithRun {s : State} (m : Finder) (hclean : s.spoiled = false) :
    endsWithRun s (searchEnd (s.setMf m)) m.ipa.toNat (m.ipe.toNat - m.ipa.toNat + 6) := by
  refine ⟨fun hrun => ?_, fun hrun => ?_⟩
  · rcases writerLiteral_cases s 0 (m.ipe.toNat - m.ipa.toNat + 6) m.ipa.toNat with ⟨-, hlong⟩ | ⟨bs, -, -, hfin⟩
    · omega
    · refine ⟨_, hfin, ?_⟩
      rw [searchEnd_of_some m hfin, compressDone_clean (v := (s.putBytes bs).putLiterals _ _) m hclean]
  · rw [searchEnd_of_none m (writerLiteral_eq_none _ _ _ hrun)]
    exact encoderFaulted_encoderFault m hclean

end Sys2Proof.Machine

namespace Sys2Proof.FinderProofs

open Sys2Proof Sys2Proof.Machine Sys2Proof.Claims

/-- Settles O30: without a pending candidate the step is the end of the input; with one it is written first, and the
end of the input follows behind it. -/
theorem searchEndsWithTheTerminalBlock : Obligations.SearchEndsWithTheTerminalBlock := by
  unfold Obligations.SearchEndsWithTheTerminalBlock
  intro s hturn hclean hm m plc stop
  refine ⟨fun hp => ?_, fun hp hpv hstop => ?_⟩
  · have hstep : step s = .next (searchEnd s) := by
      rcases hp with hp | ⟨hp, hpv⟩
      · exact step_of_loopEnd hturn hp hm
      · rw [step_of_loopEndHi hturn hp hm, searchHiEnd_of_not_pending hpv]
    exact ⟨_, hstep, searchEnd_mf s, searchEnd_endsWithRun m hclean⟩
  · have hstep := step_of_loopEndHi hturn hp hm
    cases hw : writeBlk s plc m.prc.toNat m.pd.toNat m.ipa.toNat with
    | none =>
      rw [searchHiEnd_of_none hpv hw] at hstep
      exact ⟨_, hstep, nofun, fun _ => ⟨encoderFault_mf s, encoderFaulted_encoderFault m hclean⟩⟩
    | some u =>
      rw [searchHiEnd_of_some hpv hw] at hstep
      have huclean : u.spoiled = false := by rw [writeBlk_frame hw]; exact hclean
      have hipa : m.pastPending.ipa.toNat = stop := Nat.mod_eq_of_lt hstop
      have hend := searchEnd_endsWithRun m.pastPending huclean
      rw [hipa] at hend
      refine ⟨_, hstep, ?_, nofun⟩
      rintro _ ⟨⟩
      rw [searchEnd_mf]
      exact ⟨rfl, hipa, hend⟩

end Sys2Proof.FinderProofs
end

section
/-! The start of both searches (43_default_match_finder.md R210 to R213; 44_hi_ratio_match_finder.md R240, R242;
10_state.md R36). -/

namespace Sys2Proof.Machine

open Sys2Proof.Claims

/-- A set-up whose loop will not run leaves the table alone (R213, R242). -/
theorem Mode.setup_of_not_more (mode : Mode) {s : State} (h : ¬ s.mf.more = true) :
    mode.setup s = { writerStart s mode.mref with phase := mode.searchPhase } := by
  cases mode with
  | default => exact if_neg h
  | hi => exact if_neg h

/-- A compression of 16 accepted bytes or more is the set-up of its mode's search. -/
theorem exec_compress_setup {s : State} (mode : Mode) (hr : compressRejects s (mode.boundOf s.srcl.toNat) = false)
    (hn : 16 ≤ s.srcl.toNat) : exec mode.command s = .next (mode.setup (s.beginCommand mode)) := by
  have hno : ¬ compressRejects s (mode.boundOf s.srcl.toNat) = true := by rw [hr]; exact Bool.false_ne_true
  cases mode with
  | default => exact (if_neg hno).trans (if_neg (Nat.not_lt.mpr hn))
  | hi => exact (if_neg hno).trans (if_neg (Nat.not_lt.mpr hn))

/-- The start of both searches: the table is initialised exactly if the loop will run. -/
theorem searchStarts_command (mode : Mode) :
    searchStarts mode.command (startByte mode.mref) mode.mref mode.boundFormula mode.searchPhase mode.tableCap mode.mask
      (fun ht src size => mode.initTable ht src size) := by
  intro s h16 hs hb hd n
  have hr := compressRejects_eq_false mode (by omega) hs hb hd
  have hstep := exec_compress_setup mode hr h16
  have hmore : (s.beginCommand mode).mf.more = decide (32 ≤ n) := Finder.begin_more s.mf mode s.srcl
  have hemits := emits_writerStart (s := s.beginCommand mode) mode.mref rfl
  have hread : (writerStart (s.beginCommand mode) mode.mref).dst.read 0 = startByte mode.mref :=
    (writerStart_read _ _ 0).trans (if_pos rfl)
  by_cases hloop : 32 ≤ n
  · rw [mode.setup_of_more (hmore.trans (decide_eq_true hloop))] at hstep
    exact ⟨_, hstep, rfl, hread, hemits.outside, unitsStart_of_begin mode rfl rfl, rfl, tableStarts_begin _ _ _,
      fun hlt => absurd hloop (Nat.not_le.mpr hlt), fun _ => by rw [← mode.tableBytes_eq]; rfl⟩
  · rw [mode.setup_of_not_more (by rw [hmore, decide_eq_true_eq]; exact hloop)] at hstep
    exact ⟨_, hstep, rfl, hread, hemits.outside, unitsStart_of_begin mode rfl rfl, rfl, tableStarts_begin _ _ _,
      fun _ => rfl, fun hle => absurd hle hloop⟩

end Sys2Proof.Machine

namespace Sys2Proof.FinderProofs

open Sys2Proof Sys2Proof.Machine Sys2Proof.Claims

/-- Settles O29: the two commands run the same set-up with the constants and the table of their modes. -/
theorem compressionStartsItsSearch : Obligations.CompressionStartsItsSearch := by
  unfold Obligations.CompressionStartsItsSearch
  exact ⟨searchStarts_command .default, searchStarts_command .hi⟩

end Sys2Proof.FinderProofs
end

section
/-! The match of the DEFAULT search: a hit's six bytes stand at the position of its tuple, both extensions compare bytes
one by one, and the limits keep the match behind the anchor and within the input (43_default_match_finder.md R218 to
R222, R226; 42_hash_dictionary.md R185, R189). -/

namespace Sys2Proof.Machine

open Sys2Proof.Claims

/-! ### The six bytes of a hit -/

/-- A wide read determines its bytes. -/
theorem Memory.read_eq_of_readLE_eq {m : Memory} {a b n : Nat} (h : m.readLE a n = m.readLE b n) :
    ∀ j, j < n → m.read (a + j) = m.read (b + j) := by
  induction n generalizing a b with
  | zero => exact fun j hj => absurd hj (Nat.not_lt_zero j)
  | succ n ih =>
    have ha := (m.read a).isLt
    have hb := (m.read b).isLt
    simp only [Memory.readLE] at h
    have hfirst : m.read a = m.read b := BitVec.eq_of_toNat_eq (by omega)
    have hrest : m.readLE (a + 1) n = m.readLE (b + 1) n := by omega
    intro j hj
    cases j with
    | zero => exact hfirst
    | succ j =>
      have hnext := ih hrest j (by omega)
      rwa [Nat.add_right_comm a 1 j, Nat.add_right_comm b 1 j] at hnext

/-- What the probe finds is a tuple of the bucket that matches, and its position (R185). -/
theorem probe2_tuple {ht src : Memory} {b : Nat} {iw1 wp : Word} {iw2 : BitVec 16} {hit : Slot}
    (h : probe2 ht src b iw1 iw2 = some (hit, wp)) :
    ht.htWord b hit.keyWord = iw1 ∧ ht.htWord b (hit.keyWord + 1) = wp ∧
    src.readLE (wp.toNat + 4) 2 = iw2.toNat := by
  have hkey := probe2_some h
  unfold probe2 at h
  split at h
  next hm =>
    cases h
    exact ⟨hkey, rfl, ((tupleMatches_iff ht src b .one iw1 iw2).1 hm).right⟩
  next =>
    split at h
    next hm =>
      cases h
      exact ⟨hkey, rfl, ((tupleMatches_iff ht src b .two iw1 iw2).1 hm).right⟩
    next => cases h

/-- The key of a sound tuple that hits is the four bytes at its position, and the probe has compared the next two: all
six stand at the cursor (R185, R189). -/
theorem hitAt_sixBytes {s : State} {hit : Slot} {wp : Word} {limit : Int} (hsound : TableSound .default limit s)
    (h : hitAt s = some (hit, wp)) :
    16 ≤ wp.toNat ∧ ∀ j, j < 6 → s.src.read (s.mf.ip.toNat + j) = s.src.read (wp.toNat + j) := by
  obtain ⟨hkey, hoff, htwo⟩ := probe2_tuple h
  obtain ⟨halign, hin⟩ := hsound.bucketOf_mem
    (hash (BitVec.ofNat 32 (s.src.readLE s.mf.ip.toNat 4)) (BitVec.ofNat 32 (s.src.readLE (s.mf.ip.toNat + 4) 2)))
  obtain ⟨hone, hsecond⟩ := bucketSound_default_iff.1 (hsound.bucket _ halign hin)
  have htuple : TupleSound s.src limit (BitVec.ofNat 32 (s.src.readLE s.mf.ip.toNat 4)) wp := by
    rw [← hkey, ← hoff]
    cases hit with
    | one => exact hone
    | two => exact hsecond
  have hlt : ∀ a, s.src.readLE a 4 < 2 ^ 32 := fun a => s.src.readLE_lt a 4
  have hfour : s.src.readLE s.mf.ip.toNat 4 = s.src.readLE wp.toNat 4 := by
    have hnat := congrArg BitVec.toNat htuple.key_eq
    rwa [BitVec.toNat_ofNat, BitVec.toNat_ofNat, Nat.mod_eq_of_lt (hlt _), Nat.mod_eq_of_lt (hlt _)] at hnat
  have hlt2 : s.src.readLE (s.mf.ip.toNat + 4) 2 < 2 ^ 16 := s.src.readLE_lt _ 2
  rw [BitVec.toNat_ofNat, Nat.mod_eq_of_lt hlt2] at htwo
  refine ⟨htuple.off_ge, fun j hj => ?_⟩
  by_cases hj4 : j < 4
  · exact Memory.read_eq_of_readLE_eq hfour j hj4
  · obtain ⟨i, rfl⟩ := Nat.exists_eq_add_of_le (Nat.not_lt.mp hj4)
    have hnext := Memory.read_eq_of_readLE_eq htwo.symm i (by omega)
    rwa [Nat.add_assoc, Nat.add_assoc] at hnext

/-! ### The extension -/

/-- The extension of a hit, as R218 and R219 write it. -/
theorem extendHit_hitAt (src : Memory) (m : Finder) (wp : Word) :
    let ip := m.ip.toNat
    let ml := min (ip - wp.toNat) (min 530 (m.ipe.toNat - ip))
    let fwd := 6 + src.fwd (ip + 6) (wp.toNat + 6) (ml - 6)
    (extendHit src (m.hitAt wp)).fwd = fwd ∧
    (extendHit src (m.hitAt wp)).bmc =
      if m.ipa.toNat < ip then src.rev ip wp.toNat (min (ip - m.ipa.toNat) (min 16 (ml - fwd))) else 0 := by
  intro ip ml fwd
  simp only [extendHit, Finder.hitAt_d, backExtend, Nat.sub_pos_iff_lt, min_assoc]
  exact ⟨rfl, rfl⟩

/-- Both extensions compare byte by byte: the bytes from the cursor on, of which six are known to agree, and those
before it. -/
theorem extendHit_bytes {src : Memory} {m : Finder}
    (hsix : ∀ j, j < 6 → src.read (m.ip.toNat + j) = src.read (m.wp.toNat + j)) :
    (∀ j, j < (extendHit src m).fwd → src.read (m.ip.toNat + j) = src.read (m.wp.toNat + j)) ∧
    (∀ j, j < (extendHit src m).bmc → src.read (m.ip.toNat - 1 - j) = src.read (m.wp.toNat - 1 - j)) := by
  refine ⟨fun j hj => ?_, fun j hj => ?_⟩
  · by_cases hj6 : j < 6
    · exact hsix j hj6
    · obtain ⟨i, rfl⟩ := Nat.exists_eq_add_of_le (Nat.not_lt.mp hj6)
      have hrun := (src.fwd_isRunLength (m.ip.toNat + 6) (m.wp.toNat + 6) _).holds i (Nat.lt_of_add_lt_add_left hj)
      rwa [Nat.add_assoc, Nat.add_assoc] at hrun
  · simp only [extendHit, backExtend] at hj
    split at hj
    · exact (src.rev_isRunLength m.ip.toNat m.wp.toNat _).holds j hj
    · exact absurd hj (Nat.not_lt_zero j)

/-- An extended hit is a real match that the block writer takes (R226; 41_block_writer.md R151). -/
theorem extendHit_writable {src : Memory} {m : Finder} (hm : m.ip.toNat + 9 < m.ipe.toNat)
    (hipa : m.ipa.toNat ≤ m.ip.toNat) (hd : m.d.toNat = m.ip.toNat - m.wp.toNat) (h8 : 8 ≤ m.d.toNat)
    (hwin : m.d.toNat < 8388608) (hwp : 16 ≤ m.wp.toNat)
    (hsix : ∀ j, j < 6 → src.read (m.ip.toNat + j) = src.read (m.wp.toNat + j)) :
    WritableMatch src 6 (m.ip.toNat - m.ipa.toNat - (extendHit src m).bmc)
      ((extendHit src m).fwd + (extendHit src m).bmc) m.d.toNat m.ipa.toNat m.ipe.toNat := by
  obtain ⟨hfwd, hsum, hml, hmld, hstop, hbmc, h16⟩ := extendHit_bounds src m h8 hm hipa
  obtain ⟨hforward, hbackward⟩ := extendHit_bytes hsix
  generalize extendHit src m = e at *
  have hstart : m.ipa.toNat + (m.ip.toNat - m.ipa.toNat - e.bmc) = m.ip.toNat - e.bmc := by omega
  constructor
  case bytes_eq =>
    intro j hj
    rw [hstart, hd]
    by_cases hback : j < e.bmc
    · have hbyte := hbackward (e.bmc - 1 - j) (by omega)
      convert hbyte using 2 <;> omega
    · have hbyte := hforward (j - e.bmc) (by omega)
      convert hbyte using 2 <;> omega
  all_goals omega

/-- A hit of a sound dictionary at a legal distance extends to a real match (R218, R226). -/
theorem hitAt_writable {s : State} {hit : Slot} {wp : Word} {limit : Int} (hb : SearchBounds s.mf s.bw s.cap)
    (hmore : s.mf.more = true) (hsound : TableSound .default limit s) (h : hitAt s = some (hit, wp))
    (h8 : 8 ≤ s.mf.ip.toNat - wp.toNat) (hwin : s.mf.ip.toNat - wp.toNat < 8388608) :
    WritableMatch s.src 6 (s.mf.ip.toNat - s.mf.ipa.toNat - (extendHit s.src (s.mf.hitAt wp)).bmc)
      ((extendHit s.src (s.mf.hitAt wp)).fwd + (extendHit s.src (s.mf.hitAt wp)).bmc) (s.mf.ip.toNat - wp.toNat)
      s.mf.ipa.toNat s.mf.ipe.toNat := by
  obtain ⟨hwp, hsix⟩ := hitAt_sixBytes hsound h
  have hd := s.mf.hitAt_d wp
  have hreal := extendHit_writable (m := s.mf.hitAt wp) (hb.ip_lt hmore) hb.ipa_le_ip hd (hd ▸ h8) (hd ▸ hwin) hwp hsix
  rwa [hd] at hreal

/-! ### The emission -/

section
variable {s : State} {m : Finder} {e : Extension} (b : Nat) (hit : Slot) (he : extendHit s.src m = e)
include he

/-- The blocks of a match are written, and the search goes on behind it (R220 to R222). -/
theorem searchMatch_of_some {u : State}
    (h : writeBlk s (m.ip.toNat - m.ipa.toNat - e.bmc) (e.fwd + e.bmc) m.d.toNat m.ipa.toNat = some u) :
    searchMatch (s.setMf m) b hit =
      { s with dst := u.dst, bw := u.bw, ht := hit2 s.ht b hit m.iw1 m.ipo m.d.toNat, mf := m.afterMatch e } := by
  have hw : writeBlk ((s.setMf m).setMf (m.extended e)) (m.ip.toNat - m.ipa.toNat - e.bmc) (e.fwd + e.bmc)
      m.d.toNat m.ipa.toNat = some (u.setMf (m.extended e)) :=
    (writeBlk_setMf s _ _ _ _ _).trans (congrArg _ h)
  simp only [searchMatch, State.setMf_mf, State.setMf_src, he, hw]
  rw [writeBlk_frame h]
  rfl

/-- A literal run that no block can carry ends the command, with the extension in MF's registers (R162). -/
theorem searchMatch_of_none
    (h : writeBlk s (m.ip.toNat - m.ipa.toNat - e.bmc) (e.fwd + e.bmc) m.d.toNat m.ipa.toNat = none) :
    searchMatch (s.setMf m) b hit = encoderFault (s.setMf (m.extended e)) := by
  have hw : writeBlk ((s.setMf m).setMf (m.extended e)) (m.ip.toNat - m.ipa.toNat - e.bmc) (e.fwd + e.bmc)
      m.d.toNat m.ipa.toNat = none := (writeBlk_setMf s _ _ _ _ _).trans (congrArg _ h)
  simp only [searchMatch, State.setMf_mf, State.setMf_src, he, hw]
  rfl

end

end Sys2Proof.Machine

namespace Sys2Proof.FinderProofs

open Sys2Proof Sys2Proof.Machine Sys2Proof.Claims

/-- Settles O46: the dictionary invariant makes the six bytes of a hit real and the two scanners the rest; `WRITE_BLK`
either takes the match or is refused, and the pass ends accordingly. -/
theorem emittedMatchesAreReal : Obligations.EmittedMatchesAreReal := by
  unfold Obligations.EmittedMatchesAreReal
  intro s hit wp hturn hp hok hdict hm hhit ip ipa d ml fwd bmc lc rc h8 hwin
  have hb := ((State.searchOk_search hp).1 hok).search
  have hlong : 32 ≤ s.mf.ipe.toNat + Config.litFin := by
    have hlt := hb.ip_lt (s.mf.more_iff.2 hm)
    have hge := hb.ip_ge
    simp only [Config.litFin]
    omega
  have hsound := State.dictionaryOk_iff.1 hdict hp hlong
  obtain ⟨hfwd, hbmc⟩ : (extendHit s.src (s.mf.hitAt wp)).fwd = fwd ∧ (extendHit s.src (s.mf.hitAt wp)).bmc = bmc :=
    extendHit_hitAt s.src s.mf wp
  have hmatch : WritableMatch s.src 6 lc rc d ipa s.mf.ipe.toNat := by
    have hreal := hitAt_writable hb (s.mf.more_iff.2 hm) hsound hhit h8 hwin
    rwa [hfwd, hbmc] at hreal
  have hstop : ip + fwd ≤ s.mf.ipe.toNat := by
    have hle := hmatch.stop_le
    omega
  refine ⟨hmatch, ?_⟩
  obtain ⟨iw1, iw2, hiw1, hiw2, hhash⟩ := exists_hashStep_eq s
  have hstep := step_of_searchPass hturn hp hm
  rw [searchPass_of_match hhit hhash h8 hwin] at hstep
  have he : extendHit s.src ((s.mf.hashed iw1 iw2).hitAt wp) = extendHit s.src (s.mf.hitAt wp) := rfl
  generalize extendHit s.src (s.mf.hitAt wp) = e at hfwd hbmc he
  have hd : ((s.mf.hashed iw1 iw2).hitAt wp).d.toNat = d := Finder.hitAt_d _ wp
  have hrc : e.fwd + e.bmc = rc := by rw [hfwd, hbmc]
  have hblk : writeBlk s (s.mf.ip.toNat - s.mf.ipa.toNat - e.bmc) (e.fwd + e.bmc)
      ((s.mf.hashed iw1 iw2).hitAt wp).d.toNat s.mf.ipa.toNat = writeBlk s lc rc d ipa := by rw [hrc, hbmc, hd]
  cases hw : writeBlk s lc rc d ipa with
  | none =>
    rw [searchMatch_of_none (s := s) _ hit he (hblk.trans hw)] at hstep
    have hip : (BitVec.ofNat 32 (s.mf.ip.toNat - e.bmc)).toNat = ip - bmc := by
      rw [hbmc]
      exact toNat_ofNat_of_le (x := s.mf.ip) (Nat.sub_le _ _)
    refine ⟨_, hstep, nofun, fun _ => ⟨encoderFault_phase _, encoderFault_status _,
      encoderFaulted_encoderFault _, ?_⟩, ?_⟩
    all_goals simp only [hashedAt, statisticKept, limitsKept, pendingKept, encoderFault_mf]
    · exact ⟨⟨hiw1.symm, hiw2.symm, rfl, rfl⟩, hip, rfl, rfl, rfl⟩
    · exact ⟨⟨rfl, rfl, rfl, rfl⟩, rfl, rfl, rfl, rfl⟩
  | some u =>
    rw [searchMatch_of_some (s := s) _ hit he (hblk.trans hw)] at hstep
    have hip : (BitVec.ofNat 32 (s.mf.ip.toNat + e.fwd)).toNat = ip + fwd := by
      rw [hfwd]
      exact toNat_ofNat_of_le hstop
    refine ⟨_, hstep, ?_, nofun, ⟨rfl, rfl, rfl, rfl⟩, rfl, rfl, rfl, rfl⟩
    rintro _ ⟨⟩
    exact ⟨rfl, ⟨hiw1.symm, hiw2.symm, rfl, rfl⟩, by rw [hd]; rfl, rfl, hip, congrArg (mavgHit s.mf.mavg) hrc, rfl⟩

end Sys2Proof.FinderProofs
end

section
/-! The DEFAULT search ends: every pass moves the cursor on, and behind the loop's end one step is left
(43_default_match_finder.md R216, R225, R228). -/

namespace Sys2Proof.Machine

open Sys2Proof.Claims

/-- A pass leaves the loop's end and the host's accesses alone and moves the cursor on (R218, R220, R224). -/
structure CursorAdvances (s t : State) : Prop where
  ip_lt : s.mf.ip.toNat < t.mf.ip.toNat
  ipet_eq : t.mf.ipet = s.mf.ipet
  script_eq : t.hostScript = s.hostScript

theorem searchMiss_advances {s : State} (b : Nat) (hok : DefaultOk s.mf s.bw s.cap) (hm : s.mf.more = true) :
    CursorAdvances s (searchMiss s b) := by
  have hlt := hok.search.ip_lt hm
  have hipe := hok.search.srcl_le
  simp only [Config.lenMax] at hipe
  have hle := missAdvance_le s.mf.rndb s.mf.ip.toNat s.mf.ipa.toNat (mavgOk_miss hok.mavg).1
  have hip := toNat_add_ofNat s.mf.ip
    (n := missAdvance (mavgMiss s.mf.mavg) s.mf.rndb s.mf.ip.toNat s.mf.ipa.toNat) (by omega)
  exact ⟨(Nat.lt_add_of_pos_right one_le_missAdvance).trans_eq hip.symm, rfl, rfl⟩

theorem searchMatch_advances {s : State} (b : Nat) (hit : Slot) (hok : DefaultOk s.mf s.bw s.cap)
    (hm : s.mf.more = true) (h8 : 8 ≤ s.mf.d.toNat) :
    (searchMatch s b hit).ended ∨ CursorAdvances s (searchMatch s b hit) := by
  rcases searchMatch_cases s b hit with hend | ⟨t, ht, -, heq⟩
  · exact .inl hend
  · obtain ⟨hfwd, hsum, -, -, hstop, -⟩ := extendHit_bounds s.src s.mf h8 (hok.search.ip_lt hm) hok.search.ipa_le_ip
    have hip : (BitVec.ofNat 32 (s.mf.ip.toNat + (extendHit s.src s.mf).fwd)).toNat = _ :=
      toNat_ofNat_of_le (x := s.mf.ipe) (by omega)
    rw [heq]
    exact .inr ⟨(Nat.lt_add_of_pos_right (by omega)).trans_eq hip.symm, rfl, rfl⟩

/-- Every pass that does not end the command moves the cursor on: a miss by its advance, a reject by one, a match past
its forward length. -/
theorem searchPass_advances {s : State} (hok : DefaultOk s.mf s.bw s.cap) (hm : s.mf.more = true) :
    (searchPass s).ended ∨ CursorAdvances s (searchPass s) := by
  obtain ⟨iw1, iw2, -, -, hhash⟩ := exists_hashStep_eq s
  have hhashed : DefaultOk (s.mf.hashed iw1 iw2) s.bw s.cap :=
    hok.cursorMoved (n := 0) rfl rfl rfl rfl hok.search.ip_le hok.mavg
  rcases searchPass_cases s with ⟨b, heq⟩ | ⟨b, hit, wp, heq⟩ <;> rw [heq, hhash]
  · exact .inr { searchMiss_advances (s := s.setMf (s.mf.hashed iw1 iw2)) b hhashed hm with }
  · rcases searchHit_cases (s.setMf (s.mf.hashed iw1 iw2)) b hit wp with ⟨ht, heq⟩ | ⟨h8, heq⟩ <;> rw [heq]
    · have hlt := hok.search.ip_lt hm
      have hip : (s.mf.ip + 1).toNat = s.mf.ip.toNat + 1 := toNat_succ_of_lt (y := s.mf.ipe) (by omega)
      exact .inr ⟨(Nat.lt_succ_self _).trans_eq hip.symm, rfl, rfl⟩
    · exact (searchMatch_advances (s := s.setMf ((s.mf.hashed iw1 iw2).hitAt wp)) b hit
        (hhashed.cursorMoved (n := 0) rfl rfl rfl rfl hhashed.search.ip_le hhashed.mavg) hm h8).imp_right
          fun ha => { ha with }

theorem run_of_loopEnd {s : State} (hturn : undisturbed s) (hp : s.phase = .search)
    (hm : s.mf.ipet.toInt ≤ s.mf.ip.toNat) : core.run 1 s = .next (searchEnd s) :=
  run_succ_of_step 0 (step_of_loopEnd hturn hp hm)

/-- A search whose cursor is at most `n` before the loop's end is over after at most `n + 1` steps. -/
theorem exists_run_ended {n : Nat} {s : State} (hturn : undisturbed s) (hp : s.phase = .search) (hok : s.searchOk)
    (hn : s.mf.ipet.toInt ≤ s.mf.ip.toNat + n) : ∃ k t, k ≤ n + 1 ∧ core.run k s = .next t ∧ t.ended := by
  induction n generalizing s with
  | zero => exact ⟨1, _, le_rfl, run_of_loopEnd hturn hp (by omega), searchEnd_ended s⟩
  | succ n ih =>
    by_cases hm : (s.mf.ip.toNat : Int) < s.mf.ipet.toInt
    · have hmore := s.mf.more_iff.2 hm
      have hrun := fun k => run_succ_of_step k (step_of_searchPass hturn hp hm)
      rcases searchPass_ended_or_goesOn s with hend | ⟨hphase, -⟩
      · exact ⟨1, _, by omega, hrun 0, hend⟩
      · rcases searchPass_advances ((State.searchOk_search hp).1 hok) hmore with hend | ha
        · exact ⟨1, _, by omega, hrun 0, hend⟩
        · have hip := ha.ip_lt
          obtain ⟨k, t, hk, hkrun, hend⟩ := ih (ha.script_eq.trans hturn) (hphase.trans hp)
            (searchPass_searchOk hp hok hmore) (by rw [ha.ipet_eq]; omega)
          exact ⟨k + 1, t, by omega, (hrun k).trans hkrun, hend⟩
    · exact ⟨1, _, by omega, run_of_loopEnd hturn hp (by omega), searchEnd_ended s⟩

end Sys2Proof.Machine

namespace Sys2Proof.FinderProofs

open Sys2Proof Sys2Proof.Machine Sys2Proof.Claims

/-- Settles O51: the cursor starts at 16 or behind it, rises with every pass, and the loop ends 15 before the end of the
input. -/
theorem defaultSearchEnds : Obligations.DefaultSearchEnds := by
  unfold Obligations.DefaultSearchEnds
  intro s hturn hp hok
  have hb := ((State.searchOk_search hp).1 hok).search
  have hipet := hb.ipet_eq
  obtain ⟨k, t, hk, hrun, hidle, hdone⟩ := exists_run_ended (n := s.mf.ipe.toNat) hturn hp hok (by omega)
  exact ⟨k, t, by omega, hrun, hidle, hdone⟩

end Sys2Proof.FinderProofs
end

section
/-! The probe of mode HI: what one tuple does to the best candidate so far, what the seven of a bucket leave, and the
bytes of a candidate (44_hi_ratio_match_finder.md R248, R249; 42_hash_dictionary.md R198, R200). -/

namespace Sys2Proof.Machine

open Sys2Proof.Claims

/-! ### One tuple -/

section
variable (src : Memory) (ip ipe : Nat) (iw1 key : Word) (off : Nat) (p : Probe)

theorem four_le_candidateAt_rc : 4 ≤ (candidateAt src ip ipe off).rc := Nat.le_add_right 4 _

/-- A candidate beats the length of the best one so far, taken as 0 without one, exactly if it beats the best one if
there is one: its four bytes alone make it long enough for any distance. -/
theorem Probe.brc_lt_iff :
    p.brc + farCost (ip - off) < (candidateAt src ip ipe off).rc ↔
      ∀ c, p.best = some c → c.rc + farByte (ip - off) < (candidateAt src ip ipe off).rc := by
  have hfour := four_le_candidateAt_rc src ip ipe off
  have hfar : farCost (ip - off) ≤ 1 := by
    unfold farCost
    split <;> decide
  cases hbest : p.best with
  | none => simp only [Probe.brc, hbest, reduceCtorEq, false_implies, implies_true, iff_true]; omega
  | some c => simp only [Probe.brc, hbest, Option.some.injEq, forall_eq']; rfl

/-- A tuple that gives a candidate puts it in the place of a shorter one (R248). -/
theorem probeTuple_of_gives (h : givesCandidate ip iw1 key off) :
    probeTuple src ip ipe iw1 key off p =
      if p.brc + farCost (ip - off) < (candidateAt src ip ipe off).rc
      then ⟨true, some (candidateAt src ip ipe off)⟩ else ⟨true, p.best⟩ := by
  obtain ⟨hkey, hnear, hfar⟩ := h
  have hlegal : ¬ (ip < off + 8 ∨ Config.winLen ≤ ip - off) := by
    simp only [Config.winLen]
    omega
  simp only [probeTuple, candidateAt, if_neg (not_not_intro hkey), if_neg hlegal, Config.mlenHi, min_assoc] <;> rfl

theorem probeTuple_best_of_not_gives (h : ¬ givesCandidate ip iw1 key off) :
    (probeTuple src ip ipe iw1 key off p).best = p.best := by
  unfold probeTuple
  split
  next => rfl
  next hkey =>
    have hillegal : ip < off + 8 ∨ Config.winLen ≤ ip - off := by
      by_contra hlegal
      simp only [Config.winLen, not_or, not_lt, not_le] at hlegal
      exact h ⟨not_not.1 hkey, hlegal⟩
    rw [if_pos hillegal]

variable {src ip ipe iw1 key off p}

theorem probeTuple_best_of_longer (h : givesCandidate ip iw1 key off)
    (hlonger : ∀ c, p.best = some c → c.rc + farByte (ip - off) < (candidateAt src ip ipe off).rc) :
    (probeTuple src ip ipe iw1 key off p).best = some (candidateAt src ip ipe off) := by
  rw [probeTuple_of_gives src ip ipe iw1 key off p h, if_pos ((Probe.brc_lt_iff src ip ipe off p).2 hlonger)]

theorem probeTuple_best_of_not_longer
    (h : ¬ (givesCandidate ip iw1 key off ∧
      ∀ c, p.best = some c → c.rc + farByte (ip - off) < (candidateAt src ip ipe off).rc)) :
    (probeTuple src ip ipe iw1 key off p).best = p.best := by
  by_cases hg : givesCandidate ip iw1 key off
  · rw [probeTuple_of_gives src ip ipe iw1 key off p hg,
      if_neg fun hlt => h ⟨hg, (Probe.brc_lt_iff src ip ipe off p).1 hlt⟩]
  · exact probeTuple_best_of_not_gives src ip ipe iw1 key off p hg

theorem probeTuple_keyed_iff :
    (probeTuple src ip ipe iw1 key off p).keyed = true ↔ p.keyed = true ∨ key = iw1 := by
  unfold probeTuple
  split
  next hkey => simp only [hkey, or_false]
  next hkey =>
    simp only [not_not.1 hkey, or_true, iff_true]
    repeat' split
    all_goals rfl

end

/-! ### The tuples of a bucket, in their order -/

/-- `best` is what the rule of R248 leaves of the tuples `l`, visited in this order: nothing if none gives a
candidate, else one that no tuple before it equals and none after it beats, up to the byte a far one must gain. -/
structure Chosen (gives : Nat → Prop) (cand : Nat → Candidate) (l : List Nat) (best : Option Candidate) : Prop where
  none_iff : best = none ↔ ∀ ti, ti ∈ l → ¬ gives ti
  place : ∀ c, best = some c → ∃ pre ti post, l = pre ++ ti :: post ∧ gives ti ∧ c = cand ti ∧
    (∀ tj, tj ∈ pre → gives tj → (cand tj).rc + farByte (cand ti).d < (cand ti).rc + farByte (cand tj).d) ∧
    (∀ tj, tj ∈ post → gives tj → (cand tj).rc ≤ (cand ti).rc + farByte (cand tj).d)

section
variable {gives : Nat → Prop} {cand : Nat → Candidate} {l : List Nat} {best : Option Candidate} {ti : Nat}

theorem Chosen.nil : Chosen gives cand [] none :=
  ⟨⟨fun _ _ h => absurd h List.not_mem_nil, fun _ => rfl⟩, nofun⟩

/-- No candidate visited is longer than the chosen one but for its own far byte. -/
theorem Chosen.rc_le {c : Candidate} (h : Chosen gives cand l best) (hc : best = some c) {tj : Nat} (hj : tj ∈ l)
    (hg : gives tj) : (cand tj).rc ≤ c.rc + farByte (cand tj).d := by
  obtain ⟨pre, ti, post, rfl, -, rfl, hpre, hpost⟩ := h.place c hc
  rcases List.mem_append.1 hj with hj | hj
  · have hlt := hpre tj hj hg
    omega
  · rcases List.mem_cons.1 hj with rfl | hj
    · exact Nat.le_add_right _ _
    · exact hpost tj hj hg

/-- A longer candidate takes the place of the chosen one: it beats all visited before. -/
theorem Chosen.replaced (h : Chosen gives cand l best) (hg : gives ti)
    (hlonger : ∀ c, best = some c → c.rc + farByte (cand ti).d < (cand ti).rc) :
    Chosen gives cand (l ++ [ti]) (some (cand ti)) where
  none_iff := ⟨nofun, fun hno => absurd hg (hno ti (List.mem_append_right l List.mem_cons_self))⟩
  place := by
    rintro _ ⟨⟩
    refine ⟨l, ti, [], rfl, hg, rfl, fun tj hj hgj => ?_, fun _ hj => absurd hj List.not_mem_nil⟩
    cases hbest : best with
    | none => exact absurd hgj (h.none_iff.1 hbest tj hj)
    | some c =>
      have hle := h.rc_le hbest hj hgj
      have hlt := hlonger c hbest
      omega

/-- A tuple that gives no longer candidate leaves the chosen one in its place. -/
theorem Chosen.kept (h : Chosen gives cand l best)
    (hno : ¬ (gives ti ∧ ∀ c, best = some c → c.rc + farByte (cand ti).d < (cand ti).rc)) :
    Chosen gives cand (l ++ [ti]) best where
  none_iff := by
    simp only [List.mem_append, List.mem_singleton, or_imp, forall_and, forall_eq, ← h.none_iff, iff_self_and]
    rintro rfl hg
    exact hno ⟨hg, nofun⟩
  place c hc := by
    obtain ⟨pre, tk, post, rfl, hg, rfl, hpre, hpost⟩ := h.place c hc
    refine ⟨pre, tk, post ++ [ti], List.append_assoc _ _ _, hg, rfl, hpre, fun tj hj hgj => ?_⟩
    rcases List.mem_append.1 hj with hj | hj
    · exact hpost tj hj hgj
    · obtain rfl := List.mem_singleton.1 hj
      refine Nat.not_lt.1 fun hlt => hno ⟨hgj, fun c hc' => ?_⟩
      cases hc.symm.trans hc'
      exact hlt

end

/-! ### The probe -/

/-- The tuple `ti` of a bucket gives a candidate at the position `ip` (R248). -/
def givesAt (ht : Memory) (b ip : Nat) (iw1 : Word) (ti : Nat) : Prop :=
  givesCandidate ip iw1 (ht.htWord b ti) (ht.htWord b (ti + 1)).toNat

/-- The candidate of the tuple `ti` of a bucket. -/
def tupleCandidate (ht src : Memory) (b ip ipe ti : Nat) : Candidate :=
  candidateAt src ip ipe (ht.htWord b (ti + 1)).toNat

section
variable (ht src : Memory) (b ip ipe : Nat) (iw1 : Word)

/-- The tuples of `l`, probed in this order (R198). -/
def probeList (l : List Nat) : Probe :=
  l.foldl (fun p ti => probeTuple src ip ipe iw1 (ht.htWord b ti) (ht.htWord b (ti + 1)).toNat p)
    { keyed := false, best := none }

theorem probe7_eq_probeList : probe7 ht src b ip ipe iw1 = probeList ht src b ip ipe iw1 (visitOrder ht b) := rfl

theorem probeList_append_singleton (l : List Nat) (ti : Nat) :
    probeList ht src b ip ipe iw1 (l ++ [ti]) =
      probeTuple src ip ipe iw1 (ht.htWord b ti) (ht.htWord b (ti + 1)).toNat
        (probeList ht src b ip ipe iw1 l) := List.foldl_concat ..

theorem probeList_chosen (l : List Nat) :
    Chosen (givesAt ht b ip iw1) (tupleCandidate ht src b ip ipe) l (probeList ht src b ip ipe iw1 l).best := by
  induction l using List.reverseRecOn with
  | nil => exact Chosen.nil
  | append_singleton l ti ih =>
    rw [probeList_append_singleton]
    by_cases hlonger : givesAt ht b ip iw1 ti ∧ ∀ c, (probeList ht src b ip ipe iw1 l).best = some c →
        c.rc + farByte (tupleCandidate ht src b ip ipe ti).d < (tupleCandidate ht src b ip ipe ti).rc
    · obtain ⟨hgives, hlonger⟩ := hlonger
      rw [probeTuple_best_of_longer hgives hlonger]
      exact ih.replaced hgives hlonger
    · rw [probeTuple_best_of_not_longer hlonger]
      exact ih.kept hlonger

theorem probeList_keyed_iff (l : List Nat) :
    (probeList ht src b ip ipe iw1 l).keyed = true ↔ ∃ ti, ti ∈ l ∧ ht.htWord b ti = iw1 := by
  induction l using List.reverseRecOn with
  | nil => exact ⟨nofun, fun ⟨_, hti, _⟩ => absurd hti List.not_mem_nil⟩
  | append_singleton l ti ih =>
    rw [probeList_append_singleton, probeTuple_keyed_iff, ih]
    simp only [List.mem_append, List.mem_singleton, or_and_right, exists_or, exists_eq_left]

end

/-- The rejection test of R249. -/
theorem accepted_eq_some_iff {p : Probe} {c : Candidate} :
    p.accepted = some c ↔ p.best = some c ∧ 5 + farByte c.d ≤ c.rc := by
  refine ⟨accepted_some, fun ⟨hbest, hlong⟩ => ?_⟩
  simp only [Probe.accepted, hbest]
  exact if_neg (Nat.not_lt.mpr hlong)

/-! ### The bytes of a candidate -/

/-- Equal keys are equal bytes (R180). -/
theorem Memory.read_eq_of_fourBytes_eq {m : Memory} {a b : Nat}
    (h : BitVec.ofNat 32 (m.readLE a 4) = BitVec.ofNat 32 (m.readLE b 4)) :
    ∀ j, j < 4 → m.read (a + j) = m.read (b + j) := by
  have hlt : ∀ a, m.readLE a 4 < 2 ^ 32 := fun a => m.readLE_lt a 4
  have hnat := congrArg BitVec.toNat h
  rw [BitVec.toNat_ofNat, BitVec.toNat_ofNat, Nat.mod_eq_of_lt (hlt _), Nat.mod_eq_of_lt (hlt _)] at hnat
  exact Memory.read_eq_of_readLE_eq hnat

/-- Behind the four bytes of the key the scanner has compared the rest of a candidate (R248). -/
theorem candidateAt_bytes {src : Memory} {ip ipe off : Nat}
    (hfour : ∀ j, j < 4 → src.read (ip + j) = src.read (off + j)) :
    ∀ j, j < (candidateAt src ip ipe off).rc → src.read (ip + j) = src.read (off + j) := by
  intro j hj
  by_cases hj4 : j < 4
  · exact hfour j hj4
  · obtain ⟨i, rfl⟩ := Nat.exists_eq_add_of_le (Nat.not_lt.mp hj4)
    have hrun := (src.fwd_isRunLength (ip + 4) (off + 4) _).holds i (Nat.lt_of_add_lt_add_left hj)
    rwa [Nat.add_assoc, Nat.add_assoc] at hrun

/-- In a bucket whose keys are the bytes at their offsets the best candidate is real (R200, R248). -/
theorem probe7_best_bytes {ht src : Memory} {b ip ipe : Nat} {c : Candidate}
    (hkeys : ∀ ti, ti ∈ visitOrder ht b →
      ht.htWord b ti = BitVec.ofNat 32 (src.readLE (ht.htWord b (ti + 1)).toNat 4))
    (hbest : (probe7 ht src b ip ipe (BitVec.ofNat 32 (src.readLE ip 4))).best = some c) :
    ∀ j, j < c.rc → src.read (ip + j) = src.read (c.wp + j) := by
  obtain ⟨pre, ti, post, horder, ⟨hkey, -⟩, rfl, -⟩ :=
    (probeList_chosen ht src b ip ipe _ (visitOrder ht b)).place c hbest
  have hmem : ti ∈ visitOrder ht b := horder ▸ List.mem_append_right pre List.mem_cons_self
  exact candidateAt_bytes (Memory.read_eq_of_fourBytes_eq (hkey.symm.trans (hkeys ti hmem)))

end Sys2Proof.Machine

namespace Sys2Proof.FinderHiProofs

open Sys2Proof Sys2Proof.Machine Sys2Proof.Claims

/-- Settles O47: each tuple replaces the best candidate so far or leaves it, and induction over the tuples visited
carries the choice through the bucket. -/
theorem hiProbeChoosesARealCandidate : Obligations.HiProbeChoosesARealCandidate := by
  unfold Obligations.HiProbeChoosesARealCandidate
  intro ht src b ip ipe hip hkeys iw1 off gives cand far p
  have hchosen := probeList_chosen ht src b ip ipe iw1 (visitOrder ht b)
  refine ⟨fun ti q => ⟨fun ⟨hgives, hlonger⟩ => ?_, fun hno => ?_⟩, probeList_keyed_iff ht src b ip ipe iw1 _,
    hchosen.none_iff, fun c => accepted_eq_some_iff, fun c hbest => ?_⟩
  · exact probeTuple_best_of_longer hgives hlonger
  · exact probeTuple_best_of_not_longer hno
  · have hb := probe7_best_bounds hip hbest
    have hback : c.wp ≤ ip := by
      have hd := hb.d_eq
      have h8 := hb.d_ge
      omega
    exact ⟨hb.d_eq, hback, hb.d_ge, hb.d_lt, hb.rc_ge, hb.rc_le, hb.ml_le_d, hb.ml_le, hb.stop_le,
      probe7_best_bytes hkeys hbest, hchosen.place c hbest⟩

end Sys2Proof.FinderHiProofs
end

section
/-! The lazy selection of mode HI: the estimated cost of a block, the two emissions with both answers of `WRITE_BLK`,
and the four outcomes (44_hi_ratio_match_finder.md R251 to R256; 41_block_writer.md R162). -/

namespace Sys2Proof.Machine

open Sys2Proof.Claims

/-! ### The estimated cost (R251) -/

/-- The cost of a block whose offset takes a second byte from `2^sh` on and a third from `2^(sh + 8)` on. -/
def blockCostAt (d lc sh : Nat) : Nat :=
  lc + (if 0 < lc then 1 else 0) + (if 15 < lc then 1 else 0) + 2 +
    (if 2 ^ sh ≤ d then 1 else 0) + (if 2 ^ (sh + 8) ≤ d then 1 else 0)

theorem blockCost_eq_blockCostAt (w : Writer) (d lc : Nat) :
    blockCost w d lc = blockCostAt d lc (10 + (if w.csh = 0 then 0 else 3) + (if 0 < lc then 2 else 0)) := rfl

/-- The writer's pending carry adds three bits to the shift, literals before the match two. -/
theorem blockCost_shift (w : Writer) (lc : Nat) :
    10 + (if w.csh = 0 then 0 else 3) + (if 0 < lc then 2 else 0) =
      10 + 3 * (if w.csh ≠ 0 then 1 else 0) + 2 * (if 0 < lc then 1 else 0) := by
  by_cases hcsh : w.csh = 0
  · rw [if_pos hcsh, if_neg (not_not_intro hcsh)]
    split <;> rfl
  · rw [if_neg hcsh, if_pos hcsh]
    split <;> rfl

/-! ### The registers of MF that an emission or a hold sets (R252, R255, R256) -/

/-- What every selection keeps in MF, whatever it decides. -/
def selectionKept (m m' : Finder) : Prop := limitsKept m m' ∧ statisticKept m m'

theorem selectionKept_refl (m : Finder) : selectionKept m m := ⟨⟨rfl, rfl, rfl, rfl⟩, rfl, rfl⟩

theorem selectionKept_past (m : Finder) (lc rc d ip stop : Nat) :
    selectionKept m ((m.emitting lc rc d ip).past stop) := ⟨⟨rfl, rfl, rfl, rfl⟩, rfl, rfl⟩

theorem selectionKept_emitting (m : Finder) (lc rc d ip : Nat) : selectionKept m (m.emitting lc rc d ip) :=
  ⟨⟨rfl, rfl, rfl, rfl⟩, rfl, rfl⟩

theorem selectionKept_hold (m : Finder) (rc d ip : Nat) : selectionKept m (m.hold rc d ip) :=
  ⟨⟨rfl, rfl, rfl, rfl⟩, rfl, rfl⟩

theorem selectionKept_pastPending (m : Finder) (rc d ip : Nat) : selectionKept m (m.pastPending.hold rc d ip) :=
  ⟨⟨rfl, rfl, rfl, rfl⟩, rfl, rfl⟩

/-- The candidate `(rc, d)` at `ip` is pending, and the search goes on behind the hashed position `ipo`. -/
def Finder.holds (m : Finder) (ipo : Word) (rc d ip : Nat) : Prop :=
  m.pv = true ∧ m.prc.toNat = rc ∧ m.pd.toNat = d ∧ m.pip.toNat = ip ∧ m.ip.toNat = ipo.toNat + 1

/-- Numbers that fit their registers are held as they are. -/
theorem Finder.hold_holds (m : Finder) {rc d ip : Nat} (hrc : rc < 2 ^ 10) (hd : d < 2 ^ 23) (hip : ip < 2 ^ 32)
    (hipo : m.ipo.toNat + 1 < 2 ^ 32) : (m.hold rc d ip).holds m.ipo rc d ip :=
  ⟨rfl, Nat.mod_eq_of_lt hrc, Nat.mod_eq_of_lt hd, Nat.mod_eq_of_lt hip, toNat_add_ofNat m.ipo hipo⟩

/-! ### The two emissions -/

section
variable {s : State}

/-- The emission that ends a pass: the blocks are written, the cursor and the anchor past the match (R256). -/
theorem emitHi_of_some {u : State} {lc rc d : Nat} (ip : Nat) (h : writeBlk s lc rc d s.mf.ipa.toNat = some u) :
    emitHi s lc rc d ip = u.setMf ((s.mf.emitting lc rc d ip).past (ip + rc)) := by
  simp only [emitHi, writeBlk_setMf, State.setMf_mf, h, Option.map_some]
  rfl

theorem emitHi_of_none {lc rc d : Nat} (ip : Nat) (h : writeBlk s lc rc d s.mf.ipa.toNat = none) :
    emitHi s lc rc d ip = encoderFault (s.setMf (s.mf.emitting lc rc d ip)) := by
  simp only [emitHi, writeBlk_setMf, State.setMf_mf, h, Option.map_none]
  rfl

/-- The emission of the pending candidate: the anchor past it and the current one held (R255). -/
theorem emitPrevious_of_some {u : State} (rc d ip : Nat)
    (h : writeBlk s (s.mf.pip.toNat - s.mf.ipa.toNat) s.mf.prc.toNat s.mf.pd.toNat s.mf.ipa.toNat = some u) :
    emitPrevious s rc d ip = u.setMf (s.mf.pastPending.hold rc d ip) := by
  have hmf : u.mf = s.mf := by rw [writeBlk_frame h]
  simp only [emitPrevious, h, hmf]
  rfl

theorem emitPrevious_of_none (rc d ip : Nat)
    (h : writeBlk s (s.mf.pip.toNat - s.mf.ipa.toNat) s.mf.prc.toNat s.mf.pd.toNat s.mf.ipa.toNat = none) :
    emitPrevious s rc d ip = encoderFault s := by
  simp only [emitPrevious, h]

end

theorem emitHi_selectionKept (s : State) (lc rc d ip : Nat) : selectionKept s.mf (emitHi s lc rc d ip).mf := by
  cases hw : writeBlk s lc rc d s.mf.ipa.toNat with
  | none =>
    rw [emitHi_of_none ip hw, encoderFault_mf]
    exact selectionKept_emitting s.mf lc rc d ip
  | some u =>
    rw [emitHi_of_some ip hw]
    exact selectionKept_past s.mf lc rc d ip (ip + rc)

theorem emitPrevious_selectionKept (s : State) (rc d ip : Nat) : selectionKept s.mf (emitPrevious s rc d ip).mf := by
  cases hw : writeBlk s (s.mf.pip.toNat - s.mf.ipa.toNat) s.mf.prc.toNat s.mf.pd.toNat s.mf.ipa.toNat with
  | none =>
    rw [emitPrevious_of_none rc d ip hw, encoderFault_mf]
    exact selectionKept_refl s.mf
  | some u =>
    rw [emitPrevious_of_some rc d ip hw]
    exact selectionKept_pastPending s.mf rc d ip

/-! ### What an emission leaves -/

/-- The command has ended with `DONE` and, if the host did not spoil it, in an `EncoderFault` (R162). -/
def endsFaulted (s t : State) : Prop := t.phase = .idle ∧ t.status = 2 ∧ (s.spoiled = false → encoderFaulted s t)

theorem encoderFault_endsFaulted (s : State) (m : Finder) : endsFaulted s (encoderFault (s.setMf m)) :=
  ⟨encoderFault_phase _, encoderFault_status _, encoderFaulted_encoderFault m⟩

/-- From `s` to `t` a match is written or the command ends in an `EncoderFault`: if it is written, only MF differs from
what `WRITE_BLK` leaves, and `after` says what MF holds. -/
def emitsMatch (s t : State) (lc rc d : Nat) (after : Finder → Prop) : Prop :=
  (∀ u, writeBlk s lc rc d s.mf.ipa.toNat = some u → t = { u with mf := t.mf } ∧ after t.mf) ∧
  (writeBlk s lc rc d s.mf.ipa.toNat = none → endsFaulted s t)

/-- The cursor and the anchor are at `stop` and nothing is pending (R256). -/
def Finder.isPast (stop : Nat) (m : Finder) : Prop := m.pv = false ∧ m.ip = m.ipa ∧ m.ip.toNat = stop

theorem emitHi_emitsMatch (s : State) (lc d : Nat) {rc ip : Nat} (h : ip + rc < 2 ^ 32) :
    emitsMatch s (emitHi s lc rc d ip) lc rc d (Finder.isPast (ip + rc)) := by
  refine ⟨fun u hw => ?_, fun hw => ?_⟩
  · rw [emitHi_of_some ip hw]
    exact ⟨rfl, rfl, rfl, Nat.mod_eq_of_lt h⟩
  · rw [emitHi_of_none ip hw]
    exact encoderFault_endsFaulted s _

theorem emitPrevious_emitsMatch (s : State) {rc d ip : Nat} (hrc : rc < 2 ^ 10) (hd : d < 2 ^ 23) (hip : ip < 2 ^ 32)
    (hipo : s.mf.ipo.toNat + 1 < 2 ^ 32) (hstop : s.mf.pip.toNat + s.mf.prc.toNat < 2 ^ 32) :
    emitsMatch s (emitPrevious s rc d ip) (s.mf.pip.toNat - s.mf.ipa.toNat) s.mf.prc.toNat s.mf.pd.toNat
      fun m => m.holds s.mf.ipo rc d ip ∧ m.ipa.toNat = s.mf.pip.toNat + s.mf.prc.toNat := by
  refine ⟨fun u hw => ?_, fun hw => ?_⟩
  · rw [emitPrevious_of_some rc d ip hw]
    exact ⟨rfl, s.mf.pastPending.hold_holds hrc hd hip hipo, Nat.mod_eq_of_lt hstop⟩
  · rw [emitPrevious_of_none rc d ip hw]
    exact encoderFault_endsFaulted s s.mf

/-! ### The selection (R252 to R255) -/

theorem previousWins_iff (s : State) (lc rc d : Nat) :
    previousWins s lc rc d = true ↔
      rc * blockCost s.bw s.mf.pd.toNat (s.mf.pip.toNat - s.mf.ipa.toNat) <
        s.mf.prc.toNat * blockCost s.bw d lc := decide_eq_true_iff

section
variable {s : State} {lc rc d : Nat} (ip : Nat)

theorem lazySelect_of_not_pending (lc : Nat) (rc d : Nat) (hpv : s.mf.pv = false) :
    lazySelect s lc rc d ip = s.setMf (s.mf.hold rc d ip) := if_pos hpv

variable (hpv : s.mf.pv = true)
include hpv

theorem lazySelect_of_pending :
    lazySelect s lc rc d ip =
      if previousWins s lc rc d then
        if ip < s.mf.pip.toNat + s.mf.prc.toNat then
          emitHi s (s.mf.pip.toNat - s.mf.ipa.toNat) s.mf.prc.toNat s.mf.pd.toNat s.mf.pip.toNat
        else emitPrevious s rc d ip
      else emitHi s lc rc d ip := if_neg (by rw [hpv]; decide)

/-- The pending candidate wins and overlaps the current one (R254). -/
theorem lazySelect_of_overlap (hwins : previousWins s lc rc d = true)
    (hover : ip < s.mf.pip.toNat + s.mf.prc.toNat) :
    lazySelect s lc rc d ip =
      emitHi s (s.mf.pip.toNat - s.mf.ipa.toNat) s.mf.prc.toNat s.mf.pd.toNat s.mf.pip.toNat := by
  rw [lazySelect_of_pending ip hpv, if_pos hwins, if_pos hover]

/-- It wins and ends before the current one (R255). -/
theorem lazySelect_of_apart (hwins : previousWins s lc rc d = true)
    (hapart : s.mf.pip.toNat + s.mf.prc.toNat ≤ ip) : lazySelect s lc rc d ip = emitPrevious s rc d ip := by
  rw [lazySelect_of_pending ip hpv, if_pos hwins, if_neg (Nat.not_lt.mpr hapart)]

/-- It loses (R256). -/
theorem lazySelect_of_lost (hlost : ¬ previousWins s lc rc d = true) :
    lazySelect s lc rc d ip = emitHi s lc rc d ip := by
  rw [lazySelect_of_pending ip hpv, if_neg hlost]

end

theorem lazySelect_selectionKept (s : State) (lc rc d ip : Nat) :
    selectionKept s.mf (lazySelect s lc rc d ip).mf := by
  rcases lazySelect_cases s lc rc d ip with ⟨-, heq⟩ | ⟨-, heq⟩ | ⟨-, -, heq⟩ | heq <;> rw [heq]
  · exact selectionKept_hold s.mf rc d ip
  · exact emitHi_selectionKept _ _ _ _ _
  · exact emitPrevious_selectionKept _ _ _ _
  · exact emitHi_selectionKept _ _ _ _ _

end Sys2Proof.Machine

namespace Sys2Proof.FinderHiProofs

open Sys2Proof Sys2Proof.Machine Sys2Proof.Claims

/-- Settles O48: the model's shift is the rule's sum of weighted flags. -/
theorem blockCostIsAsEstimated : Obligations.BlockCostIsAsEstimated := by
  unfold Obligations.BlockCostIsAsEstimated
  intro w d lc sh
  exact congrArg (blockCostAt d lc) (blockCost_shift w lc)

/-- Settles O49: each outcome is a hold or one of the two emissions, with both answers of `WRITE_BLK`. -/
theorem lazySelectionChooses : Obligations.LazySelectionChooses := by
  unfold Obligations.LazySelectionChooses
  intro s lc rc d ip hrc hd hip hipo hpend m t plc wins held ended
  have hstart : ip < 2 ^ 32 := by omega
  refine ⟨fun hpv => ?_, fun hpv hwins hover => ?_, fun hpv hwins hapart => ?_, fun hpv hlost => ?_,
    lazySelect_selectionKept s lc rc d ip⟩
  · have heq : t = s.setMf (m.hold rc d ip) := lazySelect_of_not_pending ip lc rc d hpv
    have hheld : t.mf.holds m.ipo rc d ip := heq ▸ m.hold_holds hrc hd hstart hipo
    exact ⟨heq ▸ rfl, hheld, heq ▸ rfl⟩
  · have heq : t = emitHi s plc m.prc.toNat m.pd.toNat m.pip.toNat :=
      lazySelect_of_overlap ip hpv ((previousWins_iff s lc rc d).2 hwins) hover
    have hemits : emitsMatch s t plc m.prc.toNat m.pd.toNat (Finder.isPast (m.pip.toNat + m.prc.toNat)) :=
      heq ▸ emitHi_emitsMatch s plc m.pd.toNat (hpend hpv)
    exact hemits
  · have heq : t = emitPrevious s rc d ip :=
      lazySelect_of_apart ip hpv ((previousWins_iff s lc rc d).2 hwins) hapart
    have hemits : emitsMatch s t plc m.prc.toNat m.pd.toNat
        fun m' => m'.holds m.ipo rc d ip ∧ m'.ipa.toNat = m.pip.toNat + m.prc.toNat :=
      heq ▸ emitPrevious_emitsMatch s hrc hd hstart hipo (hpend hpv)
    exact hemits
  · have heq : t = emitHi s lc rc d ip :=
      lazySelect_of_lost ip hpv (mt (previousWins_iff s lc rc d).1 hlost)
    have hemits : emitsMatch s t lc rc d (Finder.isPast (ip + rc)) := heq ▸ emitHi_emitsMatch s lc d hip
    exact hemits

end Sys2Proof.FinderHiProofs
end

section
/-! A pass of mode HI: the hash, the insertion, the match it selects from and what the selection leaves pending
(44_hi_ratio_match_finder.md R247 to R250, R257; 42_hash_dictionary.md R180, R197 to R200). -/

namespace Sys2Proof.Machine

open Sys2Proof.Claims

/-! ### The step and its hash (R247, R248) -/

/-- Where the loop goes on, the step is a pass. -/
theorem step_of_searchHiPass {s : State} (hturn : undisturbed s) (hp : s.phase = .searchHi)
    (hm : (s.mf.ip.toNat : Int) < s.mf.ipet.toInt) : step s = .next (searchHiPass s) := by
  have hmore : s.mf.more = true := s.mf.more_iff.2 hm
  rw [step_of_undisturbed hturn]
  simp only [engineStep, fetch, hp, hmore, if_true]

/-- The one byte behind the key loses nothing on its way through `iw2` (42_hash_dictionary.md R180). -/
theorem hashStepHi_bucket (s : State) : bucketOf (hashStepHi s).mf.h s.mf.hmask = bucketHiAt s := by
  have hwide : ((s.src.read (s.mf.ip.toNat + 4)).setWidth 16).setWidth 32 =
      (s.src.read (s.mf.ip.toNat + 4)).setWidth 32 := BitVec.setWidth_setWidth (by decide)
  exact congrArg (fun x => bucketOf (hash _ x) s.mf.hmask) hwide

/-! ### The probe and the insertion (R248; 42_hash_dictionary.md R199) -/

/-- What the probe of a pass finds. -/
def probeAt (s : State) : Probe :=
  probe7 s.ht s.src (bucketHiAt s) s.mf.ip.toNat s.mf.ipe.toNat (wordAt s)

theorem probeAt_accepted (s : State) : (probeAt s).accepted = acceptedAt s := rfl

theorem probeAt_keyed_iff (s : State) : (probeAt s).keyed = true ↔ keyedAt s := probeList_keyed_iff ..

/-- HT after the probe: the position is inserted if no tuple of the bucket has its key. -/
def tableAfterProbe (s : State) : Memory :=
  if (probeAt s).keyed then s.ht else miss7 s.ht (bucketHiAt s) (wordAt s) s.mf.ip

theorem tableAfterProbe_of_keyed {s : State} (h : keyedAt s) : tableAfterProbe s = s.ht :=
  if_pos ((probeAt_keyed_iff s).2 h)

theorem tableAfterProbe_of_not_keyed {s : State} (h : ¬ keyedAt s) :
    tableAfterProbe s = miss7 s.ht (bucketHiAt s) (wordAt s) s.mf.ip := if_neg (mt (probeAt_keyed_iff s).1 h)

/-- The parts of a pass: the hash, the probe, the insertion, and what the probe accepts (R249). -/
theorem searchHiPass_eq (s : State) :
    searchHiPass s =
      (acceptedAt s).elim ((hashedHi s (tableAfterProbe s)).setMf { (hashStepHi s).mf with ip := s.mf.ip + 1 })
        (searchHiMatch (hashedHi s (tableAfterProbe s))) := by
  have hprobe : probe7 (hashStepHi s).ht (hashStepHi s).src (bucketHiAt s) (hashStepHi s).mf.ip.toNat
      (hashStepHi s).mf.ipe.toNat (hashStepHi s).mf.iw1 = probeAt s := rfl
  have hbucket : bucketOf (hashStepHi s).mf.h (hashStepHi s).mf.hmask = bucketHiAt s := hashStepHi_bucket s
  have htable : (if (probeAt s).keyed = true then hashStepHi s
      else (hashStepHi s).setHt (miss7 (hashStepHi s).ht (bucketHiAt s) (hashStepHi s).mf.iw1 (hashStepHi s).mf.ipo)) =
      hashedHi s (tableAfterProbe s) := by
    unfold tableAfterProbe
    split <;> rfl
  simp only [searchHiPass, hbucket, hprobe, htable, probeAt_accepted]
  cases acceptedAt s <;> rfl

theorem searchHiPass_of_none {s : State} (h : acceptedAt s = none) :
    searchHiPass s = (hashedHi s (tableAfterProbe s)).setMf { (hashStepHi s).mf with ip := s.mf.ip + 1 } := by
  rw [searchHiPass_eq, h, Option.elim_none]

theorem searchHiPass_of_some {s : State} {c : Candidate} (h : acceptedAt s = some c) :
    searchHiPass s = searchHiMatch (hashedHi s (tableAfterProbe s)) c := by
  rw [searchHiPass_eq, h, Option.elim_some]

/-! ### The match (R250) -/

/-- Equal bytes from two positions on and before them are equal bytes from the earlier start on. -/
theorem read_eq_of_both_directions {src : Memory} {ip wp fwd back : Nat} (hle : wp ≤ ip) (hback : back ≤ wp)
    (hforward : ∀ j, j < fwd → src.read (ip + j) = src.read (wp + j))
    (hbackward : ∀ j, j < back → src.read (ip - 1 - j) = src.read (wp - 1 - j)) :
    ∀ j, j < fwd + back → src.read (ip - back + j) = src.read (ip - back - (ip - wp) + j) := by
  intro j hj
  by_cases hjb : j < back
  · have hbyte := hbackward (back - 1 - j) (by omega)
    convert hbyte using 2 <;> omega
  · have hbyte := hforward (j - back) (by omega)
    convert hbyte using 2 <;> omega

/-- The back-extension of a candidate, as R250 writes it. -/
theorem extendCandidate_bmc (src : Memory) (m : Finder) (c : Candidate) :
    (extendCandidate src m c).bmc =
      if m.ipa.toNat < m.ip.toNat then
        src.rev m.ip.toNat c.wp (min (m.ip.toNat - m.ipa.toNat) (min 16 (min (c.ml - c.rc) c.wp)))
      else 0 := by
  simp only [extendCandidate, backExtend, Nat.sub_pos_iff_lt, min_assoc]

/-- A candidate whose bytes are real extends to a match that the block writer takes (R249, R250, R257;
41_block_writer.md R151). -/
theorem extendCandidate_writable {src : Memory} {m : Finder} {c : Candidate} (hipa : m.ipa.toNat ≤ m.ip.toNat)
    (hc : CandidateBounds c m.ip.toNat m.ipe.toNat) (h5 : 5 ≤ c.rc)
    (hbytes : ∀ j, j < c.rc → src.read (m.ip.toNat + j) = src.read (c.wp + j)) :
    WritableMatch src 5 (m.ip.toNat - (extendCandidate src m c).bmc - m.ipa.toNat)
      (c.rc + (extendCandidate src m c).bmc) c.d m.ipa.toNat m.ipe.toNat := by
  obtain ⟨-, hrc, h529, hmld, hstop, hd, h8, hwin⟩ := hc
  obtain ⟨hlc, hml, -, hwp⟩ := extendCandidate_bounds src m c
  have hbackward : ∀ j, j < (extendCandidate src m c).bmc →
      src.read (m.ip.toNat - 1 - j) = src.read (c.wp - 1 - j) := by
    rw [extendCandidate_bmc]
    split
    · exact (src.rev_isRunLength m.ip.toNat c.wp _).holds
    · exact fun j hj => absurd hj (Nat.not_lt_zero j)
  generalize (extendCandidate src m c).bmc = bmc at *
  have hstart : m.ipa.toNat + (m.ip.toNat - bmc - m.ipa.toNat) = m.ip.toNat - bmc := by omega
  constructor
  case bytes_eq =>
    rw [hstart, hd]
    exact read_eq_of_both_directions (by omega) hwp hbytes hbackward
  all_goals omega

/-- The tuples of a bucket with a legal head are visited at its even words below 14 (R198). -/
theorem visitFrom_mem {n k ti : Nat} (hk : k < 7) (h : ti ∈ visitFrom (2 * k) n) : ∃ j, j < 7 ∧ ti = 2 * j := by
  induction n generalizing k with
  | zero => exact absurd h List.not_mem_nil
  | succ n ih =>
    rcases List.mem_cons.1 h with rfl | h
    · exact ⟨k, hk, rfl⟩
    · split at h
      · exact ih (k := 0) (by decide) h
      · exact ih (k := k + 1) (by omega) h

theorem BucketSound.key_of_visited {src ht : Memory} {limit : Int} {b ti : Nat} (h : BucketSound .hi src limit ht b)
    (hti : ti ∈ visitOrder ht b) :
    ht.htWord b ti = BitVec.ofNat 32 (src.readLE (ht.htWord b (ti + 1)).toNat 4) := by
  obtain ⟨k, hk, hhead⟩ := h.head rfl
  rw [visitOrder, hhead] at hti
  obtain ⟨j, hj, rfl⟩ := visitFrom_mem hk hti
  exact (h.tuple j hj).key_eq

/-- What a pass accepts from a sound dictionary extends to a real match (R257). -/
theorem acceptedAt_writable {s : State} {c : Candidate} {limit : Int} (hb : SearchBounds s.mf s.bw s.cap)
    (hmore : s.mf.more = true) (hsound : TableSound .hi limit s) (h : acceptedAt s = some c) :
    WritableMatch s.src 5 (s.mf.ip.toNat - (extendCandidate s.src s.mf c).bmc - s.mf.ipa.toNat)
      (c.rc + (extendCandidate s.src s.mf c).bmc) c.d s.mf.ipa.toNat s.mf.ipe.toNat := by
  obtain ⟨hbest, hlong⟩ := accepted_some h
  obtain ⟨halign, hin⟩ := hsound.bucketOf_mem
    (hash (wordAt s) ((s.src.read (s.mf.ip.toNat + 4)).setWidth 32))
  have hbytes := probe7_best_bytes (fun ti => (hsound.bucket _ halign hin).key_of_visited) hbest
  exact extendCandidate_writable hb.ipa_le_ip (probe7_best_bounds (hb.ip_lt hmore) hbest) (by omega) hbytes

/-! ### The pending candidate (R252, R255, R257) -/

/-- A match at `start` is as real after one anchor before it as after another. -/
theorem writableMatch_anchor {src : Memory} {mref lc rc d ipa ipe lc' ipa' : Nat}
    (h : WritableMatch src mref lc rc d ipa ipe) (heq : ipa' + lc' = ipa + lc) :
    WritableMatch src mref lc' rc d ipa' ipe := by
  obtain ⟨hge, hle, h8, hwin, hrcd, hstop, hstart, hbytes⟩ := h
  rw [← heq] at hstop hstart hbytes
  exact ⟨hge, hle, h8, hwin, hrcd, hstop, hstart, hbytes⟩

/-- A real match behind the anchor is held as a real pending candidate. -/
theorem pendingReal_of_holds {t : State} {ipo : Word} {rc d start : Nat}
    (hreal : WritableMatch t.src 5 (start - t.mf.ipa.toNat) rc d t.mf.ipa.toNat t.mf.ipe.toNat)
    (hheld : t.mf.holds ipo rc d start) : pendingReal t := fun _ => by
  obtain ⟨-, hprc, hpd, hpip, -⟩ := hheld
  rw [hprc, hpd, hpip]
  exact hreal

theorem pendingReal_of_not_pending {t : State} (hpv : t.mf.pv = false) : pendingReal t :=
  fun h => absurd (hpv.symm.trans h) (by decide)

theorem emitHi_ended_or_not_pending (s : State) (lc rc d ip : Nat) :
    (emitHi s lc rc d ip).ended ∨ (emitHi s lc rc d ip).mf.pv = false := by
  rcases emitHi_cases s lc rc d ip with hend | ⟨t, -, heq⟩
  · exact .inl hend
  · exact .inr (heq ▸ rfl)

/-- The selection from a real match at `start` leaves a real candidate pending or none: the one it holds is the match
it was given, behind the old anchor or behind the pending one it has emitted. -/
theorem lazySelect_pendingReal {s : State} {start rc d : Nat} (hge : s.mf.ipa.toNat ≤ start)
    (hreal : WritableMatch s.src 5 (start - s.mf.ipa.toNat) rc d s.mf.ipa.toNat s.mf.ipe.toNat)
    (hipo : s.mf.ipo.toNat < s.mf.ipe.toNat) :
    (lazySelect s (start - s.mf.ipa.toNat) rc d start).ended ∨
    pendingReal (lazySelect s (start - s.mf.ipa.toNat) rc d start) := by
  have hipe := s.mf.ipe.isLt
  have hrc := hreal.rc_le
  have hstop := hreal.stop_le
  have hholds := fun (m : Finder) => m.hold_holds (rc := rc) (ip := start) (by omega) hreal.d_lt (by omega)
  rcases lazySelect_cases s (start - s.mf.ipa.toNat) rc d start with
    ⟨-, heq⟩ | ⟨-, heq⟩ | ⟨hpv, hapart, heq⟩ | heq <;> rw [heq]
  case inl => exact .inr (pendingReal_of_holds hreal (hholds s.mf (by omega)))
  case inr.inl => exact (emitHi_ended_or_not_pending _ _ _ _ _).imp_right pendingReal_of_not_pending
  case inr.inr.inr => exact (emitHi_ended_or_not_pending _ _ _ _ _).imp_right pendingReal_of_not_pending
  case inr.inr.inl =>
    rcases emitPrevious_cases s rc d start with hend | ⟨t, -, heq⟩
    · exact .inl hend
    · have hanchor : (BitVec.ofNat 32 (s.mf.pip.toNat + s.mf.prc.toNat)).toNat = _ :=
        Nat.mod_eq_of_lt (by omega)
      rw [heq]
      refine .inr (pendingReal_of_holds (ipo := s.mf.ipo) (writableMatch_anchor hreal ?_)
        (hholds s.mf.pastPending (show s.mf.ipo.toNat + 1 < 2 ^ 32 by omega)))
      show (BitVec.ofNat 32 (s.mf.pip.toNat + s.mf.prc.toNat)).toNat +
        (start - (BitVec.ofNat 32 (s.mf.pip.toNat + s.mf.prc.toNat)).toNat) = _
      rw [hanchor]
      omega

/-! ### Progress (R259) -/

/-- From `m` to `m'` the anchor stays and the cursor is behind the hashed position `ipo`, or the anchor rises by a
match and the cursor is not before it. -/
def Finder.advances (m : Finder) (ipo : Word) (m' : Finder) : Prop :=
  m'.ipa = m.ipa ∧ m'.ip.toNat = ipo.toNat + 1 ∨
  m.ipa.toNat + 5 ≤ m'.ipa.toNat ∧ m'.ipa.toNat ≤ m'.ip.toNat

/-- A match that fits and is emitted moves cursor and anchor behind its end. -/
theorem emitHi_advances {s : State} {start rc d : Nat} (lc : Nat) (ipo : Word) (hf : MatchFits s.mf start rc d) :
    (emitHi s lc rc d start).ended ∨ s.mf.advances ipo (emitHi s lc rc d start).mf := by
  have hge := hf.start_ge
  have h5 := hf.len_ge
  have hnew := toNat_ofNat_of_le hf.stop_le
  rcases emitHi_cases s lc rc d start with hend | ⟨t, -, heq⟩
  · exact .inl hend
  · rw [heq]
    exact .inr (.inr ⟨(show s.mf.ipa.toNat + 5 ≤ start + rc by omega).trans_eq hnew.symm, le_rfl⟩)

/-- The emission of the pending candidate moves the anchor behind it, which is at or before the start of the match that
is held. -/
theorem emitPrevious_advances {s : State} {start : Nat} (rc d : Nat) (hpend : PendingOk s.mf)
    (hapart : s.mf.pip.toNat + s.mf.prc.toNat ≤ start) (hstart : start ≤ s.mf.ipo.toNat)
    (hipo : s.mf.ipo.toNat < s.mf.ipe.toNat) :
    (emitPrevious s rc d start).ended ∨ s.mf.advances s.mf.ipo (emitPrevious s rc d start).mf := by
  have hge := hpend.start_ge
  have h5 := hpend.len_ge
  have hanchor := toNat_ofNat_of_le hpend.stop_le
  have hnext := toNat_succ_of_lt hipo
  rcases emitPrevious_cases s rc d start with hend | ⟨t, -, heq⟩
  · exact .inl hend
  · rw [heq]
    refine .inr (.inr ⟨?_, ?_⟩)
    · exact (show s.mf.ipa.toNat + 5 ≤ s.mf.pip.toNat + s.mf.prc.toNat by omega).trans_eq hanchor.symm
    · exact (hanchor.trans_le (by omega : _ ≤ s.mf.ipo.toNat + 1)).trans_eq hnext.symm

theorem lazySelect_advances {s : State} {start rc d : Nat} (lc : Nat) (hf : MatchFits s.mf start rc d)
    (hpend : s.mf.pv = true → PendingOk s.mf) (hstart : start ≤ s.mf.ipo.toNat)
    (hipo : s.mf.ipo.toNat < s.mf.ipe.toNat) :
    (lazySelect s lc rc d start).ended ∨ s.mf.advances s.mf.ipo (lazySelect s lc rc d start).mf := by
  rcases lazySelect_cases s lc rc d start with ⟨-, heq⟩ | ⟨hpv, heq⟩ | ⟨hpv, hapart, heq⟩ | heq <;> rw [heq]
  · exact .inr (.inl ⟨rfl, toNat_succ_of_lt hipo⟩)
  · exact emitHi_advances _ _ (hpend hpv).fits
  · exact emitPrevious_advances rc d (hpend hpv) hapart hstart hipo
  · exact emitHi_advances _ _ hf

/-- Every pass that does not end the command makes progress (R259). -/
theorem searchHiPass_advances {s : State} (hok : HiOk s.mf s.bw s.cap) (hm : s.mf.more = true) :
    (searchHiPass s).ended ∨ s.mf.advances s.mf.ip (searchHiPass s).mf := by
  have hlt := hok.search.ip_lt hm
  rcases searchHiPass_cases s with ⟨ht, heq⟩ | ⟨b, c, ht, hc, heq⟩ <;> rw [heq]
  · have hnext : (s.mf.ip + 1).toNat = s.mf.ip.toNat + 1 := toNat_succ_of_lt (y := s.mf.ipe) (by omega)
    exact .inr (.inl ⟨rfl, hnext⟩)
  · obtain ⟨hbest, hlong⟩ := accepted_some hc
    have hf := extendCandidate_fits s.src hok.search (probe7_best_bounds hlt hbest) (by omega)
    rw [searchHiMatch_eq]
    exact lazySelect_advances
      (s := (hashedHi s ht).setMf ((hashStepHi s).mf.withCandidate c (extendCandidate s.src s.mf c))) _ { hf with }
      (fun hpv => { hok.pending hpv with }) (Nat.sub_le _ _) (show s.mf.ip.toNat < s.mf.ipe.toNat by omega)

/-! ### The pass (R247 to R250) -/

/-- The state in which a pass goes to the lazy selection with the candidate it has accepted. -/
def selecting (s : State) (c : Candidate) : State :=
  (hashedHi s (tableAfterProbe s)).setMf ((hashStepHi s).mf.withCandidate c (extendCandidate s.src s.mf c))

theorem searchHiPass_selects {s : State} {c : Candidate} (h : acceptedAt s = some c) :
    searchHiPass s =
      lazySelect (selecting s c) (s.mf.ip.toNat - (extendCandidate s.src s.mf c).bmc - s.mf.ipa.toNat)
        (c.rc + (extendCandidate s.src s.mf c).bmc) c.d (s.mf.ip.toNat - (extendCandidate s.src s.mf c).bmc) := by
  rw [searchHiPass_of_some h, searchHiMatch_eq]
  rfl

theorem hiPass_of_none {s : State} (h : acceptedAt s = none) (hip : s.mf.ip.toNat < s.mf.ipe.toNat) :
    hiPass s (searchHiPass s) (searchHiPass s) := by
  rw [searchHiPass_of_none h]
  refine ⟨rfl, ⟨rfl, rfl, rfl, rfl⟩, tableAfterProbe_of_keyed, tableAfterProbe_of_not_keyed, rfl, ⟨rfl, rfl, rfl, rfl⟩,
    ⟨rfl, rfl⟩, ⟨rfl, rfl, rfl, rfl⟩, fun _ => ⟨rfl, toNat_succ_of_lt hip⟩, fun c hc => ?_⟩
  rw [h] at hc
  cases hc

theorem hiPass_of_some {s : State} {c : Candidate} (h : acceptedAt s = some c)
    (hreal : WritableMatch s.src 5 (s.mf.ip.toNat - (extendCandidate s.src s.mf c).bmc - s.mf.ipa.toNat)
      (c.rc + (extendCandidate s.src s.mf c).bmc) c.d s.mf.ipa.toNat s.mf.ipe.toNat) :
    hiPass s (selecting s c) (searchHiPass s) := by
  refine ⟨rfl, ⟨rfl, rfl, rfl, rfl⟩, tableAfterProbe_of_keyed, tableAfterProbe_of_not_keyed, rfl, ⟨rfl, rfl, rfl, rfl⟩,
    ⟨rfl, rfl⟩, ⟨rfl, rfl, rfl, rfl⟩, fun hno => ?_, fun c' hc => ?_⟩
  · rw [h] at hno
    cases hno
  · cases h.symm.trans hc
    have hselects := searchHiPass_selects h
    rw [Nat.sub_right_comm] at hreal hselects
    rw [← extendCandidate_bmc s.src s.mf c]
    exact ⟨toNat_ofNat_of_le (x := s.mf.ip) (Nat.sub_le _ _), hreal, hselects⟩

end Sys2Proof.Machine

namespace Sys2Proof.FinderHiProofs

open Sys2Proof Sys2Proof.Machine Sys2Proof.Claims

/-- Settles O50: a pass moves on by one or is the lazy selection of the match its candidate extends to, which a sound
dictionary makes real; whatever the selection emits or holds is longer than 4 bytes, so the pass makes progress. -/
theorem hiPassInsertsExtendsAndSelects : Obligations.HiPassInsertsExtendsAndSelects := by
  unfold Obligations.HiPassInsertsExtendsAndSelects
  refine ⟨fun s hturn hp hok hdict hpend hm => ?_, fun s t hturn hp hok hstep hphase => ?_⟩
  · have hmore := s.mf.more_iff.2 hm
    have hb := ((State.searchOk_searchHi hp).1 hok).search
    have hlt := hb.ip_lt hmore
    have hge := hb.ip_ge
    have hstep := step_of_searchHiPass hturn hp hm
    have hip : s.mf.ip.toNat < s.mf.ipe.toNat := by omega
    cases hacc : acceptedAt s with
    | none =>
      have hpass := hiPass_of_none hacc hip
      rw [searchHiPass_of_none hacc] at hstep hpass
      exact ⟨_, _, hstep, hpass, ⟨rfl, rfl, rfl, rfl⟩, ⟨rfl, rfl⟩, fun _ => hpend⟩
    | some c =>
      have hsound := State.dictionaryHiOk_iff.1 hdict hp (by simp only [Config.litFin]; omega)
      have hreal := acceptedAt_writable hb hmore hsound hacc
      have hpass := hiPass_of_some hacc hreal
      obtain ⟨hlc, -⟩ := extendCandidate_bounds s.src s.mf c
      have hipa := hb.ipa_le_ip
      have hkept := lazySelect_selectionKept (selecting s c)
        (s.mf.ip.toNat - (extendCandidate s.src s.mf c).bmc - s.mf.ipa.toNat)
        (c.rc + (extendCandidate s.src s.mf c).bmc) c.d (s.mf.ip.toNat - (extendCandidate s.src s.mf c).bmc)
      have hafter := lazySelect_pendingReal (s := selecting s c)
        (start := s.mf.ip.toNat - (extendCandidate s.src s.mf c).bmc)
        (show s.mf.ipa.toNat ≤ _ by omega) hreal hip
      rw [searchHiPass_selects hacc] at hstep hpass
      obtain ⟨hlimits, hstatistic⟩ := hkept
      exact ⟨_, _, hstep, hpass, hlimits, hstatistic, fun hphase =>
        hafter.resolve_left fun hend => hend.phase_ne .hi hphase⟩
  · by_cases hm : (s.mf.ip.toNat : Int) < s.mf.ipet.toInt
    · cases (step_of_searchHiPass hturn hp hm).symm.trans hstep
      refine ⟨hm, ?_⟩
      exact (searchHiPass_advances ((State.searchOk_searchHi hp).1 hok) (s.mf.more_iff.2 hm)).resolve_left
        fun hend => hend.phase_ne .hi hphase
    · cases (step_of_loopEndHi hturn hp (Int.not_lt.mp hm)).symm.trans hstep
      exact absurd hphase ((searchHiEnd_ended s).phase_ne .hi)

end Sys2Proof.FinderHiProofs
end

section
/-! The decoder's bounds: the start of a decoding command establishes them, `PREFIX` and every block keep them, and
nothing else touches BD while a stream is decoded (45_decoder.md R281 to R284, R294, R300; 10_state.md R25, R38). -/

namespace Sys2Proof.Machine

open Sys2Proof.Claims

/-! ### The start of a decoding command (R281, R283) -/

theorem word_eq_zero_iff (w : Word) : w = 0 ↔ w.toNat = 0 := by
  rw [BitVec.toNat_eq]
  rfl

/-- A length above `LEN_MAX`, or no stream for a non-empty output, is refused. -/
theorem decodeStart_of_badArguments (r : Report) {s : State}
    (h : Config.lenMax < s.srcl.toNat ∨ Config.lenMax < s.dstl.toNat ∨ (s.srcl = 0 ∧ s.dstl ≠ 0)) :
    decodeStart r s = (s.beginCommand .default).raise r .params 0 := by
  by_cases hlen : Config.lenMax < s.srcl.toNat ∨ Config.lenMax < s.dstl.toNat
  · exact if_pos hlen
  · obtain ⟨hsrc, hdst⟩ := (or_assoc.2 h).resolve_left hlen
    exact ((if_neg hlen).trans (if_pos hsrc)).trans (if_neg hdst)

/-- No stream for no output is a success. -/
theorem decodeStart_of_empty (r : Report) {s : State} (hsrc : s.srcl = 0) (hdst : s.dstl = 0) :
    decodeStart r s = (s.beginCommand .default).endCommand 0 0 := by
  have hlen : ¬ (Config.lenMax < s.srcl.toNat ∨ Config.lenMax < s.dstl.toNat) := by
    rw [hsrc, hdst]
    decide
  exact ((if_neg hlen).trans (if_pos hsrc)).trans (if_pos hdst)

/-- A stream of at least one byte is started on. -/
theorem decodeStart_of_stream (r : Report) {s : State} (h1 : 1 ≤ s.srcl.toNat) (hs : s.srcl.toNat ≤ Config.lenMax)
    (hd : s.dstl.toNat ≤ Config.lenMax) :
    decodeStart r s = { s.beginCommand .default with phase := .header r } := by
  have hlen : ¬ (Config.lenMax < s.srcl.toNat ∨ Config.lenMax < s.dstl.toNat) := by omega
  have hsrc : ¬ s.srcl = 0 := fun h0 => absurd ((word_eq_zero_iff _).1 h0) (by omega)
  exact (if_neg hlen).trans (if_neg hsrc)

/-! ### The bounds in each phase -/

/-- The bounds where `PREFIX` comes next. -/
structure PrefixBounds (b : Decoder) (cap : Word) : Prop where
  limits : DecoderBounds b cap
  ip_eq : b.ip.toNat = 0
  op_eq : b.op.toNat = 0
  ipe_ge : 1 ≤ b.ipe.toNat

/-- The bounds at the loop condition (R300). -/
structure LoopBounds (b : Decoder) (cap : Word) : Prop where
  limits : DecoderBounds b cap
  ip_ge : 1 ≤ b.ip.toNat
  ip_le : b.ip.toNat ≤ b.ipe.toNat
  mref1_ge : -1 ≤ b.mref1.toInt
  mref1_le : b.mref1.toInt ≤ 14

theorem State.decoderOk_header {s : State} {r : Report} (hp : s.phase = .header r) :
    s.decoderOk ↔ PrefixBounds s.bd s.cap := by
  unfold State.decoderOk
  rw [hp]
  exact ⟨fun ⟨hlim, hip, hop, hipe⟩ => ⟨hlim, hip, hop, hipe⟩, fun ⟨hlim, hip, hop, hipe⟩ => ⟨hlim, hip, hop, hipe⟩⟩

theorem State.decoderOk_blocks {s : State} {r : Report} (hp : s.phase = .blocks r) :
    s.decoderOk ↔ LoopBounds s.bd s.cap := by
  unfold State.decoderOk
  rw [hp]
  exact ⟨fun ⟨hlim, hge, hle, hlo, hhi⟩ => ⟨hlim, hge, hle, hlo, hhi⟩,
    fun ⟨hlim, hge, hle, hlo, hhi⟩ => ⟨hlim, hge, hle, hlo, hhi⟩⟩

/-- Outside a stream the bounds say nothing. -/
theorem State.decoderOk_of_not_decoding {t : State} (hh : ∀ r, t.phase ≠ .header r) (hb : ∀ r, t.phase ≠ .blocks r) :
    t.decoderOk := by
  unfold State.decoderOk
  split
  · exact absurd (by assumption) (hh _)
  · exact absurd (by assumption) (hb _)
  all_goals trivial

theorem State.ended.decoderOk {t : State} (h : t.ended) : t.decoderOk :=
  State.decoderOk_of_not_decoding (fun r => by simp [h.1]) (fun r => by simp [h.1])

theorem Mode.decoderOk_of_searchPhase (mode : Mode) {t : State} (h : t.phase = mode.searchPhase) : t.decoderOk :=
  State.decoderOk_of_not_decoding (fun r => h ▸ mode.searchPhase_ne_header r) (fun r => h ▸ mode.searchPhase_ne_blocks r)

/-- A search that ends or goes on decodes nothing. -/
theorem Mode.decoderOk_of_ended_or_goesOn (mode : Mode) {s t : State} (hp : s.phase = mode.searchPhase)
    (h : t.ended ∨ s.goesOn t) : t.decoderOk :=
  h.elim State.ended.decoderOk fun ⟨hphase, _⟩ => mode.decoderOk_of_searchPhase (hphase.trans hp)

/-- The loop's limits stay as they were set; only the cursors move, `ip` never back, neither past its limit (R283). -/
theorem LoopBounds.moved {b b' : Decoder} {cap : Word} {ip op : Nat} (h : LoopBounds b cap) (hipe : b'.ipe = b.ipe)
    (hipet : b'.ipet = b.ipet) (hope : b'.ope = b.ope) (hmref1 : b'.mref1 = b.mref1) (hip : b'.ip = BitVec.ofNat 32 ip)
    (hop : b'.op = BitVec.ofNat 32 op) (hge : b.ip.toNat ≤ ip) (hle : ip ≤ b.ipe.toNat) (hopLe : op ≤ b.ope.toNat) :
    LoopBounds b' cap := by
  have hip' : b'.ip.toNat = ip := by rw [hip, toNat_ofNat_of_le hle]
  have hop' : b'.op.toNat = op := by rw [hop, toNat_ofNat_of_le hopLe]
  have hlim := h.limits
  refine ⟨⟨hipe ▸ hlim.ipe_le, hope ▸ hlim.ope_le, hope ▸ hlim.ope_cap, ?_, ?_⟩, ?_, ?_, hmref1 ▸ h.mref1_ge,
    hmref1 ▸ h.mref1_le⟩
  · rw [hipet, hipe, hlim.ipet_eq]
  · rwa [hop', hope]
  · exact hip' ▸ h.ip_ge.trans hge
  · rwa [hip', hipe]

/-! ### What establishes and keeps them -/

theorem decodeStart_decoderOk (r : Report) (s : State) : (decodeStart r s).decoderOk := by
  by_cases hbad : Config.lenMax < s.srcl.toNat ∨ Config.lenMax < s.dstl.toNat ∨ (s.srcl = 0 ∧ s.dstl ≠ 0)
  · rw [decodeStart_of_badArguments r hbad]
    exact (State.raise_ended _ _ _ _).decoderOk
  · by_cases hsrc : s.srcl = 0
    · have hdst : s.dstl = 0 := by_contra fun h => hbad (.inr (.inr ⟨hsrc, h⟩))
      rw [decodeStart_of_empty r hsrc hdst]
      exact (State.endCommand_ended _ _ _).decoderOk
    · have h1 : 1 ≤ s.srcl.toNat := Nat.one_le_iff_ne_zero.2 (mt (word_eq_zero_iff _).2 hsrc)
      have hs : s.srcl.toNat ≤ Config.lenMax := Nat.not_lt.1 fun h => hbad (.inl h)
      have hd : s.dstl.toNat ≤ Config.lenMax := Nat.not_lt.1 fun h => hbad (.inr (.inl h))
      have hlimits : DecoderBounds (s.bd.begin s.srcl s.dstl) s.dstl :=
        ⟨hs, hd, rfl, Decoder.begin_ipet _ _ _, Nat.zero_le _⟩
      rw [decodeStart_of_stream r h1 hs hd]
      exact (State.decoderOk_header rfl).2 ⟨hlimits, rfl, rfl, h1⟩

/-- The first step of a command ends it, starts a search, or starts on a stream within the bounds. -/
theorem exec_command_decoderOk {w : Word} {i : Instr} {s t : State} (hi : decodeCommand w = .ok i)
    (h : exec i s = .next t) : t.decoderOk := by
  rcases decodeCommand_ok hi with rfl | rfl | rfl | rfl | rfl | rfl
  case inl =>
    rcases execCompress_cases h with he | ⟨-, rfl⟩
    · exact he.decoderOk
    · exact Mode.default.decoderOk_of_searchPhase (Mode.default.setup_phase _)
  case inr.inl =>
    rcases execCompressHi_cases h with he | ⟨-, rfl⟩
    · exact he.decoderOk
    · exact Mode.hi.decoderOk_of_searchPhase (Mode.hi.setup_phase _)
  case inr.inr.inl => cases h; exact decodeStart_decoderOk .full s
  case inr.inr.inr.inl => cases h; exact decodeStart_decoderOk .bestEffort s
  case inr.inr.inr.inr.inl => cases h; exact (State.endCommand_ended _ _ _).decoderOk
  case inr.inr.inr.inr.inr => cases h; exact (State.endCommand_ended _ _ _).decoderOk

/-- `mref1` is the nibble less 1, a signed number (R282). -/
theorem prefixMref1_toInt (mref : BitVec 4) : (mref.setWidth 5 - 1 : BitVec 5).toInt = mref.toNat - 1 := by
  revert mref; decide

/-- `PREFIX` leads from its own bounds to those of the loop. -/
theorem execStreamPrefix_decoderOk {s t : State} {r : Report} {mref : BitVec 4} (hp : s.phase = .header r)
    (hok : s.decoderOk) (h : execStreamPrefix mref s = .next t) : t.decoderOk := by
  obtain ⟨hlim, -, -, hipe⟩ := (State.decoderOk_header hp).1 hok
  have hmref1 := prefixMref1_toInt mref
  have hlt := mref.isLt
  cases h
  exact (State.decoderOk_blocks rfl).2 ⟨⟨hlim.1, hlim.2, hlim.3, hlim.4, hlim.5⟩, le_rfl, hipe,
    by rw [hmref1]; omega, by rw [hmref1]; omega⟩

/-- A literal block completes only within the stream and the output. -/
theorem literalBlock_decoderOk (bh : Byte) (head cc : Nat) {s : State} {r : Report} (hp : s.phase = .blocks r)
    (hok : s.decoderOk) : (literalBlock bh head cc s).decoderOk := by
  rcases literalBlock_cases bh head cc s with ⟨-, heq⟩ | ⟨-, -, heq⟩ | ⟨hin, hout, heq⟩ <;> rw [heq]
  · exact (State.raise_ended _ _ _ _).decoderOk
  · exact (State.raise_ended _ _ _ _).decoderOk
  · have hloop := (State.decoderOk_blocks hp).1 hok
    refine (State.decoderOk_blocks (r := r) ?_).2 (hloop.moved rfl rfl rfl rfl rfl rfl (by omega) hin hout)
    exact hp

/-- A reference block's head has at most six bytes, and at the loop condition more than six are left (R284). -/
theorem referenceBlock_decoderOk (bh : Byte) (o cc : Nat) {lenBytes : Nat} {s : State} {r : Report}
    (hp : s.phase = .blocks r) (hok : s.decoderOk) (hm : (s.bd.ip.toNat : Int) < s.bd.ipet.toInt)
    (hlen : lenBytes ≤ 2) : (referenceBlock bh o lenBytes cc s).decoderOk := by
  rcases referenceBlock_cases bh o lenBytes cc s with ⟨-, heq⟩ | ⟨-, -, heq⟩ | ⟨-, hout, heq⟩ <;> rw [heq]
  · exact (State.raise_ended _ _ _ _).decoderOk
  · exact (State.raise_ended _ _ _ _).decoderOk
  · have hloop := (State.decoderOk_blocks hp).1 hok
    have hipet := hloop.limits.ipet_eq
    have htype := (headerType bh).isLt
    have hin : s.bd.ip.toNat + 1 + (headerType bh).toNat + lenBytes ≤ s.bd.ipe.toNat := by
      simp only [Config.litFin] at hipet
      omega
    refine (State.decoderOk_blocks (r := r) ?_).2 (hloop.moved rfl rfl rfl rfl rfl rfl (by omega) hin hout)
    exact hp

theorem Decoder.more_iff (b : Decoder) : b.more = true ↔ (b.ip.toNat : Int) < b.ipet.toInt := decide_eq_true_iff

/-- Every block keeps the bounds: the six bytes at `ip` are a row of the opcode map (30_encoding.md R103). -/
theorem exec_block_decoderOk {s t : State} {r : Report} (hp : s.phase = .blocks r) (hok : s.decoderOk)
    (hm : s.bd.more = true) (h : exec (decodeBlock (blockWindow s.src s.bd.ip.toNat)) s = .next t) : t.decoderOk := by
  obtain ⟨i, hrow⟩ := exists_blockRow (bs := blockWindow s.src s.bd.ip.toNat) (le_of_eq (by simp [blockWindow]))
  rw [hrow.decodeBlock_eq] at h
  rcases exec_of_blockRow hrow s with ⟨bh, head, cc, hexec, -⟩ | ⟨bh, o, lenBytes, cc, hexec, hlen, -⟩ <;>
    (rw [hexec] at h; cases h)
  · exact literalBlock_decoderOk bh head cc hp hok
  · exact referenceBlock_decoderOk bh o cc hp hok ((Decoder.more_iff _).1 hm) hlen

/-- A step of the engine keeps the decoder's bounds. -/
theorem engineStep_decoderOk {s t : State} (hok : s.decoderOk) (h : engineStep s = .next t) : t.decoderOk := by
  rcases engineStep_cases h with ⟨-, rfl⟩ | ⟨-, rfl⟩ | ⟨-, i, hi, he⟩ | ⟨r, hp, -, he⟩ | ⟨r, -, rfl⟩ |
    ⟨r, hp, hm, he⟩ | ⟨r, -, -, rfl⟩ | ⟨hp, -, rfl⟩ | ⟨-, -, rfl⟩ | ⟨hp, -, rfl⟩ | ⟨-, -, rfl⟩
  · exact hok
  · exact hok
  · exact exec_command_decoderOk hi he
  · exact execStreamPrefix_decoderOk hp hok he
  · exact (State.raise_ended _ _ _ _).decoderOk
  · exact exec_block_decoderOk hp hok hm he
  · exact (decodeEnd_ended s).decoderOk
  · exact Mode.default.decoderOk_of_ended_or_goesOn hp (searchPass_ended_or_goesOn s)
  · exact (searchEnd_ended s).decoderOk
  · exact Mode.hi.decoderOk_of_ended_or_goesOn hp (searchHiPass_ended_or_goesOn s)
  · exact (searchHiEnd_ended s).decoderOk

/-- An access of the host keeps them: it leaves BD alone, starts a command, or resets. -/
theorem hostAccess_decoderOk {s t : State} {a : HostAccess} (hok : s.decoderOk) (h : hostAccess a s = .next t) :
    t.decoderOk := by
  rcases hostAccess_engine_cases h with hk | ⟨hp, -⟩ | ⟨hp, -⟩
  · unfold State.decoderOk at hok ⊢
    rwa [hk.phase_eq, hk.bd_eq, hk.cap_eq]
  · exact State.decoderOk_of_not_decoding (by simp [hp]) (by simp [hp])
  · exact State.decoderOk_of_not_decoding (by simp [hp]) (by simp [hp])

end Sys2Proof.Machine

namespace Sys2Proof.DecoderProofs

open Sys2Proof Sys2Proof.Machine Sys2Proof.Claims

/-- Settles O21: a literal block completes only where it fits, a reference block's head is shorter than what the loop
condition leaves of the stream, and its copy completes only where it fits. -/
theorem decoderBoundsKept : Obligations.DecoderBoundsKept := by
  unfold Obligations.DecoderBoundsKept
  intro s t hok h
  rcases step_cases h with ⟨-, r, he⟩ | ⟨-, a, r, -, ha⟩
  · exact engineStep_decoderOk (s := { s with hostScript := r }) hok he
  · exact hostAccess_decoderOk (s := { s with hostScript := r }) hok ha

end Sys2Proof.DecoderProofs
end

section
/-! The decoder's two copies, byte by byte, and the shape in which an error leaves the state (40_byte_io_and_scanners.md
R132; 45_decoder.md R285, R296; 60_exceptions.md R361, R365, R370). -/

namespace Sys2Proof.Machine

open Sys2Proof.Claims

/-! ### Copies -/

/-- A copy from another memory. -/
theorem copyFrom_copies (dst src : Memory) (a b n : Nat) :
    (∀ j, j < n → (dst.copyFrom src a b n).read (a + j) = src.read (b + j)) ∧
    sameOutside dst (dst.copyFrom src a b n) a n := by
  refine ⟨fun j hj => ?_, fun c hc => ?_⟩
  · rw [Memory.read_copyFrom, if_pos (by omega), Nat.add_sub_cancel_left]
  · rw [Memory.read_copyFrom, if_neg (by omega)]

theorem sameOutside_copyWithin (m : Memory) (a b n : Nat) : sameOutside m (m.copyWithin a b n) a n :=
  fun c hc => m.read_copyWithin_outside a b n c hc

/-- A copy from `d` bytes back repeats the last `d` bytes: each of its bytes beyond the first `d` is read where the copy
itself wrote `d` bytes before (R296). -/
theorem Memory.read_copyWithin_back (m : Memory) {op d : Nat} (h1 : 1 ≤ d) (hd : d ≤ op) :
    ∀ {n j : Nat}, j < n → (m.copyWithin op (op - d) n).read (op + j) = m.read (op - d + j % d)
  | n + 1, j, hj => by
    rw [Memory.copyWithin_succ, Memory.read_write]
    by_cases hlast : j = n
    · subst hlast
      rw [if_pos rfl]
      by_cases hfirst : j < d
      · rw [m.read_copyWithin_outside op _ j _ (.inl (by omega)), Nat.mod_eq_of_lt hfirst]
      · have hback : op - d + j = op + (j - d) := by omega
        rw [hback, m.read_copyWithin_back h1 hd (by omega), ← Nat.mod_eq_sub_mod (Nat.not_lt.1 hfirst)]
    · rw [if_neg (by omega), m.read_copyWithin_back h1 hd (by omega)]

/-- A copy from where it goes writes every byte with what it held. -/
theorem Memory.read_copyWithin_self (m : Memory) (op n a : Nat) : (m.copyWithin op op n).read a = m.read a := by
  induction n generalizing a with
  | zero => rfl
  | succ n ih =>
    rw [Memory.copyWithin_succ, Memory.read_write, ih, ih]
    exact ite_eq_right_iff.2 fun hlast => hlast ▸ rfl

theorem copiedBack_copyWithin (m : Memory) {op d : Nat} (n : Nat) (hd : d ≤ op) :
    copiedBack m (m.copyWithin op (op - d) n) op d n := by
  refine ⟨fun h1 j hj => m.read_copyWithin_back h1 hd hj, ?_, sameOutside_copyWithin m op _ n⟩
  rintro rfl j -
  exact m.read_copyWithin_self op n (op + j)

/-! ### Errors -/

/-- `RESULT` after an error is the negative of its number, or the count of bytes committed. -/
theorem DecodeFault.resultFor_eq (e : DecodeFault) (w : Nat) (r : Report) : e.resultFor w r = resultOf r e.number w := by
  cases r with
  | bestEffort => rfl
  | full => exact (BitVec.ofInt_neg (n := (e.number : Int)).trans (congrArg _ (BitVec.ofInt_natCast _ _))).symm

/-- An error raised in a state `v` that differs from `s` at most in what the command in progress has changed: what is
said of every error (R361, R365), and DST as the command left it. -/
theorem faulted_of_raise {s t v : State} {r : Report} {e : DecodeFault} {w : Nat} (ht : t = v.raise r e w)
    (hv : v = { s with status := v.status, phase := v.phase, bd := v.bd, dst := v.dst }) (hclean : s.spoiled = false) :
    faulted s t r e.number w ∧ t.dst = v.dst := by
  have hvclean : v.spoiled = false := by rw [hv]; exact hclean
  rw [State.raise_clean v r e w hvclean, DecodeFault.resultFor_eq] at ht
  subst ht
  refine ⟨⟨?_, ?_⟩, rfl⟩
  · rw [hv]
  · cases e <;> rfl

theorem Phase.report_blocks {s : State} {r : Report} (h : s.phase = .blocks r) : s.phase.report = r := by
  rw [h]
  rfl

end Sys2Proof.Machine

namespace Sys2Proof.DecoderProofs

open Sys2Proof Sys2Proof.Machine Sys2Proof.Claims

/-- Settles O18, by induction on the number of bytes copied. -/
theorem overlappingCopyRunFills : Obligations.OverlappingCopyRunFills := by
  unfold Obligations.OverlappingCopyRunFills
  exact fun m op d n => ⟨fun h1 hd => ⟨fun j hj => m.read_copyWithin_back h1 hd hj, sameOutside_copyWithin m op _ n⟩,
    m.read_copyWithin_self op n⟩

end Sys2Proof.DecoderProofs
end

section
/-! The literal and the reference blocks: for each of the two operations what it leaves where its bytes fit and where it
stops, whatever instruction runs it (45_decoder.md R285 to R297, R301 to R309; 60_exceptions.md R361 to R366, R370). -/

namespace Sys2Proof.Machine

open Sys2Proof.Claims

theorem add_ofNat_eq (x : Word) (n : Nat) : x + BitVec.ofNat 32 n = BitVec.ofNat 32 (x.toNat + n) := by
  rw [BitVec.ofNat_add, BitVec.ofNat_toNat, BitVec.setWidth_eq]

/-! ### The literal blocks (R285) -/

theorem literalCompletes_of_exec {i : Instr} {q : BitVec 2} {nib : BitVec 4} {head cc : Nat}
    (hexec : ∀ s, exec i s = .next (literalBlock (headerByte q 0 nib) head cc s)) :
    literalCompletes i q nib head cc := by
  intro s hin hout
  rcases literalBlock_cases (headerByte q 0 nib) head cc s with ⟨hover, -⟩ | ⟨-, hover, -⟩ | ⟨-, -, heq⟩
  · exact absurd hin (Nat.not_le.2 hover)
  · exact absurd hout (Nat.not_le.2 hover)
  · refine ⟨_, (hexec s).trans (congrArg _ heq), ?_, copyFrom_copies _ _ _ _ _⟩
    simp only [Decoder.afterLiteralHead, literalCarry, headerQ_headerByte, add_ofNat_eq, Nat.add_assoc]
    rfl

theorem literalFaults_of_exec {i : Instr} {bh : Byte} {head cc : Nat}
    (hexec : ∀ s, exec i s = .next (literalBlock bh head cc s)) : literalFaults i head cc := by
  intro s r hp hclean _ _
  have hcases := literalBlock_cases bh head cc s
  rw [Phase.report_blocks hp] at hcases
  rcases hcases with ⟨hover, heq⟩ | ⟨hin, hover, heq⟩ | ⟨hin, hout, -⟩
  · obtain ⟨hfault, hdst⟩ := faulted_of_raise (s := s) heq rfl hclean
    exact ⟨fun _ => ⟨_, hexec s, hfault, hdst ▸ copyFrom_copies _ _ _ _ _⟩,
      fun hin => absurd hin (Nat.not_le.2 hover)⟩
  · obtain ⟨hfault, hdst⟩ := faulted_of_raise (s := s) heq rfl hclean
    exact ⟨fun hpast => absurd hin (Nat.not_le.2 hpast),
      fun _ _ => ⟨_, hexec s, hfault, hdst ▸ copyFrom_copies _ _ _ _ _⟩⟩
  · exact ⟨fun hpast => absurd hin (Nat.not_le.2 hpast), fun _ hover => absurd hout (Nat.not_le.2 hover)⟩

/-! ### The reference blocks (R290) -/

/-- The offset that a block assembles from its header and offset bytes (R292). -/
theorem assembleOffset_header (s : State) (q bt : BitVec 2) (nib : BitVec 4) (o : Nat) :
    assembleOffset (headerQ (headerByte q bt nib)) o s.bd.csh s.bd.cv = offsetOf s q o := by
  rw [headerQ_headerByte]
  rfl

theorem referenceCompletes_of_exec {i : Instr} {q bt : BitVec 2} {nib : BitVec 4} {o lenBytes : Nat} {len : Int → Int}
    (hexec : ∀ s, exec i s =
      .next (referenceBlock (headerByte q bt nib) o lenBytes (len s.bd.mref1.toInt).toNat s)) :
    referenceCompletes i q bt nib o lenBytes len := by
  intro s _ d n hd hout
  have hcases := referenceBlock_cases (headerByte q bt nib) o lenBytes n s
  rw [assembleOffset_header] at hcases
  rcases hcases with ⟨hover, -⟩ | ⟨-, hover, -⟩ | ⟨-, -, heq⟩
  · exact absurd hover (Nat.not_lt.2 hd)
  · exact absurd hout (Nat.not_le.2 hover)
  · refine ⟨_, (hexec s).trans (congrArg _ heq), ?_, copiedBack_copyWithin s.dst n hd⟩
    simp only [Decoder.afterOffset, assembleOffset_header, headerType_headerByte, add_ofNat_eq, Nat.add_assoc]
    rfl

theorem referenceFaults_of_exec {i : Instr} {q bt : BitVec 2} {nib : BitVec 4} {o lenBytes : Nat} {len : Int → Int}
    (hexec : ∀ s, exec i s =
      .next (referenceBlock (headerByte q bt nib) o lenBytes (len s.bd.mref1.toInt).toNat s)) :
    referenceFaults i q o len := by
  intro s r hp hclean _ _ d n
  have hcases := referenceBlock_cases (headerByte q bt nib) o lenBytes n s
  rw [assembleOffset_header, Phase.report_blocks hp] at hcases
  rcases hcases with ⟨hover, heq⟩ | ⟨hd, hover, heq⟩ | ⟨hd, hout, -⟩
  · obtain ⟨hfault, hdst⟩ := faulted_of_raise (s := s) heq rfl hclean
    exact ⟨fun _ => ⟨_, hexec s, hfault, fun a => hdst ▸ rfl⟩, fun hd => absurd hover (Nat.not_lt.2 hd)⟩
  · obtain ⟨hfault, hdst⟩ := faulted_of_raise (s := s) heq rfl hclean
    exact ⟨fun hlt => absurd hd (Nat.not_le.2 hlt),
      fun _ _ => ⟨_, hexec s, hfault, hdst ▸ copiedBack_copyWithin s.dst _ hd⟩⟩
  · exact ⟨fun hlt => absurd hd (Nat.not_le.2 hlt), fun _ hover => absurd hout (Nat.not_le.2 hover)⟩

end Sys2Proof.Machine

namespace Sys2Proof.DecoderProofs

open Sys2Proof Sys2Proof.Machine Sys2Proof.Claims

/-- Settles O14: both instructions run the one operation, each with its head and its count of literals. -/
theorem literalBlocksComplete : Obligations.LiteralBlocksComplete := by
  unfold Obligations.LiteralBlocksComplete
  exact ⟨fun _ _ => literalCompletes_of_exec fun _ => rfl, fun _ _ _ => literalCompletes_of_exec fun _ => rfl⟩

/-- Settles O15: the two tests of the operation, in their order, each with the copy clipped to what fits. -/
theorem literalBlocksFault : Obligations.LiteralBlocksFault := by
  unfold Obligations.LiteralBlocksFault
  exact ⟨fun _ _ => literalFaults_of_exec fun _ => rfl, fun _ _ _ => literalFaults_of_exec fun _ => rfl⟩

/-- Settles O16: the nine instructions run the one operation, each with its type, its length bytes and its length. -/
theorem referenceBlocksComplete : Obligations.ReferenceBlocksComplete := by
  unfold Obligations.ReferenceBlocksComplete
  refine ⟨?_, ?_, ?_, ?_, ?_, ?_, ?_, ?_, ?_⟩
  all_goals exact fun _ _ _ => referenceCompletes_of_exec fun _ => rfl

/-- Settles O17: the two tests of the operation, in their order; the second stops a copy clipped to what fits. -/
theorem referenceBlocksFault : Obligations.ReferenceBlocksFault := by
  unfold Obligations.ReferenceBlocksFault
  refine ⟨?_, ?_, ?_, ?_, ?_, ?_, ?_, ?_, ?_⟩
  all_goals exact fun _ _ _ => referenceFaults_of_exec fun _ => rfl

end Sys2Proof.DecoderProofs
end

section
/-! The steps around the blocks of a stream: which instruction a step runs, the start of the two decoding commands with
its argument checks, `PREFIX`, and the end of the stream (45_decoder.md R281 to R284, R298, R314; 46_host_operations.md
R330, R333, R334; 10_state.md R36). -/

namespace Sys2Proof.Machine

open Sys2Proof.Claims

/-! ### The instruction that is due (R282, R284, R314) -/

/-- What the decoder reads from `CMD` at the start of a command, from SRC[0] before the loop, or from the bytes at `ip`
while the loop goes on, is what the engine runs. -/
theorem engineStep_of_decoded {s : State} {i : Instr}
    (h : s.phase = .start ∧ decode (.command s.cmd) = .ok i ∨
      (∃ r, s.phase = .header r) ∧ decode (.header (s.src.read 0)) = .ok i ∨
      (∃ r, s.phase = .blocks r) ∧ (s.bd.ip.toNat : Int) < s.bd.ipet.toInt ∧
        decode (.block (headWindow s.src s.bd.ip.toNat)) = .ok i) : engineStep s = exec i s := by
  rcases h with ⟨hp, hi⟩ | ⟨⟨r, hp⟩, hi⟩ | ⟨⟨r, hp⟩, hm, hi⟩
  · simp only [engineStep, fetch, hp, hi]
  · simp only [engineStep, fetch, hp, hi]
  · rw [engineStep_of_blocks hp hm, (blockRow_of_decode le_rfl hi).decodeBlock_eq]

/-- A turn of the engine on the host's script is taken off it, and the engine steps. -/
theorem step_of_engineTurn {s : State} {rest : List HostAccess} (h : s.hostScript = .engineTurn :: rest) :
    step s = engineStep { s with hostScript := rest } := by
  unfold step
  rw [h]

/-! ### The start of the decoding commands (R281, R283) -/

/-- The command that reports as `r` does (46_host_operations.md R333, R334). -/
def Report.command : Report → Instr
  | .full => .decompress
  | .bestEffort => .decompressPartial

theorem exec_reportCommand (r : Report) (s : State) : exec r.command s = .next (decodeStart r s) := by
  cases r <;> rfl

theorem writerStarts_begin (mode : Mode) : WriterStarts (Writer.begin mode) := ⟨rfl, rfl, rfl⟩

/-- BD's `st` is no part of the start values: a refused command has set every unit's registers all the same (R36). -/
theorem unitsStart_of_st {s t u : State} {st : BitVec 3} (h : UnitsStart s t) (hbd : u.bd = { t.bd with st := st })
    (hmf : u.mf = t.mf) : UnitsStart s u where
  bd_eq := by rw [hbd, h.bd_eq]
  bd_ipet := by rw [hbd]; exact h.bd_ipet
  mf_eq := by rw [hmf]; exact h.mf_eq
  mf_ipe := by rw [hmf]; exact h.mf_ipe
  mf_ipet := by rw [hmf]; exact h.mf_ipet

theorem decodingStarts_command (r : Report) : decodingStarts r.command r := by
  intro s h1 hs hd
  refine ⟨_, (exec_reportCommand r s).trans (congrArg _ (decodeStart_of_stream r h1 hs hd)), rfl,
    unitsStart_of_begin .default rfl rfl, writerStarts_begin .default, rfl⟩

theorem argumentsChecked_command (r : Report) : argumentsChecked r.command r := by
  intro s hclean
  have hunits : UnitsStart s (s.beginCommand .default) := unitsStart_of_begin .default rfl rfl
  refine ⟨fun hbad => ?_, fun hsrc hdst => ?_⟩
  · have hraise := decodeStart_of_badArguments r hbad
    rw [State.raise_clean (s.beginCommand .default) r .params 0 hclean, DecodeFault.resultFor_eq] at hraise
    exact ⟨_, (exec_reportCommand r s).trans (congrArg _ hraise), ⟨rfl, rfl⟩, fun _ => rfl,
      unitsStart_of_st hunits rfl rfl, writerStarts_begin .default⟩
  · have hdone := decodeStart_of_empty r hsrc hdst
    rw [State.endCommand_clean (s.beginCommand .default) 0 0 hclean] at hdone
    exact ⟨_, (exec_reportCommand r s).trans (congrArg _ hdone), rfl, rfl, fun _ => rfl,
      unitsStart_of_begin .default rfl rfl, writerStarts_begin .default⟩

/-! ### `PREFIX` (R282) -/

theorem formatId_toNat (b : Byte) : (b.extractLsb' 4 4).toNat = b.toNat / 16 := by
  have := b.isLt
  rw [BitVec.extractLsb'_toNat, Nat.shiftRight_eq_div_pow]
  omega

theorem prefixNibble_toNat (b : Byte) : (b.extractLsb' 0 4).toNat = b.toNat % 16 := by
  rw [BitVec.extractLsb'_toNat, Nat.shiftRight_zero]

/-- Format 2 alone is known (R282, decision D5). -/
theorem formatKnown_iff (b : Byte) : Config.formatKnown (b.extractLsb' 4 4) = true ↔ b.toNat / 16 = 2 := by
  rw [← formatId_toNat]
  simp only [Config.formatKnown, Bool.false_and, Bool.or_false, beq_iff_eq, BitVec.toNat_eq]
  rfl

theorem decode_header_of_known {b : Byte} (h : b.toNat / 16 = 2) :
    decode (.header b) = .ok (.streamPrefix (b.extractLsb' 0 4)) := if_pos ((formatKnown_iff b).2 h)

theorem decode_header_of_unknown {b : Byte} (h : b.toNat / 16 ≠ 2) : decode (.header b) = .error .unknownFormat :=
  if_neg (mt (formatKnown_iff b).1 h)

theorem step_of_unknownFormat {s : State} {r : Report} (hturn : undisturbed s) (hp : s.phase = .header r)
    (h : (s.src.read 0).toNat / 16 ≠ 2) : step s = .next (formatUnknown s) := by
  rw [step_of_undisturbed hturn]
  simp only [engineStep, fetch, hp, decode_header_of_unknown h]

theorem exec_streamPrefix (mref : BitVec 4) (s : State) :
    exec (.streamPrefix mref) s =
      .next { s with bd := { s.bd with mref1 := mref.setWidth 5 - 1, ip := 1 }, phase := .blocks s.phase.report } := rfl

theorem Phase.report_header {s : State} {r : Report} (h : s.phase = .header r) : s.phase.report = r := by
  rw [h]
  rfl

/-! ### The end of the stream (R298) -/

theorem decodeEnd_of_short {s : State} {r : Report} (hp : s.phase = .blocks r) (h : s.bd.op ≠ s.bd.ope) :
    decodeEnd s = s.raise r .dstLen s.bd.op.toNat := by
  rw [decodeEnd, if_neg h, Phase.report_blocks hp]

end Sys2Proof.Machine

namespace Sys2Proof.DecoderProofs

open Sys2Proof Sys2Proof.Machine Sys2Proof.Claims

/-- Settles O10: the engine runs what is decoded, and a step is the engine's, whether the host's script is empty or
begins with a turn of the engine. -/
theorem stepRunsDecodedInstruction : Obligations.StepRunsDecodedInstruction := by
  unfold Obligations.StepRunsDecodedInstruction
  refine fun s i rest h => ⟨fun hturn => ?_, fun hturn => ?_⟩
  · rw [step_of_undisturbed hturn, engineStep_of_decoded h]
  · rw [step_of_engineTurn hturn]
    exact engineStep_of_decoded (s := { s with hostScript := rest }) h

/-- Settles O11: the instruction sets two registers of BD and the phase; a first byte of another format holds no
instruction, and the step raises the error. -/
theorem prefixStep : Obligations.PrefixStep := by
  unfold Obligations.PrefixStep
  refine ⟨fun mref s => ⟨_, exec_streamPrefix mref s, rfl, prefixMref1_toInt mref⟩,
    fun s r hturn hp hclean => ⟨fun hformat => ?_, fun hformat => ?_⟩⟩
  · have hraise : formatUnknown s = s.raise r .unkFmt 0 := by rw [formatUnknown, Phase.report_header hp]
    obtain ⟨hfault, hdst⟩ := faulted_of_raise (s := s) hraise rfl hclean
    exact ⟨_, step_of_unknownFormat hturn hp hformat, hfault, fun a => by rw [hdst]⟩
  · have hstep := step_of_header hturn hp (decode_header_of_known hformat)
    rw [exec_streamPrefix, Phase.report_header hp] at hstep
    exact ⟨_, hstep, rfl, by rw [← prefixNibble_toNat]; exact prefixMref1_toInt _⟩

/-- Settles O12: the two commands start alike. -/
theorem decodingCommandsStart : Obligations.DecodingCommandsStart := by
  unfold Obligations.DecodingCommandsStart
  exact ⟨decodingStarts_command .full, decodingStarts_command .bestEffort⟩

/-- Settles O13: the two commands check their arguments alike, after the units' registers are set. -/
theorem decodingArgumentsChecked : Obligations.DecodingArgumentsChecked := by
  unfold Obligations.DecodingArgumentsChecked
  exact ⟨argumentsChecked_command .full, argumentsChecked_command .bestEffort⟩

/-- Settles O20: the loop's end compares `op` with `ope`, and ends the command in both cases. -/
theorem streamEndReports : Obligations.StreamEndReports := by
  unfold Obligations.StreamEndReports
  refine fun s r hturn hp hclean hm => ⟨step_of_fullOutput hclean hp hturn hm, fun hshort => ?_⟩
  obtain ⟨hfault, hdst⟩ := faulted_of_raise (s := s) (decodeEnd_of_short hp hshort) rfl hclean
  exact ⟨_, step_of_streamEnd hturn hp hm, hfault, fun a => by rw [hdst]⟩

end Sys2Proof.DecoderProofs
end

section
/-! The commands that end in their first step and touch no memory: the two bounds for every `SRCL`, and the two
compressions with bad arguments (46_host_operations.md R331, R332, R335, R336, R338; 10_state.md R36). -/

namespace Sys2Proof.Machine

open Sys2Proof.Claims

/-! ### The bound of a signed length (R335, R336) -/

/-- The command that computes the bound of a mode (R335). -/
def Mode.boundCommand : Mode → Instr
  | .default => .bound
  | .hi => .boundHi

/-- A bound command starts as mode DEFAULT does, whichever bound it computes (log 9). -/
theorem exec_boundCommand (mode : Mode) (s : State) :
    exec mode.boundCommand s =
      .next ((s.beginCommand .default).endCommand (BitVec.ofNat 32 (mode.boundOf (signedLength s.srcl))) 0) := by
  cases mode <;> rfl

theorem Mode.boundFormula_of_nonpos (mode : Mode) {n : Int} (h : n ≤ 0) : mode.boundFormula n = 16 := by
  cases mode <;> exact if_pos h

/-- The least bound stands for every length that is not positive, so the clipped length has the bound of the signed
one. -/
theorem Mode.boundOf_signedLength (mode : Mode) (w : Word) :
    (mode.boundOf (signedLength w) : Int) = mode.boundFormula w.toInt := by
  rw [mode.boundOf_eq, signedLength]
  rcases le_total w.toInt 0 with hneg | hpos
  · rw [Int.toNat_of_nonpos hneg, mode.boundFormula_of_nonpos hneg]
    exact mode.boundFormula_of_nonpos le_rfl
  · rw [Int.toNat_of_nonneg hpos]

/-- `RESULT` holds the whole bound: it is at most an eighth above the length, and 18. -/
theorem Mode.boundOf_lt (mode : Mode) {n : Nat} (hn : n < 2 ^ 31) : mode.boundOf n < 2 ^ 32 := by
  have hword := mode.boundOf_eq n
  cases mode with
  | default =>
    simp only [Mode.boundFormula, Claims.boundFormula] at hword
    split at hword <;> omega
  | hi =>
    simp only [Mode.boundFormula, Claims.boundFormula] at hword
    split at hword <;> omega

theorem signedLength_lt (w : Word) : signedLength w < 2 ^ 31 := by
  have hmax := BitVec.toInt_lt (x := w)
  unfold signedLength
  omega

theorem boundComputed_command (mode : Mode) : boundComputed mode.boundCommand mode.boundFormula := by
  intro s hclean
  have hstep := exec_boundCommand mode s
  rw [State.endCommand_clean (s.beginCommand .default) _ _ hclean] at hstep
  have hresult : ((BitVec.ofNat 32 (mode.boundOf (signedLength s.srcl))).toNat : Int) =
      mode.boundFormula s.srcl.toInt := by
    rw [BitVec.toNat_ofNat, Nat.mod_eq_of_lt (mode.boundOf_lt (signedLength_lt s.srcl))]
    exact mode.boundOf_signedLength s.srcl
  exact ⟨_, hstep, rfl, hresult, unitsStart_of_begin .default rfl rfl, writerStarts_begin .default, rfl⟩

/-! ### Refused compressions (R331, R332, R338) -/

/-- What a mode rejects, with the bound as the spec's formula (R331). -/
theorem compressRejects_iff (mode : Mode) (s : State) :
    compressRejects s (mode.boundOf s.srcl.toNat) = true ↔
      2147483647 < s.srcl.toNat ∨ 2147483647 < s.dstl.toNat ∨ s.srcl = 0 ∨
        (s.dstl.toNat : Int) < mode.boundFormula s.srcl.toNat := by
  rw [← mode.boundOf_eq, Int.ofNat_lt, word_eq_zero_iff]
  simp only [compressRejects, Config.lenMax, Bool.or_eq_true, decide_eq_true_eq, or_assoc]

/-- A rejected compression ends with nothing written, its units at the start values of its mode. -/
theorem exec_compress_rejected {s : State} (mode : Mode) (hr : compressRejects s (mode.boundOf s.srcl.toNat) = true) :
    exec mode.command s = .next ((s.beginCommand mode).endCommand 0 0) := by
  cases mode with
  | default => exact if_pos hr
  | hi => exact if_pos hr

theorem compressionRefused_command (mode : Mode) :
    compressionRefused mode.command mode.boundFormula mode.mref mode.tableCap mode.mask := by
  intro s hclean hbad
  have hstep := exec_compress_rejected mode ((compressRejects_iff mode s).2 hbad)
  rw [State.endCommand_clean (s.beginCommand mode) 0 0 hclean] at hstep
  exact ⟨_, hstep, rfl, unitsStart_of_begin mode rfl rfl, writerStarts_begin mode, rfl, rfl, tableStarts_begin _ _ _⟩

end Sys2Proof.Machine

namespace Sys2Proof.HostOperationProofs

open Sys2Proof Sys2Proof.Machine Sys2Proof.Claims

/-- Settles O26: the formula of the signed length fits the register, for both bounds. -/
theorem boundsAreComputed : Obligations.BoundsAreComputed := by
  unfold Obligations.BoundsAreComputed
  exact ⟨boundComputed_command .default, boundComputed_command .hi⟩

/-- Settles O27: the two commands reject by the same tests, each with the bound and the table of its mode. -/
theorem compressionRefusesBadArguments : Obligations.CompressionRefusesBadArguments := by
  unfold Obligations.CompressionRefusesBadArguments
  exact ⟨compressionRefused_command .default, compressionRefused_command .hi⟩

end Sys2Proof.HostOperationProofs
end

section
/-! A decoding command ends: `PREFIX` is one step, every block that does not end the command moves `ip` by its length,
and behind the loop's limit one step is left (70_reset_and_hazards.md R420; 45_decoder.md R282, R284, R298, R300). -/

namespace Sys2Proof.Machine

open Sys2Proof.Claims

/-! ### Blocks -/

/-- BD goes on in its stream: at its loop condition with the same limit, and with the same accesses of the host to
come. -/
structure StreamGoesOn (s t : State) : Prop where
  phase_eq : t.phase = s.phase
  ipet_eq : t.bd.ipet = s.bd.ipet
  script_eq : t.hostScript = s.hostScript

theorem literalBlock_ended_or_streamGoesOn (bh : Byte) (head cc : Nat) (s : State) :
    (literalBlock bh head cc s).ended ∨ StreamGoesOn s (literalBlock bh head cc s) := by
  rcases literalBlock_cases bh head cc s with ⟨-, heq⟩ | ⟨-, -, heq⟩ | ⟨-, -, heq⟩ <;> rw [heq]
  · exact .inl (State.raise_ended _ _ _ _)
  · exact .inl (State.raise_ended _ _ _ _)
  · exact .inr ⟨rfl, rfl, rfl⟩

theorem referenceBlock_ended_or_streamGoesOn (bh : Byte) (o lenBytes cc : Nat) (s : State) :
    (referenceBlock bh o lenBytes cc s).ended ∨ StreamGoesOn s (referenceBlock bh o lenBytes cc s) := by
  rcases referenceBlock_cases bh o lenBytes cc s with ⟨-, heq⟩ | ⟨-, -, heq⟩ | ⟨-, -, heq⟩ <;> rw [heq]
  · exact .inl (State.raise_ended _ _ _ _)
  · exact .inl (State.raise_ended _ _ _ _)
  · exact .inr ⟨rfl, rfl, rfl⟩

/-- Whatever the bytes are, a block has a next state, in which the command has ended or BD goes on. -/
theorem exists_exec_decodeBlock (bs : List Byte) (s : State) :
    ∃ t, exec (decodeBlock bs) s = .next t ∧ (t.ended ∨ StreamGoesOn s t) := by
  rcases exec_decodeBlock_cases bs s with ⟨bh, head, cc, hexec⟩ | ⟨bh, o, lenBytes, cc, hexec⟩
  · exact ⟨_, hexec, literalBlock_ended_or_streamGoesOn bh head cc s⟩
  · exact ⟨_, hexec, referenceBlock_ended_or_streamGoesOn bh o lenBytes cc s⟩

/-- Every block takes at least its header byte (30_encoding.md R104). -/
theorem one_le_blockLength {bs : List Byte} {i : Instr} (h : BlockRow bs i) : 1 ≤ blockLength i := by
  cases h
  case lits => exact Nat.le_add_right _ _
  case litl =>
    rw [blockLength, Nat.add_assoc, Nat.add_assoc]
    exact Nat.le_add_right _ _
  all_goals exact Nat.le_add_left _ _

/-- The step at the loop condition runs a block, which ends the command or moves `ip` on (R284, R300). -/
theorem exists_step_of_block {s : State} {r : Report} (hturn : undisturbed s) (hp : s.phase = .blocks r)
    (hok : s.decoderOk) (hm : (s.bd.ip.toNat : Int) < s.bd.ipet.toInt) :
    ∃ t, step s = .next t ∧ (t.ended ∨ StreamGoesOn s t ∧ s.bd.ip.toNat < t.bd.ip.toNat) := by
  obtain ⟨i, hrow⟩ := exists_blockRow (bs := headWindow s.src s.bd.ip.toNat) le_rfl
  obtain ⟨t, hexec, hcases⟩ := exists_exec_decodeBlock (headWindow s.src s.bd.ip.toNat) s
  have hstep : step s = .next t := by rw [step_of_undisturbed hturn, engineStep_of_blocks hp hm, hexec]
  refine ⟨t, hstep, hcases.imp_right fun hgo => ⟨hgo, ?_⟩⟩
  have hip := EncodingProofs.blocksAdvanceByTheirLength s t r i hturn hok hp hm hrow.decode_eq hstep
    (hgo.phase_eq.trans hp)
  have hlen := one_le_blockLength hrow
  omega

/-! ### Runs -/

theorem run_of_streamEnd {s : State} {r : Report} (hturn : undisturbed s) (hp : s.phase = .blocks r)
    (hm : s.bd.ipet.toInt ≤ s.bd.ip.toNat) : core.run 1 s = .next (decodeEnd s) :=
  run_succ_of_step 0 (step_of_streamEnd hturn hp hm)

/-- A decoding command whose `ip` is at most `n` before the loop's limit is over after at most `n + 1` steps. -/
theorem exists_run_ended_of_blocks {n : Nat} {s : State} {r : Report} (hturn : undisturbed s) (hp : s.phase = .blocks r)
    (hok : s.decoderOk) (hn : s.bd.ipet.toInt ≤ s.bd.ip.toNat + n) :
    ∃ k t, k ≤ n + 1 ∧ core.run k s = .next t ∧ t.ended := by
  induction n generalizing s with
  | zero => exact ⟨1, _, le_rfl, run_of_streamEnd hturn hp (by omega), decodeEnd_ended s⟩
  | succ n ih =>
    by_cases hm : (s.bd.ip.toNat : Int) < s.bd.ipet.toInt
    · obtain ⟨t, hstep, hend | ⟨hgo, hip⟩⟩ := exists_step_of_block hturn hp hok hm
      · exact ⟨1, t, by omega, run_succ_of_step 0 hstep, hend⟩
      · obtain ⟨k, u, hk, hrun, hend⟩ := ih (hgo.script_eq.trans hturn) (hgo.phase_eq.trans hp)
          (DecoderProofs.decoderBoundsKept s t hok hstep) (by rw [hgo.ipet_eq]; omega)
        exact ⟨k + 1, u, by omega, (run_succ_of_step k hstep).trans hrun, hend⟩
    · exact ⟨1, _, by omega, run_of_streamEnd hturn hp (by omega), decodeEnd_ended s⟩

/-- Within the bounds the loop's limit is not above `ipe`, so from the loop condition at most `ipe + 1` steps are
left (R283, R300). -/
theorem exists_run_ended_of_loop {s : State} {r : Report} (hturn : undisturbed s) (hp : s.phase = .blocks r)
    (hok : s.decoderOk) : ∃ k t, k ≤ s.bd.ipe.toNat + 1 ∧ core.run k s = .next t ∧ t.ended := by
  have hipet := (hok.bounds hp).ipet_eq
  exact exists_run_ended_of_blocks hturn hp hok (by omega)

/-- The first byte of the stream takes one step before the loop, or the only one (R282). -/
theorem exists_run_ended_of_header {s : State} {r : Report} (hturn : undisturbed s) (hp : s.phase = .header r)
    (hok : s.decoderOk) : ∃ k t, k ≤ s.bd.ipe.toNat + 2 ∧ core.run k s = .next t ∧ t.ended := by
  by_cases hformat : (s.src.read 0).toNat / 16 = 2
  · have hstep := step_of_header hturn hp (decode_header_of_known hformat)
    rw [exec_streamPrefix] at hstep
    obtain ⟨k, t, hk, hrun, hend⟩ := exists_run_ended_of_loop
      (s := { s with
        bd := { s.bd with mref1 := ((s.src.read 0).extractLsb' 0 4).setWidth 5 - 1, ip := 1 }
        phase := .blocks s.phase.report })
      hturn rfl (DecoderProofs.decoderBoundsKept s _ hok hstep)
    exact ⟨k + 1, t, Nat.succ_le_succ hk, (run_succ_of_step k hstep).trans hrun, hend⟩
  · exact ⟨1, _, by omega, run_succ_of_step 0 (step_of_unknownFormat hturn hp hformat), State.raise_ended _ _ _ _⟩

end Sys2Proof.Machine

namespace Sys2Proof.HazardProofs

open Sys2Proof Sys2Proof.Machine Sys2Proof.Claims

/-- Settles O22: `ip` rises with every block that does not end the command, and never passes `ipe`. -/
theorem decodingEnds : Obligations.DecodingEnds := by
  unfold Obligations.DecodingEnds
  intro s r hturn hok hp
  rcases hp with hp | hp
  · obtain ⟨k, t, hk, hrun, hidle, hdone⟩ := exists_run_ended_of_header hturn hp hok
    exact ⟨k, t, hk, hrun, hidle, hdone⟩
  · obtain ⟨k, t, hk, hrun, hidle, hdone⟩ := exists_run_ended_of_loop hturn hp hok
    exact ⟨k, t, by omega, hrun, hidle, hdone⟩

end Sys2Proof.HazardProofs
end

section
/-! The mark of a command that the host spoiled: every operation of the engine keeps it, and the end of a command alone
takes it away (70_reset_and_hazards.md R412). -/

namespace Sys2Proof.Machine

/-! ### The end of a command takes the mark away -/

/-- The command in progress has ended with `DONE`, and no mark is left. -/
def State.endedUnmarked (t : State) : Prop := t.ended ∧ t.spoiled = false

theorem State.endCommand_endedUnmarked (s : State) (r w : Word) : (s.endCommand r w).endedUnmarked :=
  ⟨s.endCommand_ended r w, s.endCommand_spoiled r w⟩

theorem State.raise_endedUnmarked (s : State) (r : Report) (e : DecodeFault) (w : Nat) :
    (s.raise r e w).endedUnmarked := State.endCommand_endedUnmarked _ _ _

theorem encoderFault_endedUnmarked (s : State) : (encoderFault s).endedUnmarked :=
  State.endCommand_endedUnmarked _ _ _

theorem decodeEnd_endedUnmarked (s : State) : (decodeEnd s).endedUnmarked := by
  unfold decodeEnd
  split
  · exact State.endCommand_endedUnmarked _ _ _
  · exact State.raise_endedUnmarked _ _ _ _

theorem searchEnd_endedUnmarked (s : State) : (searchEnd s).endedUnmarked := by
  rcases searchEnd_cases s with heq | ⟨t, -, -, heq⟩ <;> rw [heq]
  · exact encoderFault_endedUnmarked s
  · exact State.endCommand_endedUnmarked _ _ _

theorem searchHiEnd_endedUnmarked (s : State) : (searchHiEnd s).endedUnmarked := by
  rcases searchHiEnd_cases s with heq | heq | ⟨-, t, -, -, heq⟩ <;> rw [heq]
  · exact searchEnd_endedUnmarked s
  · exact encoderFault_endedUnmarked s
  · exact searchEnd_endedUnmarked _

/-! ### All else keeps it -/

/-- From `s` to `t` the command ends and the mark is gone, or a command in progress stays in progress and the mark is as
before. -/
def MarkFollows (s t : State) : Prop :=
  t.endedUnmarked ∨ ((s.phase ≠ .idle → t.phase ≠ .idle) ∧ t.spoiled = s.spoiled)

theorem MarkFollows.refl (s : State) : MarkFollows s s := .inr ⟨id, rfl⟩

/-- Only the phase and the mark of the first state count. -/
theorem MarkFollows.of_same {s u t : State} (h : MarkFollows u t) (hp : u.phase = s.phase)
    (hm : u.spoiled = s.spoiled) : MarkFollows s t := by
  rwa [MarkFollows, hp, hm] at h

/-- What `WRITE_BLK` leaves, with other registers of MF, is still in progress and marked as before. -/
theorem markFollows_writeBlk {s u : State} {lc rc d ipa : Nat} (m : Finder) (h : writeBlk s lc rc d ipa = some u) :
    MarkFollows s (u.setMf m) := by
  rw [writeBlk_frame h]
  exact .inr ⟨id, rfl⟩

theorem literalBlock_markFollows (bh : Byte) (head cc : Nat) (s : State) :
    MarkFollows s (literalBlock bh head cc s) := by
  rcases literalBlock_cases bh head cc s with ⟨-, heq⟩ | ⟨-, -, heq⟩ | ⟨-, -, heq⟩ <;> rw [heq]
  · exact .inl (State.raise_endedUnmarked _ _ _ _)
  · exact .inl (State.raise_endedUnmarked _ _ _ _)
  · exact .inr ⟨id, rfl⟩

theorem referenceBlock_markFollows (bh : Byte) (o lenBytes cc : Nat) (s : State) :
    MarkFollows s (referenceBlock bh o lenBytes cc s) := by
  rcases referenceBlock_cases bh o lenBytes cc s with ⟨-, heq⟩ | ⟨-, -, heq⟩ | ⟨-, -, heq⟩ <;> rw [heq]
  · exact .inl (State.raise_endedUnmarked _ _ _ _)
  · exact .inl (State.raise_endedUnmarked _ _ _ _)
  · exact .inr ⟨id, rfl⟩

theorem exec_decodeBlock_markFollows {bs : List Byte} {s t : State} (h : exec (decodeBlock bs) s = .next t) :
    MarkFollows s t := by
  rcases exec_decodeBlock_cases bs s with ⟨bh, head, cc, he⟩ | ⟨bh, o, lenBytes, cc, he⟩ <;> (rw [he] at h; cases h)
  · exact literalBlock_markFollows bh head cc s
  · exact referenceBlock_markFollows bh o lenBytes cc s

/-! ### The start of a command -/

theorem exec_compress_markFollows (mode : Mode) {s t : State} (h : exec mode.command s = .next t) :
    MarkFollows s t := by
  cases hr : compressRejects s (mode.boundOf s.srcl.toNat) with
  | true =>
    rw [exec_compress_rejected mode hr] at h
    cases h
    exact .inl (State.endCommand_endedUnmarked _ _ _)
  | false =>
    by_cases hn : s.srcl.toNat < 16
    · rw [exec_compress_short mode hr hn] at h
      cases h
      exact .inl (State.endCommand_endedUnmarked _ _ _)
    · obtain ⟨ht, hexec⟩ := exec_compress_search mode hr (Nat.not_lt.1 hn)
      rw [hexec] at h
      cases h
      exact .inr ⟨fun _ => by cases mode <;> exact Phase.noConfusion, rfl⟩

theorem decodeStart_markFollows (r : Report) (s : State) : MarkFollows s (decodeStart r s) := by
  simp only [decodeStart]
  split
  · exact .inl (State.raise_endedUnmarked _ _ _ _)
  · split
    · split
      · exact .inl (State.endCommand_endedUnmarked _ _ _)
      · exact .inl (State.raise_endedUnmarked _ _ _ _)
    · exact .inr ⟨fun _ => Phase.noConfusion, rfl⟩

theorem exec_command_markFollows {w : Word} {i : Instr} {s t : State} (hi : decodeCommand w = .ok i)
    (h : exec i s = .next t) : MarkFollows s t := by
  rcases decodeCommand_ok hi with rfl | rfl | rfl | rfl | rfl | rfl
  case inl => exact exec_compress_markFollows .default h
  case inr.inl => exact exec_compress_markFollows .hi h
  case inr.inr.inl => cases h; exact decodeStart_markFollows .full s
  case inr.inr.inr.inl => cases h; exact decodeStart_markFollows .bestEffort s
  case inr.inr.inr.inr.inl => cases h; exact .inl (State.endCommand_endedUnmarked _ _ _)
  case inr.inr.inr.inr.inr => cases h; exact .inl (State.endCommand_endedUnmarked _ _ _)

/-! ### A pass of mode DEFAULT -/

theorem searchMatch_markFollows (s : State) (b : Nat) (hit : Slot) : MarkFollows s (searchMatch s b hit) := by
  cases hw : writeBlk s (s.mf.ip.toNat - s.mf.ipa.toNat - (extendHit s.src s.mf).bmc)
      ((extendHit s.src s.mf).fwd + (extendHit s.src s.mf).bmc) s.mf.d.toNat s.mf.ipa.toNat with
  | none =>
    have heq : searchMatch s b hit = _ := searchMatch_of_none (m := s.mf) b hit rfl hw
    rw [heq]
    exact .inl (encoderFault_endedUnmarked _)
  | some u =>
    have heq : searchMatch s b hit = _ := searchMatch_of_some (m := s.mf) b hit rfl hw
    rw [heq]
    exact .inr ⟨id, rfl⟩

theorem searchPass_markFollows (s : State) : MarkFollows s (searchPass s) := by
  rcases searchPass_cases s with ⟨b, heq⟩ | ⟨b, hit, wp, heq⟩ <;> rw [heq]
  · exact .inr ⟨id, rfl⟩
  · rcases searchHit_cases (hashStep s) b hit wp with ⟨ht, heq⟩ | ⟨-, heq⟩ <;> rw [heq]
    · exact .inr ⟨id, rfl⟩
    · exact (searchMatch_markFollows _ b hit).of_same rfl rfl

/-! ### A pass of mode HI -/

theorem emitHi_markFollows (s : State) (lc rc d ip : Nat) : MarkFollows s (emitHi s lc rc d ip) := by
  cases hw : writeBlk s lc rc d s.mf.ipa.toNat with
  | none =>
    rw [emitHi_of_none ip hw]
    exact .inl (encoderFault_endedUnmarked _)
  | some u =>
    rw [emitHi_of_some ip hw]
    exact markFollows_writeBlk _ hw

theorem emitPrevious_markFollows (s : State) (rc d ip : Nat) : MarkFollows s (emitPrevious s rc d ip) := by
  cases hw : writeBlk s (s.mf.pip.toNat - s.mf.ipa.toNat) s.mf.prc.toNat s.mf.pd.toNat s.mf.ipa.toNat with
  | none =>
    rw [emitPrevious_of_none rc d ip hw]
    exact .inl (encoderFault_endedUnmarked s)
  | some u =>
    rw [emitPrevious_of_some rc d ip hw]
    exact markFollows_writeBlk _ hw

theorem lazySelect_markFollows (s : State) (lc rc d ip : Nat) : MarkFollows s (lazySelect s lc rc d ip) := by
  rcases lazySelect_cases s lc rc d ip with ⟨-, heq⟩ | ⟨-, heq⟩ | ⟨-, -, heq⟩ | heq <;> rw [heq]
  · exact .inr ⟨id, rfl⟩
  · exact emitHi_markFollows _ _ _ _ _
  · exact emitPrevious_markFollows _ _ _ _
  · exact emitHi_markFollows _ _ _ _ _

theorem searchHiPass_markFollows (s : State) : MarkFollows s (searchHiPass s) := by
  rcases searchHiPass_cases s with ⟨ht, heq⟩ | ⟨b, c, ht, -, heq⟩ <;> rw [heq]
  · exact .inr ⟨id, rfl⟩
  · rw [searchHiMatch_eq]
    exact (lazySelect_markFollows _ _ _ _ _).of_same rfl rfl

/-! ### Every step of the engine -/

theorem engineStep_markFollows {s t : State} (h : engineStep s = .next t) : MarkFollows s t := by
  rcases engineStep_cases h with ⟨-, rfl⟩ | ⟨-, rfl⟩ | ⟨-, i, hi, he⟩ | ⟨r, -, -, he⟩ | ⟨r, -, rfl⟩ |
    ⟨r, -, -, he⟩ | ⟨r, -, -, rfl⟩ | ⟨-, -, rfl⟩ | ⟨-, -, rfl⟩ | ⟨-, -, rfl⟩ | ⟨-, -, rfl⟩
  · exact .refl _
  · exact .refl _
  · exact exec_command_markFollows hi he
  · cases he; exact .inr ⟨fun _ => Phase.noConfusion, rfl⟩
  · exact .inl (State.raise_endedUnmarked _ _ _ _)
  · exact exec_decodeBlock_markFollows he
  · exact .inl (decodeEnd_endedUnmarked s)
  · exact searchPass_markFollows s
  · exact .inl (searchEnd_endedUnmarked s)
  · exact searchHiPass_markFollows s
  · exact .inl (searchHiEnd_endedUnmarked s)

end Sys2Proof.Machine

namespace Sys2Proof.HazardProofs

open Sys2Proof Sys2Proof.Machine

/-- Settles O57: only the end of a command leaves an engine idle that was not, and it takes the mark away; every other
operation keeps the mark. -/
theorem spoilIsRememberedUntilTheEnd : Obligations.SpoilIsRememberedUntilTheEnd := by
  unfold Obligations.SpoilIsRememberedUntilTheEnd
  intro s t hturn hmark hbusy h
  rcases step_cases h with ⟨-, r, he⟩ | ⟨hno, -⟩
  · rcases engineStep_markFollows (s := { s with hostScript := r }) he with ⟨⟨hidle, hdone⟩, hclean⟩ | ⟨hgo, hkept⟩
    · exact ⟨fun _ => ⟨hdone, hclean⟩, fun hp => absurd hidle hp⟩
    · exact ⟨fun hidle => absurd hidle (hgo hbusy), fun _ => hkept.trans hmark⟩
  · rw [hturn] at hno
    cases hno

end Sys2Proof.HazardProofs
end

section
/-! The idle engine and the two resets (70_reset_and_hazards.md R400 to R402; 10_state.md R37). -/

namespace Sys2Proof.Machine

open Sys2Proof.Claims

/-- While no command is in progress and the host does nothing, nothing happens (R402). -/
theorem step_of_idle {s : State} (hturn : undisturbed s) (hp : s.phase = .idle) : step s = .next s := by
  rw [step_of_undisturbed hturn]
  simp only [engineStep, fetch, hp]

/-- An external reset powers the machine on anew; the rest of the host's accesses stay (R37; log 15). -/
theorem step_of_externalReset {s : State} {rest : List HostAccess} (hs : s.hostScript = .externalReset :: rest) :
    step s = .next { State.powerOn s.draws with hostScript := rest } := by
  rw [step_of_hostScript hs (by decide)]
  rfl

/-- The host registers hold 0 and no command is in progress (R400, R401). -/
structure ResetValues (t : State) : Prop where
  status_eq : t.status = 0
  result_eq : t.result = 0
  written_eq : t.written = 0
  srcl_eq : t.srcl = 0
  dstl_eq : t.dstl = 0
  phase_eq : t.phase = .idle

/-- A power-on leaves the reset values, whatever draws came before it and whatever the host does then. -/
theorem resetValues_powerOn (n : Nat) (rest : List HostAccess) :
    ResetValues { State.powerOn n with hostScript := rest } := ⟨rfl, rfl, rfl, rfl, rfl, rfl⟩

end Sys2Proof.Machine

namespace Sys2Proof.HazardProofs

open Sys2Proof Sys2Proof.Machine Sys2Proof.Claims

/-- Settles O25: both resets are a power-on, and an idle engine has nothing due. -/
theorem resetLeavesAnIdleEngine : Obligations.ResetLeavesAnIdleEngine := by
  unfold Obligations.ResetLeavesAnIdleEngine
  obtain ⟨hstatus, hresult, hwritten, hsrcl, hdstl, hidle⟩ := resetValues_powerOn 0 []
  refine ⟨hstatus, hresult, hwritten, hsrcl, hdstl, hidle, step_of_idle rfl hidle, fun s => step_of_idle,
    fun s rest hs => ⟨_, step_of_externalReset hs, ?_⟩⟩
  obtain ⟨hstatus, hresult, hwritten, hsrcl, hdstl, hidle⟩ := resetValues_powerOn s.draws rest
  exact ⟨hstatus, hresult, hwritten, hsrcl, hdstl, hidle, rfl⟩

end Sys2Proof.HazardProofs
end
